-- ==== Sys2Proof/Syntax.lean ====
section
/-!
DEFINITION. The commands of the SQ416: one constructor of `Instr` for each row of
spec/opcode_table.json. A command without an operand reads what it needs from the state: the tick
count and the levels that the latest TICK sampled.
-/

namespace Sys2Proof

/-- The levels of the input lines at one tick (12.6). TICK carries them: every block that samples a
line samples it once at every tick (R22, R54, R137, R186, R189). High reads as `true`. -/
structure Pins where
  /-- STATION[5:0], STATION[5] the most significant bit (R187). -/
  station : BitVec 6
  /-- ANCHOR_EN strap pin. -/
  anchorEn : Bool
  /-- GEN_MODE strap pin. -/
  genMode : Bool
  /-- LINK_RXD, idle high. -/
  linkRxd : Bool
  /-- LINK_CD, carrier detect. -/
  linkCd : Bool
  /-- SAMPLE_STROBE, while the sample pin is an input. -/
  sample : Bool
  /-- TRIG_IN. -/
  trigIn : Bool
  /-- REARM. -/
  rearm : Bool
  /-- ANCHOR_PPS. -/
  anchorPps : Bool
  /-- ANCHOR_RX, idle high. -/
  anchorRx : Bool
  /-- CFG_SDA as the board shows it. -/
  cfgSda : Bool
deriving DecidableEq, Repr

/-- The kind of a mark and of the launch slot it comes from (R40, 3.3). -/
inductive MarkKind
  | regular
  | notice
deriving DecidableEq, Repr

/-- The two local sources of the Combiner (R86). -/
inductive LocalSource
  | anchor
  | origin
deriving DecidableEq, Repr

/-- The commands, in the order of the table. -/
inductive Instr
  /-- TICK (R1): a rising edge of OSC_IN, with the levels the part samples on that tick. -/
  | tick (pins : Pins)
  /-- POWER_ON_RESET (R18). -/
  | powerOnReset
  /-- RESET_PIN_RESET (R19). -/
  | resetPinReset
  /-- STRAP_SAMPLING (R187). -/
  | strapSampling
  /-- MISSING_ACKNOWLEDGE (R189). -/
  | missingAcknowledge
  /-- CONFIG_SETTLE (R190). -/
  | configSettle
  /-- CONFIG_READ_END (R192). -/
  | configReadEnd
  /-- STEP_APPLICATION (R16). -/
  | stepApplication
  /-- PPS_EDGE (R29). -/
  | ppsEdge
  /-- SAMPLE_STROBE_EDGE (R30). -/
  | sampleStrobeEdge
  /-- GAP_DEADLINE (R151). -/
  | gapDeadline
  /-- GRID_PULSE_ISSUE (R153). -/
  | gridPulseIssue
  /-- SAMPLE_CMD_PULSE_END (R153). -/
  | sampleCmdPulseEnd
  /-- TRIG_IN_EDGE (R32). -/
  | trigInEdge
  /-- LINK_BYTE_RECEIVED (R54). -/
  | linkByteReceived
  /-- HUNT_HISTORY_FORGET (R55). -/
  | huntHistoryForget
  /-- RECEIPT_TRUNCATED (R56). -/
  | receiptTruncated
  /-- LISTEN_PERIOD_END (R41). -/
  | listenPeriodEnd
  /-- MARK_INTERVAL_START (R43). -/
  | markIntervalStart
  /-- KEY_UP_CHECK (R44): the check of the regular or of the NOTICE slot. -/
  | keyUpCheck (kind : MarkKind)
  /-- REFERENCE_INSTANT (R47). -/
  | referenceInstant
  /-- LAUNCH_END (R50). -/
  | launchEnd
  /-- TRIAL_TIMEOUT (R67), of the Peer Table slot named. -/
  | trialTimeout (slot : Nat)
  /-- TRACKED_SILENT (R68), of the Peer Table slot named. -/
  | trackedSilent (slot : Nat)
  /-- SILENT_TIMEOUT (R69), of the Peer Table slot named. -/
  | silentTimeout (slot : Nat)
  /-- RECORD_EXPIRY (R77), of the oldest record of the Peer Table slot named. -/
  | recordExpiry (slot : Nat)
  /-- BARRING_END (R71), of the Peer Table slot named. -/
  | barringEnd (slot : Nat)
  /-- SERVO_UPDATE (R105). -/
  | servoUpdate
  /-- LOCAL_SOURCE_BARRING_END (R90), of the local source named. -/
  | localSourceBarringEnd (source : LocalSource)
  /-- COAST_GROWTH (R122). -/
  | coastGrowth
  /-- COAST_LIMIT (R123). -/
  | coastLimit
  /-- CONVERSION_START (R127). -/
  | conversionStart
  /-- CONVERSION_COMPLETE (R128), with the code the converter delivers, 0 to 1,023. -/
  | conversionComplete (code : Nat)
  /-- ANCHOR_MESSAGE_COMPLETE (R138). -/
  | anchorMessageComplete
  /-- ANCHOR_MESSAGE_ABANDONED (R137). -/
  | anchorMessageAbandoned
  /-- LOSS_TIMER_EXPIRY (R143). -/
  | lossTimerExpiry
  /-- LIST_EXPIRY (R168). -/
  | listExpiry
  /-- COINC_OUT_PULSE_END (R171). -/
  | coincOutPulseEnd
  /-- FRAME_END (R178). -/
  | frameEnd
  /-- STATUS_TIMER (R183). -/
  | statusTimer
  /-- PEER_TIMER (R184). -/
  | peerTimer
  /-- REARM_EDGE (R186). -/
  | rearmEdge
  /-- LINK_START_EDGE (R25). -/
  | linkStartEdge
  /-- LINK_FALSE_START (R54). -/
  | linkFalseStart
  /-- ANCHOR_BYTE_RECEIVED (R137). -/
  | anchorByteReceived
deriving DecidableEq, Repr

end Sys2Proof
end

