-- ==== Sys2Proof/Decode.lean ====
section
/-!
DEFINITION. The SQ416 has no instruction words: spec/opcode_table.json gives no row any bits, so no
word spells a command.
-/

namespace Sys2Proof

/-- The command a word of the opcode table spells: none, since no row of the table has bits. -/
def decodeTableWord (_nbits _w : Nat) : Option Instr := none

end Sys2Proof
end

