-- ==== Sys2Proof/Config.lean ====
section
/-!
DEFINITION. The fixed numbers of the SQ416. Nothing here is left free: the spec names a rounding, a
limit and a tie rule for every computation, so the model needs no opaque constant.
-/

namespace Sys2Proof.Config

/-- Ticks in one second of raw oscillator time (R2). -/
def ticksPerSecond : Nat := 20000000

/-- Ticks in one millisecond (R2). -/
def ticksPerMs : Nat := 20000

/-- The largest tick count, 2^64 - 1 (R1). -/
def kMax : Nat := 18446744073709551615

/-- Units of 2^-32 ns in one nanosecond (R3). -/
def unitsPerNs : Nat := 4294967296

/-- Nanoseconds in one second. -/
def nsPerSecond : Nat := 1000000000

/-- Seconds in the range of a time value, 2^40 (R3). -/
def secondsRange : Nat := 1099511627776

/-- The range of a time value in units of 2^-32 ns: 2^40 seconds. -/
def timeRange : Nat := secondsRange * nsPerSecond * unitsPerNs

/-- 50 ns in units of 2^-32 ns, the uncorrected increment of a tick (R4). -/
def tickUnits : Int := 214748364800

/-- The limit of F in fu (R9). -/
def fLimit : Int := 42949673

/-- The limit of P in fu (R9). -/
def pLimit : Int := 21474836

/-- The limit of a pending step in ns, 2^63 - 1 (R15). -/
def stepLimit63 : Int := 9223372036854775807

/-- 2^62, the limit in ns at which offsets and stored times are held (R74, 10.1). -/
def hold62 : Nat := 4611686018427387904

/-- U_MAX (00_scope 5). -/
def uMax : Nat := 268435440

/-- 2^38, the numerator of a weight (R92). -/
def weightOne : Nat := 274877906944

/-- The tick on which the configuration read ends (R189). -/
def readEndK : Nat := 90000

/-- The tick of the stop condition of a read that was not abandoned (R189, 12.7). -/
def stopK : Nat := 89500

/-- Slots of the Peer Table (4.1). -/
def peerSlots : Nat := 24

/-- Codes of the converter, 10 bits (R127). -/
def codeRange : Nat := 1024

end Sys2Proof.Config
end

