-- ==== Sys2Proof/Word.lean ====
section
/-!
DEFINITION. The words of the SQ416: bytes, statistic counters, edge counters and sequences, and the
presented adjustment total Q.
-/

namespace Sys2Proof

/-- A byte at the part's boundary. -/
abbrev Byte := BitVec 8

/-- A statistic counter: 16 bits (00_scope 5, Counters). -/
abbrev Stat := BitVec 16

/-- An edge counter, a block number or a launch count: 32 bits, wrapping. -/
abbrev Count32 := BitVec 32

/-- A sequence number: 8 bits, wrapping. -/
abbrev Seq := BitVec 8

/-- Q as the Time Scale Unit presents it: a two's-complement count of 128 bits in units of
2^-32 ns (R7). -/
abbrev QWord := BitVec 128

end Sys2Proof
end

