-- ==== Sys2Proof/Machine/State.lean ====
section
/-!
DEFINITION. The state of the SQ416 as plain data, block by block (00_scope 3), the reasons a step can
stop, and the state right after a power-on reset.
-/

namespace Sys2Proof.Machine

/-! ## Shared values -/

/-- A time value with its three fields (R3). -/
structure TimeVal where
  /-- Whole seconds, 0 to 2^40 - 1. -/
  secs : Fin 1099511627776
  /-- Nanoseconds, 0 to 999,999,999. -/
  ns : Fin 1000000000
  /-- Fraction in units of 2^-32 ns. -/
  frac : Fin 4294967296
deriving DecidableEq, Repr

/-- The time value 0. -/
def TimeVal.zero : TimeVal := ⟨0, 0, 0⟩

/-- Seconds and nanoseconds with the fraction discarded, as marks and records carry a time. -/
structure Stamp where
  /-- Whole seconds. -/
  secs : Nat
  /-- Nanoseconds. -/
  ns : Nat
deriving DecidableEq, Repr

/-- A capture (R21). -/
structure Capture where
  /-- Disciplined time of the tick. -/
  t : TimeVal
  /-- Interval scale of the tick. -/
  r : TimeVal
  /-- Tick count. -/
  k : Nat
  /-- Adjustment total as presented (R7). -/
  q : QWord
  /-- Ordinal of the edge among the accepted edges of its input. -/
  ordinal : Count32
deriving DecidableEq, Repr

/-- The clock state (chapter 6). -/
inductive ClockState
  | unset
  | pullIn
  | locked
  | coast
deriving DecidableEq, Repr

/-- A byte in progress on a receiver: the tick of its start edge and the samples read so far, three
for each bit (R54). -/
structure ByteIn where
  /-- Tick of first sight of the start edge. -/
  edge : Nat
  /-- The samples 16n+7, 16n+8, 16n+9 of the bits n = 0, 1, ... read so far, in order. -/
  votes : List Bool
deriving DecidableEq, Repr

/-! ## Time Scale Unit -/

/-- The pending step (R12). -/
structure PendingStep where
  /-- The amount in whole ns. -/
  amount : Int
  /-- The first tick on which the hold of R14 allows the step; absent while a launch holds it. -/
  due : Option Nat
deriving DecidableEq, Repr

/-- The Time Scale Unit (1.1). -/
structure TimeScale where
  /-- Tick count K. -/
  k : Nat
  /-- Interval scale R. -/
  r : TimeVal
  /-- Disciplined time T. -/
  t : TimeVal
  /-- Wrap count of T's seconds. -/
  wraps : Nat
  /-- Frequency correction F in fu. -/
  f : Int
  /-- Phase slew P in fu. -/
  p : Int
  /-- The pending step. -/
  step : Option PendingStep
deriving DecidableEq, Repr

/-! ## Lines -/

/-- Edges first seen on the latest tick and not yet taken by the block that watches the line (R22). -/
structure Edges where
  /-- Rising edge of ANCHOR_PPS. -/
  pps : Bool
  /-- Rising edge of the sample pin. -/
  sample : Bool
  /-- Rising edge of TRIG_IN. -/
  trig : Bool
  /-- Rising edge of REARM. -/
  rearm : Bool
  /-- Falling edge of LINK_RXD. -/
  link : Bool
deriving DecidableEq, Repr

/-- What the part has sampled of its input lines. -/
structure Lines where
  /-- The levels of the latest tick; absent before the first tick after a reset (R35). -/
  levels : Option Pins
  /-- The edges of the latest tick. -/
  edges : Edges
deriving DecidableEq, Repr

/-! ## Capture Unit -/

/-- The reference slot (R26). -/
inductive RefSlot
  | idle
  | armed
  | held (c : Capture)
deriving DecidableEq, Repr

/-- The Capture Unit (chapter 2). -/
structure CaptureUnit where
  /-- Start-edge slot. -/
  startEdge : Option Capture
  /-- Provisional start-edge capture (R25). -/
  provisional : Option Capture
  /-- Reference slot. -/
  ref : RefSlot
  /-- PPS slot. -/
  pps : Option Capture
  /-- Sample slot. -/
  sample : Option Capture
  /-- Trigger slot. -/
  trig : Option Capture
  /-- Reference edge counter. -/
  refEdges : Count32
  /-- PPS edge counter. -/
  ppsEdges : Count32
  /-- Sample edge counter. -/
  sampleEdges : Count32
  /-- Trigger edge counter. -/
  trigEdges : Count32
  /-- SPURIOUS_PPS. -/
  spuriousPps : Stat
  /-- SPURIOUS_STROBE. -/
  spuriousStrobe : Stat
  /-- The tick whose sample of LINK_RXD serves as the previous level: edges count on later ticks
  only (R22, R28, R54). -/
  linkPrevK : Nat
deriving DecidableEq, Repr

/-! ## Mark Link Controller -/

/-- The receiver's state (R53). -/
inductive RxState
  /-- STOPPED. -/
  | stopped
  /-- HUNT, with the last complete byte and the tick of its start edge (R55). -/
  | hunt (history : Option (Byte × Nat))
  /-- ASSEMBLE, with the body bytes so far and the start-edge tick of the last byte (R56). -/
  | assemble (body : List Byte) (lastEdge : Nat)
deriving DecidableEq, Repr

/-- A pending launch slot (3.3). -/
structure LaunchSlot where
  /-- Tick of its key-up. -/
  keyUp : Nat
  /-- Tick of its reference instant. -/
  ref : Nat
  /-- Deferral count, 0 to 3. -/
  deferrals : Nat
  /-- The tick before which the reference instant must lie. -/
  bound : Nat
deriving DecidableEq, Repr

/-- The launch in flight (R39). -/
structure Flight where
  /-- The slot it was keyed from. -/
  kind : MarkKind
  /-- Its reference-instant tick. -/
  ref : Nat
  /-- The body, once composed on the reference-instant tick (R47). -/
  body : Option (List Byte)
deriving DecidableEq, Repr

/-- The launch schedule (R41). -/
inductive Schedule
  /-- Before the release of the link. -/
  | idle
  /-- In the listen period, which ends at the tick given. -/
  | listening (until_ : Nat)
  /-- In a mark interval, which ends at the tick given. -/
  | running (intervalEnd : Nat)
deriving DecidableEq, Repr

/-- An entry of the launch list (R49). -/
structure LaunchEntry where
  /-- The launch's sequence. -/
  seq : Seq
  /-- R on its reference-instant tick. -/
  r : TimeVal
deriving DecidableEq, Repr

/-- An entry of the echo queue (R51). -/
structure EchoEntry where
  /-- The station. -/
  station : Nat
  /-- That station's sequence. -/
  seq : Seq
  /-- R of the reference capture. -/
  r : TimeVal
  /-- Launch count at receipt. -/
  count : Count32
deriving DecidableEq, Repr

/-- The Mark Link Controller (chapter 3). -/
structure MarkLink where
  /-- Receiver state. -/
  rx : RxState
  /-- Byte in progress on LINK_RXD. -/
  byteIn : Option ByteIn
  /-- Regular launch slot. -/
  regular : Option LaunchSlot
  /-- NOTICE launch slot. -/
  notice : Option LaunchSlot
  /-- Launch in flight; LINK_KEY is asserted while present. -/
  flight : Option Flight
  /-- Launch schedule. -/
  schedule : Schedule
  /-- Linear-feedback shift register; bit 1 of R42 is bit 0 here. -/
  lfsr : BitVec 16
  /-- Launch list, oldest first. -/
  launches : List LaunchEntry
  /-- The sequence of the next launch. -/
  nextSeq : Seq
  /-- Launch count. -/
  launchCount : Count32
  /-- Echo queue, oldest first. -/
  echoes : List EchoEntry
  /-- MUTED. -/
  muted : Bool
  /-- DEFERRED. -/
  deferred : Stat
  /-- SKIPPED. -/
  skipped : Stat
  /-- TRUNCATED. -/
  truncated : Stat
  /-- CRC_ERR. -/
  crcErr : Stat
  /-- FORMAT_ERR. -/
  formatErr : Stat
  /-- ECHO_OVERWRITTEN. -/
  echoOverwritten : Stat
deriving DecidableEq, Repr

/-! ## Peer Table -/

/-- The states of an entry; EMPTY is an absent entry. -/
inductive EntryState
  | trial
  | tracked
  | silent
  | barred
deriving DecidableEq, Repr

/-- A record of an exchange history (R75). -/
structure ExchangeRecord where
  /-- Offset at the instant of arrival, ns. -/
  theta : Int
  /-- Round-trip delay, ns. -/
  d : Nat
  /-- Q of the reference capture. -/
  q : QWord
  /-- K of the reference capture. -/
  k : Nat
deriving DecidableEq, Repr

/-- A peer entry (4.1). -/
structure PeerEntry where
  /-- Station number. -/
  station : Nat
  /-- Entry state. -/
  state : EntryState
  /-- Advertised uncertainty U_i, ns. -/
  advU : Nat
  /-- Advertised trace depth. -/
  advDepth : Nat
  /-- Advertised clock state. -/
  advClock : ClockState
  /-- Last sequence. -/
  lastSeq : Seq
  /-- Last-mark K. -/
  lastK : Nat
  /-- Exchange history, oldest first. -/
  history : List ExchangeRecord
  /-- Reject count. -/
  rejects : Nat
  /-- Barring end. -/
  barEnd : Option Nat
  /-- Recent-notice list, oldest first. -/
  recent : List Seq
deriving DecidableEq, Repr

/-- The Peer Table (chapter 4). -/
structure PeerTable where
  /-- The 24 slots; an absent entry is EMPTY. -/
  slots : List (Option PeerEntry)
  /-- TABLE_FULL. -/
  tableFull : Stat
  /-- STALE_ECHO. -/
  staleEcho : Stat
  /-- NEGATIVE_DELAY. -/
  negativeDelay : Stat
  /-- DELAY_OVER. -/
  delayOver : Stat
deriving DecidableEq, Repr

/-! ## Source Combiner -/

/-- The Source Combiner (R86). -/
structure Combiner where
  /-- Origin flag. -/
  originFlag : Bool
  /-- Origin count. -/
  originCount : Nat
  /-- Anchor reject count. -/
  anchorRejects : Nat
  /-- Anchor barring end. -/
  anchorBarred : Option Nat
  /-- Origin reject count. -/
  originRejects : Nat
  /-- Origin barring end. -/
  originBarred : Option Nat
deriving DecidableEq, Repr

/-! ## Discipline Servo -/

/-- The reason of a step (R111). -/
inductive BreakReason
  | initial
  | pullIn
  | lockedBreak
  | coastBreak
deriving DecidableEq, Repr

/-- The coast record (R120). -/
structure CoastRecord where
  /-- Coast start K. -/
  startK : Nat
  /-- Coast-entry F. -/
  entryF : Int
  /-- Coast U, ns. -/
  u : Nat
  /-- Coast depth. -/
  depth : Nat
  /-- Whether the coast limit has been passed. -/
  limitPassed : Bool
  /-- The tick of the latest growth; the model's own, one growth a tick (R122). -/
  lastGrowth : Nat
deriving DecidableEq, Repr

/-- The Discipline Servo (R106). -/
structure Servo where
  /-- Clock state. -/
  clock : ClockState
  /-- Lock count. -/
  lockCount : Nat
  /-- None count. -/
  noneCount : Nat
  /-- Break count. -/
  breakCount : Nat
  /-- Last result: U_adv and own depth. -/
  last : Option (Nat × Nat)
  /-- Advertised U, ns. -/
  advU : Nat
  /-- Advertised depth. -/
  advDepth : Nat
  /-- Coast record. -/
  coast : Option CoastRecord
  /-- Pending reason. -/
  reason : Option BreakReason
  /-- The tick of the latest update; the model's own, one update a tick (R105). -/
  lastUpdate : Nat
deriving DecidableEq, Repr

/-! ## Temperature Monitor and Drift Table -/

/-- A drift bin (R132). -/
structure DriftBin where
  /-- F_bin in fu. -/
  f : Int
  /-- Count of samples learned, 0 to 255. -/
  count : Nat
deriving DecidableEq, Repr

/-- The Temperature Monitor and Drift Table (chapter 7). -/
structure Temperature where
  /-- The last four completed conversions in quarter-degrees, oldest first; their number is the
  conversion count (R128). -/
  slots : List Int
  /-- Start K of the conversion in progress. -/
  converting : Option Nat
  /-- The sixteen drift bins. -/
  bins : List DriftBin
deriving DecidableEq, Repr

/-! ## Anchor Input -/

/-- The receiver state on ANCHOR_RX (R137). -/
inductive AnchorRx
  /-- HUNT. -/
  | hunt
  /-- ASSEMBLE, with the bytes so far and the start-edge tick of the last byte. -/
  | assemble (bytes : List Byte) (lastEdge : Nat)
deriving DecidableEq, Repr

/-- A pending label (R136). -/
structure Label where
  /-- Seconds. -/
  secs : Nat
  /-- Quality, in 16 ns units. -/
  quality : Nat
deriving DecidableEq, Repr

/-- The previous labelled edge (R136). -/
structure LabelledEdge where
  /-- Seconds of its label. -/
  secs : Nat
  /-- K of its capture. -/
  k : Nat
deriving DecidableEq, Repr

/-- The anchor sample (R142). -/
structure AnchorSample where
  /-- Seconds of the label. -/
  secs : Nat
  /-- Quality of the label, in 16 ns units. -/
  quality : Nat
  /-- Anchor offset, ns. -/
  theta : Int
  /-- T of the PPS capture. -/
  t : TimeVal
  /-- Q of the PPS capture. -/
  q : QWord
  /-- K of the PPS capture. -/
  k : Nat
deriving DecidableEq, Repr

/-- The Anchor Input (R136). -/
structure AnchorInput where
  /-- Receiver state. -/
  rx : AnchorRx
  /-- Byte in progress on ANCHOR_RX. -/
  byteIn : Option ByteIn
  /-- Pending label. -/
  label : Option Label
  /-- Previous labelled edge. -/
  prev : Option LabelledEdge
  /-- Consistency count, 0 to 3. -/
  consistency : Nat
  /-- Anchor sample. -/
  sample : Option AnchorSample
  /-- Loss reference K. -/
  lossK : Nat
  /-- Loss expired. -/
  lossExpired : Bool
  /-- ANCHOR_MSG_ERR. -/
  msgErr : Stat
  /-- UNLABELLED_PPS. -/
  unlabelled : Stat
deriving DecidableEq, Repr

/-! ## Sample Aligner -/

/-- An open block (R147). Its first sample number is the ordinal of its first capture. -/
structure OpenBlock where
  /-- Block number. -/
  number : Count32
  /-- First capture. -/
  first : Capture
  /-- Last capture. -/
  last : Capture
  /-- Samples so far. -/
  samples : Nat
  /-- Skipped count, saturating at 2^32 - 1. -/
  skipped : Nat
  /-- STEPPED. -/
  stepped : Bool
  /-- COAST. -/
  coast : Bool
deriving DecidableEq, Repr

/-- The Sample Aligner (R147). -/
structure Aligner where
  /-- The open block; absent in NO_BLOCK. -/
  block : Option OpenBlock
  /-- Next block number. -/
  nextBlock : Count32
  /-- Gap deadline. -/
  gapDeadline : Option Nat
  /-- Grid pointer. -/
  grid : Option TimeVal
  /-- Pulse end; SAMPLE_CMD is high while present. -/
  pulseEnd : Option Nat
  /-- The tick from which SAMPLE_CMD has been low (R153). -/
  cmdLowFrom : Nat
deriving DecidableEq, Repr

/-! ## Coincidence Unit -/

/-- An entry of the outgoing notice list (R163). -/
structure OutNotice where
  /-- Trigger sequence. -/
  seq : Seq
  /-- Trigger time on T, ns; not held at 2^62 when it is stored (DESIGN CHOICE, log 29). -/
  time : Nat
  /-- Send count, 0 or 1. -/
  sends : Nat
  /-- The tick on which the time was stored (R175). -/
  storedK : Nat
deriving DecidableEq, Repr

/-- An entry of the coincidence list (R163). -/
structure CoincEntry where
  /-- Station. -/
  station : Nat
  /-- Trigger sequence. -/
  seq : Seq
  /-- Time on T, ns. -/
  time : Nat
  /-- Uncertainty, ns. -/
  u : Nat
  /-- Claimed flag. -/
  claimed : Bool
  /-- The tick on which the time was stored (R175). -/
  storedK : Nat
  /-- Place in the order of insertion (R167). -/
  order : Nat
deriving DecidableEq, Repr

/-- A declared window (R163). -/
structure Window where
  /-- Start on T, ns. -/
  lo : Nat
  /-- End on T, ns. -/
  hi : Nat
  /-- The tick on which the time of its start was stored, as that of the entry it starts at (R175). -/
  storedK : Nat
deriving DecidableEq, Repr

/-- The Coincidence Unit (R163). -/
structure Coincidence where
  /-- Own-trigger sequence. -/
  seq : Seq
  /-- Outgoing notice list, oldest first. -/
  outgoing : List OutNotice
  /-- Coincidence list in the order of R167. -/
  list : List CoincEntry
  /-- Declared-window list, oldest first. -/
  windows : List Window
  /-- COINC_OUT pulse end; COINC_OUT is high while present. -/
  pulseEnd : Option Nat
  /-- NOTICE_DROPPED. -/
  noticeDropped : Stat
  /-- NOTICE_UNTRACKED. -/
  noticeUntracked : Stat
  /-- COINC_OVERFLOW. -/
  coincOverflow : Stat
  /-- LATE_JOINER. -/
  lateJoiner : Stat
  /-- Number of insertions so far; the model's own, it gives each entry its order. -/
  inserted : Nat
deriving DecidableEq, Repr

/-! ## Records and the Record Port -/

/-- The alerts (R185). -/
inductive Alert
  | muted
  | config
  | step
  | coastLong
  | rateOut
  | recordDrop
  | anchorLost
deriving DecidableEq, Repr

/-- The alert set (R185). -/
structure Alerts where
  /-- MUTED. -/
  muted : Bool
  /-- CONFIG. -/
  config : Bool
  /-- STEP. -/
  step : Bool
  /-- COAST_LONG. -/
  coastLong : Bool
  /-- RATE_OUT. -/
  rateOut : Bool
  /-- RECORD_DROP. -/
  recordDrop : Bool
  /-- ANCHOR_LOST. -/
  anchorLost : Bool
deriving DecidableEq, Repr

/-- The reset cause (R193). -/
inductive ResetCause
  | power
  | pin
deriving DecidableEq, Repr

/-- A BREAK record (R112). -/
structure BreakRec where
  /-- Reason. -/
  reason : BreakReason
  /-- Applied amount, ns. -/
  amount : Int
  /-- T at application. -/
  time : Stamp
  /-- Next block number. -/
  nextBlock : Count32
  /-- Clock state after. -/
  clock : ClockState
deriving DecidableEq, Repr

/-- A station item of a COINCIDENCE record (R172). -/
structure StationItem where
  /-- Station. -/
  station : Nat
  /-- Offset from the window start, µs. -/
  offset : Nat
  /-- Uncertainty, µs. -/
  u : Nat
deriving DecidableEq, Repr

/-- A COINCIDENCE record (R172). -/
structure CoincRec where
  /-- Window start. -/
  start : Stamp
  /-- Window length, s. -/
  window : Nat
  /-- Station count. -/
  stations : Nat
  /-- Station items. -/
  items : List StationItem
deriving DecidableEq, Repr

/-- A TIMING record (R160). -/
structure TimingRec where
  /-- Block number. -/
  number : Count32
  /-- First sample number. -/
  firstSample : Count32
  /-- First sample time. -/
  time : Stamp
  /-- Advertised U at the close. -/
  u : Nat
  /-- Clock state at the close. -/
  clock : ClockState
  /-- Advertised depth at the close. -/
  depth : Nat
  /-- Samples in block. -/
  samples : Nat
  /-- Measured period, ps. -/
  periodPs : Nat
  /-- Rate deviation, ppb. -/
  rateDev : Int
  /-- Grid deviation, ns. -/
  gridDev : Int
  /-- Skipped count. -/
  skipped : Nat
  /-- GAP. -/
  gap : Bool
  /-- STEPPED. -/
  stepped : Bool
  /-- COAST. -/
  coast : Bool
  /-- RATE_OUT. -/
  rateOut : Bool
deriving DecidableEq, Repr

/-- A TRIGGER record (R173). -/
structure TriggerRec where
  /-- Trigger sequence. -/
  seq : Seq
  /-- Trigger time. -/
  time : Stamp
  /-- Advertised U. -/
  u : Nat
deriving DecidableEq, Repr

/-- A STATUS record (R183). -/
structure StatusRec where
  /-- Reset cause. -/
  cause : ResetCause
  /-- Clock state. -/
  clock : ClockState
  /-- Advertised depth. -/
  depth : Nat
  /-- Advertised U. -/
  u : Nat
  /-- F. -/
  f : Int
  /-- Current temperature in quarter-degrees, or not valid. -/
  temp : Option Int
  /-- Current bin, or none. -/
  bin : Option Nat
  /-- Anchor valid. -/
  anchorValid : Bool
  /-- MUTED. -/
  muted : Bool
  /-- Origin flag. -/
  originFlag : Bool
  /-- CONFIG_DEFAULTED. -/
  defaulted : Bool
  /-- CONFIG_CLAMPED. -/
  clamped : Bool
  /-- Alert set. -/
  alerts : Alerts
  /-- Edge counters: reference, PPS, sample, trigger. -/
  edges : List Count32
  /-- Statistic counters in the order of R199. -/
  stats : List Stat
deriving DecidableEq, Repr

/-- What a peer's history derives at a read (R79, R80). -/
structure PeerOffset where
  /-- θ_i. -/
  theta : Int
  /-- Least d. -/
  leastD : Nat
  /-- Delay spread δ_i. -/
  spread : Nat
  /-- Uncertainty u_i. -/
  u : Nat
deriving DecidableEq, Repr

/-- A PEER record (R184). -/
structure PeerRec where
  /-- Station. -/
  station : Nat
  /-- Entry state. -/
  state : EntryState
  /-- Advertised depth. -/
  depth : Nat
  /-- Advertised clock state. -/
  clock : ClockState
  /-- Advertised U. -/
  u : Nat
  /-- Last sequence. -/
  lastSeq : Seq
  /-- The derived values, absent when the history is empty. -/
  offset : Option PeerOffset
  /-- Number of history records. -/
  records : Nat
  /-- Reject count. -/
  rejects : Nat
  /-- Whole seconds since the last-mark K. -/
  age : Nat
deriving DecidableEq, Repr

/-- A record (11.2). -/
inductive Record
  | brk (r : BreakRec)
  | coincidence (r : CoincRec)
  | timing (r : TimingRec)
  | trigger (r : TriggerRec)
  | status (r : StatusRec)
  | peer (r : PeerRec)
deriving DecidableEq, Repr

/-- The frame being sent (R178). -/
structure Frame where
  /-- The tick on which the start bit of its first byte begins. -/
  start : Nat
  /-- Its bytes. -/
  bytes : List Byte
deriving DecidableEq, Repr

/-- The six drop counters (R182). -/
structure Drops where
  /-- DROP_BREAK. -/
  brk : Stat
  /-- DROP_COINCIDENCE. -/
  coincidence : Stat
  /-- DROP_TIMING. -/
  timing : Stat
  /-- DROP_TRIGGER. -/
  trigger : Stat
  /-- DROP_STATUS. -/
  status : Stat
  /-- DROP_PEER. -/
  peer : Stat
deriving DecidableEq, Repr

/-- The Record Port (chapter 11). -/
structure RecordPort where
  /-- The queue in order of arrival. -/
  queue : List Record
  /-- The transmitter: the frame it is SENDING, or IDLE. -/
  frame : Option Frame
  /-- Drop counters. -/
  drops : Drops
  /-- Alert set. -/
  alerts : Alerts
  /-- Peer cursor. -/
  cursor : Nat
  /-- The tick of the latest STATUS record; the model's own, one a tick (R183). -/
  lastStatus : Nat
  /-- The tick of the latest peer-timer search; the model's own, one a tick (R184). -/
  lastPeer : Nat
deriving DecidableEq, Repr

/-! ## Start-up Controller -/

/-- The configuration values of 12.3 below the layout version; coded fields hold their code. -/
structure Settings where
  /-- Mark interval code. -/
  markCode : Nat
  /-- Link rate code. -/
  linkCode : Nat
  /-- Sample rate code. -/
  sampleCode : Nat
  /-- Record rate code. -/
  recordCode : Nat
  /-- Block exponent. -/
  blockExp : Nat
  /-- Gain shift G. -/
  gain : Nat
  /-- Key lead, ms. -/
  keyLead : Nat
  /-- Coincidence count K_c. -/
  kc : Nat
  /-- Window W, s. -/
  window : Nat
  /-- Coast growth, ns/s. -/
  growth : Nat
  /-- Coast limit, min. -/
  coastLimit : Nat
  /-- Origin floor, ns. -/
  originFloor : Nat
  /-- Trigger hold-off, ms. -/
  holdOff : Nat
  /-- Step limit, µs. -/
  stepLimit : Nat
  /-- Delay limit, ms. -/
  delayLimit : Nat
  /-- Status interval, s. -/
  statusInterval : Nat
deriving DecidableEq, Repr

/-- The defaults of 12.3. -/
def Settings.defaults : Settings where
  markCode := 2
  linkCode := 1
  sampleCode := 4
  recordCode := 2
  blockExp := 10
  gain := 4
  keyLead := 10
  kc := 3
  window := 8
  growth := 50
  coastLimit := 120
  originFloor := 1000
  holdOff := 100
  stepLimit := 1000
  delayLimit := 500
  statusInterval := 60

/-- The Start-up Controller (chapter 12). -/
structure Startup where
  /-- The straps have been sampled since the reset. -/
  strapped : Bool
  /-- STATION, the own number. -/
  station : BitVec 6
  /-- ANCHOR_EN. -/
  anchorEn : Bool
  /-- GEN_MODE. -/
  genMode : Bool
  /-- Configuration values. -/
  settings : Settings
  /-- The values and flags are settled (R190). -/
  settled : Bool
  /-- CONFIG_DEFAULTED. -/
  defaulted : Bool
  /-- CONFIG_CLAMPED. -/
  clamped : Bool
  /-- Data bits read from CFG_SDA so far (R189). -/
  bits : List Bool
  /-- The tick of a missing acknowledge (R189). -/
  abandoned : Option Nat
  /-- K of the end of the configuration read (R192). -/
  endK : Option Nat
  /-- Reset cause. -/
  cause : ResetCause
  /-- The supply monitor has asserted reset since the previous release (R193). -/
  supplyFailed : Bool
deriving DecidableEq, Repr

/-! ## The part -/

/-- The state of the part: its twelve blocks, its sampled lines and the queue of commands waiting. -/
structure State where
  /-- Time Scale Unit. -/
  time : TimeScale
  /-- Sampled input lines. -/
  lines : Lines
  /-- Capture Unit. -/
  cap : CaptureUnit
  /-- Mark Link Controller. -/
  link : MarkLink
  /-- Peer Table. -/
  peers : PeerTable
  /-- Source Combiner. -/
  comb : Combiner
  /-- Discipline Servo. -/
  servo : Servo
  /-- Temperature Monitor and Drift Table. -/
  temp : Temperature
  /-- Anchor Input. -/
  anchor : AnchorInput
  /-- Sample Aligner. -/
  align : Aligner
  /-- Coincidence Unit. -/
  coinc : Coincidence
  /-- Record Port. -/
  port : RecordPort
  /-- Start-up Controller. -/
  startup : Startup
  /-- The commands waiting, first in first out. -/
  pending : List Instr
deriving DecidableEq, Repr

/-- The faults. Each is the sender's error: the command names something the part does not have. Safe:
the model stops where the part has no such event at all. -/
inductive Fault
  /-- A peer-timer command (TRIAL_TIMEOUT, TRACKED_SILENT, SILENT_TIMEOUT, RECORD_EXPIRY,
  BARRING_END) names a slot of 24 or more; the Peer Table has slots 0 to 23 (4.1). Safe. -/
  | noSuchSlot (slot : Nat)
  /-- CONVERSION_COMPLETE carries a code of 1,024 or more; the converter has 10 bits (R127). Safe. -/
  | noSuchCode (code : Nat)
deriving DecidableEq, Repr

/-- The refusals. -/
inductive Refusal
  /-- A command that has no meaning yet; raised by an arm of `exec` alone. Safe. No arm raises it. -/
  | notModelled (mnemonic : String)
deriving DecidableEq, Repr

/-! ## Reset -/

/-- The Time Scale Unit after a reset that leaves F at `f` (R18, R19). -/
def TimeScale.afterReset (f : Int) : TimeScale where
  k := 0
  r := TimeVal.zero
  t := TimeVal.zero
  wraps := 0
  f := f
  p := 0
  step := none

/-- The sampled lines after either reset: every previous level unset (R35). -/
def Lines.afterReset : Lines where
  levels := none
  edges := ⟨false, false, false, false, false⟩

/-- The Capture Unit after either reset (R35). -/
def CaptureUnit.afterReset : CaptureUnit where
  startEdge := none
  provisional := none
  ref := .idle
  pps := none
  sample := none
  trig := none
  refEdges := 0
  ppsEdges := 0
  sampleEdges := 0
  trigEdges := 0
  spuriousPps := 0
  spuriousStrobe := 0
  linkPrevK := 0

/-- The Mark Link Controller after either reset (R61); the register waits for its seed (R42). -/
def MarkLink.afterReset : MarkLink where
  rx := .stopped
  byteIn := none
  regular := none
  notice := none
  flight := none
  schedule := .idle
  lfsr := 1
  launches := []
  nextSeq := 0
  launchCount := 0
  echoes := []
  muted := false
  deferred := 0
  skipped := 0
  truncated := 0
  crcErr := 0
  formatErr := 0
  echoOverwritten := 0

/-- The Peer Table after either reset (R62). -/
def PeerTable.afterReset : PeerTable where
  slots := List.replicate Config.peerSlots none
  tableFull := 0
  staleEcho := 0
  negativeDelay := 0
  delayOver := 0

/-- The Source Combiner after either reset (R86). -/
def Combiner.afterReset : Combiner where
  originFlag := false
  originCount := 0
  anchorRejects := 0
  anchorBarred := none
  originRejects := 0
  originBarred := none

/-- The Discipline Servo after either reset (R106). -/
def Servo.afterReset : Servo where
  clock := .unset
  lockCount := 0
  noneCount := 0
  breakCount := 0
  last := none
  advU := Config.uMax
  advDepth := 15
  coast := none
  reason := none
  lastUpdate := 0

/-- The Temperature Monitor after either reset, with the drift bins given (R135). -/
def Temperature.afterReset (bins : List DriftBin) : Temperature where
  slots := []
  converting := none
  bins := bins

/-- The drift bins after a power-on reset (R135). -/
def Temperature.clearedBins : List DriftBin := List.replicate 16 ⟨0, 0⟩

/-- The Anchor Input after either reset (R136). -/
def AnchorInput.afterReset : AnchorInput where
  rx := .hunt
  byteIn := none
  label := none
  prev := none
  consistency := 0
  sample := none
  lossK := 0
  lossExpired := false
  msgErr := 0
  unlabelled := 0

/-- The Sample Aligner after either reset (R147). -/
def Aligner.afterReset : Aligner where
  block := none
  nextBlock := 0
  gapDeadline := none
  grid := none
  pulseEnd := none
  cmdLowFrom := 0

/-- The Coincidence Unit after either reset (R163). -/
def Coincidence.afterReset : Coincidence where
  seq := 0
  outgoing := []
  list := []
  windows := []
  pulseEnd := none
  noticeDropped := 0
  noticeUntracked := 0
  coincOverflow := 0
  lateJoiner := 0
  inserted := 0

/-- The Record Port after either reset (R179, R184). -/
def RecordPort.afterReset : RecordPort where
  queue := []
  frame := none
  drops := ⟨0, 0, 0, 0, 0, 0⟩
  alerts := ⟨false, false, false, false, false, false, false⟩
  cursor := 23
  lastStatus := 0
  lastPeer := 0

/-- The Start-up Controller after a reset (R193): straps, values and flags cleared; `failed` says
whether the supply monitor asserted reset since the previous release. The cleared configuration
values stand at the defaults and the cause at POWER until they are set (DESIGN CHOICE, log 9). -/
def Startup.afterReset (failed : Bool) : Startup where
  strapped := false
  station := 0
  anchorEn := false
  genMode := false
  settings := Settings.defaults
  settled := false
  defaulted := false
  clamped := false
  bits := []
  abandoned := none
  endK := none
  cause := .power
  supplyFailed := failed

/-- The part after a reset that leaves F, the drift bins and the supply flag as given, with the queue
given. -/
def State.afterReset (f : Int) (bins : List DriftBin) (failed : Bool) (queue : List Instr) :
    State where
  time := TimeScale.afterReset f
  lines := Lines.afterReset
  cap := CaptureUnit.afterReset
  link := MarkLink.afterReset
  peers := PeerTable.afterReset
  comb := Combiner.afterReset
  servo := Servo.afterReset
  temp := Temperature.afterReset bins
  anchor := AnchorInput.afterReset
  align := Aligner.afterReset
  coinc := Coincidence.afterReset
  port := RecordPort.afterReset
  startup := Startup.afterReset failed
  pending := queue

/-- The part right after a power-on reset (R18, R135), its queue empty. -/
def State.reset : State := State.afterReset 0 Temperature.clearedBins true []

end Sys2Proof.Machine
end

