-- ==== Sys2Proof/Machine/Arith.lean ====
section
/-!
DEFINITION. Rounding, limits, time values, bytes and CRCs: the arithmetic every block shares.
-/

namespace Sys2Proof.Machine

/-! ## Rounding and limits (00_scope 5) -/

/-- `round`: the quotient to the nearest integer, halves away from zero. -/
def roundDiv (n : Int) (d : Nat) : Int :=
  let q : Int := ((2 * n.natAbs + d) / (2 * d) : Nat)
  if n < 0 then -q else q

/-- `ceil` of a quotient of naturals. -/
def ceilDiv (n d : Nat) : Nat := (n + d - 1) / d

/-- `truncate` of a quotient: toward zero. -/
def truncDiv (n : Int) (d : Int) : Int := n.tdiv d

/-- A value clamped to the nearer of ±`limit`. -/
def clampSym (limit : Int) (x : Int) : Int := max (-limit) (min limit x)

/-- An offset held at ±2^62 ns (R74, R79, R88, R142). -/
def holdOffset (x : Int) : Int := clampSym Config.hold62 x

/-- A stored time held between 0 and 2^62 ns (10.1). -/
def holdTime (x : Int) : Nat := min Config.hold62 x.toNat

/-- An uncertainty saturated at U_MAX (00_scope 5). -/
def holdU (u : Nat) : Nat := min Config.uMax u

/-- A statistic counter increased by 1, saturating at 65,535 (00_scope 5). -/
def bump (c : Stat) : Stat := if c = 0xFFFF then c else c + 1

/-! ## Time values (R3) -/

/-- A time value as whole nanoseconds, its fraction discarded. -/
def TimeVal.nsCount (t : TimeVal) : Nat := t.secs.val * Config.nsPerSecond + t.ns.val

/-- A time value in units of 2^-32 ns. -/
def TimeVal.units (t : TimeVal) : Nat := t.nsCount * Config.unitsPerNs + t.frac.val

/-- The time value of a count of 2^-32 ns units, its seconds wrapped at 2^40. -/
def TimeVal.ofUnits (u : Nat) : TimeVal where
  secs := Fin.ofNat _ (u / Config.unitsPerNs / Config.nsPerSecond)
  ns := Fin.ofNat _ (u / Config.unitsPerNs)
  frac := Fin.ofNat _ u

/-- The time value of a count of whole nanoseconds, its seconds wrapped at 2^40. -/
def TimeVal.ofNs (n : Nat) : TimeVal := TimeVal.ofUnits (n * Config.unitsPerNs)

/-- The largest time value (R4). -/
def TimeVal.largest : TimeVal := TimeVal.ofUnits (Config.timeRange - 1)

/-- Seconds and nanoseconds of a time value, its fraction discarded. -/
def TimeVal.stamp (t : TimeVal) : Stamp := ⟨t.secs.val, t.ns.val⟩

/-- A stamp as whole nanoseconds. -/
def Stamp.nsCount (t : Stamp) : Nat := t.secs * Config.nsPerSecond + t.ns

/-- The stamp of a count of whole nanoseconds. -/
def Stamp.ofNs (n : Nat) : Stamp := ⟨n / Config.nsPerSecond, n % Config.nsPerSecond⟩

/-- The difference of two presented values of Q in units of 2^-32 ns, formed modulo 2^96 ns and read
as signed (R7). -/
def qDiff (a b : QWord) : Int := (a - b).toInt

/-- The difference of two presented values of Q truncated to whole ns (R79, R88). -/
def qDiffNs (a b : QWord) : Int := truncDiv (qDiff a b) Config.unitsPerNs

/-! ## Bytes (R194) -/

/-- The value of bytes sent most significant first. -/
def beNat (bytes : List Byte) : Nat := bytes.foldl (fun acc b => acc * 256 + b.toNat) 0

/-- An unsigned field of `n` bytes, most significant first. -/
def beBytes : Nat → Nat → List Byte
  | 0, _ => []
  | n + 1, v => beBytes n (v / 256) ++ [BitVec.ofNat 8 v]

/-- A signed field of `n` bytes in two's complement. -/
def signedBytes (n : Nat) (v : Int) : List Byte := beBytes n (v % (2 ^ (8 * n) : Nat)).toNat

/-- A time field: 5 bytes of seconds and 4 bytes of nanoseconds. -/
def timeBytes (t : Stamp) : List Byte := beBytes 5 t.secs ++ beBytes 4 t.ns

/-- The field of `n` bytes at position `i`, as an unsigned number. -/
def field (bytes : List Byte) (i n : Nat) : Nat := beNat ((bytes.drop i).take n)

/-- The time field at position `i`. -/
def timeField (bytes : List Byte) (i : Nat) : Stamp := ⟨field bytes i 5, field bytes (i + 5) 4⟩

/-- A byte's bits from bit 7 to bit 0. -/
def bitsMsb (b : Byte) : List Bool := [7, 6, 5, 4, 3, 2, 1, 0].map b.getLsbD

/-- The byte with the bits given, bit 7 first. -/
def byteOfMsb (bits : List Bool) : Byte :=
  bits.foldl (fun acc b => acc <<< 1 ||| (if b then 1 else 0)) 0

/-- The line bits of an asynchronous byte: start bit low, data bits least significant first, stop bit
high (R38, R177). -/
def asyncBits (b : Byte) : List Bool :=
  false :: [0, 1, 2, 3, 4, 5, 6, 7].map b.getLsbD ++ [true]

/-! ## CRCs (R195) -/

/-- One data bit into a CRC register of any width with the polynomial given. -/
def crcBit {w : Nat} (poly : BitVec w) (reg : BitVec w) (b : Bool) : BitVec w :=
  if reg.msb ^^ b then (reg <<< 1) ^^^ poly else reg <<< 1

/-- The CRC-16 of the covered bytes. -/
def crc16 (bytes : List Byte) : BitVec 16 :=
  (bytes.flatMap bitsMsb).foldl (crcBit 0x1021) 0xFFFF

/-- The CRC-8 of the covered bytes. -/
def crc8 (bytes : List Byte) : BitVec 8 :=
  (bytes.flatMap bitsMsb).foldl (crcBit 0x07) 0xFF

/-! ## Line timing -/

/-- The tick, counted from a frame's reference tick, on which bit `m` begins at `rate` bit/s (R38,
R177). -/
def bitTick (rate : Nat) (m : Int) : Int := roundDiv (m * Config.ticksPerSecond) rate

/-- The tick on which a frame of `n` bytes that began on tick `start` has sent its last stop bit. -/
def frameEndTick (rate start n : Nat) : Nat := start + (bitTick rate (10 * n)).toNat

/-- The 30 bit times within which the next start edge must be first seen (R55). -/
def gapTicks (rate : Nat) : Nat := (bitTick rate 30).toNat

/-- The number of the bit on the line `d` ticks after the reference tick of a frame. -/
def bitAt (rate : Nat) (d : Int) : Int :=
  let m := d * rate / Config.ticksPerSecond
  if bitTick rate (m + 1) ≤ d then m + 1 else m

/-- The majority of three samples (R54). -/
def majority (a b c : Bool) : Bool := (a && b) || (a && c) || (b && c)

/-- The tick of sample `j` of a byte whose start edge was first seen on tick `edge` (R54). -/
def sampleTick (rate edge j : Nat) : Nat :=
  edge + ceilDiv (j * Config.ticksPerSecond) (16 * rate)

/-- The number of the `i`-th sample the majority reads: 16n + 7, 16n + 8, 16n + 9 for bit n (R54). -/
def voteSample (i : Nat) : Nat := 16 * (i / 3) + 7 + i % 3

/-- The bit number `n` that the votes read. -/
def voteBit (votes : List Bool) (n : Nat) : Bool :=
  majority (votes.getD (3 * n) true) (votes.getD (3 * n + 1) true) (votes.getD (3 * n + 2) true)

/-- The start bit has been read and reads high: a false start (R54). -/
def ByteIn.falseStart (b : ByteIn) : Bool := decide (3 ≤ b.votes.length) && voteBit b.votes 0

/-- The start bit has been read and reads low: the edge is confirmed (R54). -/
def ByteIn.confirmed (b : ByteIn) : Bool := decide (3 ≤ b.votes.length) && !voteBit b.votes 0

/-- The stop bit has been read: the byte is complete (R54). -/
def ByteIn.complete (b : ByteIn) : Bool := decide (b.votes.length = 30) && !b.falseStart

/-- The data bits as read, least significant first (R54). -/
def ByteIn.value (b : ByteIn) : Byte :=
  byteOfMsb ([8, 7, 6, 5, 4, 3, 2, 1].map (voteBit b.votes))

/-- A byte in progress after the level of tick `k`: the level is taken when a sample that the majority
reads falls on this tick. A false start takes no more samples. -/
def ByteIn.sampled (rate k : Nat) (level : Bool) (b : ByteIn) : ByteIn :=
  if b.votes.length < 30 ∧ ¬ b.falseStart ∧ sampleTick rate b.edge (voteSample b.votes.length) ≤ k
  then { b with votes := b.votes ++ [level] }
  else b

end Sys2Proof.Machine
end

