-- ==== Sys2Proof/Machine/Flags.lean ====
section
/-!
DEFINITION. Flags: the alert set and REARM, the drop counters, and the validity flags that other
blocks and the records read.
-/

namespace Sys2Proof.Machine

/-- The alert set with one alert set (R185). -/
def Alerts.set (a : Alert) (s : Alerts) : Alerts :=
  match a with
  | .muted => { s with muted := true }
  | .config => { s with config := true }
  | .step => { s with step := true }
  | .coastLong => { s with coastLong := true }
  | .rateOut => { s with rateOut := true }
  | .recordDrop => { s with recordDrop := true }
  | .anchorLost => { s with anchorLost := true }

/-- Some alert is set (R185). -/
def Alerts.any (s : Alerts) : Bool :=
  s.muted || s.config || s.step || s.coastLong || s.rateOut || s.recordDrop || s.anchorLost

/-- The alert set after a REARM edge, given whether *coast beyond limit* and *anchor lost* are present
(R186). -/
def Alerts.rearm (coastBeyond anchorLost : Bool) (s : Alerts) : Alerts where
  muted := s.muted
  config := s.config
  step := false
  coastLong := s.coastLong && coastBeyond
  rateOut := false
  recordDrop := false
  anchorLost := s.anchorLost && anchorLost

/-- The drop counters after a drop of a record of the class given (R182). -/
def Drops.count (cls : Nat) (d : Drops) : Drops :=
  match cls with
  | 0 => { d with brk := bump d.brk }
  | 1 => { d with coincidence := bump d.coincidence }
  | 2 => { d with timing := bump d.timing }
  | 3 => { d with trigger := bump d.trigger }
  | 4 => { d with status := bump d.status }
  | _ => { d with peer := bump d.peer }

/-- The anchor is valid (R136, R141). -/
def AnchorInput.valid (a : AnchorInput) : Bool := decide (a.consistency = 3)

/-- The condition *anchor lost* (R144). -/
def State.anchorLost (s : State) : Bool := s.startup.anchorEn && !s.anchor.valid

/-- The condition *coast beyond limit* (R123). -/
def State.coastBeyondLimit (s : State) : Bool :=
  decide (s.servo.clock = .coast) &&
  match s.servo.coast with
  | some c => c.limitPassed
  | none => false

/-- The statistic counters in the order of STATUS (R199). -/
def State.statCounters (s : State) : List Stat :=
  [s.cap.spuriousPps, s.cap.spuriousStrobe, s.link.deferred, s.link.skipped, s.link.truncated,
   s.link.crcErr, s.link.formatErr, s.link.echoOverwritten, s.peers.tableFull, s.peers.staleEcho,
   s.peers.negativeDelay, s.peers.delayOver, s.anchor.msgErr, s.anchor.unlabelled,
   s.coinc.noticeDropped, s.coinc.noticeUntracked, s.coinc.coincOverflow, s.coinc.lateJoiner,
   s.port.drops.brk, s.port.drops.coincidence, s.port.drops.timing, s.port.drops.trigger,
   s.port.drops.status, s.port.drops.peer]

/-- The edge counters in the order of STATUS (R199). -/
def State.edgeCounters (s : State) : List Count32 :=
  [s.cap.refEdges, s.cap.ppsEdges, s.cap.sampleEdges, s.cap.trigEdges]

end Sys2Proof.Machine
end

