-- ==== Sys2Proof/Machine/Operands.lean ====
section
/-!
DEFINITION. The operand forms of a block: the configuration values and what they select (12.3), and
the byte layouts of chapter 13 read and written: configuration block, mark, anchor message, record.
-/

namespace Sys2Proof.Machine

/-! ## What the configuration values select -/

/-- M in seconds (12.3). -/
def Settings.mSeconds (c : Settings) : Nat := 4 * 2 ^ c.markCode

/-- One mark interval in ticks, N (R105). -/
def Settings.markTicks (c : Settings) : Nat := c.mSeconds * Config.ticksPerSecond

/-- The link rate in bit/s. -/
def Settings.linkRate (c : Settings) : Nat := 4800 * 2 ^ c.linkCode

/-- The record rate in bit/s. -/
def Settings.recordRate (c : Settings) : Nat :=
  match c.recordCode with
  | 0 => 38400
  | 1 => 57600
  | _ => 115200

/-- The sample period p in ns (R30). -/
def Settings.period (c : Settings) : Nat :=
  match c.sampleCode with
  | 0 => 100000000
  | 1 => 50000000
  | 2 => 25000000
  | 3 => 20000000
  | 4 => 10000000
  | 5 => 5000000
  | 6 => 4000000
  | 7 => 2000000
  | _ => 1000000

/-- The block length B in samples (R146). -/
def Settings.blockLength (c : Settings) : Nat := 2 ^ c.blockExp

/-- The minimum strobe spacing in ticks (R30). -/
def Settings.strobeSpacing (c : Settings) : Nat := c.period / 100

/-- The gap after which a FOLLOW block closes, in ticks (R149). -/
def Settings.gapLength (c : Settings) : Nat := 3 * c.period / 100

/-- The trigger hold-off in ticks (R32). -/
def Settings.holdOffTicks (c : Settings) : Nat := c.holdOff * Config.ticksPerMs

/-- The step limit S_L in ns (R110). -/
def Settings.stepLimitNs (c : Settings) : Nat := c.stepLimit * 1000

/-- The delay limit in ns (R73). -/
def Settings.delayLimitNs (c : Settings) : Nat := c.delayLimit * 1000000

/-- The window W in ns (R169). -/
def Settings.windowNs (c : Settings) : Nat := c.window * Config.nsPerSecond

/-- The coast limit in ticks (R123). -/
def Settings.coastLimitTicks (c : Settings) : Nat := c.coastLimit * 1200000000

/-- The status interval in ticks (R183). -/
def Settings.statusTicks (c : Settings) : Nat := c.statusInterval * Config.ticksPerSecond

/-- The lead: the greater of the key lead and the sixty bits of preamble and sync, in ticks (R43). -/
def Settings.lead (c : Settings) : Nat :=
  max (c.keyLead * Config.ticksPerMs) (bitTick c.linkRate 60).toNat

/-! ## The configuration block (R200, R191) -/

/-- A value replaced by the nearer limit of its range (R191). -/
def clampRange (lo hi v : Nat) : Nat := max lo (min hi v)

/-- The fields of a configuration block as read (R200). -/
def Settings.ofBlock (b : List Byte) : Settings where
  markCode := field b 1 1 / 16
  linkCode := field b 1 1 % 16
  sampleCode := field b 2 1 / 16
  recordCode := field b 2 1 % 16
  blockExp := field b 3 1 / 16
  gain := field b 3 1 % 16
  keyLead := field b 4 1
  kc := field b 5 1
  window := field b 6 1
  growth := field b 7 2
  coastLimit := field b 9 2
  originFloor := field b 11 2
  holdOff := field b 13 2
  stepLimit := field b 15 3
  delayLimit := field b 18 2
  statusInterval := field b 20 2

/-- Every field clamped to its range (12.3, R191). -/
def Settings.clamp (c : Settings) : Settings where
  markCode := clampRange 0 4 c.markCode
  linkCode := clampRange 0 2 c.linkCode
  sampleCode := clampRange 0 8 c.sampleCode
  recordCode := clampRange 0 2 c.recordCode
  blockExp := clampRange 4 12 c.blockExp
  gain := clampRange 2 6 c.gain
  keyLead := clampRange 2 50 c.keyLead
  kc := clampRange 2 16 c.kc
  window := clampRange 1 60 c.window
  growth := clampRange 1 1000 c.growth
  coastLimit := clampRange 15 1440 c.coastLimit
  originFloor := clampRange 100 65000 c.originFloor
  holdOff := clampRange 10 1000 c.holdOff
  stepLimit := clampRange 100 100000 c.stepLimit
  delayLimit := clampRange 10 2000 c.delayLimit
  statusInterval := clampRange 4 3600 c.statusInterval

/-- The bytes of the data bits read, most significant bit of each byte first (R189). -/
def blockBytes (bits : List Bool) : List Byte :=
  (List.range 24).map fun i => byteOfMsb ((bits.drop (8 * i)).take 8)

/-- A block passes R190: all its bits were read, its CRC-8 agrees and its layout version is 1. -/
def blockPasses (bits : List Bool) : Bool :=
  decide (bits.length = 192) &&
  decide (crc8 ((blockBytes bits).take 23) = (blockBytes bits).getD 23 0) &&
  decide (field (blockBytes bits) 0 1 = 1)

/-! ## Codes (R194) -/

/-- The code of a clock state. -/
def ClockState.code : ClockState → Nat
  | .unset => 0
  | .pullIn => 1
  | .locked => 2
  | .coast => 3

/-- The clock state of a code of 0 to 3. -/
def ClockState.ofCode : Nat → ClockState
  | 0 => .unset
  | 1 => .pullIn
  | 2 => .locked
  | _ => .coast

/-- The code of a mark kind. -/
def markKindCode : MarkKind → Nat
  | .regular => 0
  | .notice => 1

/-- The code of a peer entry state. -/
def EntryState.code : EntryState → Nat
  | .trial => 1
  | .tracked => 2
  | .silent => 3
  | .barred => 4

/-- The code of a BREAK reason. -/
def BreakReason.code : BreakReason → Nat
  | .initial => 0
  | .pullIn => 1
  | .lockedBreak => 2
  | .coastBreak => 3

/-- The code of a reset cause. -/
def ResetCause.code : ResetCause → Nat
  | .power => 0
  | .pin => 1

/-- The state byte: depth in bits 7 to 4, clock state in bits 3 to 0. -/
def stateByte (depth : Nat) (clock : ClockState) : Byte := BitVec.ofNat 8 (depth * 16 + clock.code)

/-- A byte whose bit i is the i-th flag. -/
def flagByte (flags : List Bool) : Byte :=
  BitVec.ofNat 8 (flags.foldr (fun b acc => 2 * acc + (if b then 1 else 0)) 0)

/-! ## The mark (R196) -/

/-- An echo item (R40). -/
structure EchoItem where
  /-- Peer station. -/
  station : Nat
  /-- Peer sequence. -/
  seq : Seq
  /-- Hold, ns. -/
  hold : Nat
deriving DecidableEq, Repr

/-- A notice item (R40). -/
structure NoticeItem where
  /-- Trigger sequence. -/
  seq : Seq
  /-- Trigger time in the sender's T. -/
  time : Stamp
deriving DecidableEq, Repr

/-- The fields of a mark's body, with the version, kind and clock state as the codes sent (R40). -/
structure Mark where
  /-- Format version. -/
  version : Nat
  /-- Code of the mark kind. -/
  kind : Nat
  /-- Sender's station number. -/
  station : Nat
  /-- Sender's launch sequence. -/
  seq : Seq
  /-- Launch time. -/
  time : Stamp
  /-- Advertised U code. -/
  uCode : Nat
  /-- Advertised depth. -/
  depth : Nat
  /-- Code of the advertised clock state. -/
  clock : Nat
  /-- Echo items. -/
  echoes : List EchoItem
  /-- Notice items. -/
  notices : List NoticeItem
deriving DecidableEq, Repr

/-- The body length of a mark with the counts given (R40). -/
def bodyLength (echoes notices : Nat) : Nat := 19 + 8 * echoes + 10 * notices

/-- The echo count of a body of at least 17 bytes (R196). -/
def echoCount (body : List Byte) : Nat := field body 16 1 / 16

/-- The notice count of a body of at least 17 bytes (R196). -/
def noticeCount (body : List Byte) : Nat := field body 16 1 % 16

/-- The echo item in 8 bytes. -/
def EchoItem.bytes (e : EchoItem) : List Byte :=
  beBytes 1 e.station ++ beBytes 1 e.seq.toNat ++ beBytes 6 e.hold

/-- The notice item in 10 bytes. -/
def NoticeItem.bytes (n : NoticeItem) : List Byte := beBytes 1 n.seq.toNat ++ timeBytes n.time

/-- A mark's body before its CRC (R196). -/
def Mark.covered (m : Mark) : List Byte :=
  beBytes 1 (m.version * 16 + m.kind) ++ beBytes 1 m.station ++ beBytes 1 m.seq.toNat ++
  timeBytes m.time ++ beBytes 3 m.uCode ++ beBytes 1 (m.depth * 16 + m.clock) ++
  beBytes 1 (m.echoes.length * 16 + m.notices.length) ++
  m.echoes.flatMap EchoItem.bytes ++ m.notices.flatMap NoticeItem.bytes

/-- A mark's body with its CRC (R196, R195). -/
def Mark.body (m : Mark) : List Byte := m.covered ++ beBytes 2 (crc16 m.covered).toNat

/-- The mark a body of the length its counts give carries (R196). -/
def Mark.ofBody (b : List Byte) : Mark where
  version := field b 0 1 / 16
  kind := field b 0 1 % 16
  station := field b 1 1
  seq := b.getD 2 0
  time := timeField b 3
  uCode := field b 12 3
  depth := field b 15 1 / 16
  clock := field b 15 1 % 16
  echoes := (List.range (echoCount b)).map fun i =>
    let o := 17 + 8 * i
    { station := field b o 1, seq := b.getD (o + 1) 0, hold := field b (o + 2) 6 }
  notices := (List.range (noticeCount b)).map fun i =>
    let o := 17 + 8 * echoCount b + 10 * i
    { seq := b.getD o 0, time := timeField b (o + 1) }

/-- The CRC-16 of a body agrees with its last two bytes (R57). -/
def bodyCrcAgrees (b : List Byte) : Bool :=
  decide ((crc16 (b.take (b.length - 2))).toNat = field b (b.length - 2) 2)

/-- The field checks of R57. -/
def Mark.fieldsPass (m : Mark) : Bool :=
  decide (m.version = 1) && decide (m.kind ≤ 1) && decide (1 ≤ m.station ∧ m.station ≤ 62) &&
  decide (m.clock ≤ 3) && decide (m.time.ns ≤ 999999999) &&
  m.notices.all fun n => decide (n.time.ns ≤ 999999999)

/-- The preamble and the sync bytes (R40). -/
def preamble : List Byte := [0x55, 0x55, 0x55, 0x55, 0x2D, 0xD4]

/-! ## The anchor message (R197) -/

/-- An eleven-byte message is correct: its CRC-8 agrees and its kind is 0x01 (R138). -/
def anchorCorrect (b : List Byte) : Bool :=
  decide (crc8 ((b.drop 1).take 9) = b.getD 10 0) && decide (b.getD 1 0 = 0x01)

/-- The valid flag of a message. -/
def anchorValidFlag (b : List Byte) : Bool := (b.getD 9 0).getLsbD 0

/-- The label a message names. -/
def anchorLabel (b : List Byte) : Label := ⟨field b 2 5, field b 7 2⟩

/-! ## Records (R198, R199) -/

/-- The class of a record, 0 the highest (11.2). -/
def Record.cls : Record → Nat
  | .brk _ => 0
  | .coincidence _ => 1
  | .timing _ => 2
  | .trigger _ => 3
  | .status _ => 4
  | .peer _ => 5

/-- The type byte of a record (R198). -/
def Record.type (r : Record) : Nat := r.cls + 1

/-- A rate deviation limited to its field (R199). -/
def limitInt32 (v : Int) : Int := max (-2147483648) (min 2147483647 v)

/-- The alerts byte of a STATUS record (R199). -/
def Alerts.byte (a : Alerts) : Byte :=
  flagByte [a.muted, a.config, a.step, a.coastLong, a.rateOut, a.recordDrop, a.anchorLost]

/-- The payload of a BREAK record. -/
def BreakRec.payload (r : BreakRec) : List Byte :=
  beBytes 1 r.reason.code ++ signedBytes 8 r.amount ++ timeBytes r.time ++
  beBytes 4 r.nextBlock.toNat ++ beBytes 1 r.clock.code

/-- The payload of a COINCIDENCE record. -/
def CoincRec.payload (r : CoincRec) : List Byte :=
  timeBytes r.start ++ beBytes 1 r.window ++ beBytes 1 r.stations ++ beBytes 1 r.items.length ++
  r.items.flatMap fun i => beBytes 1 i.station ++ beBytes 4 i.offset ++ beBytes 3 i.u

/-- The payload of a TIMING record. -/
def TimingRec.payload (r : TimingRec) : List Byte :=
  beBytes 4 r.number.toNat ++ beBytes 4 r.firstSample.toNat ++ timeBytes r.time ++
  beBytes 4 r.u ++ [stateByte r.depth r.clock] ++ beBytes 2 r.samples ++ beBytes 6 r.periodPs ++
  signedBytes 4 (limitInt32 r.rateDev) ++ signedBytes 4 r.gridDev ++ beBytes 4 r.skipped ++
  [flagByte [r.gap, r.stepped, r.coast, r.rateOut]]

/-- The payload of a TRIGGER record. -/
def TriggerRec.payload (r : TriggerRec) : List Byte :=
  beBytes 1 r.seq.toNat ++ timeBytes r.time ++ beBytes 4 r.u

/-- The payload of a STATUS record. -/
def StatusRec.payload (r : StatusRec) : List Byte :=
  beBytes 1 r.cause.code ++ [stateByte r.depth r.clock] ++ beBytes 4 r.u ++ signedBytes 4 r.f ++
  (match r.temp with | some t => signedBytes 2 t | none => [0x80, 0x00]) ++
  (match r.bin with | some b => beBytes 1 b | none => [0xFF]) ++
  [flagByte [r.anchorValid, r.muted, r.originFlag, r.defaulted, r.clamped]] ++ [r.alerts.byte] ++
  r.edges.flatMap (fun c => beBytes 4 c.toNat) ++ r.stats.flatMap (fun c => beBytes 2 c.toNat)

/-- The payload of a PEER record. -/
def PeerRec.payload (r : PeerRec) : List Byte :=
  beBytes 1 r.station ++ beBytes 1 r.state.code ++ [stateByte r.depth r.clock] ++
  beBytes 4 r.u ++ beBytes 1 r.lastSeq.toNat ++
  (match r.offset with
    | some o => [0x01] ++ signedBytes 8 o.theta ++ beBytes 4 o.leastD ++ beBytes 4 o.spread ++
        beBytes 4 o.u
    | none => List.replicate 21 0x00) ++
  beBytes 1 r.records ++ beBytes 1 r.rejects ++ beBytes 4 r.age

/-- The payload of a record. -/
def Record.payload : Record → List Byte
  | .brk r => r.payload
  | .coincidence r => r.payload
  | .timing r => r.payload
  | .trigger r => r.payload
  | .status r => r.payload
  | .peer r => r.payload

/-- The bytes of a frame that the CRC covers: type, length, payload (R198). -/
def Record.covered (r : Record) : List Byte :=
  beBytes 1 r.type ++ beBytes 1 r.payload.length ++ r.payload

/-- The frame of a record (R198). -/
def Record.frame (r : Record) : List Byte :=
  [0xA5] ++ r.covered ++ beBytes 2 (crc16 r.covered).toNat

end Sys2Proof.Machine
end

