-- ==== Sys2Proof/Machine/Ops.lean ====
section
/-!
DEFINITION. The named operations that several blocks share: the scales and what the Time Scale Unit
presents, captures, the servo's controls over the unit, alerts, and the arrival of a record.
-/

namespace Sys2Proof.Machine

/-- The tick count of the state (R1). -/
def State.k (s : State) : Nat := s.time.k

/-- The part's own number: the strapped station number (R187). -/
def State.own (s : State) : Nat := s.startup.station.toNat

/-- The configuration values (R190). -/
def State.cfg (s : State) : Settings := s.startup.settings

/-- The configuration read has ended (R192). -/
def State.ended (s : State) : Bool := s.startup.endK.isSome

/-- The tick lies after the end of the configuration read: inputs enabled there can show an edge
(R22, R36). -/
def State.afterEnd (s : State) : Bool :=
  match s.startup.endK with
  | some e => decide (e < s.k)
  | none => false

/-! ## The scales -/

/-- One tick of the unit: K, R and T advance, K and R hold at their largest values and T's seconds
wrap (R1, R4, R5). -/
def TimeScale.tick (ts : TimeScale) : TimeScale :=
  let rNext := (ts.r.units : Int) + (Config.tickUnits + ts.f)
  let tNext := ((ts.t.units : Int) + (Config.tickUnits + ts.f + ts.p)).toNat
  { ts with
    k := min Config.kMax (ts.k + 1)
    r := if (Config.timeRange : Int) ≤ rNext then TimeVal.largest else TimeVal.ofUnits rNext.toNat
    t := TimeVal.ofUnits tNext
    wraps := ts.wraps + tNext / Config.timeRange }

/-- T read together with its wrap count, in units of 2^-32 ns (R6). -/
def TimeScale.totalT (ts : TimeScale) : Nat := ts.wraps * Config.timeRange + ts.t.units

/-- The adjustment total Q, T minus R, exactly (R7). -/
def TimeScale.qExact (ts : TimeScale) : Int := (ts.totalT : Int) - (ts.r.units : Int)

/-- Q as presented: modulo 2^96 ns, 128 bits in units of 2^-32 ns (R7). -/
def TimeScale.q (ts : TimeScale) : QWord := BitVec.ofInt 128 ts.qExact

/-- The pending step can be applied on this tick: no launch holds it and its first tick has come
(R12, R14). -/
def TimeScale.stepDue (ts : TimeScale) : Bool :=
  match ts.step with
  | some p =>
    match p.due with
    | some d => decide (d ≤ ts.k)
    | none => false
  | none => false

/-- A step of `amount` ns would carry T below zero (R16). -/
def TimeScale.stepLimited (ts : TimeScale) (amount : Int) : Bool :=
  decide ((ts.t.units : Int) + amount * Config.unitsPerNs < 0)

/-- The unit with its pending step applied: T moved by the amount, or set to 0 where the step would
carry it below zero (R16). -/
def TimeScale.stepped (ts : TimeScale) : TimeScale :=
  match ts.step with
  | none => ts
  | some p =>
    if ts.stepLimited p.amount then { ts with t := TimeVal.zero, step := none }
    else
      let tNext := ((ts.t.units : Int) + p.amount * Config.unitsPerNs).toNat
      { ts with
        t := TimeVal.ofUnits tNext
        wraps := ts.wraps + tNext / Config.timeRange
        step := none }

/-- The applied amount of the pending step in units of 2^-32 ns: the change it makes to T (R16). -/
def TimeScale.appliedUnits (ts : TimeScale) : Int :=
  match ts.step with
  | none => 0
  | some p => if ts.stepLimited p.amount then -(ts.t.units : Int) else p.amount * Config.unitsPerNs

/-- The applied amount as announced: truncated to whole ns (R17). -/
def TimeScale.appliedNs (ts : TimeScale) : Int := truncDiv ts.appliedUnits Config.unitsPerNs

/-- The unit as it presents its values on this tick: after the tick's advance and after any phase step
applied on the same tick, whichever command of the tick is taken first (R13, R21). -/
def TimeScale.shown (ts : TimeScale) : TimeScale := if ts.stepDue then ts.stepped else ts

/-- T as presented on this tick (R13). -/
def State.nowT (s : State) : TimeVal := s.time.shown.t

/-- R as presented on this tick (R13). -/
def State.nowR (s : State) : TimeVal := s.time.shown.r

/-- Q as presented on this tick (R13). -/
def State.nowQ (s : State) : QWord := s.time.shown.q

/-- The capture of an edge first seen on this tick, with the ordinal given (R21). -/
def State.capture (s : State) (ordinal : Count32) : Capture where
  t := s.nowT
  r := s.nowR
  k := s.k
  q := s.nowQ
  ordinal := ordinal

/-- An edge first seen now is too soon after the previous accepted edge of its input (R24). -/
def tooSoon (spacing k : Nat) (slot : Option Capture) : Bool :=
  match slot with
  | some c => decide (k - c.k < spacing)
  | none => false

/-! ## The servo's controls (R9 to R15) -/

/-- F set by the servo and clamped by the unit (R9, R10). -/
def TimeScale.setF (v : Int) (ts : TimeScale) : TimeScale :=
  { ts with f := clampSym Config.fLimit v }

/-- P set by the servo: clamped, or discarded while a step is pending (R9, R11). -/
def TimeScale.setP (v : Int) (ts : TimeScale) : TimeScale :=
  if ts.step.isSome then ts else { ts with p := clampSym Config.pLimit v }

/-- A step request of `amount` ns taken while LINK_KEY is asserted or not (`keyed`): it makes the
pending step or adds to it, and P becomes 0 (R11, R12, R14, R15). -/
def TimeScale.request (keyed : Bool) (amount : Int) (ts : TimeScale) : TimeScale :=
  match ts.step with
  | none =>
    { ts with
      p := 0
      step := some { amount := clampSym Config.stepLimit63 amount,
                     due := if keyed then none else some (ts.k + 1) } }
  | some q =>
    { ts with
      p := 0
      step := some { q with amount := clampSym Config.stepLimit63 (q.amount + amount) } }

/-- The end of a launch lets a held step go on the following tick (R14, R50). -/
def TimeScale.release (ts : TimeScale) : TimeScale :=
  match ts.step with
  | some { amount := a, due := none } => { ts with step := some ⟨a, some (ts.k + 1)⟩ }
  | _ => ts

/-! ## Alerts -/

/-- The port with one alert set (R185). -/
def RecordPort.latch (a : Alert) (p : RecordPort) : RecordPort :=
  { p with alerts := p.alerts.set a }

/-- The part with one alert set (R185). -/
def State.latch (a : Alert) (s : State) : State := { s with port := s.port.latch a }

/-! ## The arrival of a record (R178 to R182) -/

/-- The lowest queued class: the highest class number waiting (R181). -/
def lowestClass (queue : List Record) : Nat := queue.foldl (fun m r => max m r.cls) 0

/-- The highest class waiting: the least class number (R178). -/
def highestClass (queue : List Record) : Nat := queue.foldl (fun m r => min m r.cls) 5

/-- The queue without the oldest record of a class. -/
def removeOldest (cls : Nat) (queue : List Record) : List Record :=
  queue.eraseP fun r => r.cls == cls

/-- The queue without the newest record of a class (R181). -/
def removeNewest (cls : Nat) (queue : List Record) : List Record :=
  (queue.reverse.eraseP fun r => r.cls == cls).reverse

/-- A record of a class is dropped or displaced: counted, and RECORD_DROP latched (R182). -/
def RecordPort.drop (cls : Nat) (p : RecordPort) : RecordPort :=
  { p with drops := p.drops.count cls, alerts := p.alerts.set .recordDrop }

/-- An arriving record is early-dropped, queued, displaces the newest record of the lowest class, or is
dropped at a full queue (R180, R181). -/
def RecordPort.enqueue (r : Record) (p : RecordPort) : RecordPort :=
  if 4 ≤ r.cls ∧ 12 ≤ p.queue.length then p.drop r.cls
  else if p.queue.length < 16 then { p with queue := p.queue ++ [r] }
  else if r.cls < lowestClass p.queue then
    { p.drop (lowestClass p.queue) with
      queue := removeNewest (lowestClass p.queue) p.queue ++ [r] }
  else p.drop r.cls

/-- The head of the queue: the oldest record of the highest class waiting (R178). -/
def headRecord (queue : List Record) : Option Record :=
  queue.find? fun r => r.cls == highestClass queue

/-- An IDLE transmitter takes the head of the queue, if there is one, and begins its frame on tick `k`
(R178). -/
def RecordPort.takeHead (k : Nat) (p : RecordPort) : RecordPort :=
  match p.frame with
  | some _ => p
  | none =>
    match headRecord p.queue with
    | none => p
    | some r =>
      { p with
        queue := removeOldest (highestClass p.queue) p.queue
        frame := some { start := k, bytes := r.frame } }

/-- A record arrives on tick `k`; an IDLE transmitter takes it on the same tick once the configuration
read has ended (R178, R180, R181). -/
def RecordPort.arrive (k : Nat) (ended : Bool) (r : Record) (p : RecordPort) : RecordPort :=
  if ended then (p.enqueue r).takeHead k else p.enqueue r

/-- A block hands a record to the Record Port. -/
def State.arrive (r : Record) (s : State) : State :=
  { s with port := s.port.arrive s.k s.ended r }

end Sys2Proof.Machine
end

