-- ==== Sys2Proof/Machine/MarkLink.lean ====
section
/-!
DEFINITION. The Mark Link Controller's sending side (3.3 to 3.5): draws, launch slots, the channel
check, the composing of a mark, the end of a launch, the echo queue, MUTED.
-/

namespace Sys2Proof.Machine

/-! ## Draws (R42) -/

/-- One step of the register: bits 16, 14, 13 and 11 of R42 are bits 15, 13, 12 and 10 here. -/
def lfsrStep (x : BitVec 16) : BitVec 16 :=
  let new := x.getLsbD 15 ^^ x.getLsbD 13 ^^ x.getLsbD 12 ^^ x.getLsbD 10
  x <<< 1 ||| (if new then 1 else 0)

/-- `n` steps of the register. -/
def lfsrSteps : Nat → BitVec 16 → BitVec 16
  | 0, x => x
  | n + 1, x => lfsrSteps n (lfsrStep x)

/-- A draw: sixteen steps; the register's value is the result (R42). -/
def lfsrDraw (x : BitVec 16) : BitVec 16 := lfsrSteps 16 x

/-- The seed for a strapped station number (R42). -/
def lfsrSeed (station : Nat) : BitVec 16 :=
  let seed := BitVec.ofNat 16 (station * 257) ^^^ 0x5A3C
  if seed = 0 then 1 else seed

/-! ## Slots and schedule -/

/-- The launch slot of a kind (3.3). -/
def MarkLink.slot (l : MarkLink) : MarkKind → Option LaunchSlot
  | .regular => l.regular
  | .notice => l.notice

/-- The launch slot of a kind replaced. -/
def MarkLink.setSlot (l : MarkLink) (kind : MarkKind) (sl : Option LaunchSlot) : MarkLink :=
  match kind with
  | .regular => { l with regular := sl }
  | .notice => { l with notice := sl }

/-- A change of the controller's own state. -/
def State.withLink (f : MarkLink → MarkLink) (s : State) : State := { s with link := f s.link }

/-- The launch offset of a regular launch in milliseconds for the draw given (R43). -/
def launchOffsetMs (c : Settings) (draw : Nat) : Nat :=
  c.mSeconds * 1000 * (128 + draw % 768) / 1024

/-- The regular slot that the draw given sets at an interval start (R43). -/
def regularSlot (c : Settings) (start draw : Nat) : LaunchSlot :=
  let ref := start + launchOffsetMs c draw * Config.ticksPerMs
  { keyUp := ref - c.lead, ref := ref, deferrals := 0, bound := start + c.markTicks }

/-- A mark interval starts on tick `start`; unless MUTED a draw sets the regular slot pending (R41,
R43). -/
def MarkLink.startInterval (c : Settings) (start : Nat) (l : MarkLink) : MarkLink :=
  let l' := { l with schedule := .running (start + c.markTicks) }
  if l.muted then l'
  else
    { l' with
      lfsr := lfsrDraw l.lfsr
      regular := some (regularSlot c start (lfsrDraw l.lfsr).toNat) }

/-- LISTEN_PERIOD_END is due (R41). -/
def State.listenPeriodEndDue (s : State) : Bool :=
  match s.link.schedule with
  | .listening u => decide (u ≤ s.k)
  | .idle => false
  | .running _ => false

/-- The tick at which the listen period ends or the mark interval in progress ends (R41). -/
def Schedule.turn : Schedule → Nat
  | .idle => 0
  | .listening u => u
  | .running e => e

/-- LISTEN_PERIOD_END (R41): the first mark interval begins on this tick. -/
def execListenPeriodEnd (s : State) : Host.Outcome State Fault Refusal :=
  .next (if s.listenPeriodEndDue then
    s.withLink (MarkLink.startInterval s.cfg s.link.schedule.turn) else s)

/-- MARK_INTERVAL_START is due: the interval in progress ends on this tick (R41). -/
def State.markIntervalStartDue (s : State) : Bool :=
  match s.link.schedule with
  | .running e => decide (e ≤ s.k)
  | .idle => false
  | .listening _ => false

/-- MARK_INTERVAL_START (R43). -/
def execMarkIntervalStart (s : State) : Host.Outcome State Fault Refusal :=
  .next (if s.markIntervalStartDue then
    s.withLink (MarkLink.startInterval s.cfg s.link.schedule.turn) else s)

/-! ## The NOTICE request (R45) -/

/-- The end of the mark interval in which a tick lies, the current interval ending at `e`. -/
def intervalEndOf (c : Settings) (e ref : Nat) : Nat :=
  if ref < e then e else e + ((ref - e) / c.markTicks + 1) * c.markTicks

/-- The regular slot's key-up is due within the next 1,024 ms. -/
def regularSoon (k : Nat) (l : MarkLink) : Bool :=
  match l.regular with
  | some sl => decide (sl.keyUp ≤ k + 20480000)
  | none => false

/-- The NOTICE slot that the draw given sets on tick `k` (R45). -/
def noticeSlot (c : Settings) (k e draw : Nat) : LaunchSlot :=
  let keyUp := k + draw % 1024 * Config.ticksPerMs
  { keyUp := keyUp, ref := keyUp + c.lead, deferrals := 0
    bound := intervalEndOf c e (keyUp + c.lead) }

/-- The controller after a NOTICE request on tick `k`: ignored in five cases, else the NOTICE slot is
pending after a draw (R45). -/
def MarkLink.requestNotice (c : Settings) (k : Nat) (l : MarkLink) : MarkLink :=
  match l.schedule with
  | .running e =>
    if l.muted || l.flight.isSome || l.notice.isSome || regularSoon k l then l
    else
      { l with
        lfsr := lfsrDraw l.lfsr
        notice := some (noticeSlot c k e (lfsrDraw l.lfsr).toNat) }
  | .idle => l
  | .listening _ => l

/-! ## The echo queue (R51, R52) -/

/-- The queue without the entries whose launch count at receipt is 2 or more below the count given
(R52). -/
def ageEchoes (count : Count32) (q : List EchoEntry) : List EchoEntry :=
  q.filter fun e => decide ((count - e.count).toNat < 2)

/-- The echo entries without those of a station. -/
def dropStation (station : Nat) (q : List EchoEntry) : List EchoEntry :=
  q.filter fun e => decide (e.station ≠ station)

/-- The controller with an echo entry placed at the tail: it replaces the sender's own entry, or the
oldest of eight, which is counted (R51). -/
def MarkLink.placeEcho (e : EchoEntry) (l : MarkLink) : MarkLink :=
  if l.echoes.any fun x => decide (x.station = e.station) then
    { l with echoes := dropStation e.station l.echoes ++ [e] }
  else if 8 ≤ l.echoes.length then
    { l with
      echoes := l.echoes.tail ++ [e]
      echoOverwritten := bump l.echoOverwritten }
  else { l with echoes := l.echoes ++ [e] }

/-! ## The channel check (R44) -/

/-- The receiver is in ASSEMBLE (R53). -/
def RxState.assembling : RxState → Bool
  | .stopped => false
  | .hunt _ => false
  | .assemble _ _ => true

/-- LINK_CD is asserted on this tick. -/
def State.carrier (s : State) : Bool :=
  match s.lines.levels with
  | some p => p.linkCd
  | none => false

/-- The channel is busy (R44). -/
def State.channelBusy (s : State) : Bool :=
  s.carrier || s.link.rx.assembling || s.link.flight.isSome

/-- KEY_UP_CHECK of a slot is due (R44). -/
def State.keyUpDue (kind : MarkKind) (s : State) : Bool :=
  match s.link.slot kind with
  | some sl => decide (sl.keyUp ≤ s.k)
  | none => false

/-- The launch of a slot is keyed: LINK_KEY asserted, the receiver stopped, the link captures given up
(R26, R28, R44, R53). -/
def keyLaunch (kind : MarkKind) (sl : LaunchSlot) (s : State) : State :=
  { s with
    link :=
      { s.link.setSlot kind none with
        flight := some { kind := kind, ref := sl.ref, body := none }
        rx := .stopped
        byteIn := none }
    cap := { s.cap with ref := .idle, provisional := none } }

/-- A launch is skipped: the slot absent, the launch count advanced, the echo queue aged (R44, R52). -/
def MarkLink.skip (kind : MarkKind) (l : MarkLink) : MarkLink :=
  { l.setSlot kind none with
    skipped := bump l.skipped
    launchCount := l.launchCount + 1
    echoes := ageEchoes (l.launchCount + 1) l.echoes }

/-- The delay of a deferral for the draw given, in ticks (R44). -/
def deferralDelay (draw : Nat) : Nat := (20 + draw % 256) * Config.ticksPerMs

/-- A busy launch is deferred or skipped (R44). -/
def MarkLink.deferOrSkip (kind : MarkKind) (sl : LaunchSlot) (l : MarkLink) : MarkLink :=
  if sl.deferrals < 3 then
    let drawn := { l with lfsr := lfsrDraw l.lfsr }
    let delay := deferralDelay (lfsrDraw l.lfsr).toNat
    if sl.ref + delay < sl.bound then
      { drawn.setSlot kind
          (some { sl with
            keyUp := sl.keyUp + delay, ref := sl.ref + delay, deferrals := sl.deferrals + 1 }) with
        deferred := bump l.deferred }
    else drawn.skip kind
  else l.skip kind

/-- The key-up check of a pending slot (R44). -/
def keyUpCheck (kind : MarkKind) (s : State) : State :=
  match s.link.slot kind with
  | some sl =>
    if s.channelBusy then s.withLink (MarkLink.deferOrSkip kind sl) else keyLaunch kind sl s
  | none => s

/-- KEY_UP_CHECK (R44). -/
def execKeyUpCheck (kind : MarkKind) (s : State) : Host.Outcome State Fault Refusal :=
  .next (if s.keyUpDue kind then keyUpCheck kind s else s)

/-! ## The reference instant (R47 to R49) -/

/-- The hold of an echo item: R on the reference-instant tick less R at receipt (R48). -/
def echoHold (r rx : TimeVal) : Nat := min (2 ^ 48 - 1) ((r.units - rx.units) / Config.unitsPerNs)

/-- The echo item that answers an entry (R48). -/
def echoItem (r : TimeVal) (e : EchoEntry) : EchoItem where
  station := e.station
  seq := e.seq
  hold := echoHold r e.r

/-- The advertised U code: ceil(U / 16), saturating (R47). -/
def uCode (u : Nat) : Nat := min 16777215 (ceilDiv u 16)

/-- The notice item that carries an outgoing notice (R47). -/
def noticeItem (n : OutNotice) : NoticeItem := ⟨n.seq, Stamp.ofNs n.time⟩

/-- The mark composed on the reference-instant tick of a launch (R47, R48). -/
def composeMark (kind : MarkKind) (s : State) : Mark where
  version := 1
  kind := markKindCode kind
  station := s.own
  seq := s.link.nextSeq
  time := s.nowT.stamp
  uCode := uCode s.servo.advU
  depth := s.servo.advDepth
  clock := s.servo.clock.code
  echoes := (s.link.echoes.take 6).map (echoItem s.nowR)
  notices := (s.coinc.outgoing.take 4).map noticeItem

/-- The outgoing notices after a launch carried them: a first launch counts, a second removes (R165). -/
def carried (outgoing : List OutNotice) : List OutNotice :=
  (outgoing.filter fun n => decide (n.sends = 0)).map fun n => { n with sends := 1 }

/-- The launch list with a launch added; the oldest of four leaves (R49). -/
def addLaunch (e : LaunchEntry) (l : List LaunchEntry) : List LaunchEntry :=
  (if l.length < 4 then l else l.tail) ++ [e]

/-- REFERENCE_INSTANT is due: the launch in flight has reached its tick and is not composed (R47). -/
def State.referenceInstantDue (s : State) : Bool :=
  match s.link.flight with
  | some f => decide (f.ref ≤ s.k ∧ f.body = none)
  | none => false

/-- The part at the reference instant of a launch of the kind given: body composed, launch listed and
counted, echo entries taken and the rest aged, notices carried (R47 to R49, R52, R165). -/
def composeLaunch (f : Flight) (s : State) : State :=
  { s with
    link :=
      { s.link with
        flight := some { f with body := some (composeMark f.kind s).body }
        launches := addLaunch ⟨s.link.nextSeq, s.nowR⟩ s.link.launches
        nextSeq := s.link.nextSeq + 1
        launchCount := s.link.launchCount + 1
        echoes := ageEchoes (s.link.launchCount + 1) (s.link.echoes.drop 6) }
    coinc := { s.coinc with outgoing := carried s.coinc.outgoing } }

/-- The reference instant of the launch in flight (R47). -/
def referenceInstant (s : State) : State :=
  match s.link.flight with
  | some f => composeLaunch f s
  | none => s

/-- REFERENCE_INSTANT (R47). -/
def execReferenceInstant (s : State) : Host.Outcome State Fault Refusal :=
  .next (if s.referenceInstantDue then referenceInstant s else s)

/-! ## The end of a launch (R50) -/

/-- LAUNCH_END is due: the last stop bit of the frame ends (R38, R50). -/
def State.launchEndDue (s : State) : Bool :=
  match s.link.flight with
  | some { kind := _, ref := r, body := some b } =>
    decide (frameEndTick s.cfg.linkRate r b.length ≤ s.k)
  | some { kind := _, ref := _, body := none } => false
  | none => false

/-- The launch in flight ends: LINK_KEY released, the receiver in HUNT with an empty history, the level
of LINK_RXD taken anew on the next tick, a held step let go on the next tick (R14, R28, R50, R53). -/
def launchEnd (s : State) : State :=
  { s with
    time := s.time.release
    link := { s.link with flight := none, rx := .hunt none, byteIn := none }
    cap := { s.cap with linkPrevK := s.k + 1 } }

/-- LAUNCH_END (R50). -/
def execLaunchEnd (s : State) : Host.Outcome State Fault Refusal :=
  .next (if s.launchEndDue then launchEnd s else s)

/-! ## MUTED (R59) -/

/-- Entry to MUTED: slots absent, echo queue empty, the alert raised; no further effect if already
MUTED (R59). -/
def State.enterMuted (s : State) : State :=
  if s.link.muted then s
  else
    (s.withLink fun l => { l with muted := true, regular := none, notice := none, echoes := [] }).latch
      .muted

end Sys2Proof.Machine
end

