-- ==== Sys2Proof/Machine/PeerTable.lean ====
section
/-!
DEFINITION. The Peer Table (chapter 4): lookups, the use of a mark, exchanges and their history, the
offset now, notice admission, reports, and the commands of the entries' timers.
-/

namespace Sys2Proof.Machine

/-! ## Lookups -/

/-- The entry of a slot number; absent for an EMPTY slot and for a number that is no slot. -/
def PeerTable.entry (p : PeerTable) (slot : Nat) : Option PeerEntry := p.slots.getD slot none

/-- A slot holds an entry of the station given. -/
def holdsStation (station : Nat) (slot : Option PeerEntry) : Bool :=
  match slot with
  | some e => decide (e.station = station)
  | none => false

/-- The entry that holds a station number. -/
def PeerTable.find (p : PeerTable) (station : Nat) : Option PeerEntry :=
  (p.slots.find? (holdsStation station)).join

/-- The entry of a slot replaced, or the slot emptied. -/
def PeerTable.put (p : PeerTable) (slot : Nat) (e : Option PeerEntry) : PeerTable :=
  { p with slots := p.slots.set slot e }

/-- One slot with the entry of a station changed by `f`. -/
def modifySlot (station : Nat) (f : PeerEntry → PeerEntry) (slot : Option PeerEntry) :
    Option PeerEntry :=
  match slot with
  | some e => if e.station = station then some (f e) else some e
  | none => none

/-- The table with the entry of a station changed by `f`. -/
def PeerTable.modify (station : Nat) (f : PeerEntry → PeerEntry) (p : PeerTable) : PeerTable :=
  { p with slots := p.slots.map (modifySlot station f) }

/-! ## The timers' lengths -/

/-- `n` × M seconds in ticks (4.1). -/
def peerTicks (c : Settings) (n : Nat) : Nat := n * c.markTicks

/-! ## Using a mark (R63 to R65) -/

/-- What the Peer Table takes from a used mark: the advertised values and the last-mark fields (R63). -/
structure MarkUse where
  /-- Sender's station number. -/
  station : Nat
  /-- Its sequence. -/
  seq : Seq
  /-- Its advertised uncertainty, code × 16 ns. -/
  advU : Nat
  /-- Its advertised depth. -/
  advDepth : Nat
  /-- Its advertised clock state. -/
  advClock : ClockState
  /-- K of the reference capture. -/
  k : Nat
deriving DecidableEq, Repr

/-- A known sender's entry with its advertised values and last-mark fields rewritten (R63). -/
def PeerEntry.use (m : MarkUse) (e : PeerEntry) : PeerEntry :=
  { e with
    advU := m.advU, advDepth := m.advDepth, advClock := m.advClock, lastSeq := m.seq, lastK := m.k }

/-- The entry of a newly admitted station (R64). -/
def PeerEntry.admitted (m : MarkUse) : PeerEntry where
  station := m.station
  state := .trial
  advU := m.advU
  advDepth := m.advDepth
  advClock := m.advClock
  lastSeq := m.seq
  lastK := m.k
  history := []
  rejects := 0
  barEnd := none
  recent := []

/-- The slot from number `i` on whose entry is in the state given with the smallest last-mark K, the
lower slot on a tie; `best` is the best slot before `i` with its last-mark K (R64). -/
def leastHeard (state : EntryState) : List (Option PeerEntry) → Nat → Option (Nat × Nat) → Option Nat
  | [], _, best => best.map Prod.fst
  | slot :: rest, i, best =>
    match slot with
    | some e =>
      if e.state = state ∧ (best.all fun b => decide (e.lastK < b.2)) then
        leastHeard state rest (i + 1) (some (i, e.lastK))
      else leastHeard state rest (i + 1) best
    | none => leastHeard state rest (i + 1) best

/-- The slot an unknown sender takes: the lowest EMPTY slot, else the SILENT entry heard least
recently, else the TRIAL entry heard least recently; absent where every slot is TRACKED or BARRED
(R64, R65). -/
def PeerTable.slotToTake (p : PeerTable) : Option Nat :=
  match p.slots.findIdx? Option.isNone with
  | some i => some i
  | none =>
    match leastHeard .silent p.slots 0 none with
    | some i => some i
    | none => leastHeard .trial p.slots 0 none

/-- The table after a mark that it uses; absent where it does not use the mark (R63 to R65). -/
def PeerTable.useMark (m : MarkUse) (p : PeerTable) : Option PeerTable :=
  if p.slots.any (holdsStation m.station) then some (p.modify m.station (PeerEntry.use m))
  else p.slotToTake.map fun i => p.put i (some (PeerEntry.admitted m))

/-! ## Exchanges (R72 to R76) -/

/-- The history with a record added; the oldest of eight leaves first (R76). -/
def addRecord (r : ExchangeRecord) (history : List ExchangeRecord) : List ExchangeRecord :=
  (if history.length < 8 then history else history.tail) ++ [r]

/-- The state of an entry after a record is added, `n` records then held (R75). -/
def stateAfterRecord (n : Nat) : EntryState → EntryState
  | .trial => if 3 ≤ n then .tracked else .trial
  | .tracked => .tracked
  | .silent => if 3 ≤ n then .tracked else .trial
  | .barred => .barred

/-- The entry after an accepted exchange (R75). -/
def PeerEntry.record (r : ExchangeRecord) (e : PeerEntry) : PeerEntry :=
  { e with
    history := addRecord r e.history
    state := stateAfterRecord (addRecord r e.history).length e.state }

/-- The round-trip delay of an exchange: the interval on R less the hold (R73). -/
def exchangeDelay (r4 r1 : TimeVal) (hold : Nat) : Int :=
  truncDiv ((r4.units : Int) - (r1.units : Int)) Config.unitsPerNs - hold

/-- The offset of an accepted exchange (R74). -/
def exchangeOffset (t3 : Stamp) (t4 : TimeVal) (d : Int) : Int :=
  holdOffset (((t3.nsCount : Int) - (t4.nsCount : Int)) + truncDiv d 2)

/-- One echo item that names this part, in a mark of `station` with launch time `t3` and reference
capture `c`; `r1` is the R the launch list gives for the item's sequence (R72 to R75). -/
def PeerTable.exchange (station : Nat) (t3 : Stamp) (c : Capture) (limit : Nat)
    (r1 : Option TimeVal) (hold : Nat) (p : PeerTable) : PeerTable :=
  match r1 with
  | none => { p with staleEcho := bump p.staleEcho }
  | some r =>
    let d := exchangeDelay c.r r hold
    if d < 0 then { p with negativeDelay := bump p.negativeDelay }
    else if (limit : Int) < d then { p with delayOver := bump p.delayOver }
    else p.modify station
      (PeerEntry.record { theta := exchangeOffset t3 c.t d, d := d.toNat, q := c.q, k := c.k })

/-! ## The offset now (R78 to R80) -/

/-- The record with the least delay, the most recent of several (R78). -/
def bestRecord : List ExchangeRecord → Option ExchangeRecord
  | [] => none
  | r :: rest => some (rest.foldl (fun b x => if x.d ≤ b.d then x else b) r)

/-- Greatest delay less least delay over a history (R80). -/
def delaySpread (history : List ExchangeRecord) : Nat :=
  history.foldl (fun m r => max m r.d) 0 -
    (match bestRecord history with
     | some b => b.d
     | none => 0)

/-- What the entry derives at a read on tick `k` with Q presented as `q`; absent for an empty history
(R78 to R80). -/
def PeerEntry.derive (q : QWord) (k : Nat) (e : PeerEntry) : Option PeerOffset :=
  (bestRecord e.history).map fun b =>
    { theta := holdOffset (b.theta - qDiffNs q b.q)
      leastD := b.d
      spread := delaySpread e.history
      u := holdU (e.advU + ceilDiv (delaySpread e.history) 2 + 100 +
        (k - b.k) / Config.ticksPerSecond) }

/-! ## Notices (R82) -/

/-- The answers of a notice admission (R82). -/
inductive Admission
  | untracked
  | repeated
  | new (theta : Int) (u : Nat)
deriving DecidableEq, Repr

/-- The recent-notice list with a sequence added at the tail; the oldest of four leaves first (R82). -/
def addRecent (seq : Seq) (recent : List Seq) : List Seq :=
  (if recent.length < 4 then recent else recent.tail) ++ [seq]

/-- The answer to a notice of `station` with the trigger sequence given (R82). A TRACKED entry with an
empty history, which no timely sequence of commands reaches, has no offset and answers *untracked*
(log 19). -/
def PeerTable.answer (q : QWord) (k station : Nat) (seq : Seq) (p : PeerTable) : Admission :=
  match p.find station with
  | none => .untracked
  | some e =>
    if e.state ≠ .tracked then .untracked
    else if seq ∈ e.recent then .repeated
    else
      match e.derive q k with
      | some o => .new o.theta o.u
      | none => .untracked

/-- The table after a notice was answered *new*: the sequence joins the recent-notice list (R82). -/
def PeerTable.noteNotice (station : Nat) (seq : Seq) (p : PeerTable) : PeerTable :=
  p.modify station fun e => { e with recent := addRecent seq e.recent }

/-! ## Reports (R70) -/

/-- A TRACKED entry after the report that its peer survived or was rejected (R70). -/
def PeerEntry.report (k barTicks : Nat) (survived : Bool) (e : PeerEntry) : PeerEntry :=
  if e.state ≠ .tracked then e
  else if survived then { e with rejects := 0 }
  else if e.rejects + 1 < 4 then { e with rejects := e.rejects + 1 }
  else { e with rejects := 4, state := .barred, barEnd := some (k + barTicks) }

/-! ## Commands of the entries' timers -/

/-- A TRIAL entry unheard for 4M seconds (R67). -/
def State.trialTimeoutDue (slot : Nat) (s : State) : Bool :=
  match s.peers.entry slot with
  | some e => decide (e.state = .trial ∧ e.lastK + peerTicks s.cfg 4 ≤ s.k)
  | none => false

/-- A TRACKED entry whose newest record is 4M seconds old (R68). -/
def State.trackedSilentDue (slot : Nat) (s : State) : Bool :=
  match s.peers.entry slot with
  | some e =>
    match e.history.getLast? with
    | some r => decide (e.state = .tracked ∧ r.k + peerTicks s.cfg 4 ≤ s.k)
    | none => false
  | none => false

/-- A SILENT entry unheard for 16M seconds (R69). -/
def State.silentTimeoutDue (slot : Nat) (s : State) : Bool :=
  match s.peers.entry slot with
  | some e => decide (e.state = .silent ∧ e.lastK + peerTicks s.cfg 16 ≤ s.k)
  | none => false

/-- The oldest record of an entry is 8M seconds old (R77). -/
def State.recordExpiryDue (slot : Nat) (s : State) : Bool :=
  match s.peers.entry slot with
  | some e =>
    match e.history with
    | r :: _ => decide (r.k + peerTicks s.cfg 8 ≤ s.k)
    | [] => false
  | none => false

/-- A BARRED entry's barring end is reached (R71). -/
def State.barringEndDue (slot : Nat) (s : State) : Bool :=
  match s.peers.entry slot with
  | some e =>
    match e.barEnd with
    | some b => decide (e.state = .barred ∧ b ≤ s.k)
    | none => false
  | none => false

/-- The part with a slot emptied (R66). -/
def State.emptySlot (slot : Nat) (s : State) : State := { s with peers := s.peers.put slot none }

/-- The part with the entry of a slot changed by `f`. -/
def State.modifyEntry (slot : Nat) (f : PeerEntry → PeerEntry) (s : State) : State :=
  { s with peers := s.peers.put slot ((s.peers.entry slot).map f) }

/-- The entry at the end of its barring (R71). -/
def PeerEntry.unbarred (e : PeerEntry) : PeerEntry :=
  { e with state := .trial, rejects := 0, history := [], barEnd := none }

/-- The outcome of a peer-timer command: a slot number that is no slot is a fault; a timer that is not
due leaves the part as it is. -/
def slotCommand (slot : Nat) (due : Bool) (next s : State) : Host.Outcome State Fault Refusal :=
  if slot < Config.peerSlots then .next (if due then next else s) else .fault (.noSuchSlot slot)

/-- TRIAL_TIMEOUT (R67): the entry becomes EMPTY. -/
def execTrialTimeout (slot : Nat) (s : State) : Host.Outcome State Fault Refusal :=
  slotCommand slot (s.trialTimeoutDue slot) (s.emptySlot slot) s

/-- TRACKED_SILENT (R68): the entry becomes SILENT and keeps all else. -/
def execTrackedSilent (slot : Nat) (s : State) : Host.Outcome State Fault Refusal :=
  slotCommand slot (s.trackedSilentDue slot)
    (s.modifyEntry slot fun e => { e with state := .silent }) s

/-- SILENT_TIMEOUT (R69): the entry becomes EMPTY. -/
def execSilentTimeout (slot : Nat) (s : State) : Host.Outcome State Fault Refusal :=
  slotCommand slot (s.silentTimeoutDue slot) (s.emptySlot slot) s

/-- RECORD_EXPIRY (R77): the oldest record leaves the history. -/
def execRecordExpiry (slot : Nat) (s : State) : Host.Outcome State Fault Refusal :=
  slotCommand slot (s.recordExpiryDue slot)
    (s.modifyEntry slot fun e => { e with history := e.history.tail }) s

/-- BARRING_END (R71): the entry becomes TRIAL with a cleared history and count. -/
def execBarringEnd (slot : Nat) (s : State) : Host.Outcome State Fault Refusal :=
  slotCommand slot (s.barringEndDue slot) (s.modifyEntry slot PeerEntry.unbarred) s

end Sys2Proof.Machine
end

