-- ==== Sys2Proof/Machine/Trigger.lean ====
section
/-!
DEFINITION. The Coincidence Unit (chapter 10): own triggers, peers' notices, the coincidence list, the
declaration of a coincidence, and the commands TRIG_IN_EDGE, LIST_EXPIRY and COINC_OUT_PULSE_END.
-/

namespace Sys2Proof.Machine

/-! ## Times -/

/-- T of this tick as the unit reads it: whole ns, held at 2^62 (10.1). -/
def State.coincT (s : State) : Nat := holdTime s.nowT.nsCount

/-- 300 s in ns (R167, R168). -/
def staleAge : Nat := 300000000000

/-- A time lies more than 300 s before `now` (R167, R168). -/
def stale (now time : Nat) : Bool := decide (time + staleAge < now)

/-- A change of the unit's own state. -/
def State.withCoinc (f : Coincidence → Coincidence) (s : State) : State :=
  { s with coinc := f s.coinc }

/-! ## The order of the list (R167) -/

/-- Entry `a` stands before entry `b`: by time, then station, then insertion (R167). -/
def CoincEntry.before (a b : CoincEntry) : Bool :=
  decide (a.time < b.time ∨ (a.time = b.time ∧
    (a.station < b.station ∨ (a.station = b.station ∧ a.order ≤ b.order))))

/-- An entry placed at its position in the order (R167). -/
def placeEntry (e : CoincEntry) : List CoincEntry → List CoincEntry
  | [] => [e]
  | x :: xs => if e.before x then e :: x :: xs else x :: placeEntry e xs

/-- The list restored to its order (R174, R175). -/
def orderEntries (l : List CoincEntry) : List CoincEntry := l.foldr placeEntry []

/-- Two entries have the same station and trigger sequence (R167). -/
def CoincEntry.sameKey (a b : CoincEntry) : Bool :=
  decide (a.station = b.station ∧ a.seq = b.seq)

/-! ## Declaring (R169 to R172) -/

/-- A time lies in a window, both ends included (R169). -/
def Window.has (w : Window) (time : Nat) : Bool := decide (w.lo ≤ time ∧ time ≤ w.hi)

/-- The unclaimed entries whose times lie in [x, x + W] (R169). -/
def openIn (w x : Nat) (l : List CoincEntry) : List CoincEntry :=
  l.filter fun e => !e.claimed && decide (x ≤ e.time ∧ e.time ≤ x + w)

/-- The distinct stations of entries (R169). -/
def stationsOf (l : List CoincEntry) : List Nat :=
  l.foldl (fun acc e => if e.station ∈ acc then acc else acc ++ [e.station]) []

/-- The number of distinct stations among the unclaimed entries in [x, x + W] (R169). -/
def stationCount (w x : Nat) (l : List CoincEntry) : Nat := (stationsOf (openIn w x l)).length

/-- The entry at which the search for an entry at time `t` starts the window: the first unclaimed entry in
[t - W, t] whose window holds K_c stations (R169). -/
def windowStart (w kc t : Nat) (l : List CoincEntry) : Option CoincEntry :=
  l.find? fun x =>
    !x.claimed && decide (x.time ≤ t ∧ t ≤ x.time + w) && decide (kc ≤ stationCount w x.time l)

/-- An entry claimed when it is unclaimed and lies in [x, x + W] (R170). -/
def claimIn (w x : Nat) (e : CoincEntry) : CoincEntry :=
  if x ≤ e.time ∧ e.time ≤ x + w then { e with claimed := true } else e

/-- The declared-window list with a window added; the oldest of four leaves (R170). -/
def addWindow (w : Window) (l : List Window) : List Window :=
  (if l.length < 4 then l else l.tail) ++ [w]

/-- The station item of a claimed entry (R172). -/
def stationItem (x : Nat) (e : CoincEntry) : StationItem where
  station := e.station
  offset := (e.time - x) / 1000
  u := ceilDiv e.u 1000

/-- The COINCIDENCE record of a declaration for [x, x + W] that claims the entries given (R172). -/
def coincRecord (window x : Nat) (claimed : List CoincEntry) : CoincRec where
  start := Stamp.ofNs x
  window := window
  stations := (stationsOf claimed).length
  items := (claimed.take 16).map (stationItem x)

/-- The window that starts at an entry: its times stand on the scale on which the entry's time was stored
(R169, R175; DEDUCED, log 15). -/
def windowAt (w : Nat) (x : CoincEntry) : Window where
  lo := x.time
  hi := holdTime ((x.time + w : Nat) : Int)
  storedK := x.storedK

/-- A declaration for [x, x + W], where entry `x` starts the window: entries claimed, window added, record
queued, COINC_OUT pulsed (R170, R171). -/
def declare (x : CoincEntry) (s : State) : State :=
  (s.withCoinc fun c =>
    { c with
      list := c.list.map (claimIn s.cfg.windowNs x.time)
      windows := addWindow (windowAt s.cfg.windowNs x) c.windows
      pulseEnd := some (s.k + 200000) }).arrive
    (.coincidence (coincRecord s.cfg.window x.time (openIn s.cfg.windowNs x.time s.coinc.list)))

/-- The entry of an insertion order claimed. -/
def claimOrder (order : Nat) (e : CoincEntry) : CoincEntry :=
  if e.order = order then { e with claimed := true } else e

/-- The declaration test for an entry just placed: a late joiner is claimed at once, else the windows
that hold it are searched (R169). -/
def declarationTest (e : CoincEntry) (s : State) : State :=
  if s.coinc.windows.any fun w => w.has e.time then
    s.withCoinc fun c =>
      { c with list := c.list.map (claimOrder e.order), lateJoiner := bump c.lateJoiner }
  else
    match windowStart s.cfg.windowNs s.cfg.kc e.time s.coinc.list with
    | some x => declare x s
    | none => s

/-! ## Insertion (R167) -/

/-- The unit with an entry placed: a duplicate key removed, the earliest of 32 removed and counted, the
entry at its position (R167, steps 2 to 4). -/
def Coincidence.place (e : CoincEntry) (c : Coincidence) : Coincidence :=
  let kept := c.list.filter fun x => !x.sameKey e
  { c with
    list := placeEntry e (if kept.length < 32 then kept else kept.tail)
    coincOverflow := if kept.length < 32 then c.coincOverflow else bump c.coincOverflow
    inserted := c.inserted + 1 }

/-- The entry that an insertion on this tick makes. -/
def newEntry (s : State) (station : Nat) (seq : Seq) (time u : Nat) : CoincEntry where
  station := station
  seq := seq
  time := time
  u := u
  claimed := false
  storedK := s.k
  order := s.coinc.inserted

/-- An insertion: a stale entry is discarded, any other is placed and tested (R167). -/
def insertEntry (station : Nat) (seq : Seq) (time u : Nat) (s : State) : State :=
  if stale s.coincT time then s
  else
    declarationTest (newEntry s station seq time u)
      (s.withCoinc (Coincidence.place (newEntry s station seq time u)))

/-! ## Peers' notices (R166) -/

/-- One notice item of a used mark, from the sender given (R166, R82). -/
def peerNotice (station : Nat) (n : NoticeItem) (s : State) : State :=
  match s.peers.answer s.nowQ s.k station n.seq with
  | .untracked => s.withCoinc fun c => { c with noticeUntracked := bump c.noticeUntracked }
  | .repeated => s
  | .new theta u =>
    insertEntry station n.seq (holdTime ((n.time.nsCount : Int) - theta)) u
      { s with peers := s.peers.noteNotice station n.seq }

/-! ## Own triggers (R164, R165) -/

/-- The outgoing list with an own trigger's notice added; the oldest of four leaves and is counted
(R165). -/
def Coincidence.addOutgoing (n : OutNotice) (c : Coincidence) : Coincidence :=
  if c.outgoing.length < 4 then { c with outgoing := c.outgoing ++ [n] }
  else { c with outgoing := c.outgoing.tail ++ [n], noticeDropped := bump c.noticeDropped }

/-- An accepted trigger with its capture (R164): sequence, TRIGGER record, outgoing notice, NOTICE
request, list entry. The list entry's time is held at 2^62 ns, the outgoing notice's is not: DESIGN CHOICE,
log 29. -/
def ownTrigger (c : Capture) (s : State) : State :=
  let seq := s.coinc.seq + 1
  let recorded :=
    (s.withCoinc fun x => { x with seq := seq }).arrive
      (.trigger ⟨seq, c.t.stamp, s.servo.advU⟩)
  let noticed :=
    (recorded.withCoinc (Coincidence.addOutgoing ⟨seq, c.t.nsCount, 0, s.k⟩)).withLink
      (MarkLink.requestNotice s.cfg s.k)
  insertEntry s.own seq (holdTime c.t.nsCount) s.servo.advU noticed

/-! ## Commands -/

/-- A rising edge of TRIG_IN was first seen on this tick and TRIG_IN is enabled (R22, R36). -/
def State.trigSeen (s : State) : Bool := s.lines.edges.trig && s.afterEnd

/-- The edge of TRIG_IN taken. -/
def State.takeTrig (s : State) : State :=
  { s with lines := { s.lines with edges := { s.lines.edges with trig := false } } }

/-- An accepted trigger captured (R32). -/
def captureTrig (s : State) : State :=
  { s with
    cap :=
      { s.cap with
        trig := some (s.capture s.cap.trigEdges), trigEdges := s.cap.trigEdges + 1 } }

/-- The edge of TRIG_IN judged: ignored within the hold-off, else captured and handed over (R32). -/
def trigInEdge (s : State) : State :=
  if tooSoon s.cfg.holdOffTicks s.k s.cap.trig then s.takeTrig
  else ownTrigger (s.capture s.cap.trigEdges) (captureTrig s.takeTrig)

/-- TRIG_IN_EDGE (R32). -/
def execTrigInEdge (s : State) : Host.Outcome State Fault Refusal :=
  .next (if s.trigSeen then trigInEdge s else s)

/-- LIST_EXPIRY (R168): the entries more than 300 s before T leave. -/
def execListExpiry (s : State) : Host.Outcome State Fault Refusal :=
  .next (s.withCoinc fun c => { c with list := c.list.filter fun e => !stale s.coincT e.time })

/-- COINC_OUT_PULSE_END is due (R171). -/
def State.coincPulseEndDue (s : State) : Bool :=
  match s.coinc.pulseEnd with
  | some e => decide (e ≤ s.k)
  | none => false

/-- COINC_OUT_PULSE_END (R171). -/
def execCoincOutPulseEnd (s : State) : Host.Outcome State Fault Refusal :=
  .next (if s.coincPulseEndDue then s.withCoinc fun c => { c with pulseEnd := none } else s)

/-! ## Steps (R168, R174, R175) -/

/-- A stored time moved by the applied amount, held between 0 and 2^62; times stored on tick `k` and an
amount of 0 leave it as it is (R174, R175). -/
def moveTime (amount : Int) (k storedK time : Nat) : Nat :=
  if amount = 0 ∨ storedK = k then time else holdTime ((time : Int) + amount)

/-- The unit's stored times moved with a step announced on tick `k` (R174, R175). -/
def Coincidence.moveTimes (amount : Int) (k : Nat) (c : Coincidence) : Coincidence :=
  { c with
    list := orderEntries (c.list.map fun e => { e with time := moveTime amount k e.storedK e.time })
    windows := c.windows.map fun w =>
      { w with lo := moveTime amount k w.storedK w.lo, hi := moveTime amount k w.storedK w.hi }
    outgoing := c.outgoing.map fun n => { n with time := moveTime amount k n.storedK n.time } }

/-- Both lists emptied at a wrap of T's seconds (R168). -/
def Coincidence.emptied (c : Coincidence) : Coincidence := { c with list := [], windows := [] }

end Sys2Proof.Machine
end

