-- ==== Sys2Proof/Machine/Receive.lean ====
section
/-!
DEFINITION. The Mark Link Controller's receiving side (3.6): start edges, bytes, sync, receipts, and
the handling of a valid mark; the commands LINK_START_EDGE, LINK_FALSE_START, LINK_BYTE_RECEIVED,
HUNT_HISTORY_FORGET and RECEIPT_TRUNCATED.
-/

namespace Sys2Proof.Machine

/-- A change of the Capture Unit's own state. -/
def State.withCap (f : CaptureUnit → CaptureUnit) (s : State) : State := { s with cap := f s.cap }

/-! ## Start edges (R25, R28, R54) -/

/-- A falling edge of LINK_RXD was first seen on this tick while the receiver waits for a start bit
(R25, R28). -/
def State.linkEdgeSeen (s : State) : Bool :=
  s.lines.edges.link && s.afterEnd && s.link.flight.isNone && s.link.byteIn.isNone &&
  decide (s.link.rx ≠ .stopped) && decide (s.cap.linkPrevK < s.k)

/-- The provisional start-edge capture taken; the receiver's wait ends (R25). -/
def linkStartEdge (s : State) : State :=
  { s with
    cap := { s.cap with provisional := some (s.capture s.cap.refEdges) }
    link := { s.link with byteIn := some ⟨s.k, []⟩ } }

/-- LINK_START_EDGE (R25). -/
def execLinkStartEdge (s : State) : Host.Outcome State Fault Refusal :=
  .next (if s.linkEdgeSeen then linkStartEdge s else s)

/-- LINK_FALSE_START is due: the start bit has been read and reads high (R54). -/
def State.linkFalseStartDue (s : State) : Bool :=
  match s.link.byteIn with
  | some b => b.falseStart
  | none => false

/-- The edge withdrawn: the provisional capture is discarded and the receiver waits again (R25, R26,
R54). -/
def linkFalseStart (s : State) : State :=
  { s with
    cap := { s.cap with provisional := none, linkPrevK := s.k }
    link := { s.link with byteIn := none } }

/-- LINK_FALSE_START (R54). -/
def execLinkFalseStart (s : State) : Host.Outcome State Fault Refusal :=
  .next (if s.linkFalseStartDue then linkFalseStart s else s)

/-! ## The reference slot (R26, R27) -/

/-- A start bit is confirmed: the provisional capture becomes the start-edge slot's content, and in
ARMED the reference capture too (R25, R26). -/
def CaptureUnit.confirm (c : CaptureUnit) : CaptureUnit :=
  match c.provisional with
  | none => c
  | some p =>
    match c.ref with
    | .armed =>
      { c with startEdge := some p, provisional := none, ref := .held p, refEdges := c.refEdges + 1 }
    | .idle => { c with startEdge := some p, provisional := none }
    | .held _ => { c with startEdge := some p, provisional := none }

/-- The start bit of the byte in progress has been read and reads low (R54). -/
def MarkLink.startConfirmed (l : MarkLink) : Bool :=
  match l.byteIn with
  | some b => b.confirmed
  | none => false

/-- The Capture Unit as the controller's byte in progress stands: once its start bit has been read and
reads low, the edge is confirmed (R25, R54). -/
def CaptureUnit.hear (l : MarkLink) (c : CaptureUnit) : CaptureUnit :=
  if l.startConfirmed then c.confirm else c

/-- The controller after the level of LINK_RXD on tick `k`: the byte in progress is sampled (R54). -/
def MarkLink.sampled (rate k : Nat) (level : Bool) (l : MarkLink) : MarkLink :=
  { l with byteIn := l.byteIn.map (ByteIn.sampled rate k level) }

/-- The held reference capture, where there is one. -/
def RefSlot.capture : RefSlot → Option Capture
  | .held c => some c
  | .idle => none
  | .armed => none

/-- The end of a receipt: the reference slot returns to IDLE and the receiver to HUNT with an empty
history (R26, R27, R53). -/
def endReceipt (s : State) : State :=
  (s.withCap fun c => { c with ref := .idle }).withLink fun l => { l with rx := .hunt none }

/-! ## A valid mark (R58) -/

/-- What the Peer Table takes from a valid mark (R58, R63). -/
def Mark.use (m : Mark) (c : Capture) : MarkUse where
  station := m.station
  seq := m.seq
  advU := m.uCode * 16
  advDepth := m.depth
  advClock := ClockState.ofCode m.clock
  k := c.k

/-- R of a launch of this part by its sequence (R49). -/
def MarkLink.launchR (l : MarkLink) (seq : Seq) : Option TimeVal :=
  (l.launches.find? fun e => e.seq == seq).map LaunchEntry.r

/-- One echo item of a used mark that names this part (R72 to R75). -/
def takeEcho (m : Mark) (c : Capture) (s : State) (e : EchoItem) : State :=
  { s with
    peers :=
      s.peers.exchange m.station m.time c s.cfg.delayLimitNs (s.link.launchR e.seq) e.hold }

/-- The echo items that name this part, in item order (R58). -/
def takeEchoes (m : Mark) (c : Capture) (s : State) : State :=
  (m.echoes.filter fun e => decide (e.station = s.own)).foldl (takeEcho m c) s

/-- The notice items in item order (R58). -/
def takeNotices (m : Mark) (s : State) : State :=
  m.notices.foldl (fun s n => peerNotice m.station n s) s

/-- The sender's echo entry placed, but not in MUTED (R51, R59). -/
def placeEcho (m : Mark) (c : Capture) (s : State) : State :=
  if s.link.muted then s
  else s.withLink fun l => l.placeEcho ⟨m.station, m.seq, c.r, l.launchCount⟩

/-- A valid mark handled in the order of R58: MUTED test, use, echo items, notices, echo entry. -/
def handleMark (m : Mark) (c : Capture) (s : State) : State :=
  if m.station = s.own then s.enterMuted
  else
    match s.peers.useMark (m.use c) with
    | none => { s with peers := { s.peers with tableFull := bump s.peers.tableFull } }
    | some p => placeEcho m c (takeNotices m (takeEchoes m c { s with peers := p }))

/-! ## Receipts (R55 to R57) -/

/-- A receipt refused for its format (R56, R57). -/
def refuseFormat (s : State) : State :=
  (endReceipt s).withLink fun l => { l with formatErr := bump l.formatErr }

/-- A receipt refused for its CRC (R57). -/
def refuseCrc (s : State) : State :=
  (endReceipt s).withLink fun l => { l with crcErr := bump l.crcErr }

/-- A receipt abandoned as truncated (R56). -/
def truncateReceipt (s : State) : State :=
  (endReceipt s).withLink fun l => { l with truncated := bump l.truncated }

/-- The check of a whole body, and the end of the receipt as refused or valid; a valid mark without a
reference capture counts as truncated (R27, R57, R58). -/
def markCheck (body : List Byte) (s : State) : State :=
  if !bodyCrcAgrees body then refuseCrc s
  else if !(Mark.ofBody body).fieldsPass then refuseFormat s
  else
    match s.cap.ref.capture with
    | some c => handleMark (Mark.ofBody body) c (endReceipt s)
    | none => truncateReceipt s

/-- A body with one more byte, whose start edge was first seen on tick `edge`: its counts are checked at
the 17th byte, its CRC and fields at the last (R56, R57). -/
def appendByte (body : List Byte) (edge : Nat) (s : State) : State :=
  if body.length < 17 then s.withLink fun l => { l with rx := .assemble body edge }
  else if 6 < echoCount body ∨ 4 < noticeCount body then refuseFormat s
  else if body.length < bodyLength (echoCount body) (noticeCount body) then
    s.withLink fun l => { l with rx := .assemble body edge }
  else markCheck body s

/-- A complete byte in HUNT: the second sync byte after the first enters ASSEMBLE and arms the reference
slot, any other becomes the history (R26, R55). -/
def huntByte (b : Byte) (edge : Nat) (history : Option (Byte × Nat)) (s : State) : State :=
  if b = 0xD4 ∧ history.map Prod.fst = some 0x2D then
    (s.withCap fun c => { c with ref := .armed }).withLink fun l => { l with rx := .assemble [] edge }
  else s.withLink fun l => { l with rx := .hunt (some (b, edge)) }

/-- The receiver acts on a complete byte (R54 to R56). -/
def receiveByte (b : Byte) (edge : Nat) (s : State) : State :=
  match s.link.rx with
  | .stopped => s
  | .hunt history => huntByte b edge history s
  | .assemble body _ => appendByte (body ++ [b]) edge s

/-- The byte in progress taken: the wait for the next start bit begins on the following tick (R54). -/
def takeLinkByte (s : State) : State :=
  { s with
    cap := { s.cap with linkPrevK := s.k }
    link := { s.link with byteIn := none } }

/-- The complete byte on LINK_RXD, where there is one. -/
def MarkLink.byteDone (l : MarkLink) : Option ByteIn :=
  match l.byteIn with
  | some b => if b.complete then some b else none
  | none => none

/-- The complete byte taken and acted on. -/
def linkByteReceived (s : State) : State :=
  match s.link.byteDone with
  | some b => receiveByte b.value b.edge (takeLinkByte s)
  | none => s

/-- LINK_BYTE_RECEIVED (R54). -/
def execLinkByteReceived (s : State) : Host.Outcome State Fault Refusal :=
  .next (linkByteReceived s)

/-! ## Gaps (R55, R56) -/

/-- No start edge has been first seen within 30 bit times of the start edge on tick `edge` (R55). -/
def State.linkGap (s : State) (edge : Nat) : Bool :=
  s.link.byteIn.isNone && !s.linkEdgeSeen && decide (edge + gapTicks s.cfg.linkRate ≤ s.k)

/-- HUNT_HISTORY_FORGET is due (R55). -/
def State.historyForgetDue (s : State) : Bool :=
  match s.link.rx with
  | .hunt (some h) => s.linkGap h.2
  | .hunt none => false
  | .stopped => false
  | .assemble _ _ => false

/-- HUNT_HISTORY_FORGET (R55). -/
def execHuntHistoryForget (s : State) : Host.Outcome State Fault Refusal :=
  .next (if s.historyForgetDue then s.withLink fun l => { l with rx := .hunt none } else s)

/-- RECEIPT_TRUNCATED is due (R56). -/
def State.receiptTruncatedDue (s : State) : Bool :=
  match s.link.rx with
  | .assemble _ edge => s.linkGap edge
  | .hunt _ => false
  | .stopped => false

/-- RECEIPT_TRUNCATED (R56). -/
def execReceiptTruncated (s : State) : Host.Outcome State Fault Refusal :=
  .next (if s.receiptTruncatedDue then truncateReceipt s else s)

end Sys2Proof.Machine
end

