-- ==== Sys2Proof/Machine/DriftTable.lean ====
section
/-!
DEFINITION. The Temperature Monitor and Drift Table (chapter 7), apart from the commands that also
reach the servo.
-/

namespace Sys2Proof.Machine

/-- The temperature is valid: four conversions have completed (R129). -/
def Temperature.valid (t : Temperature) : Bool := decide (t.slots.length = 4)

/-- The current temperature in quarter-degrees, absent while not valid (R129). -/
def Temperature.current (t : Temperature) : Option Int :=
  if t.valid then some (truncDiv t.slots.sum 4) else none

/-- The current bin, absent while the temperature is not valid (R130). -/
def Temperature.bin (t : Temperature) : Option Nat :=
  t.current.map fun c => ((c + 160) / 32).toNat

/-- The temperature in quarter-degrees of a delivered code (R128). -/
def quarterDegrees (code : Nat) : Int := (min code 500 : Nat) - 160

/-- The monitor after a conversion delivers a code: the next empty slot is filled, or the slot that
holds the oldest value (R128). -/
def Temperature.complete (code : Nat) (t : Temperature) : Temperature :=
  { t with
    slots := (if t.slots.length < 4 then t.slots else t.slots.tail) ++ [quarterDegrees code]
    converting := none }

/-- A drift bin is learned (R132). -/
def DriftBin.learned (b : DriftBin) : Bool := decide (4 ≤ b.count)

/-- The drift bin of a number. -/
def Temperature.driftBin (t : Temperature) (i : Nat) : DriftBin := t.bins.getD i ⟨0, 0⟩

/-- The current bin's drift bin, where there is a current bin. -/
def Temperature.currentBin (t : Temperature) : Option DriftBin := t.bin.map t.driftBin

/-- There is a current bin and it is learned (R122). -/
def Temperature.binLearned (t : Temperature) : Bool :=
  match t.currentBin with
  | some b => b.learned
  | none => false

/-- A drift bin after a learn request with `f` (R133). -/
def DriftBin.learn (f : Int) (b : DriftBin) : DriftBin :=
  if b.count = 0 then { f := f, count := 1 }
  else { f := b.f + truncDiv (f - b.f) 8, count := min 255 (b.count + 1) }

/-- The drift table after a learn request with `f`: discarded while the temperature is not valid
(R133). -/
def Temperature.learn (f : Int) (t : Temperature) : Temperature :=
  match t.bin with
  | some i => { t with bins := t.bins.set i ((t.driftBin i).learn f) }
  | none => t

/-- CONVERSION_START is due: K is a positive multiple of 80,000,000 and no conversion is in progress
(R127). -/
def State.conversionStartDue (s : State) : Bool :=
  decide (0 < s.k ∧ s.k % 80000000 = 0 ∧ s.temp.converting = none)

/-- CONVERSION_START (R127). -/
def execConversionStart (s : State) : Host.Outcome State Fault Refusal :=
  .next (if s.conversionStartDue then { s with temp := { s.temp with converting := some s.k } }
    else s)

/-- CONVERSION_COMPLETE is due: 1 ms has passed since the conversion started (R127). -/
def State.conversionCompleteDue (s : State) : Bool :=
  match s.temp.converting with
  | some k0 => decide (k0 + 20000 ≤ s.k)
  | none => false

end Sys2Proof.Machine
end

