-- ==== Sys2Proof/Machine/Reports.lean ====
section
/-!
DEFINITION. The Record Port's own commands (chapter 11): FRAME_END, STATUS_TIMER, PEER_TIMER and
REARM_EDGE, and the records it forms.
-/

namespace Sys2Proof.Machine

/-- FRAME_END is due: the last stop bit of the frame ends (R177, R178). -/
def State.frameEndDue (s : State) : Bool :=
  match s.port.frame with
  | some f => decide (frameEndTick s.cfg.recordRate f.start f.bytes.length ≤ s.k)
  | none => false

/-- The frame ends: the transmitter takes the next head or becomes IDLE (R178). -/
def RecordPort.endFrame (k : Nat) (p : RecordPort) : RecordPort := { p with frame := none }.takeHead k

/-- FRAME_END (R178). -/
def execFrameEnd (s : State) : Host.Outcome State Fault Refusal :=
  .next (if s.frameEndDue then { s with port := s.port.endFrame s.k } else s)

/-- The STATUS record formed from the values presented on this tick (R183). -/
def statusRecord (s : State) : StatusRec where
  cause := s.startup.cause
  clock := s.servo.clock
  depth := s.servo.advDepth
  u := s.servo.advU
  f := s.time.f
  temp := s.temp.current
  bin := s.temp.bin
  anchorValid := s.startup.anchorEn && s.anchor.valid
  muted := s.link.muted
  originFlag := s.comb.originFlag
  defaulted := s.startup.defaulted
  clamped := s.startup.clamped
  alerts := s.port.alerts
  edges := s.edgeCounters
  stats := s.statCounters

/-- A STATUS record formed and queued (R183). -/
def formStatus (s : State) : State :=
  { s with port := { s.port with lastStatus := s.k } }.arrive (.status (statusRecord s))

/-- K exceeds the K of the end of the configuration read by a positive multiple of `period`, and the
timer's latest event `last` was not on this tick (R183, R184). -/
def State.timerDue (s : State) (period last : Nat) : Bool :=
  match s.startup.endK with
  | some e => decide (e < s.k ∧ (s.k - e) % period = 0 ∧ last < s.k)
  | none => false

/-- STATUS_TIMER (R183). -/
def execStatusTimer (s : State) : Host.Outcome State Fault Refusal :=
  .next (if s.timerDue s.cfg.statusTicks s.port.lastStatus then formStatus s else s)

/-- The PEER record of an entry (R81, R184). -/
def peerRecord (s : State) (e : PeerEntry) : PeerRec where
  station := e.station
  state := e.state
  depth := e.advDepth
  clock := e.advClock
  u := e.advU
  lastSeq := e.lastSeq
  offset := e.derive s.nowQ s.k
  records := e.history.length
  rejects := e.rejects
  age := (s.k - e.lastK) / Config.ticksPerSecond

/-- The slot numbers in the order of the search: from the slot after the cursor round to the cursor's
own (R184). -/
def searchOrder (cursor : Nat) : List Nat :=
  (List.range Config.peerSlots).map fun i => (cursor + 1 + i) % Config.peerSlots

/-- The first slot of the search that is not EMPTY (R184). -/
def State.nextPeerSlot (s : State) : Option Nat :=
  (searchOrder s.port.cursor).find? fun i => (s.peers.entry i).isSome

/-- The peer timer's search: the cursor moves and a PEER record is queued, or nothing where every slot
is EMPTY (R184). -/
def peerTimer (s : State) : State :=
  let marked := { s with port := { s.port with lastPeer := s.k } }
  match s.nextPeerSlot with
  | none => marked
  | some i =>
    match s.peers.entry i with
    | none => marked
    | some e =>
      { marked with port := { marked.port with cursor := i } }.arrive (.peer (peerRecord s e))

/-- PEER_TIMER (R184). -/
def execPeerTimer (s : State) : Host.Outcome State Fault Refusal :=
  .next (if s.timerDue s.cfg.markTicks s.port.lastPeer then peerTimer s else s)

/-- The alerts cleared on a REARM edge, the edge taken (R186). -/
def rearmEdge (s : State) : State :=
  { s with
    lines := { s.lines with edges := { s.lines.edges with rearm := false } }
    port := { s.port with alerts := s.port.alerts.rearm s.coastBeyondLimit s.anchorLost } }

/-- REARM_EDGE (R186). -/
def execRearmEdge (s : State) : Host.Outcome State Fault Refusal :=
  .next (if s.lines.edges.rearm then rearmEdge s else s)

end Sys2Proof.Machine
end

