-- ==== Sys2Proof/Machine/Aligner.lean ====
section
/-!
DEFINITION. The Sample Aligner (chapter 9): blocks and their close, FOLLOW and GENERATE, the grid, and
the commands SAMPLE_STROBE_EDGE, GAP_DEADLINE, GRID_PULSE_ISSUE and SAMPLE_CMD_PULSE_END.
-/

namespace Sys2Proof.Machine

/-! ## The TIMING record (R152, R160 to R162) -/

/-- The measured period in ps of `n` intervals between two captures (R152). -/
def measuredPeriod (first last : TimeVal) (n : Nat) : Int :=
  roundDiv (((last.units : Int) - (first.units : Int)) * 1000) (n * Config.unitsPerNs)

/-- The period of a short block: 0 for one sample (R152). -/
def shortPeriod (b : OpenBlock) : Int :=
  if b.samples < 2 then 0 else measuredPeriod b.first.r b.last.r (b.samples - 1)

/-- The rate deviation in ppb of a measured period (R161). -/
def rateDeviation (p : Nat) (period : Int) : Int := roundDiv ((period - 1000 * p) * 1000000) p

/-- The rate deviation lies beyond its limit (R161). -/
def rateOut (dev : Int) : Bool := decide (1000000 < dev.natAbs)

/-- The grid deviation in ns of a first sample time (R162). -/
def gridDeviation (p : Nat) (t : TimeVal) : Int :=
  let r := t.nsCount % p
  if 2 * r ≤ p then r else (r : Int) - p

/-- The TIMING record of a closed block: `period` measured, `dev` its rate deviation, `gap` whether it
closed short (R160). -/
def timingRecord (s : State) (b : OpenBlock) (period dev : Int) (gap : Bool) : TimingRec where
  number := b.number
  firstSample := b.first.ordinal
  time := b.first.t.stamp
  u := s.servo.advU
  clock := s.servo.clock
  depth := s.servo.advDepth
  samples := b.samples
  periodPs := min (2 ^ 48 - 1) period.toNat
  rateDev := dev
  gridDev := gridDeviation s.cfg.period b.first.t
  skipped := b.skipped
  gap := gap
  stepped := b.stepped
  coast := b.coast
  rateOut := rateOut dev

/-- The close of a block: RATE_OUT latched where its rate deviation is beyond the limit, its TIMING
record queued (R159, R161). The block itself is left to the caller. -/
def closeBlock (b : OpenBlock) (period dev : Int) (gap : Bool) (s : State) : State :=
  (if rateOut dev then s.latch .rateOut else s).arrive (.timing (timingRecord s b period dev gap))

/-- The close of a full block, or of any GENERATE block, by the capture that opens the next (R152). -/
def closeFull (b : OpenBlock) (next : Capture) (s : State) : State :=
  let period := measuredPeriod b.first.r next.r s.cfg.blockLength
  closeBlock b period (rateDeviation s.cfg.period period) false s

/-- The close of a short block (R151, R152); one sample has rate deviation 0 (R161). -/
def closeShort (b : OpenBlock) (s : State) : State :=
  let period := shortPeriod b
  closeBlock b period (if b.samples < 2 then 0 else rateDeviation s.cfg.period period) true s

/-! ## Blocks (R148 to R150, R154) -/

/-- A change of the aligner's own state. -/
def State.withAlign (f : Aligner → Aligner) (s : State) : State := { s with align := f s.align }

/-- The gap deadline that a sample on tick `k` sets: FOLLOW alone has one (R149, R154). -/
def gapAfter (s : State) (k : Nat) : Option Nat :=
  if s.startup.genMode then none else some (k + s.cfg.gapLength)

/-- A block opened by a capture (R149). -/
def openBlock (c : Capture) (s : State) : State :=
  s.withAlign fun a =>
    { a with
      block := some
        { number := a.nextBlock, first := c, last := c, samples := 1, skipped := 0, stepped := false
          coast := decide (s.servo.clock = .coast) }
      nextBlock := a.nextBlock + 1
      gapDeadline := gapAfter s c.k }

/-- A capture joins the open block (R150). -/
def joinBlock (b : OpenBlock) (c : Capture) (s : State) : State :=
  s.withAlign fun a =>
    { a with
      block := some { b with samples := b.samples + 1, last := c }
      gapDeadline := gapAfter s c.k }

/-- A sample handed over: it opens, joins, or closes and reopens a block (R149, R150, R154). -/
def takeSample (c : Capture) (s : State) : State :=
  match s.align.block with
  | none => openBlock c s
  | some b =>
    if b.samples < s.cfg.blockLength then joinBlock b c s
    else openBlock c (closeFull b c s)

/-- The capture of the sample input taken: slot and edge counter (R30, R31). -/
def captureSample (s : State) : State :=
  { s with
    cap :=
      { s.cap with
        sample := some (s.capture s.cap.sampleEdges), sampleEdges := s.cap.sampleEdges + 1 } }

/-! ## FOLLOW -/

/-- A rising edge of SAMPLE_STROBE was first seen on this tick, in FOLLOW mode and enabled (R30, R36). -/
def State.strobeSeen (s : State) : Bool :=
  s.lines.edges.sample && s.afterEnd && !s.startup.genMode

/-- The edge of the sample pin taken. -/
def State.takeStrobe (s : State) : State :=
  { s with lines := { s.lines with edges := { s.lines.edges with sample := false } } }

/-- The strobe judged: spurious within half a period, else captured and handed over (R30). -/
def strobeEdge (s : State) : State :=
  if tooSoon s.cfg.strobeSpacing s.k s.cap.sample then
    { s.takeStrobe with cap := { s.cap with spuriousStrobe := bump s.cap.spuriousStrobe } }
  else takeSample (s.capture s.cap.sampleEdges) (captureSample s.takeStrobe)

/-- SAMPLE_STROBE_EDGE (R30). -/
def execSampleStrobeEdge (s : State) : Host.Outcome State Fault Refusal :=
  .next (if s.strobeSeen then strobeEdge s else s)

/-- GAP_DEADLINE is due: K reaches the gap deadline of an open block (R151). -/
def State.gapDeadlineDue (s : State) : Bool :=
  s.align.block.isSome &&
  match s.align.gapDeadline with
  | some d => decide (d ≤ s.k)
  | none => false

/-- The open block closes short and the block state becomes NO_BLOCK (R151). -/
def gapDeadline (s : State) : State :=
  match s.align.block with
  | some b => (closeShort b s).withAlign fun a => { a with block := none, gapDeadline := none }
  | none => s

/-- GAP_DEADLINE (R151). -/
def execGapDeadline (s : State) : Host.Outcome State Fault Refusal :=
  .next (if s.gapDeadlineDue then gapDeadline s else s)

/-! ## GENERATE -/

/-- The least multiple of `p` ns greater than T, T's fraction included (R153). -/
def firstGridInstant (p : Nat) (t : TimeVal) : TimeVal := TimeVal.ofNs ((t.nsCount / p + 1) * p)

/-- T less the grid pointer in units of 2^-32 ns, taken modulo 2^40 seconds (R153). -/
def gridAhead (t grid : TimeVal) : Nat := (t.units + Config.timeRange - grid.units) % Config.timeRange

/-- The grid pointer is reached: the difference, read as signed, is zero or positive (R153). -/
def gridReached (t grid : TimeVal) : Bool := decide (2 * gridAhead t grid < Config.timeRange)

/-- The grid pointer advanced by `c` periods. -/
def gridAdvance (p c : Nat) (grid : TimeVal) : TimeVal :=
  TimeVal.ofUnits (grid.units + c * p * Config.unitsPerNs)

/-- SAMPLE_CMD has been low on each of the preceding 200 ticks (R153). -/
def State.cmdRested (s : State) : Bool :=
  s.align.pulseEnd.isNone && decide (s.align.cmdLowFrom + 200 ≤ s.k)

/-- GRID_PULSE_ISSUE is due (R153). -/
def State.gridPulseDue (s : State) : Bool :=
  s.startup.genMode && s.afterEnd && s.cmdRested &&
  match s.align.grid with
  | some g => gridReached s.nowT g
  | none => false

/-- A pulse issued: SAMPLE_CMD raised, the pointer advanced, the pulse captured and handed back (R31,
R153, R154). -/
def gridPulse (s : State) : State :=
  takeSample (s.capture s.cap.sampleEdges)
    ((captureSample s).withAlign fun a =>
      { a with
        pulseEnd := some (s.k + 200)
        grid := a.grid.map (gridAdvance s.cfg.period 1) })

/-- GRID_PULSE_ISSUE (R153). -/
def execGridPulseIssue (s : State) : Host.Outcome State Fault Refusal :=
  .next (if s.gridPulseDue then gridPulse s else s)

/-- SAMPLE_CMD_PULSE_END is due (R153). -/
def State.cmdPulseEndDue (s : State) : Bool :=
  match s.align.pulseEnd with
  | some e => decide (e ≤ s.k)
  | none => false

/-- SAMPLE_CMD_PULSE_END (R153): SAMPLE_CMD goes low. -/
def execSampleCmdPulseEnd (s : State) : Host.Outcome State Fault Refusal :=
  .next (if s.cmdPulseEndDue then
    s.withAlign fun a => { a with pulseEnd := none, cmdLowFrom := s.k } else s)

/-! ## Steps (R155 to R157) -/

/-- The number of grid instants a forward step carried T over (R155). -/
def skippedInstants (p : Nat) (tAfter grid : TimeVal) : Nat :=
  if gridReached tAfter grid then gridAhead tAfter grid / Config.unitsPerNs / p + 1 else 0

/-- The open block flagged STEPPED with `c` more skipped instants (R155, R157). -/
def OpenBlock.step (c : Nat) (b : OpenBlock) : OpenBlock :=
  { b with stepped := true, skipped := min 4294967295 (b.skipped + c) }

/-- The grid instants a step with the applied amount given skips: none in FOLLOW and for an amount that
is not positive (R155, R156). -/
def Aligner.skips (genMode : Bool) (p : Nat) (amount : Int) (tAfter : TimeVal) (a : Aligner) : Nat :=
  match a.grid with
  | some g => if genMode ∧ 0 < amount then skippedInstants p tAfter g else 0
  | none => 0

/-- The aligner after the announcement of a step (R155 to R157). -/
def Aligner.announce (genMode : Bool) (p : Nat) (amount : Int) (tAfter : TimeVal) (a : Aligner) :
    Aligner :=
  let c := a.skips genMode p amount tAfter
  { a with
    block := a.block.map (OpenBlock.step c)
    grid := a.grid.map (gridAdvance p c) }

/-- The next block number for a step: the open block's, or in NO_BLOCK the next block's (R157). -/
def Aligner.stepBlock (a : Aligner) : Count32 :=
  match a.block with
  | some b => b.number
  | none => a.nextBlock

end Sys2Proof.Machine
end

