-- ==== Sys2Proof/Machine/Anchor.lean ====
section
/-!
DEFINITION. The Anchor Input (chapter 8): the receiver on ANCHOR_RX, labels, the pairing of PPS edges,
the anchor sample and the loss timer.
-/

namespace Sys2Proof.Machine

/-- The rate of ANCHOR_RX in bit/s (R137). -/
def anchorRate : Nat := 9600

/-- A change of the block's own state. -/
def State.withAnchor (f : AnchorInput → AnchorInput) (s : State) : State :=
  { s with anchor := f s.anchor }

/-! ## The receiver (R137) -/

/-- The block after the level of ANCHOR_RX on tick `k`, `prev` being the level of the tick before: a
falling edge starts a byte, a sample is taken where one falls due, a false start is withdrawn (R137). -/
def AnchorInput.sampleLine (k : Nat) (prev : Option Bool) (level : Bool) (a : AnchorInput) :
    AnchorInput :=
  match a.byteIn with
  | some b =>
    let b' := b.sampled anchorRate k level
    { a with byteIn := if b'.falseStart then none else some b' }
  | none => if prev = some true ∧ level = false then { a with byteIn := some ⟨k, []⟩ } else a

/-- The receiver state after a complete byte whose start edge was first seen on tick `edge` (R137). -/
def AnchorRx.byte (b : Byte) (edge : Nat) : AnchorRx → AnchorRx
  | .hunt => if b = 0xC3 then .assemble [b] edge else .hunt
  | .assemble bytes _ => .assemble (bytes ++ [b]) edge

/-- The block with its complete byte taken (R137). -/
def AnchorInput.takeByte (b : ByteIn) (a : AnchorInput) : AnchorInput :=
  { a with rx := a.rx.byte b.value b.edge, byteIn := none }

/-- ANCHOR_BYTE_RECEIVED is due: a byte is complete (R137). -/
def State.anchorByteDue (s : State) : Bool :=
  s.startup.anchorEn &&
  match s.anchor.byteIn with
  | some b => b.complete
  | none => false

/-- The complete byte taken. -/
def anchorByte (s : State) : State :=
  match s.anchor.byteIn with
  | some b => s.withAnchor (AnchorInput.takeByte b)
  | none => s

/-- ANCHOR_BYTE_RECEIVED (R137). -/
def execAnchorByteReceived (s : State) : Host.Outcome State Fault Refusal :=
  .next (if s.anchorByteDue then anchorByte s else s)

/-- The bytes of a complete message, where eleven have been assembled. -/
def AnchorInput.message (a : AnchorInput) : Option (List Byte) :=
  match a.rx with
  | .assemble bytes _ => if bytes.length = 11 then some bytes else none
  | .hunt => none

/-- The block after a message of eleven bytes is judged (R138). -/
def AnchorInput.judge (bytes : List Byte) (a : AnchorInput) : AnchorInput :=
  if anchorCorrect bytes then
    { a with
      rx := .hunt
      label := if anchorValidFlag bytes then some (anchorLabel bytes) else none }
  else { a with rx := .hunt, msgErr := bump a.msgErr }

/-- The complete message judged. -/
def anchorMessage (s : State) : State :=
  match s.anchor.message with
  | some bytes => s.withAnchor (AnchorInput.judge bytes)
  | none => s

/-- ANCHOR_MESSAGE_COMPLETE (R138). -/
def execAnchorMessageComplete (s : State) : Host.Outcome State Fault Refusal :=
  .next (if s.startup.anchorEn then anchorMessage s else s)

/-- ANCHOR_MESSAGE_ABANDONED is due: in ASSEMBLE, short of eleven bytes, no start edge has been first
seen within the gap (R137). -/
def State.anchorGapDue (s : State) : Bool :=
  s.startup.anchorEn && s.anchor.byteIn.isNone &&
  match s.anchor.rx with
  | .assemble bytes lastEdge =>
    decide (bytes.length < 11 ∧ lastEdge + gapTicks anchorRate ≤ s.k)
  | .hunt => false

/-- ANCHOR_MESSAGE_ABANDONED (R137). -/
def execAnchorMessageAbandoned (s : State) : Host.Outcome State Fault Refusal :=
  .next (if s.anchorGapDue then
    s.withAnchor fun a => { a with rx := .hunt, msgErr := bump a.msgErr } else s)

/-! ## Pairing (R139 to R142) -/

/-- A labelled edge is consistent with the previous one (R140). -/
def consistentEdge (secs k : Nat) (prev : Option LabelledEdge) : Bool :=
  match prev with
  | some e => decide (secs = e.secs + 1 ∧ e.k + 19996000 ≤ k ∧ k ≤ e.k + 20004000)
  | none => false

/-- The anchor offset of a labelled edge (R142). -/
def anchorOffset (secs : Nat) (t : TimeVal) : Int :=
  holdOffset ((secs : Int) * Config.nsPerSecond - t.nsCount)

/-- The anchor sample of a labelled edge (R142). -/
def anchorSample (l : Label) (c : Capture) : AnchorSample where
  secs := l.secs
  quality := l.quality
  theta := anchorOffset l.secs c.t
  t := c.t
  q := c.q
  k := c.k

/-- The block after an accepted PPS edge: the loss timer restarts, and the edge takes the pending label
and is judged, or is unlabelled (R139 to R142). -/
def AnchorInput.edge (c : Capture) (a : AnchorInput) : AnchorInput :=
  match a.label with
  | some l =>
    { a with
      lossK := c.k
      lossExpired := false
      label := none
      consistency := if consistentEdge l.secs c.k a.prev then min 3 (a.consistency + 1) else 1
      prev := some ⟨l.secs, c.k⟩
      sample := some (anchorSample l c) }
  | none =>
    { a with lossK := c.k, lossExpired := false, unlabelled := bump a.unlabelled, consistency := 0 }

/-- A rising edge of ANCHOR_PPS was first seen on this tick and ANCHOR_EN is set (R29). -/
def State.ppsSeen (s : State) : Bool := s.lines.edges.pps && s.startup.anchorEn

/-- The edge of ANCHOR_PPS taken. -/
def State.takePps (s : State) : State :=
  { s with lines := { s.lines with edges := { s.lines.edges with pps := false } } }

/-- The minimum spacing of ANCHOR_PPS, 0.9 s (R29). -/
def ppsSpacing : Nat := 18000000

/-- The PPS edge judged: spurious, or captured and handed over (R29). -/
def ppsEdge (s : State) : State :=
  if tooSoon ppsSpacing s.k s.cap.pps then
    { s.takePps with cap := { s.cap with spuriousPps := bump s.cap.spuriousPps } }
  else
    { s.takePps with
      cap :=
        { s.cap with
          pps := some (s.capture s.cap.ppsEdges), ppsEdges := s.cap.ppsEdges + 1 }
      anchor := s.anchor.edge (s.capture s.cap.ppsEdges) }

/-- PPS_EDGE (R29). -/
def execPpsEdge (s : State) : Host.Outcome State Fault Refusal :=
  .next (if s.ppsSeen then ppsEdge s else s)

/-! ## Loss (R143) -/

/-- LOSS_TIMER_EXPIRY is due (R143). -/
def State.lossDue (s : State) : Bool :=
  s.startup.anchorEn && !s.anchor.lossExpired && decide (s.anchor.lossK + 40000000 ≤ s.k)

/-- LOSS_TIMER_EXPIRY (R143). -/
def execLossTimerExpiry (s : State) : Host.Outcome State Fault Refusal :=
  .next (if s.lossDue then
    (s.withAnchor fun a => { a with consistency := 0, lossExpired := true }).latch .anchorLost
    else s)

end Sys2Proof.Machine
end

