-- ==== Sys2Proof/Machine/Combiner.lean ====
section
/-!
DEFINITION. The Source Combiner (chapter 5): the run, its selection and result, the reports, the origin
rule, and the end of a local source's barring.
-/

namespace Sys2Proof.Machine

/-- The identity of a source (5.2). -/
inductive SourceId
  | peer (station : Nat)
  | anchor
  | origin
deriving DecidableEq, Repr

/-- A source (5.2). -/
structure Source where
  /-- Identity. -/
  id : SourceId
  /-- Offset, ns. -/
  theta : Int
  /-- Computed uncertainty, ns. -/
  u : Nat
  /-- Base uncertainty, ns. -/
  base : Nat
  /-- Trace depth. -/
  depth : Nat
deriving DecidableEq, Repr

/-- The ranking number: a peer's station number, 0 for a local source (5.2). -/
def Source.rank (x : Source) : Nat :=
  match x.id with
  | .peer st => st
  | .anchor => 0
  | .origin => 0

/-- A combined result (R100). -/
structure Combined where
  /-- Combined offset, ns. -/
  theta : Int
  /-- Advertised uncertainty, ns. -/
  u : Nat
  /-- Own depth. -/
  depth : Nat
deriving DecidableEq, Repr

/-! ## The sources (R81, R87 to R89) -/

/-- The source of a Peer Table slot: TRACKED, not advertising UNSET, its U_i at most U_MAX - 50 (R81,
R87). -/
def peerSource (q : QWord) (k : Nat) (slot : Option PeerEntry) : Option Source :=
  match slot with
  | some e =>
    if e.state = .tracked ∧ e.advClock ≠ .unset ∧ e.advU ≤ Config.uMax - 50 then
      (e.derive q k).map fun o =>
        { id := .peer e.station, theta := o.theta, u := o.u, base := e.advU, depth := e.advDepth }
    else none
  | none => none

/-- The anchor source (R88). -/
def anchorSource (s : State) : Option Source :=
  if s.startup.anchorEn && s.anchor.valid && s.comb.anchorBarred.isNone then
    s.anchor.sample.map fun a =>
      { id := .anchor, theta := holdOffset (a.theta - qDiffNs s.nowQ a.q)
        u := a.quality * 16 + 50, base := a.quality * 16, depth := 0 }
  else none

/-- The origin source (R89). -/
def originSource (s : State) : Option Source :=
  if s.comb.originFlag && s.comb.originBarred.isNone then
    some { id := .origin, theta := 0, u := s.cfg.originFloor, base := s.cfg.originFloor - 50
           depth := 15 }
  else none

/-- The sources present on this tick: the peers in slot order, then the local sources (R87 to R89). -/
def sources (s : State) : List Source :=
  s.peers.slots.filterMap (peerSource s.nowQ s.k) ++ (anchorSource s).toList ++
    (originSource s).toList

/-! ## Selection (R91 to R94) -/

/-- The least value of `f` over the sources, 0 for none. -/
def leastOf (f : Source → Nat) : List Source → Nat
  | [] => 0
  | x :: xs => xs.foldl (fun m y => min m (f y)) (f x)

/-- Dmin, the least depth among the sources (R91). -/
def leastDepth (xs : List Source) : Nat := leastOf Source.depth xs

/-- The candidates: the sources within one of Dmin (R91). -/
def candidates (xs : List Source) : List Source := xs.filter fun x => x.depth ≤ leastDepth xs + 1

/-- The weight of a candidate (R92). -/
def Source.weight (x : Source) : Nat := max 1 (Config.weightOne / (x.u * x.u))

/-- The total weight (R92). -/
def totalWeight (xs : List Source) : Nat := (xs.map Source.weight).sum

/-- The order of candidates: by offset, then by ranking number (R93). -/
def Source.before (a b : Source) : Bool :=
  decide (a.theta < b.theta ∨ (a.theta = b.theta ∧ a.rank ≤ b.rank))

/-- A candidate inserted into ordered candidates. -/
def insertSource (x : Source) : List Source → List Source
  | [] => [x]
  | y :: ys => if x.before y then x :: y :: ys else y :: insertSource x ys

/-- The candidates ordered (R93). -/
def orderSources (xs : List Source) : List Source := xs.foldr insertSource []

/-- The offset of the first candidate in order at which twice the cumulative weight reaches the total,
`acc` being the weight before the list (R93). -/
def medianFrom (total : Nat) : Nat → List Source → Int
  | _, [] => 0
  | acc, x :: xs =>
    if total ≤ 2 * (acc + x.weight) then x.theta else medianFrom total (acc + x.weight) xs

/-- The weighted median m (R93). -/
def weightedMedian (xs : List Source) : Int := medianFrom (totalWeight xs) 0 (orderSources xs)

/-- A candidate survives against the median m (R94). -/
def Source.survives (m : Int) (x : Source) : Bool :=
  decide (((x.theta - m).natAbs : Nat) ≤ 2 * x.u + 200)

/-- The survivors of a selection (R94). -/
def survivors (xs : List Source) : List Source := xs.filter (Source.survives (weightedMedian xs))

/-! ## The combined result (R96 to R99) -/

/-- The combined offset θ_c (R96). -/
def combinedOffset (xs : List Source) : Int :=
  roundDiv ((xs.map fun x => (x.weight : Int) * x.theta).sum) (totalWeight xs)

/-- Bits `n - 1` down to 0 added to `y` where the square of the sum times `w` stays below 2^38. -/
def belowRoot (w : Nat) : Nat → Nat → Nat
  | 0, y => y
  | n + 1, y =>
    if (y + 2 ^ n) * (y + 2 ^ n) * w < Config.weightOne then belowRoot w n (y + 2 ^ n)
    else belowRoot w n y

/-- The combined uncertainty: the smallest positive x with x² × w ≥ 2^38, for a total weight w ≥ 1
(R97). -/
def combinedU (w : Nat) : Nat := belowRoot w 20 0 + 1

/-- The least base uncertainty among the survivors (R98). -/
def leastBase (xs : List Source) : Nat := leastOf Source.base xs

/-- The advertised uncertainty of a result (R98). -/
def advertisedU (xs : List Source) : Nat :=
  holdU (max (combinedU (totalWeight xs)) (leastBase xs + 50))

/-- The own depth (R99). -/
def ownDepth (xs : List Source) : Nat :=
  if xs.any fun x => x.id = .anchor then 0
  else if xs.all fun x => x.id = .origin then 15
  else min 15 (leastDepth xs + 1)

/-- The combined result of the survivors (R96 to R100). -/
def combine (xs : List Source) : Combined where
  theta := combinedOffset xs
  u := advertisedU xs
  depth := ownDepth xs

/-! ## Reports (R90, R95) -/

/-- The reject count and barring end of a local source after its report (R90, R95). -/
def localReport (k barTicks : Nat) (survived : Bool) (rejects : Nat) (barred : Option Nat) :
    Nat × Option Nat :=
  if survived then (0, barred)
  else if rejects + 1 < 4 then (rejects + 1, barred) else (4, some (k + barTicks))

/-- The report for one candidate, given the median m (R70, R95). -/
def reportOne (m : Int) (s : State) (x : Source) : State :=
  let bar := peerTicks s.cfg 16
  match x.id with
  | .peer st =>
    { s with peers := s.peers.modify st (PeerEntry.report s.k bar (x.survives m)) }
  | .anchor =>
    let r := localReport s.k bar (x.survives m) s.comb.anchorRejects s.comb.anchorBarred
    { s with comb := { s.comb with anchorRejects := r.1, anchorBarred := r.2 } }
  | .origin =>
    let r := localReport s.k bar (x.survives m) s.comb.originRejects s.comb.originBarred
    { s with comb := { s.comb with originRejects := r.1, originBarred := r.2 } }

/-- The reports of a selection, in the order of presentation (R95). -/
def report (xs : List Source) (s : State) : State := xs.foldl (reportOne (weightedMedian xs)) s

/-! ## The origin rule (R101 to R103) -/

/-- A TRIAL or TRACKED entry advertises UNSET and has a number greater than the part's own; every other
slot passes (R102). -/
def originTestSlot (own : Nat) (slot : Option PeerEntry) : Bool :=
  match slot with
  | some e =>
    if e.state = .trial ∨ e.state = .tracked then decide (e.advClock = .unset ∧ own < e.station)
    else true
  | none => true

/-- The origin count after a run: one more, held at 4, when the request carried UNSET and the result is
NONE; else 0 (R101). -/
def nextOriginCount (clock : ClockState) (none_ : Bool) (count : Nat) : Nat :=
  if clock = .unset ∧ none_ then min 4 (count + 1) else 0

/-- The Combiner's state after the origin rule at the end of a run; `dmin` is absent when the run made
no selection (R101 to R103). -/
def originRule (s : State) (dmin : Option Nat) : Combiner :=
  let count := nextOriginCount s.servo.clock dmin.isNone s.comb.originCount
  let counted := { s.comb with originCount := count }
  match dmin with
  | none =>
    if !counted.originFlag && decide (count = 4) && s.peers.slots.all (originTestSlot s.own) then
      { counted with originFlag := true }
    else counted
  | some d =>
    if d ≤ 14 then { counted with originFlag := false, originRejects := 0, originBarred := none }
    else counted

/-! ## The run (R85) -/

/-- The part after a run of the Combiner, and the run's result: NONE or a combined result (R85). -/
def combinerRun (s : State) : State × Option Combined :=
  let xs := sources s
  if xs.isEmpty then ({ s with comb := originRule s none }, none)
  else
    let cs := candidates xs
    let reported := report cs s
    ({ reported with comb := originRule reported (some (leastDepth xs)) },
      some (combine (survivors cs)))

/-! ## LOCAL_SOURCE_BARRING_END -/

/-- The barring end of a local source is reached (R90). -/
def State.localBarringEndDue (source : LocalSource) (s : State) : Bool :=
  match (match source with | .anchor => s.comb.anchorBarred | .origin => s.comb.originBarred) with
  | some b => decide (b ≤ s.k)
  | none => false

/-- A local source unbarred with reject count 0 (R90). -/
def Combiner.unbar (source : LocalSource) (c : Combiner) : Combiner :=
  match source with
  | .anchor => { c with anchorRejects := 0, anchorBarred := none }
  | .origin => { c with originRejects := 0, originBarred := none }

/-- LOCAL_SOURCE_BARRING_END (R90). -/
def execLocalSourceBarringEnd (source : LocalSource) (s : State) :
    Host.Outcome State Fault Refusal :=
  .next (if s.localBarringEndDue source then { s with comb := s.comb.unbar source } else s)

end Sys2Proof.Machine
end

