-- ==== Sys2Proof/Machine/Servo.lean ====
section
/-!
DEFINITION. The Discipline Servo (chapter 6): the update in each clock state, slewing, step requests,
coasting and its growth and limit; and the completion of a conversion, whose bin change the servo acts
on.
-/

namespace Sys2Proof.Machine

/-! ## Controls -/

/-- F handed to the Time Scale Unit (R10). -/
def State.setF (v : Int) (s : State) : State := { s with time := s.time.setF v }

/-- P handed to the Time Scale Unit (R11). -/
def State.setP (v : Int) (s : State) : State := { s with time := s.time.setP v }

/-- The slew P of a combined offset, clamped (R108). -/
def slewP (c : Settings) (theta : Int) : Int :=
  clampSym Config.pLimit (roundDiv (theta * Config.unitsPerNs) c.markTicks)

/-- F_new of a slew, clamped (R109). -/
def slewF (c : Settings) (f theta : Int) : Int :=
  clampSym Config.fLimit (f + roundDiv (slewP c theta) (2 ^ c.gain))

/-- A slew by a combined offset: P and F set (R108, R109). -/
def State.slew (theta : Int) (s : State) : State :=
  { s with
    time := (s.time.setP (slewP s.cfg theta)).setF (slewF s.cfg s.time.f theta) }

/-- A step requested by a combined offset with its reason (R111). -/
def State.requestStep (reason : BreakReason) (theta : Int) (s : State) : State :=
  { s with
    time := s.time.request s.link.flight.isSome theta
    servo := { s.servo with reason := some reason } }

/-- The offset is beyond the step limit (R110). -/
def beyondLimit (c : Settings) (theta : Int) : Bool := decide (c.stepLimitNs < theta.natAbs)

/-- The lock threshold Λ of a result (R110). -/
def lockThreshold (r : Combined) : Nat := 4 * r.u + 1000

/-- The offset is within the lock threshold (R110). -/
def withinLock (r : Combined) : Bool := decide (r.theta.natAbs ≤ lockThreshold r)

/-- A result kept as the last result and advertised (R107, R113, R115, R117, R118, R124). -/
def Servo.keep (r : Combined) (v : Servo) : Servo :=
  { v with last := some (r.u, r.depth), advU := r.u, advDepth := r.depth }

/-- The servo in PULL-IN with a result kept and its lock and none counts at 0 (R113). -/
def Servo.toPullIn (r : Combined) (v : Servo) : Servo :=
  { v.keep r with clock := .pullIn, lockCount := 0, noneCount := 0 }

/-- The servo in PULL-IN at the end of a coast: the break count at 0 too and the coast record discarded
(R124). -/
def Servo.endCoast (r : Combined) (v : Servo) : Servo :=
  { v.toPullIn r with breakCount := 0, coast := none }

/-- A change of the servo's own state. -/
def State.withServo (f : Servo → Servo) (s : State) : State := { s with servo := f s.servo }

/-! ## Coast (R120, R121) -/

/-- The coast frequency: F_bin of a learned current bin, else the coast-entry F (R121). -/
def coastF (t : Temperature) (entryF : Int) : Int :=
  match t.currentBin with
  | some b => if b.learned then b.f else entryF
  | none => entryF

/-- The choice of coast frequency, made in COAST alone (R121). -/
def State.chooseCoastF (s : State) : State :=
  match s.servo.coast with
  | some c => s.setF (coastF s.temp c.entryF)
  | none => s

/-- The coast record made on entry (R120). -/
def coastRecord (s : State) : CoastRecord where
  startK := s.k
  entryF := s.time.f
  u := s.servo.advU
  depth := if s.servo.advDepth = 0 then 1 else s.servo.advDepth
  limitPassed := false
  lastGrowth := s.k

/-- Entry to COAST: counts at 0, the coast record made and advertised, the open block flagged COAST, the
coast frequency chosen (R120, R121, R158). -/
def State.enterCoast (s : State) : State :=
  State.chooseCoastF
    { s with
      servo :=
        { s.servo with
          clock := .coast, lockCount := 0, noneCount := 0, breakCount := 0
          coast := some (coastRecord s), advU := (coastRecord s).u, advDepth := (coastRecord s).depth }
      align := { s.align with block := s.align.block.map fun b => { b with coast := true } } }

/-! ## The update by clock state (6.4, 6.5) -/

/-- UNSET with a combined result (R113). -/
def updateUnset (r : Combined) (s : State) : State :=
  (if 1000 ≤ r.theta.natAbs then s.requestStep .initial r.theta else s.slew r.theta).withServo
    (Servo.toPullIn r)

/-- PULL-IN with a combined result within the step limit: a slew, and lock at the fourth in a row within
the lock threshold (R115). -/
def pullInSlew (r : Combined) (s : State) : State :=
  let lock := if withinLock r then s.servo.lockCount + 1 else 0
  (s.slew r.theta).withServo fun v =>
    if 4 ≤ lock then
      { v.keep r with clock := .locked, lockCount := 4, noneCount := 0, breakCount := 0 }
    else { v.keep r with lockCount := lock, noneCount := 0 }

/-- PULL-IN with a combined result (R115). -/
def updatePullIn (r : Combined) (s : State) : State :=
  if beyondLimit s.cfg r.theta then
    (s.requestStep .pullIn r.theta).withServo fun v =>
      { v.keep r with lockCount := 0, noneCount := 0 }
  else pullInSlew r s

/-- PULL-IN or LOCKED with NONE: P withdrawn, COAST at the second in a row (R116, R119). -/
def updateNone (s : State) : State :=
  let s' := (s.setP 0).withServo fun v => { v with noneCount := v.noneCount + 1 }
  if 2 ≤ s'.servo.noneCount then s'.enterCoast else s'

/-- LOCKED with a combined result within the step limit: a slew, and a learn request within the lock
threshold (R117, R133). -/
def lockedSlew (r : Combined) (s : State) : State :=
  let slewed := (s.slew r.theta).withServo fun v => { v.keep r with breakCount := 0, noneCount := 0 }
  if withinLock r then { slewed with temp := slewed.temp.learn slewed.time.f } else slewed

/-- LOCKED with a combined result beyond the step limit: no correction, a step at the third in a row
(R118). -/
def lockedBreak (r : Combined) (s : State) : State :=
  let held := (s.setP 0).withServo fun v =>
    { v.keep r with noneCount := 0, breakCount := v.breakCount + 1 }
  if 3 ≤ held.servo.breakCount then
    (held.requestStep .lockedBreak r.theta).withServo fun v =>
      { v with clock := .pullIn, lockCount := 0, breakCount := 0 }
  else held

/-- LOCKED with a combined result (R117, R118). -/
def updateLocked (r : Combined) (s : State) : State :=
  if beyondLimit s.cfg r.theta then lockedBreak r s else lockedSlew r s

/-- COAST with a combined result: the coast ends by a slew or a step (R124). -/
def updateCoast (r : Combined) (s : State) : State :=
  (if beyondLimit s.cfg r.theta then s.requestStep .coastBreak r.theta else s.slew r.theta).withServo
    (Servo.endCoast r)

/-- COAST with NONE: P kept at 0 and the coast frequency chosen again (R125). -/
def updateCoastNone (s : State) : State := (s.setP 0).chooseCoastF

/-- The servo acts on a run's result by its clock state (6.4, 6.5). -/
def servoAct (result : Option Combined) (s : State) : State :=
  match s.servo.clock, result with
  | .unset, some r => updateUnset r s
  | .unset, none => s
  | .pullIn, some r => updatePullIn r s
  | .pullIn, none => updateNone s
  | .locked, some r => updateLocked r s
  | .locked, none => updateNone s
  | .coast, some r => updateCoast r s
  | .coast, none => updateCoastNone s

/-- SERVO_UPDATE is due: K is a positive multiple of N and no update was made on this tick (R105). -/
def State.servoUpdateDue (s : State) : Bool :=
  decide (0 < s.k ∧ s.k % s.cfg.markTicks = 0 ∧ s.servo.lastUpdate < s.k)

/-- The update: a run of the Combiner, then the act on its result (R105). -/
def servoUpdate (s : State) : State :=
  let marked := s.withServo fun v => { v with lastUpdate := s.k }
  let run := combinerRun marked
  servoAct run.2 run.1

/-- SERVO_UPDATE (R105). -/
def execServoUpdate (s : State) : Host.Outcome State Fault Refusal :=
  .next (if s.servoUpdateDue then servoUpdate s else s)

/-! ## Growth and limit of a coast -/

/-- The growth of the coast U in one second, g′ (R122). -/
def growthStep (c : Settings) (t : Temperature) : Nat :=
  if t.binLearned then c.growth / 2 else c.growth

/-- COAST_GROWTH is due: the coast time is a positive whole number of seconds and no growth was made on
this tick (R122). -/
def State.coastGrowthDue (s : State) : Bool :=
  match s.servo.coast with
  | some c =>
    decide (s.servo.clock = .coast ∧ c.startK < s.k ∧
      (s.k - c.startK) % Config.ticksPerSecond = 0 ∧ c.lastGrowth < s.k)
  | none => false

/-- The servo after one growth of the coast U by `g` ns on tick `k` (R122). -/
def Servo.grow (g k : Nat) (v : Servo) : Servo :=
  match v.coast with
  | some c =>
    { v with
      coast := some { c with u := holdU (c.u + g), lastGrowth := k }
      advU := holdU (c.u + g) }
  | none => v

/-- COAST_GROWTH (R122). -/
def execCoastGrowth (s : State) : Host.Outcome State Fault Refusal :=
  .next (if s.coastGrowthDue then s.withServo (Servo.grow (growthStep s.cfg s.temp) s.k) else s)

/-- COAST_LIMIT is due: the coast time is greater than the coast limit, not yet marked (R123). -/
def State.coastLimitDue (s : State) : Bool :=
  match s.servo.coast with
  | some c =>
    decide (s.servo.clock = .coast ∧ c.startK + s.cfg.coastLimitTicks < s.k ∧ c.limitPassed = false)
  | none => false

/-- The servo with the coast limit passed (R123). -/
def Servo.passLimit (v : Servo) : Servo :=
  { v with
    coast := v.coast.map fun c => { c with depth := 15, limitPassed := true }
    advDepth := 15 }

/-- COAST_LIMIT (R123). -/
def execCoastLimit (s : State) : Host.Outcome State Fault Refusal :=
  .next (if s.coastLimitDue then (s.withServo Servo.passLimit).latch .coastLong else s)

/-! ## CONVERSION_COMPLETE -/

/-- The part after a conversion delivers `code`: the temperature and bin are formed, and a bin change in
COAST chooses the coast frequency again (R128 to R130, R121). -/
def conversionComplete (code : Nat) (s : State) : State :=
  let s' := { s with temp := s.temp.complete code }
  if s'.temp.bin ≠ s.temp.bin ∧ s.servo.clock = .coast then s'.chooseCoastF else s'

/-- CONVERSION_COMPLETE (R128). A code of 1,024 or more is none of the converter's. -/
def execConversionComplete (code : Nat) (s : State) : Host.Outcome State Fault Refusal :=
  if code < Config.codeRange then
    .next (if s.conversionCompleteDue then conversionComplete code s else s)
  else .fault (.noSuchCode code)

end Sys2Proof.Machine
end

