-- ==== Sys2Proof/Machine/Tick.lean ====
section
/-!
DEFINITION. The Time Scale Unit's commands: TICK, with the sampling of every input line, and
STEP_APPLICATION, with the announcement of the step.
-/

namespace Sys2Proof.Machine

/-! ## Sampling -/

/-- The edges between the samples of two ticks (R22, R186). -/
def edgesOf (old new : Pins) : Edges where
  pps := !old.anchorPps && new.anchorPps
  sample := !old.sample && new.sample
  trig := !old.trigIn && new.trigIn
  rearm := !old.rearm && new.rearm
  link := old.linkRxd && !new.linkRxd

/-- The sampled lines after a tick with the levels given: without earlier levels there is no edge
(R22, R35). -/
def Lines.sampled (new : Pins) (l : Lines) : Lines where
  levels := some new
  edges :=
    match l.levels with
    | some old => edgesOf old new
    | none => Lines.afterReset.edges

/-- The slot of the configuration read in which a tick of K = 40,000 or more lies (R189). -/
def busSlot (k : Nat) : Nat := (k - 40000) / 200

/-- The tick within its slot (R189). -/
def busOffset (k : Nat) : Nat := (k - 40000) % 200

/-- A data bit is sampled on this tick: tick 100 of a data slot, 24 bytes of 9 slots from slot 31, the
ninth the acknowledge (R189). -/
def dataBitTick (k : Nat) : Bool :=
  decide (40000 ≤ k ∧ busOffset k = 100 ∧ 31 ≤ busSlot k ∧ busSlot k < 247 ∧
    (busSlot k - 31) % 9 < 8)

/-- The Start-up Controller after the level of CFG_SDA on tick `k` (R189). -/
def Startup.sampleBus (k : Nat) (level : Bool) (u : Startup) : Startup :=
  if dataBitTick k ∧ u.abandoned = none ∧ u.endK = none then { u with bits := u.bits ++ [level] }
  else u

/-- The Anchor Input's sample on tick `k`: only where ANCHOR_EN is set (R136, R137). -/
def State.sampleAnchor (k : Nat) (pins : Pins) (s : State) : AnchorInput :=
  if s.startup.anchorEn then
    s.anchor.sampleLine k (s.lines.levels.map Pins.anchorRx) pins.anchorRx
  else s.anchor

/-! ## TICK -/

/-- One tick with the levels given: the scales advance, every line is sampled, a start bit of the link
that has been read low is confirmed, and both coincidence lists are emptied where T's seconds wrap (R1, R4,
R5, R22, R25, R54, R137, R168, R189). The confirmation comes with the sample: DESIGN CHOICE, log 8. -/
def tick (pins : Pins) (s : State) : State :=
  let ts := s.time.tick
  let link := s.link.sampled s.cfg.linkRate ts.k pins.linkRxd
  { s with
    time := ts
    lines := s.lines.sampled pins
    cap := s.cap.hear link
    link := link
    anchor := s.sampleAnchor ts.k pins
    coinc := if ts.wraps = s.time.wraps then s.coinc else s.coinc.emptied
    startup := s.startup.sampleBus ts.k pins.cfgSda }

/-- TICK (R1). -/
def execTick (pins : Pins) (s : State) : Host.Outcome State Fault Refusal := .next (tick pins s)

/-! ## STEP_APPLICATION -/

/-- The BREAK record of a step's announcement (R112). -/
def breakRecord (s : State) (reason : BreakReason) : BreakRec where
  reason := reason
  amount := s.time.appliedNs
  time := s.time.stepped.t.stamp
  nextBlock := s.align.stepBlock
  clock := s.servo.clock

/-- The servo's part in the announcement: the BREAK record queued, STEP latched unless the reason is
INITIAL, the pending reason discarded (R112). -/
def reportBreak (s : State) (announced : State) : State :=
  match s.servo.reason with
  | none => announced
  | some reason =>
    ((if reason = .initial then announced else announced.latch .step).arrive
      (.brk (breakRecord s reason))).withServo fun v => { v with reason := none }

/-- The pending step applied and announced: T moved, the aligner's block and grid, the stored times of
the Coincidence Unit, the BREAK record (R16, R17, R112, R155 to R157, R168, R174). -/
def stepApplication (s : State) : State :=
  let moved := s.coinc.moveTimes s.time.appliedNs s.k
  reportBreak s
    { s with
      time := s.time.stepped
      align := s.align.announce s.startup.genMode s.cfg.period s.time.appliedNs s.time.stepped.t
      coinc := if s.time.stepped.wraps = s.time.wraps then moved else moved.emptied }

/-- STEP_APPLICATION (R16). -/
def execStepApplication (s : State) : Host.Outcome State Fault Refusal :=
  .next (if s.time.stepDue then stepApplication s else s)

end Sys2Proof.Machine
end

