-- ==== Sys2Proof/Machine/StartUp.lean ====
section
/-!
DEFINITION. The Start-up Controller (chapter 12): the two resets, the strap sampling, the configuration
read and its end.
-/

namespace Sys2Proof.Machine

/-! ## Resets (R18, R19, R135, R193) -/

/-- POWER_ON_RESET (R18): every block as after a power-on reset; the queue is not the part's. -/
def execPowerOnReset (s : State) : Host.Outcome State Fault Refusal :=
  .next (State.afterReset 0 Temperature.clearedBins true s.pending)

/-- RESET_PIN_RESET (R19): F and the drift bins kept, all else as after a reset. The supply flag stays
while no tick has been taken since the supply monitor's reset, since that reset was not released
(R193, log 12). -/
def execResetPinReset (s : State) : Host.Outcome State Fault Refusal :=
  .next (State.afterReset s.time.f s.temp.bins (s.startup.supplyFailed && decide (s.k = 0)) s.pending)

/-! ## STRAP_SAMPLING (R187, R188) -/

/-- A strapped number that is no station number (R188). -/
def badStation (station : BitVec 6) : Bool := decide (station = 0 ∨ station = 63)

/-- The Start-up Controller with the straps latched and the reset cause recorded (R187, R193). -/
def Startup.latchStraps (pins : Pins) (u : Startup) : Startup :=
  { u with
    strapped := true
    station := pins.station
    anchorEn := pins.anchorEn
    genMode := pins.genMode
    cause := if u.supplyFailed then .power else .pin }

/-- The straps handed out: the register seeded, SAMPLE_CMD driven low, MUTED for a strap of 0 or 63
(R42, R146, R187, R188). -/
def latchStraps (pins : Pins) (s : State) : State :=
  let latched :=
    { s with
      startup := s.startup.latchStraps pins
      link := { s.link with lfsr := lfsrSeed pins.station.toNat }
      align := { s.align with cmdLowFrom := s.k } }
  if badStation pins.station then latched.enterMuted else latched

/-- STRAP_SAMPLING (R187): on the tick at which K becomes 1, once. -/
def execStrapSampling (s : State) : Host.Outcome State Fault Refusal :=
  .next (match s.lines.levels with
    | some pins => if s.k = 1 ∧ s.startup.strapped = false then latchStraps pins s else s
    | none => s)

/-! ## The configuration read (R189 to R191) -/

/-- An acknowledge slot of an addressing byte is sampled on this tick: tick 100 of slot 11, 20 or 30
(R189). -/
def ackTick (k : Nat) : Bool :=
  decide (40000 ≤ k ∧ busOffset k = 100 ∧ (busSlot k = 11 ∨ busSlot k = 20 ∨ busSlot k = 30))

/-- MISSING_ACKNOWLEDGE is due: CFG_SDA is high on the tick an acknowledge slot is sampled (R189). -/
def State.missingAckDue (s : State) : Bool :=
  ackTick s.k && s.startup.abandoned.isNone &&
  match s.lines.levels with
  | some p => p.cfgSda
  | none => false

/-- MISSING_ACKNOWLEDGE (R189): the read is abandoned on this tick. -/
def execMissingAcknowledge (s : State) : Host.Outcome State Fault Refusal :=
  .next (if s.missingAckDue then { s with startup := { s.startup with abandoned := some s.k } } else s)

/-- CONFIG_SETTLE is due: the tick of the stop condition, or of the abandoning stop in the slot after a
missing acknowledge (R189, R190). -/
def State.settleDue (s : State) : Bool :=
  !s.startup.settled &&
  match s.startup.abandoned with
  | some a => decide (a + 200 ≤ s.k)
  | none => decide (Config.stopK ≤ s.k)

/-- The values settled as read and clamped, or as defaults (R190, R191). -/
def Startup.settle (u : Startup) : Startup :=
  if u.abandoned = none ∧ blockPasses u.bits then
    let read := Settings.ofBlock (blockBytes u.bits)
    { u with
      settled := true, settings := read.clamp, defaulted := false
      clamped := decide (read.clamp ≠ read) }
  else
    { u with settled := true, settings := Settings.defaults, defaulted := true, clamped := false }

/-- CONFIG_SETTLE (R190). -/
def execConfigSettle (s : State) : Host.Outcome State Fault Refusal :=
  .next (if s.settleDue then { s with startup := s.startup.settle } else s)

/-! ## CONFIG_READ_END (R192) -/

/-- The configuration read ends on this tick, once, its values settled (R189, R192). -/
def State.readEndDue (s : State) : Bool :=
  s.startup.settled && s.startup.endK.isNone && decide (Config.readEndK ≤ s.k)

/-- The part with the settled values handed out, before the Record Port's start: the link released into
its listen period, the inputs enabled, the grid pointer set (R36, R41, R53, R153, R192). -/
def releaseBlocks (s : State) : State :=
  { s with
    startup := { s.startup with endK := some s.k }
    link :=
      { s.link with
        rx := .hunt none
        schedule := .listening (s.k + 2 * s.cfg.markTicks) }
    cap := { s.cap with linkPrevK := s.k }
    align :=
      { s.align with
        grid := if s.startup.genMode then some (firstGridInstant s.cfg.period s.nowT) else none } }

/-- The Record Port's start: CONFIG set where a config flag is set, timers started, the first STATUS
record formed and the head taken (R178, R183, R185, R192). -/
def startPort (s : State) : State :=
  let alerted := if s.startup.defaulted || s.startup.clamped then s.latch .config else s
  formStatus { alerted with port := { alerted.port with lastPeer := s.k } }

/-- CONFIG_READ_END (R192). -/
def execConfigReadEnd (s : State) : Host.Outcome State Fault Refusal :=
  .next (if s.readEndDue then startPort (releaseBlocks s) else s)

end Sys2Proof.Machine
end

