-- ==== Sys2Proof/Machine/Dispatch.lean ====
section
/-!
DEFINITION. One arm for each command, each a direct call of the command's meaning.
-/

namespace Sys2Proof.Machine

/-- The effect of a command on everything but the queue. -/
def exec (i : Instr) (s : State) : Host.Outcome State Fault Refusal :=
  match i with
  | .tick pins => Sys2Proof.Machine.execTick pins s
  | .powerOnReset => Sys2Proof.Machine.execPowerOnReset s
  | .resetPinReset => Sys2Proof.Machine.execResetPinReset s
  | .strapSampling => Sys2Proof.Machine.execStrapSampling s
  | .missingAcknowledge => Sys2Proof.Machine.execMissingAcknowledge s
  | .configSettle => Sys2Proof.Machine.execConfigSettle s
  | .configReadEnd => Sys2Proof.Machine.execConfigReadEnd s
  | .stepApplication => Sys2Proof.Machine.execStepApplication s
  | .ppsEdge => Sys2Proof.Machine.execPpsEdge s
  | .sampleStrobeEdge => Sys2Proof.Machine.execSampleStrobeEdge s
  | .gapDeadline => Sys2Proof.Machine.execGapDeadline s
  | .gridPulseIssue => Sys2Proof.Machine.execGridPulseIssue s
  | .sampleCmdPulseEnd => Sys2Proof.Machine.execSampleCmdPulseEnd s
  | .trigInEdge => Sys2Proof.Machine.execTrigInEdge s
  | .linkByteReceived => Sys2Proof.Machine.execLinkByteReceived s
  | .huntHistoryForget => Sys2Proof.Machine.execHuntHistoryForget s
  | .receiptTruncated => Sys2Proof.Machine.execReceiptTruncated s
  | .listenPeriodEnd => Sys2Proof.Machine.execListenPeriodEnd s
  | .markIntervalStart => Sys2Proof.Machine.execMarkIntervalStart s
  | .keyUpCheck kind => Sys2Proof.Machine.execKeyUpCheck kind s
  | .referenceInstant => Sys2Proof.Machine.execReferenceInstant s
  | .launchEnd => Sys2Proof.Machine.execLaunchEnd s
  | .trialTimeout slot => Sys2Proof.Machine.execTrialTimeout slot s
  | .trackedSilent slot => Sys2Proof.Machine.execTrackedSilent slot s
  | .silentTimeout slot => Sys2Proof.Machine.execSilentTimeout slot s
  | .recordExpiry slot => Sys2Proof.Machine.execRecordExpiry slot s
  | .barringEnd slot => Sys2Proof.Machine.execBarringEnd slot s
  | .servoUpdate => Sys2Proof.Machine.execServoUpdate s
  | .localSourceBarringEnd source => Sys2Proof.Machine.execLocalSourceBarringEnd source s
  | .coastGrowth => Sys2Proof.Machine.execCoastGrowth s
  | .coastLimit => Sys2Proof.Machine.execCoastLimit s
  | .conversionStart => Sys2Proof.Machine.execConversionStart s
  | .conversionComplete code => Sys2Proof.Machine.execConversionComplete code s
  | .anchorMessageComplete => Sys2Proof.Machine.execAnchorMessageComplete s
  | .anchorMessageAbandoned => Sys2Proof.Machine.execAnchorMessageAbandoned s
  | .lossTimerExpiry => Sys2Proof.Machine.execLossTimerExpiry s
  | .listExpiry => Sys2Proof.Machine.execListExpiry s
  | .coincOutPulseEnd => Sys2Proof.Machine.execCoincOutPulseEnd s
  | .frameEnd => Sys2Proof.Machine.execFrameEnd s
  | .statusTimer => Sys2Proof.Machine.execStatusTimer s
  | .peerTimer => Sys2Proof.Machine.execPeerTimer s
  | .rearmEdge => Sys2Proof.Machine.execRearmEdge s
  | .linkStartEdge => Sys2Proof.Machine.execLinkStartEdge s
  | .linkFalseStart => Sys2Proof.Machine.execLinkFalseStart s
  | .anchorByteReceived => Sys2Proof.Machine.execAnchorByteReceived s

end Sys2Proof.Machine
end

