-- ==== Sys2Proof/Machine/Step.lean ====
section
/-!
DEFINITION. One step of the part: the command at the front of the queue.
-/

namespace Sys2Proof.Machine

/-- The state with another queue. -/
def State.withQueue (q : List Instr) (s : State) : State := { s with pending := q }

/-- One step: the command at the front of the queue, on the state with the rest of the queue. On an
empty queue the part idles (DESIGN CHOICE, log 2). -/
def step (s : State) : Host.Outcome State Fault Refusal :=
  match s.pending with
  | [] => .next s
  | i :: rest => exec i (s.withQueue rest)

/-- The state with the command that a table word spells put at the front of its queue; no word spells a
command, since the table gives no bits. -/
def State.withFetchWord (s : State) (nbits w : Nat) : State :=
  match decodeTableWord nbits w with
  | some i => s.withQueue (i :: s.pending)
  | none => s

end Sys2Proof.Machine
end

