-- ==== Sys2Proof/Machine/Outputs.lean ====
section
/-!
DEFINITION. The output lines of the part, each read from the state: LINK_KEY, LINK_TXD, REC_TXD,
SAMPLE_CMD, COINC_OUT, ALERT, CFG_SCL and CFG_SDA (12.6). High, or released on an open-drain line,
reads as `true`.
-/

namespace Sys2Proof.Machine

/-- LINK_KEY is asserted: a launch is in flight (R39). -/
def State.linkKey (s : State) : Bool := s.link.flight.isSome

/-- The level of bit `m` of a mark's frame: preamble and sync are bits -60 to -1, the body's bits count
from 0, and the line is high before and after (R38, R46). -/
def markBit (body : Option (List Byte)) (m : Int) : Bool :=
  if m < -60 then true
  else if m < 0 then (preamble.flatMap asyncBits).getD (m + 60).toNat true
  else
    match body with
    | some b => (b.flatMap asyncBits).getD m.toNat true
    | none => false

/-- LINK_TXD (R38, R46). -/
def State.linkTxd (s : State) : Bool :=
  match s.link.flight with
  | some f => markBit f.body (bitAt s.cfg.linkRate ((s.k : Int) - f.ref))
  | none => true

/-- REC_TXD (R177). -/
def State.recTxd (s : State) : Bool :=
  match s.port.frame with
  | some f =>
    (f.bytes.flatMap asyncBits).getD (bitAt s.cfg.recordRate ((s.k : Int) - f.start)).toNat true
  | none => true

/-- SAMPLE_CMD is high (R153). -/
def State.sampleCmd (s : State) : Bool := s.align.pulseEnd.isSome

/-- COINC_OUT is high (R171). -/
def State.coincOut (s : State) : Bool := s.coinc.pulseEnd.isSome

/-- ALERT is driven low (R185). -/
def State.alertLow (s : State) : Bool := s.port.alerts.any

/-! ## The configuration bus (R189) -/

/-- The levels of the two bus lines: CFG_SCL, CFG_SDA as the part drives them. -/
structure BusLines where
  /-- CFG_SCL released. -/
  scl : Bool
  /-- CFG_SDA released by the part. -/
  sda : Bool
deriving DecidableEq, Repr

/-- Both lines released. -/
def busReleased : BusLines := ⟨true, true⟩

/-- A clock slot at tick `o` of the slot, the part placing `sda` on the data line. -/
def clockSlot (sda : Bool) (o : Nat) : BusLines := ⟨decide (50 ≤ o ∧ o ≤ 149), sda⟩

/-- A start slot at tick `o`; `sclBefore` is the clock line's level before tick 50. -/
def startSlot (sclBefore : Bool) (o : Nat) : BusLines :=
  ⟨if o < 50 then sclBefore else decide (o < 150), decide (o < 100)⟩

/-- A stop slot at tick `o`. -/
def stopSlot (o : Nat) : BusLines := ⟨decide (50 ≤ o), decide (100 ≤ o)⟩

/-- The slot of an addressing byte: bit `i` of the byte, most significant first, the ninth released. -/
def addressBit (b : Byte) (i : Nat) : Bool := (bitsMsb b).getD i true

/-- The lines in slot `n` of the read, at tick `o` of the slot. -/
def readSlot (n o : Nat) : BusLines :=
  if n < 2 then busReleased
  else if n = 2 then startSlot true o
  else if n < 12 then clockSlot (addressBit 0xA0 (n - 3)) o
  else if n < 21 then clockSlot (addressBit 0x00 (n - 12)) o
  else if n = 21 then startSlot false o
  else if n < 31 then clockSlot (addressBit 0xA1 (n - 22)) o
  else if n < 247 then clockSlot (decide ((n - 31) % 9 < 8 ∨ n = 246)) o
  else if n = 247 then stopSlot o
  else busReleased

/-- The bus lines on this tick (R189). -/
def State.busLines (s : State) : BusLines :=
  if s.k < 20000 then busReleased
  else if s.k < 21800 then clockSlot true ((s.k - 20000) % 200)
  else if s.k < 40000 then busReleased
  else if Config.readEndK ≤ s.k then busReleased
  else
    match s.startup.abandoned with
    | none => readSlot (busSlot s.k) (busOffset s.k)
    | some a =>
      if busSlot s.k ≤ busSlot a then readSlot (busSlot s.k) (busOffset s.k)
      else if busSlot s.k = busSlot a + 1 then stopSlot (busOffset s.k)
      else busReleased

end Sys2Proof.Machine
end

