-- ==== Sys2Proof/WellFormed.lean ====
section
/-!
DEFINITION. The well-formed commands: an operand that numbers a Peer Table slot or a converter code
lies in the range the spec gives it. Every other operand's type holds only legal values.
-/

namespace Sys2Proof

/-- The operands of a command lie in their ranges: slots 0 to 23 (4.1), codes 0 to 1,023 (R127). -/
def Instr.wellFormed : Instr → Bool
  | .trialTimeout slot | .trackedSilent slot | .silentTimeout slot
  | .recordExpiry slot | .barringEnd slot => decide (slot < Config.peerSlots)
  | .conversionComplete code => decide (code < Config.codeRange)
  | .tick _ | .powerOnReset | .resetPinReset | .strapSampling | .missingAcknowledge
  | .configSettle | .configReadEnd | .stepApplication | .ppsEdge | .sampleStrobeEdge
  | .gapDeadline | .gridPulseIssue | .sampleCmdPulseEnd | .trigInEdge | .linkByteReceived
  | .huntHistoryForget | .receiptTruncated | .listenPeriodEnd | .markIntervalStart
  | .keyUpCheck _ | .referenceInstant | .launchEnd | .servoUpdate | .localSourceBarringEnd _
  | .coastGrowth | .coastLimit | .conversionStart | .anchorMessageComplete
  | .anchorMessageAbandoned | .lossTimerExpiry | .listExpiry | .coincOutPulseEnd | .frameEnd
  | .statusTimer | .peerTimer | .rearmEdge | .linkStartEdge | .linkFalseStart
  | .anchorByteReceived => true

end Sys2Proof
end

