-- ==== Sys2Proof/Safety.lean ====
section
/-!
DEFINITION. What a legal state of the part is, block by block: the conditions that the spec says hold at
all times, stated so that every step keeps them.
-/

namespace Sys2Proof.Machine

/-! ## Time Scale Unit -/

/-- F lies in its range (R9). -/
def TimeScale.FLegal (ts : TimeScale) : Prop := -42949673 ≤ ts.f ∧ ts.f ≤ 42949673

/-- P lies in its range (R9). -/
def TimeScale.PLegal (ts : TimeScale) : Prop := -21474836 ≤ ts.p ∧ ts.p ≤ 21474836

/-- The unit is legal: K in its 64 bits (R1), F and P in their ranges (R9), P 0 while a step is pending
(R11), the pending amount within its limits (R15). -/
def TimeScale.Legal (ts : TimeScale) : Prop :=
  ts.k ≤ Config.kMax ∧ ts.FLegal ∧ ts.PLegal ∧
  ∀ p, ts.step = some p → ts.p = 0 ∧ -(2 ^ 63 - 1) ≤ p.amount ∧ p.amount ≤ 2 ^ 63 - 1

/-! ## Mark Link Controller -/

/-- A launch slot is legal: at most three deferrals (R44). -/
def slotLegal (slot : Option LaunchSlot) : Prop := ∀ sl, slot = some sl → sl.deferrals ≤ 3

/-- The controller is legal: at most eight echo entries and one a station (R51), at most four launches
listed (R49), the register never 0 (R42), deferral counts within 3 (R44), and in MUTED both slots absent
and the echo queue empty (R59). -/
def MarkLink.Legal (l : MarkLink) : Prop :=
  l.echoes.length ≤ 8 ∧ (l.echoes.map EchoEntry.station).Nodup ∧ l.launches.length ≤ 4 ∧
  l.lfsr ≠ 0 ∧ slotLegal l.regular ∧ slotLegal l.notice ∧
  (l.muted = true → l.regular = none ∧ l.notice = none ∧ l.echoes = [])

/-! ## Peer Table -/

/-- The stations of the entries, in slot order. -/
def PeerTable.stations (p : PeerTable) : List Nat := p.slots.filterMap (Option.map PeerEntry.station)

/-- An entry is legal: a station number of 1 to 62, at most eight records (R76), at most four recent
notices and none twice (R82), at most four rejections, and a barring end present exactly while BARRED
(R70, R71). -/
def PeerEntry.Legal (e : PeerEntry) : Prop :=
  1 ≤ e.station ∧ e.station ≤ 62 ∧ e.history.length ≤ 8 ∧ e.recent.length ≤ 4 ∧ e.recent.Nodup ∧
  e.rejects ≤ 4 ∧ (e.barEnd.isSome ↔ e.state = .barred)

/-- The link is not yet released and the table holds nothing (R53, R61, R62). -/
def State.Unreleased (s : State) : Prop :=
  s.link.rx = .stopped ∧ s.link.flight = none ∧ s.link.regular = none ∧ s.link.notice = none ∧
  s.link.schedule = .idle ∧ s.peers.stations = []

/-- The Peer Table is legal: 24 slots, no two entries with one station number, none with the part's own
(R64), every entry legal; and before K = 90,000 the link is not released (R192). -/
def State.PeersLegal (s : State) : Prop :=
  s.peers.slots.length = 24 ∧ s.peers.stations.Nodup ∧ s.own ∉ s.peers.stations ∧
  (∀ e, some e ∈ s.peers.slots → e.Legal) ∧ (s.k < 90000 → s.Unreleased)

/-! ## Discipline Servo -/

/-- The advertised values follow the clock state (R107): U_MAX and 15 in UNSET, the last result in
PULL-IN and LOCKED, the coast record in COAST; the coast record stands in COAST alone (R106) and its
depth is never 0 (R120). -/
def Servo.Advertises (v : Servo) : Prop :=
  match v.clock with
  | .unset => v.advU = Config.uMax ∧ v.advDepth = 15 ∧ v.coast = none
  | .pullIn => v.last = some (v.advU, v.advDepth) ∧ v.coast = none
  | .locked => v.last = some (v.advU, v.advDepth) ∧ v.coast = none
  | .coast => ∃ c, v.coast = some c ∧ v.advU = c.u ∧ v.advDepth = c.depth ∧ 1 ≤ c.depth

/-- The servo is legal: its values follow the clock state and lie in their ranges (R106, R107). -/
def Servo.Legal (v : Servo) : Prop :=
  v.Advertises ∧ v.advU ≤ Config.uMax ∧ v.advDepth ≤ 15

/-! ## Coincidence Unit -/

/-- The key that no two entries of the coincidence list share (R167). -/
def CoincEntry.key (e : CoincEntry) : Nat × Seq := (e.station, e.seq)

/-- The unit is legal: at most 32 entries in the order of R167, no two with one station and trigger
sequence, at most four outgoing notices (R165) and four windows (R170). -/
def Coincidence.Legal (c : Coincidence) : Prop :=
  c.list.length ≤ 32 ∧ c.list.Pairwise (fun a b => a.before b = true) ∧
  (c.list.map CoincEntry.key).Nodup ∧ c.outgoing.length ≤ 4 ∧ c.windows.length ≤ 4

/-! ## Record Port -/

/-- The port is legal: at most 16 records wait (R179) and the cursor names a slot (R184). -/
def RecordPort.Legal (p : RecordPort) : Prop := p.queue.length ≤ 16 ∧ p.cursor < 24

/-! ## Temperature Monitor and Drift Table -/

/-- The monitor is legal: at most four slots of -160 to 340 (R128), sixteen bins whose F_bin lies in the
range of F and whose count in 0 to 255 (R132). -/
def Temperature.Legal (t : Temperature) : Prop :=
  t.slots.length ≤ 4 ∧ (∀ q ∈ t.slots, -160 ≤ q ∧ q ≤ 340) ∧ t.bins.length = 16 ∧
  ∀ b ∈ t.bins, -42949673 ≤ b.f ∧ b.f ≤ 42949673 ∧ b.count ≤ 255

/-! ## What a closed block reports -/

/-- The TIMING record `r` reports block `b`, closed in state `s` with the period and rate deviation
given, short (`gap`) or not (R159 to R162). -/
def ReportsBlock (s : State) (b : OpenBlock) (period dev : Int) (gap : Bool) (r : TimingRec) : Prop :=
  r.number = b.number ∧ r.firstSample = b.first.ordinal ∧
  r.time = ⟨b.first.t.secs.val, b.first.t.ns.val⟩ ∧
  r.u = s.servo.advU ∧ r.clock = s.servo.clock ∧ r.depth = s.servo.advDepth ∧
  r.samples = b.samples ∧ r.periodPs = min (2 ^ 48 - 1) period.toNat ∧ r.rateDev = dev ∧
  -(s.cfg.period : Int) < 2 * r.gridDev ∧ 2 * r.gridDev ≤ s.cfg.period ∧
  (s.cfg.period : Int) ∣ b.first.t.nsCount - r.gridDev ∧
  r.skipped = b.skipped ∧ r.gap = gap ∧ r.stepped = b.stepped ∧ r.coast = b.coast ∧
  r.rateOut = decide (1000000 < dev.natAbs)

/-- The port `q` is the port `p` with RATE_OUT latched where `dev` lies beyond ±1,000,000 ppb, and the
TIMING record given arrived on the tick of `s` (R159, R161). -/
def TimingArrives (s : State) (dev : Int) (r : TimingRec) (q : RecordPort) : Prop :=
  q = ({ s.port with
    alerts := { s.port.alerts with
      rateOut := s.port.alerts.rateOut || decide (1000000 < dev.natAbs) } }).arrive
        s.time.k s.startup.endK.isSome (.timing r)

/-! ## Bytes at the boundary -/

/-- The low `n` bytes of a number, most significant first (R194). -/
def bigEndian (n v : Nat) : List Byte :=
  (List.range n).map fun i => BitVec.ofNat 8 (v / 256 ^ (n - 1 - i))

/-! ## A mark that a body can carry -/

/-- An echo item's fields fit their bytes (R196). -/
def EchoItem.Fits (e : EchoItem) : Prop := e.station < 256 ∧ e.hold < 2 ^ 48

/-- A time fits a time field (R194). -/
def Stamp.Fits (t : Stamp) : Prop := t.secs < 2 ^ 40 ∧ t.ns < 2 ^ 32

/-- A mark's fields fit the layout (R196) and its counts their limits (R40). -/
def Mark.Fits (m : Mark) : Prop :=
  m.version < 16 ∧ m.kind < 16 ∧ m.station < 256 ∧ m.time.Fits ∧ m.uCode < 2 ^ 24 ∧
  m.depth < 16 ∧ m.clock < 16 ∧ m.echoes.length ≤ 6 ∧ m.notices.length ≤ 4 ∧
  (∀ e ∈ m.echoes, e.Fits) ∧ ∀ n ∈ m.notices, n.time.Fits

end Sys2Proof.Machine
end

