-- ==== Sys2Proof/Certificates/Slice0/Obligations.lean ====
section
/-!
DEFINITION. The statements about the model, for the provers. Each docstring names the rules of spec/ or the
log entries a statement rests on. In most statements a next state `t` is given as an update of `s`, which
says that every field it does not name is unchanged.
-/

section

open Sys2Proof Sys2Proof.Machine

/-! ## The machine -/

/-- A step takes the command at the front of the queue and runs it on the state with the queue's rest. On
an empty queue the part idles: the model's choice, log 2. -/
def Obligations.StepTakesTheFrontCommand : Prop :=
  (∀ c q s, s.pending = c :: q → step s = exec c { s with pending := q }) ∧
  ∀ s, s.pending = [] → step s = .next s

/-- Every well-formed command answers a next state, in every state; a slot number of 24 or more and a
converter code of 1,024 or more are faults. Both are the model's choices: that a command whose condition
does not hold leaves the state as it is, log 3, and the faults, log 13. -/
def Obligations.WellFormedCommandsComplete : Prop :=
  (∀ c s, c.wellFormed = true → ∃ t, exec c s = .next t) ∧
  (∀ slot s, 24 ≤ slot →
    exec (.trialTimeout slot) s = .fault (.noSuchSlot slot) ∧
    exec (.trackedSilent slot) s = .fault (.noSuchSlot slot) ∧
    exec (.silentTimeout slot) s = .fault (.noSuchSlot slot) ∧
    exec (.recordExpiry slot) s = .fault (.noSuchSlot slot) ∧
    exec (.barringEnd slot) s = .fault (.noSuchSlot slot)) ∧
  ∀ code s, 1024 ≤ code → exec (.conversionComplete code) s = .fault (.noSuchCode code)

/-- No command changes the queue of waiting commands (the row's frame; the queue is not the part's). -/
def Obligations.CommandsLeaveTheQueue : Prop :=
  ∀ c s t, exec c s = .next t → t.pending = s.pending

/-! ## The scales -/

/-- K counts the ticks since reset, whatever F, P, steps and the other commands do, and keeps its largest
value (R1). -/
def Obligations.TickCountsTheOscillator : Prop :=
  (∀ pins s, ∃ t, exec (.tick pins) s = .next t ∧
    t.time.k = if s.time.k < 2 ^ 64 - 1 then s.time.k + 1 else 2 ^ 64 - 1) ∧
  (∀ c s t, (∀ pins, c ≠ .tick pins) → c ≠ .powerOnReset → c ≠ .resetPinReset →
    exec c s = .next t → t.time.k = s.time.k) ∧
  (∀ c s t, c = .powerOnReset ∨ c = .resetPinReset → exec c s = .next t →
    t.time.k = 0 ∧
    ∀ ticks : List Pins, ticks.length < 2 ^ 64 →
      (ticks.foldl (fun x pins => tick pins x) t).time.k = ticks.length)

/-- At every tick R rises by 50 ns plus F and T by 50 ns plus F and P, exactly, in units of 2^-32 ns; R
keeps its largest value, T's seconds wrap and are counted; steps do not enter R; both are 0 after a reset
(R4, R5). On every tick each line is sampled and compared with its last level: rising edges of ANCHOR_PPS, the
sample pin, TRIG_IN and REARM, falling edges of LINK_RXD (R22, R186). A byte in progress on LINK_RXD or
ANCHOR_RX takes the level when one of its samples 16n + 7 to 16n + 9 falls due; on ANCHOR_RX a falling edge
starts a byte and a start bit that reads high drops it (R54, R137). On tick 100 of a data slot CFG_SDA is read
(R189). A wrap of T's seconds empties the coincidence list and the declared windows (R168). The Capture Unit is
unchanged unless a start bit has been read low (StartEdgesAndGaps), and TICK changes nothing else. That TICK
carries the levels, finds ANCHOR_RX's edges, reads CFG_SDA and confirms start bits are the model's choices:
logs 4, 24, 25 and 8. -/
def Obligations.TickAdvancesTheScales : Prop :=
  (∀ pins s, s.time.FLegal → s.time.PLegal → ∃ t, exec (.tick pins) s = .next t ∧
    (if (s.time.r.units : Int) + (214748364800 + s.time.f) < 2 ^ 40 * 10 ^ 9 * 2 ^ 32 then
      (t.time.r.units : Int) = s.time.r.units + (214748364800 + s.time.f)
    else t.time.r = ⟨1099511627775, 999999999, 4294967295⟩) ∧
    ((t.time.wraps * (2 ^ 40 * 10 ^ 9 * 2 ^ 32) + t.time.t.units : Nat) : Int) =
      (s.time.wraps * (2 ^ 40 * 10 ^ 9 * 2 ^ 32) + s.time.t.units : Nat) +
        (214748364800 + s.time.f + s.time.p) ∧
    t.time.wraps = s.time.wraps +
      (if (2 ^ 40 * 10 ^ 9 * 2 ^ 32 : Int) ≤
          s.time.t.units + (214748364800 + s.time.f + s.time.p) then 1 else 0) ∧
    t.time.f = s.time.f ∧ t.time.p = s.time.p ∧ t.time.step = s.time.step) ∧
  (∀ s t, exec .stepApplication s = .next t → t.time.r = s.time.r) ∧
  (∀ c s t, c = .powerOnReset ∨ c = .resetPinReset → exec c s = .next t →
    t.time.r = ⟨0, 0, 0⟩ ∧ t.time.t = ⟨0, 0, 0⟩ ∧ t.time.wraps = 0) ∧
  ∀ pins s, ∃ t, exec (.tick pins) s = .next t ∧
    let readsHigh := fun votes : List Bool => 3 ≤ votes.length ∧ 2 ≤ (votes.take 3).count true
    let sampled := fun (rate : Nat) (level : Bool) (b : ByteIn) =>
      let n := b.votes.length
      if n < 30 ∧ ¬ readsHigh b.votes ∧
          (16 * (n / 3) + 7 + n % 3) * 20000000 ≤ 16 * rate * (t.time.k - b.edge) then
        { b with votes := b.votes ++ [level] }
      else b
    t = { s with
      time := t.time
      lines := t.lines
      cap := t.cap
      link := { s.link with byteIn := s.link.byteIn.map (sampled s.cfg.linkRate pins.linkRxd) }
      anchor := { s.anchor with byteIn := t.anchor.byteIn }
      coinc :=
        if t.time.wraps = s.time.wraps then s.coinc else { s.coinc with list := [], windows := [] }
      startup := { s.startup with bits := t.startup.bits } } ∧
    t.time = { s.time with k := t.time.k, r := t.time.r, t := t.time.t, wraps := t.time.wraps } ∧
    t.lines.levels = some pins ∧
    (s.lines.levels = none → t.lines.edges = ⟨false, false, false, false, false⟩) ∧
    (∀ old, s.lines.levels = some old →
      t.lines.edges =
        { pps := decide (old.anchorPps = false ∧ pins.anchorPps = true)
          sample := decide (old.sample = false ∧ pins.sample = true)
          trig := decide (old.trigIn = false ∧ pins.trigIn = true)
          rearm := decide (old.rearm = false ∧ pins.rearm = true)
          link := decide (old.linkRxd = true ∧ pins.linkRxd = false) }) ∧
    ((∀ b, t.link.byteIn = some b → b.votes.length < 3 ∨ readsHigh b.votes) → t.cap = s.cap) ∧
    (s.startup.anchorEn = false → t.anchor.byteIn = s.anchor.byteIn) ∧
    (s.startup.anchorEn = true →
      (∀ b, s.anchor.byteIn = some b →
        (readsHigh (sampled 9600 pins.anchorRx b).votes → t.anchor.byteIn = none) ∧
        (¬ readsHigh (sampled 9600 pins.anchorRx b).votes →
          t.anchor.byteIn = some (sampled 9600 pins.anchorRx b))) ∧
      (s.anchor.byteIn = none →
        ((∃ old, s.lines.levels = some old ∧ old.anchorRx = true) → pins.anchorRx = false →
          t.anchor.byteIn = some ⟨t.time.k, []⟩) ∧
        ((∀ old, s.lines.levels = some old → old.anchorRx = false) ∨ pins.anchorRx = true →
          t.anchor.byteIn = none))) ∧
    let reads := s.startup.abandoned = none ∧ s.startup.endK = none ∧
      ∃ i j, i < 24 ∧ j < 8 ∧ t.time.k = 40000 + 200 * (31 + 9 * i + j) + 100
    (reads → t.startup.bits = s.startup.bits ++ [pins.cfgSda]) ∧
    (¬ reads → t.startup.bits = s.startup.bits)

/-- Between two resets K and R never decrease, and T, read with its wrap count, decreases only at the
application of a negative step; a tick always raises T (R6). -/
def Obligations.ScalesNeverRunBack : Prop :=
  ∀ c s t, c ≠ .powerOnReset → c ≠ .resetPinReset → s.time.Legal → exec c s = .next t →
    s.time.k ≤ t.time.k ∧ s.time.r.units ≤ t.time.r.units ∧
    (∀ pins, c = .tick pins → s.time.totalT < t.time.totalT) ∧
    (t.time.totalT < s.time.totalT →
      c = .stepApplication ∧ ∃ p, s.time.step = some p ∧ p.amount < 0)

/-- Q rises by P at every tick and by the applied amount at a step, and F does not enter it: over n ticks
with P at p, by exactly p * n fu. The difference of two presented values, read as signed, is exact while
the true change lies within ±2^95 ns (R7, R8). A step taken late is included, the model's choice: log 5. -/
def Obligations.AdjustmentTotalLaw : Prop :=
  (∀ s (ticks : List Pins), s.time.FLegal → s.time.PLegal →
    (s.time.r.units : Int) + ticks.length * (214748364800 + s.time.f) < 2 ^ 40 * 10 ^ 9 * 2 ^ 32 →
    (ticks.foldl (fun x pins => tick pins x) s).time.qExact =
      s.time.qExact + s.time.p * ticks.length) ∧
  (∀ s t a d, s.time.step = some ⟨a, some d⟩ → d ≤ s.time.k → exec .stepApplication s = .next t →
    t.time.qExact - s.time.qExact =
      if (s.time.t.units : Int) + a * 2 ^ 32 < 0 then -(s.time.t.units : Int) else a * 2 ^ 32) ∧
  (∀ v (ts : TimeScale), (ts.setF v).qExact = ts.qExact) ∧
  (∀ x y : TimeScale, -(2 ^ 127 : Int) ≤ x.qExact - y.qExact → x.qExact - y.qExact < 2 ^ 127 →
    qDiff x.q y.q = x.qExact - y.qExact) ∧
  State.reset.time.qExact = 0

/-- Every step keeps F within ±42,949,673 fu and P within ±21,474,836 fu, P at 0 while a step is pending,
the pending amount within ±(2^63 - 1), and K within 64 bits; a value handed over outside its range is held
at the nearer limit (R9, R11, R15). -/
def Obligations.TimeControlsKeptLegal : Prop :=
  (∀ s t, s.time.Legal → step s = .next t → t.time.Legal) ∧
  (∀ v (ts : TimeScale), (ts.setF v).f =
    if 42949673 < v then 42949673 else if v < -42949673 then -42949673 else v) ∧
  (∀ v (ts : TimeScale), ts.step = none → (ts.setP v).p =
    if 21474836 < v then 21474836 else if v < -21474836 then -21474836 else v) ∧
  ∀ v (ts : TimeScale), ts.step.isSome = true → ts.setP v = ts

/-- At its application a pending step is added to T after the tick's advance and ceases to exist; a step
that would carry T below zero sets it to 0; R, K, F and P do not change; a capture on the tick carries the
stepped T and Q (R13, R16). An event taken late is included, the model's choice: log 5. -/
def Obligations.StepApplicationMovesT : Prop :=
  ∀ s a d, s.time.step = some ⟨a, some d⟩ → d ≤ s.time.k → a ≤ 2 ^ 63 - 1 →
    ∃ t, exec .stepApplication s = .next t ∧
      t.time = { s.time with t := t.time.t, wraps := t.time.wraps, step := none } ∧
      (if (s.time.t.units : Int) + a * 2 ^ 32 < 0 then
        t.time.t = ⟨0, 0, 0⟩ ∧ t.time.wraps = s.time.wraps
      else
        ((t.time.wraps * (2 ^ 40 * 10 ^ 9 * 2 ^ 32) + t.time.t.units : Nat) : Int) =
          (s.time.wraps * (2 ^ 40 * 10 ^ 9 * 2 ^ 32) + s.time.t.units : Nat) + a * 2 ^ 32 ∧
        t.time.wraps = s.time.wraps +
          (if (2 ^ 40 * 10 ^ 9 * 2 ^ 32 : Int) ≤ s.time.t.units + a * 2 ^ 32 then 1 else 0)) ∧
      (∀ n, s.capture n = ⟨t.time.t, t.time.r, t.time.k, t.time.q, n⟩) ∧
      t = { s with
        time := t.time, align := t.align, coinc := t.coinc, port := t.port, servo := t.servo }

/-- A step requested while LINK_KEY is asserted is held until the launch in flight ends, and then goes on
the next tick; one requested otherwise goes on the next tick whatever is keyed after it. Requests while a
step is pending add up. LAUNCH_END releases LINK_KEY and returns the receiver to HUNT (R11, R12, R14, R15,
R50). An event taken late is included, the model's choice: log 5. -/
def Obligations.LaunchHoldsStep : Prop :=
  (∀ keyed a (ts : TimeScale), ts.step = none → -(2 ^ 62) ≤ a → a ≤ 2 ^ 62 →
    ts.request keyed a =
      { ts with p := 0, step := some ⟨a, if keyed then none else some (ts.k + 1)⟩ }) ∧
  (∀ keyed a b d (ts : TimeScale), ts.step = some ⟨b, d⟩ →
    ts.request keyed a =
      { ts with
        p := 0
        step := some
          ⟨if 2 ^ 63 - 1 < b + a then 2 ^ 63 - 1
            else if b + a < -(2 ^ 63 - 1) then -(2 ^ 63 - 1) else b + a, d⟩ }) ∧
  (∀ s a, s.time.step = some ⟨a, none⟩ → exec .stepApplication s = .next s) ∧
  ∀ s kind ref b, s.link.flight = some ⟨kind, ref, some b⟩ →
    ref + (roundDiv (10 * b.length * 20000000 : Nat) s.cfg.linkRate).toNat ≤ s.time.k →
    ∃ t, exec .launchEnd s = .next t ∧
      (∀ a, s.time.step = some ⟨a, none⟩ →
        t.time = { s.time with step := some ⟨a, some (s.time.k + 1)⟩ }) ∧
      ((∀ a, s.time.step ≠ some ⟨a, none⟩) → t.time = s.time) ∧
      t = { s with
        time := t.time
        link := { s.link with flight := none, rx := .hunt none, byteIn := none }
        cap := { s.cap with linkPrevK := s.time.k + 1 } }

/-- The announcement of a step queues a BREAK record of the pending reason, the applied amount truncated to
whole ns, T after, the next block number and the clock state, latches STEP unless the reason is INITIAL, and
discards the reason (R112). An event taken late is included, the model's choice: log 5. -/
def Obligations.BreakRecordQueued : Prop :=
  ∀ s reason a d, s.servo.reason = some reason → s.time.step = some ⟨a, some d⟩ → d ≤ s.time.k →
    ∃ t, exec .stepApplication s = .next t ∧
      t.servo = { s.servo with reason := none } ∧
      t.port =
        (if reason = .initial then s.port
          else { s.port with alerts := { s.port.alerts with step := true } }).arrive
          s.time.k s.startup.endK.isSome
          (.brk
            { reason := reason
              amount :=
                if (s.time.t.units : Int) + a * 2 ^ 32 < 0 then -(s.time.t.nsCount : Int) else a
              time := ⟨t.time.t.secs.val, t.time.t.ns.val⟩
              nextBlock :=
                match s.align.block with
                | some b => b.number
                | none => s.align.nextBlock
              clock := s.servo.clock })

/-- A step flags the open block STEPPED. In GENERATE a forward step whose T after has reached the grid pointer,
their difference taken modulo 2^40 seconds and read as signed, moves the pointer to the least multiple of p
greater than T after, and the open block's skipped count rises by the instants passed over; any other step
leaves the pointer and the count. A step that wraps T's seconds is included (R153, R155, R156, R157). An event
taken late is included, the model's choice: log 5. -/
def Obligations.GridPassesOverStep : Prop :=
  ∀ s a d, s.time.step = some ⟨a, some d⟩ → d ≤ s.time.k → ∃ t, exec .stepApplication s = .next t ∧
    t.align = { s.align with block := t.align.block, grid := t.align.grid } ∧
    (s.align.block = none → t.align.block = none) ∧
    (s.startup.genMode = false ∨ a ≤ 0 → t.align.grid = s.align.grid ∧
      ∀ b, s.align.block = some b →
        t.align.block = some { b with stepped := true, skipped := min 4294967295 b.skipped }) ∧
    ∀ g, s.startup.genMode = true → 0 < a → s.align.grid = some g → g.frac = 0 →
      s.cfg.period ∣ g.nsCount →
      let range := 2 ^ 40 * 10 ^ 9 * 2 ^ 32
      let ahead := (t.time.t.units + range - g.units) % range
      let count := ahead / 2 ^ 32 / s.cfg.period + 1
      (range ≤ 2 * ahead → t.align.grid = some g ∧
        ∀ b, s.align.block = some b →
          t.align.block = some { b with stepped := true, skipped := min 4294967295 b.skipped }) ∧
      (2 * ahead < range →
        (∃ g', t.align.grid = some g' ∧ g'.frac = 0 ∧ s.cfg.period ∣ g'.nsCount ∧
          g'.units = (g.units + count * s.cfg.period * 2 ^ 32) % range ∧
          0 < (g'.units + range - t.time.t.units) % range ∧
          (g'.units + range - t.time.t.units) % range ≤ s.cfg.period * 2 ^ 32) ∧
        ∀ b, s.align.block = some b →
          t.align.block =
            some { b with stepped := true, skipped := min 4294967295 (b.skipped + count) })

/-- A step whose application does not wrap T's seconds adds its applied amount, held between 0 and 2^62 ns,
to every time of the coincidence list, the declared windows and the outgoing notices but those stored on
this tick, and the list keeps its order (R174, R175). A window's times count as stored with those of the entry
it starts at; that, and that the step may come late, are the model's readings: logs 15 and 5. -/
def Obligations.StoredTimesMoveWithStep : Prop :=
  ∀ s a d, s.time.step = some ⟨a, some d⟩ → d ≤ s.time.k →
    (s.time.t.units : Int) + a * 2 ^ 32 < 2 ^ 40 * 10 ^ 9 * 2 ^ 32 →
    ∃ t amount, exec .stepApplication s = .next t ∧
      amount =
        (if (s.time.t.units : Int) + a * 2 ^ 32 < 0 then -(s.time.t.nsCount : Int) else a) ∧
      ∃ moved : Nat → Nat → Nat,
        (∀ time, moved s.time.k time = time) ∧
        (∀ storedK time, storedK ≠ s.time.k → time ≤ 2 ^ 62 →
          (moved storedK time : Int) = max 0 (min (2 ^ 62) (time + amount))) ∧
        (s.coinc.list.Pairwise (fun x y => x.before y = true) →
          t.coinc.list.Pairwise (fun x y => x.before y = true)) ∧
        t.coinc.list.Perm
          (s.coinc.list.map fun e => { e with time := moved e.storedK e.time }) ∧
        t.coinc =
          { s.coinc with
            list := t.coinc.list
            windows := s.coinc.windows.map fun w =>
              { w with lo := moved w.storedK w.lo, hi := moved w.storedK w.hi }
            outgoing := s.coinc.outgoing.map fun n =>
              { n with time := moved n.storedK n.time } }

/-! ## Resets and start-up -/

/-- A power-on reset puts every block at its reset values with F and the drift bins 0; a RESET-pin reset
does the same and keeps F and the drift bins; neither touches the queue of commands (R18, R19, R35, R62,
R86, R106, R135, R136, R147, R163, R179). The supply flag's rule on a pin reset is the model's reading,
log 12; the register before its seed and the values before they are settled are the model's, log 9. -/
def Obligations.ResetsRestoreStatedValues : Prop :=
  (∀ s, exec .powerOnReset s = .next { State.reset with pending := s.pending }) ∧
  (∀ s, exec .resetPinReset s = .next
    { State.reset with
      time := { State.reset.time with f := s.time.f }
      temp := { State.reset.temp with bins := s.temp.bins }
      startup := { State.reset.startup with
        supplyFailed := s.startup.supplyFailed && decide (s.time.k = 0) }
      pending := s.pending }) ∧
  State.reset.time = ⟨0, ⟨0, 0, 0⟩, ⟨0, 0, 0⟩, 0, 0, 0, none⟩ ∧
  State.reset.lines.levels = none ∧
  State.reset.cap = ⟨none, none, .idle, none, none, none, 0, 0, 0, 0, 0, 0, 0⟩ ∧
  State.reset.link =
    ⟨.stopped, none, none, none, none, .idle, State.reset.link.lfsr, [], 0, 0, [], false,
      0, 0, 0, 0, 0, 0⟩ ∧
  State.reset.peers = ⟨List.replicate 24 none, 0, 0, 0, 0⟩ ∧
  State.reset.comb = ⟨false, 0, 0, none, 0, none⟩ ∧
  State.reset.servo = ⟨.unset, 0, 0, 0, none, 268435440, 15, none, none, 0⟩ ∧
  State.reset.temp = ⟨[], none, List.replicate 16 ⟨0, 0⟩⟩ ∧
  State.reset.anchor = ⟨.hunt, none, none, none, 0, none, 0, false, 0, 0⟩ ∧
  State.reset.align = ⟨none, 0, none, none, none, 0⟩ ∧
  State.reset.coinc = ⟨0, [], [], [], none, 0, 0, 0, 0, 0⟩ ∧
  State.reset.port =
    ⟨[], none, ⟨0, 0, 0, 0, 0, 0⟩, ⟨false, false, false, false, false, false, false⟩, 23, 0, 0⟩ ∧
  State.reset.startup.settled = false ∧ State.reset.startup.defaulted = false ∧
  State.reset.startup.clamped = false ∧ State.reset.startup.bits = [] ∧
  State.reset.startup.abandoned = none ∧ State.reset.startup.endK = none

/-- On the first tick the straps are latched once, the register is seeded with (station * 257) xor 0x5A3C or
1, the reset cause is recorded, and a strap of 0 or 63 sets MUTED and its alert; later levels have no effect
(R187, R188). The flag behind the cause is the model's reading: log 12. -/
def Obligations.StrapSamplingLatchesStraps : Prop :=
  (∀ s pins, s.lines.levels = some pins → s.time.k = 1 → s.startup.strapped = false →
    ∃ t l p, exec .strapSampling s = .next t ∧
      t = { s with
        startup := { s.startup with
          strapped := true
          station := pins.station
          anchorEn := pins.anchorEn
          genMode := pins.genMode
          cause := if s.startup.supplyFailed then .power else .pin }
        link := l
        align := { s.align with cmdLowFrom := s.time.k }
        port := p } ∧
      l.lfsr =
        (let seed := BitVec.ofNat 16 (pins.station.toNat * 257) ^^^ 0x5A3C
         if seed = 0 then 1 else seed) ∧
      (pins.station ≠ 0 → pins.station ≠ 63 → p = s.port ∧ l = { s.link with lfsr := l.lfsr }) ∧
      (pins.station = 0 ∨ pins.station = 63 → s.link.muted = false →
        p = { s.port with alerts := { s.port.alerts with muted := true } } ∧
        l = { s.link with
          lfsr := l.lfsr, muted := true, regular := none, notice := none, echoes := [] })) ∧
  ∀ s, s.startup.strapped = true → exec .strapSampling s = .next s

/-- A missing acknowledge in one of the three acknowledge slots abandons the read. On the tick of the stop
condition the values settle: a block with its CRC-8 and version 1 gives each field clamped to its range,
with CONFIG_CLAMPED where one was out of it; any other outcome gives the defaults with CONFIG_DEFAULTED
(R189, R190, R191, R200). The bus lines follow the timeline of R189 slot by slot, and after a missing
acknowledge show a stop slot and rest. That the lines are functions of the state, and that an event may be
taken late, are the model's choices: logs 10, 25 and 5. -/
def Obligations.ConfigurationSettles : Prop :=
  (∀ s pins slot, s.lines.levels = some pins → pins.cfgSda = true → s.startup.abandoned = none →
    slot = 11 ∨ slot = 20 ∨ slot = 30 → s.time.k = 40000 + 200 * slot + 100 →
    exec .missingAcknowledge s =
      .next { s with startup := { s.startup with abandoned := some s.time.k } }) ∧
  (∀ s, s.startup.settled = false →
    (∃ a, s.startup.abandoned = some a ∧ a + 200 ≤ s.time.k) ∨
      (s.startup.abandoned = none ∧ 89500 ≤ s.time.k ∧
        ¬ (s.startup.bits.length = 192 ∧
          crc8 ((blockBytes s.startup.bits).take 23) = (blockBytes s.startup.bits).getD 23 0 ∧
          (blockBytes s.startup.bits).getD 0 0 = 1)) →
    exec .configSettle s = .next
      { s with startup := { s.startup with
        settled := true, defaulted := true, clamped := false
        settings := ⟨2, 1, 4, 2, 10, 4, 10, 3, 8, 50, 120, 1000, 100, 1000, 500, 60⟩ } }) ∧
  (∀ s : State,
    (s.time.k < 20000 ∨ (21800 ≤ s.time.k ∧ s.time.k < 40000) ∨ 90000 ≤ s.time.k →
      s.busLines = ⟨true, true⟩) ∧
    (∀ i o, i < 9 → o < 200 → s.time.k = 20000 + 200 * i + o →
      s.busLines = ⟨decide (50 ≤ o ∧ o ≤ 149), true⟩) ∧
    ∀ n o, n < 250 → o < 200 → s.time.k = 40000 + 200 * n + o →
      let clocked := fun sda : Bool => (⟨decide (50 ≤ o ∧ o ≤ 149), sda⟩ : BusLines)
      let stop : BusLines := ⟨decide (50 ≤ o), decide (100 ≤ o)⟩
      ((∀ a, s.startup.abandoned = some a → n ≤ (a - 40000) / 200) →
        (n < 2 ∨ 248 ≤ n → s.busLines = ⟨true, true⟩) ∧
        (n = 2 → s.busLines = ⟨decide (o < 150), decide (o < 100)⟩) ∧
        (n = 21 → s.busLines = ⟨decide (50 ≤ o ∧ o < 150), decide (o < 100)⟩) ∧
        (∀ i, i < 8 →
          (n = 3 + i → s.busLines = clocked ((0xA0 : Byte).getLsbD (7 - i))) ∧
          (n = 12 + i → s.busLines = clocked ((0x00 : Byte).getLsbD (7 - i))) ∧
          (n = 22 + i → s.busLines = clocked ((0xA1 : Byte).getLsbD (7 - i)))) ∧
        (n = 11 ∨ n = 20 ∨ n = 30 → s.busLines = clocked true) ∧
        (∀ i j, i < 24 → j < 9 → n = 31 + 9 * i + j →
          s.busLines = clocked (decide (j < 8 ∨ i = 23))) ∧
        (n = 247 → s.busLines = stop)) ∧
      ∀ a, s.startup.abandoned = some a →
        (n = (a - 40000) / 200 + 1 → s.busLines = stop) ∧
        ((a - 40000) / 200 + 1 < n → s.busLines = ⟨true, true⟩)) ∧
  ∀ s, s.startup.settled = false → s.startup.abandoned = none → 89500 ≤ s.time.k →
    s.startup.bits.length = 192 →
    crc8 ((blockBytes s.startup.bits).take 23) = (blockBytes s.startup.bits).getD 23 0 →
    (blockBytes s.startup.bits).getD 0 0 = 1 →
    let num := fun i n => beNat (((blockBytes s.startup.bits).drop i).take n)
    let read : Settings :=
      ⟨num 1 1 / 16, num 1 1 % 16, num 2 1 / 16, num 2 1 % 16, num 3 1 / 16, num 3 1 % 16, num 4 1,
        num 5 1, num 6 1, num 7 2, num 9 2, num 11 2, num 13 2, num 15 3, num 18 2, num 20 2⟩
    let held : Settings :=
      ⟨min 4 read.markCode, min 2 read.linkCode, min 8 read.sampleCode, min 2 read.recordCode,
        max 4 (min 12 read.blockExp), max 2 (min 6 read.gain), max 2 (min 50 read.keyLead),
        max 2 (min 16 read.kc), max 1 (min 60 read.window), max 1 (min 1000 read.growth),
        max 15 (min 1440 read.coastLimit), max 100 (min 65000 read.originFloor),
        max 10 (min 1000 read.holdOff), max 100 (min 100000 read.stepLimit),
        max 10 (min 2000 read.delayLimit), max 4 (min 3600 read.statusInterval)⟩
    exec .configSettle s = .next
      { s with startup := { s.startup with
        settled := true, settings := held, defaulted := false, clamped := decide (held ≠ read) } }

/-- When the configuration read ends the link is released into a listen period of 2M seconds with the
receiver in HUNT, in GENERATE the grid pointer is set to the least multiple of p greater than T, CONFIG is
set where a config flag is, and the first STATUS record arrives (R41, R53, R153, R178, R183, R192). An event
taken late is included, the model's choice: log 5. -/
def Obligations.ConfigReadEndStartsBlocks : Prop :=
  ∀ s, s.startup.settled = true → s.startup.endK = none → 90000 ≤ s.time.k →
    ∃ t alerts rec, exec .configReadEnd s = .next t ∧
      t = { s with
        startup := { s.startup with endK := some s.time.k }
        link := { s.link with
          rx := .hunt none
          schedule := .listening (s.time.k + 2 * (s.cfg.mSeconds * 20000000)) }
        cap := { s.cap with linkPrevK := s.time.k }
        align := { s.align with grid := t.align.grid }
        port := ({ s.port with
          alerts := alerts, lastPeer := s.time.k, lastStatus := s.time.k }).arrive
            s.time.k true (.status rec) } ∧
      alerts = { s.port.alerts with
        config := s.port.alerts.config || s.startup.defaulted || s.startup.clamped } ∧
      rec =
        { cause := s.startup.cause, clock := s.servo.clock, depth := s.servo.advDepth
          u := s.servo.advU, f := s.time.f, temp := s.temp.current, bin := s.temp.bin
          anchorValid := s.startup.anchorEn && decide (s.anchor.consistency = 3)
          muted := s.link.muted, originFlag := s.comb.originFlag
          defaulted := s.startup.defaulted, clamped := s.startup.clamped, alerts := alerts
          edges := s.edgeCounters, stats := s.statCounters } ∧
      (s.startup.genMode = false → t.align.grid = none) ∧
      (s.startup.genMode = true →
        s.nowT.units + s.cfg.period * 2 ^ 32 < 2 ^ 40 * 10 ^ 9 * 2 ^ 32 →
        ∃ g, t.align.grid = some g ∧ g.frac = 0 ∧ s.cfg.period ∣ g.nsCount ∧
          s.nowT.units < g.units ∧ g.units ≤ s.nowT.units + s.cfg.period * 2 ^ 32)

/-! ## The anchor -/

/-- A PPS edge less than 18,000,000 ticks after the previous accepted one is spurious. An accepted edge is
captured and restarts the loss timer; a labelled edge is judged by its seconds and K, and forms the anchor
sample; an unlabelled one is counted and clears the consistency count (R29, R139, R140, R142). -/
def Obligations.PpsEdgeJudgedAndPaired : Prop :=
  ∀ s, s.lines.edges.pps = true → s.startup.anchorEn = true →
    (∀ c, s.cap.pps = some c → s.time.k - c.k < 18000000 →
      exec .ppsEdge s = .next
        { s with
          lines := { s.lines with edges := { s.lines.edges with pps := false } }
          cap := { s.cap with spuriousPps := bump s.cap.spuriousPps } }) ∧
    ((∀ c, s.cap.pps = some c → 18000000 ≤ s.time.k - c.k) →
      ∃ t c, exec .ppsEdge s = .next t ∧ c = s.capture s.cap.ppsEdges ∧
        t = { s with
          lines := { s.lines with edges := { s.lines.edges with pps := false } }
          cap := { s.cap with pps := some c, ppsEdges := s.cap.ppsEdges + 1 }
          anchor := t.anchor } ∧
        (s.anchor.label = none →
          t.anchor =
            { s.anchor with
              lossK := s.time.k, lossExpired := false
              unlabelled := bump s.anchor.unlabelled, consistency := 0 }) ∧
        ∀ l, s.anchor.label = some l →
          t.anchor =
            { s.anchor with
              lossK := s.time.k, lossExpired := false, label := none
              consistency := t.anchor.consistency
              prev := some ⟨l.secs, s.time.k⟩
              sample := some
                { secs := l.secs, quality := l.quality
                  theta := max (-(2 ^ 62)) (min (2 ^ 62)
                    ((l.secs : Int) * 10 ^ 9 - (c.t.secs.val * 10 ^ 9 + c.t.ns.val : Nat)))
                  t := c.t, q := c.q, k := c.k } } ∧
          (∀ e, s.anchor.prev = some e → l.secs = e.secs + 1 → e.k + 19996000 ≤ s.time.k →
            s.time.k ≤ e.k + 20004000 →
            t.anchor.consistency = min 3 (s.anchor.consistency + 1)) ∧
          ((∀ e, s.anchor.prev = some e → ¬ (l.secs = e.secs + 1 ∧ e.k + 19996000 ≤ s.time.k ∧
            s.time.k ≤ e.k + 20004000)) → t.anchor.consistency = 1))

/-- A complete byte on ANCHOR_RX starts a message with 0xC3 or joins the one in assembly; the eleventh
byte's message is judged by its CRC-8 and kind, and sets or clears the pending label; a gap of 62,500 ticks
abandons a message; the loss timer expires 40,000,000 ticks after the loss reference (R137, R138, R143).
That the eleventh byte and its message are two commands, and that an event may be taken late, are the
model's choices: logs 26 and 5. -/
def Obligations.AnchorReceiverTakesMessages : Prop :=
  (∀ s b, s.startup.anchorEn = true → s.anchor.byteIn = some b → b.complete = true →
    exec .anchorByteReceived s = .next
      { s with anchor := { s.anchor with
        byteIn := none
        rx :=
          match s.anchor.rx with
          | .hunt => if b.value = (0xC3 : Byte) then .assemble [0xC3] b.edge else .hunt
          | .assemble bytes _ => .assemble (bytes ++ [b.value]) b.edge } }) ∧
  (∀ s b edge, s.startup.anchorEn = true → s.anchor.rx = .assemble b edge → b.length = 11 →
    exec .anchorMessageComplete s = .next
      { s with anchor :=
        if crc8 ((b.drop 1).take 9) = b.getD 10 0 ∧ b.getD 1 0 = (0x01 : Byte) then
          { s.anchor with
            rx := .hunt
            label :=
              if (b.getD 9 0).toNat % 2 = 1 then
                some ⟨beNat ((b.drop 2).take 5), beNat ((b.drop 7).take 2)⟩
              else none }
        else { s.anchor with rx := .hunt, msgErr := bump s.anchor.msgErr } }) ∧
  (∀ s b edge, s.startup.anchorEn = true → s.anchor.byteIn = none →
    s.anchor.rx = .assemble b edge → b.length < 11 → edge + 62500 ≤ s.time.k →
    exec .anchorMessageAbandoned s = .next
      { s with anchor := { s.anchor with rx := .hunt, msgErr := bump s.anchor.msgErr } }) ∧
  ∀ s, s.startup.anchorEn = true → s.anchor.lossExpired = false →
    s.anchor.lossK + 40000000 ≤ s.time.k →
    exec .lossTimerExpiry s = .next
      { s with
        anchor := { s.anchor with consistency := 0, lossExpired := true }
        port := { s.port with alerts := { s.port.alerts with anchorLost := true } } }

/-! ## Samples -/

/-- In FOLLOW a strobe within half a period of the last is spurious; any other is captured and opens a
block, joins the open block, or closes a full one, whose period runs to this strobe, and opens the next
(R30, R149, R150, R152, R159, R160, R161, R162). -/
def Obligations.SampleStrobeBuildsBlocks : Prop :=
  ∀ s e, s.lines.edges.sample = true → s.startup.genMode = false → s.startup.endK = some e →
    e < s.time.k →
    (∀ c, s.cap.sample = some c → s.time.k - c.k < s.cfg.period / 100 →
      exec .sampleStrobeEdge s = .next
        { s with
          lines := { s.lines with edges := { s.lines.edges with sample := false } }
          cap := { s.cap with spuriousStrobe := bump s.cap.spuriousStrobe } }) ∧
    ((∀ c, s.cap.sample = some c → s.cfg.period / 100 ≤ s.time.k - c.k) →
      ∃ t c, exec .sampleStrobeEdge s = .next t ∧ c = s.capture s.cap.sampleEdges ∧
        t = { s with
          lines := { s.lines with edges := { s.lines.edges with sample := false } }
          cap := { s.cap with sample := some c, sampleEdges := s.cap.sampleEdges + 1 }
          align := { s.align with
            block := t.align.block, nextBlock := t.align.nextBlock
            gapDeadline := some (s.time.k + 3 * s.cfg.period / 100) }
          port := t.port } ∧
        (∀ b, s.align.block = some b → b.samples < 2 ^ s.cfg.blockExp →
          t.align.block = some { b with samples := b.samples + 1, last := c } ∧
          t.align.nextBlock = s.align.nextBlock ∧ t.port = s.port) ∧
        ((∀ b, s.align.block = some b → 2 ^ s.cfg.blockExp ≤ b.samples) →
          t.align.block = some
            { number := s.align.nextBlock, first := c, last := c, samples := 1, skipped := 0
              stepped := false, coast := decide (s.servo.clock = .coast) } ∧
          t.align.nextBlock = s.align.nextBlock + 1) ∧
        (s.align.block = none → t.port = s.port) ∧
        ∀ b, s.align.block = some b → 2 ^ s.cfg.blockExp ≤ b.samples →
          ∃ period dev rec,
            period = roundDiv (((c.r.units : Int) - b.first.r.units) * 1000)
              (2 ^ s.cfg.blockExp * 2 ^ 32) ∧
            dev = roundDiv ((period - 1000 * s.cfg.period) * 1000000) s.cfg.period ∧
            ReportsBlock s b period dev false rec ∧ TimingArrives s dev rec t.port)

/-- At its gap deadline an open block closes short: its period runs from its first to its last capture, 0
for one sample, its TIMING record carries GAP, and no block stays open (R151, R152, R159, R160, R161, R162).
An event taken late is included, the model's choice: log 5. -/
def Obligations.GapDeadlineClosesShort : Prop :=
  ∀ s b d, s.align.block = some b → s.align.gapDeadline = some d → d ≤ s.time.k →
    ∃ t period dev rec, exec .gapDeadline s = .next t ∧
      t = { s with
        align := { s.align with block := none, gapDeadline := none }
        port := t.port } ∧
      (b.samples < 2 → period = 0 ∧ dev = 0) ∧
      (2 ≤ b.samples →
        period = roundDiv (((b.last.r.units : Int) - b.first.r.units) * 1000)
          ((b.samples - 1) * 2 ^ 32) ∧
        dev = roundDiv ((period - 1000 * s.cfg.period) * 1000000) s.cfg.period) ∧
      ReportsBlock s b period dev true rec ∧ TimingArrives s dev rec t.port

/-- In GENERATE, on a tick on which T has reached the grid pointer and SAMPLE_CMD has been low for 200
ticks, a pulse of 200 ticks is issued and captured, the pointer moves by one period, and the pulse opens,
joins, or closes and reopens a block without a gap deadline (R31, R153, R154). The tick from which the line
has been low is the model's own field: log 6. -/
def Obligations.GridPulseIssued : Prop :=
  ∀ s e g, s.startup.genMode = true → s.startup.endK = some e → e < s.time.k →
    s.align.pulseEnd = none → s.align.cmdLowFrom + 200 ≤ s.time.k → s.align.grid = some g →
    2 * ((s.nowT.units + 2 ^ 40 * 10 ^ 9 * 2 ^ 32 - g.units) % (2 ^ 40 * 10 ^ 9 * 2 ^ 32)) <
      2 ^ 40 * 10 ^ 9 * 2 ^ 32 →
    ∃ t c, exec .gridPulseIssue s = .next t ∧ c = s.capture s.cap.sampleEdges ∧
      t = { s with
        cap := { s.cap with sample := some c, sampleEdges := s.cap.sampleEdges + 1 }
        align := { s.align with
          block := t.align.block, nextBlock := t.align.nextBlock, gapDeadline := none
          pulseEnd := some (s.time.k + 200), grid := t.align.grid }
        port := t.port } ∧
      (∃ g', t.align.grid = some g' ∧
        g'.units = (g.units + s.cfg.period * 2 ^ 32) % (2 ^ 40 * 10 ^ 9 * 2 ^ 32)) ∧
      (∀ b, s.align.block = some b → b.samples < 2 ^ s.cfg.blockExp →
        t.align.block = some { b with samples := b.samples + 1, last := c } ∧
        t.align.nextBlock = s.align.nextBlock ∧ t.port = s.port) ∧
      ((∀ b, s.align.block = some b → 2 ^ s.cfg.blockExp ≤ b.samples) →
        t.align.block = some
          { number := s.align.nextBlock, first := c, last := c, samples := 1, skipped := 0
            stepped := false, coast := decide (s.servo.clock = .coast) } ∧
        t.align.nextBlock = s.align.nextBlock + 1) ∧
      (s.align.block = none → t.port = s.port) ∧
      ∀ b, s.align.block = some b → 2 ^ s.cfg.blockExp ≤ b.samples →
        ∃ period dev rec,
          period = roundDiv (((c.r.units : Int) - b.first.r.units) * 1000)
            (2 ^ s.cfg.blockExp * 2 ^ 32) ∧
          dev = roundDiv ((period - 1000 * s.cfg.period) * 1000000) s.cfg.period ∧
          ReportsBlock s b period dev false rec ∧ TimingArrives s dev rec t.port

/-- The pulses on SAMPLE_CMD and COINC_OUT end on the tick at which K reaches their pulse end: the line goes
low and the pulse end becomes absent (R153, R171). An event taken late is included, the model's choice: log
5. -/
def Obligations.PulsesEnd : Prop :=
  (∀ s e, s.align.pulseEnd = some e → e ≤ s.time.k → ∃ t, exec .sampleCmdPulseEnd s = .next t ∧
    t = { s with align := { s.align with pulseEnd := none, cmdLowFrom := s.time.k } } ∧
    s.sampleCmd = true ∧ t.sampleCmd = false) ∧
  (∀ s e, s.coinc.pulseEnd = some e → e ≤ s.time.k → ∃ t, exec .coincOutPulseEnd s = .next t ∧
    t = { s with coinc := { s.coinc with pulseEnd := none } } ∧
    s.coincOut = true ∧ t.coincOut = false) ∧
  (∀ s e, s.align.pulseEnd = some e → s.time.k < e → exec .sampleCmdPulseEnd s = .next s) ∧
  ∀ s e, s.coinc.pulseEnd = some e → s.time.k < e → exec .coincOutPulseEnd s = .next s

/-! ## Triggers and coincidence -/

/-- A trigger within the hold-off of the last is ignored. Any other is captured, takes the next sequence,
queues a TRIGGER record, joins the outgoing notices, the oldest of four leaving and counted, requests a NOTICE
launch, and then inserts its entry with the own number, that sequence, its time held at 2^62 ns and the
advertised U: the insertion and its declaration test are those of PeerNoticesEnterTheList and
DeclarationFindsEarliestWindow (R32, R164, R165, R173). That the outgoing notice's time is not held at 2^62 ns
is the model's choice: log 29. -/
def Obligations.TriggerCapturedAndHandedOver : Prop :=
  ∀ s e, s.lines.edges.trig = true → s.startup.endK = some e → e < s.time.k →
    (∀ c, s.cap.trig = some c → s.time.k - c.k < s.cfg.holdOff * 20000 →
      exec .trigInEdge s = .next
        { s with lines := { s.lines with edges := { s.lines.edges with trig := false } } }) ∧
    ((∀ c, s.cap.trig = some c → s.cfg.holdOff * 20000 ≤ s.time.k - c.k) →
      let c := s.capture s.cap.trigEdges
      let seq := s.coinc.seq + 1
      let full := 4 ≤ s.coinc.outgoing.length
      exec .trigInEdge s = .next
        (insertEntry s.startup.station.toNat seq
          (min (2 ^ 62) (c.t.secs.val * 10 ^ 9 + c.t.ns.val)) s.servo.advU
          { s with
            lines := { s.lines with edges := { s.lines.edges with trig := false } }
            cap := { s.cap with trig := some c, trigEdges := s.cap.trigEdges + 1 }
            link := s.link.requestNotice s.cfg s.time.k
            coinc := { s.coinc with
              seq := seq
              outgoing :=
                (if full then s.coinc.outgoing.tail else s.coinc.outgoing) ++
                  [⟨seq, c.t.secs.val * 10 ^ 9 + c.t.ns.val, 0, s.time.k⟩]
              noticeDropped :=
                if full then bump s.coinc.noticeDropped else s.coinc.noticeDropped }
            port := s.port.arrive s.time.k true
              (.trigger ⟨seq, ⟨c.t.secs.val, c.t.ns.val⟩, s.servo.advU⟩) }))

/-- A NOTICE request is ignored in its five cases; otherwise a draw sets the NOTICE slot pending, key-up
within 1,024 ms, the reference instant the lead later, bounded by the end of the interval in which it lies
(R45). That "within the next 1,024 ms" includes its last tick is the model's reading, log 14. -/
def Obligations.NoticeRequestSchedulesLaunch : Prop :=
  ∀ (c : Settings) k (l : MarkLink),
    ((∀ e, l.schedule ≠ .running e) ∨ l.muted = true ∨ l.flight.isSome = true ∨
        l.notice.isSome = true ∨ (∃ sl, l.regular = some sl ∧ sl.keyUp ≤ k + 20480000) →
      l.requestNotice c k = l) ∧
    ∀ e, l.schedule = .running e → l.muted = false → l.flight = none → l.notice = none →
      (∀ sl, l.regular = some sl → k + 20480000 < sl.keyUp) →
      ∃ keyUp ref bound,
        keyUp = k + (lfsrDraw l.lfsr).toNat % 1024 * 20000 ∧
        ref = keyUp + max (c.keyLead * 20000) (roundDiv (60 * 20000000) c.linkRate).toNat ∧
        (ref < e → bound = e) ∧
        (e ≤ ref → (∃ n, bound = e + n * (c.mSeconds * 20000000)) ∧ ref < bound ∧
          bound ≤ ref + c.mSeconds * 20000000) ∧
        l.requestNotice c k =
          { l with lfsr := lfsrDraw l.lfsr, notice := some ⟨keyUp, ref, 0, bound⟩ }

/-- Every step keeps the coincidence list within 32 entries, in the order of R167 and without two entries
of one station and trigger sequence, the outgoing notices within four and the windows within four (R165,
R167, R170). -/
def Obligations.CoincidenceUnitKeptLegal : Prop :=
  ∀ s t, s.coinc.Legal → step s = .next t → t.coinc.Legal

/-- The declaration test of a placed entry: inside a declared window it is claimed as a late joiner; else
the first unclaimed entry x of [e - W, e] in list order whose window [x, x + W] holds K_c distinct stations
starts a declaration, which claims the entries, adds the window, queues the record and pulses COINC_OUT; else
nothing (R169, R170, R171, R172). That the window's times count as stored with x's is the model's reading:
log 15. -/
def Obligations.DeclarationFindsEarliestWindow : Prop :=
  ∀ (e : CoincEntry) (s : State),
    let w := s.cfg.window * 10 ^ 9
    let inside := fun x : Nat =>
      s.coinc.list.filter fun y => !y.claimed && decide (x ≤ y.time ∧ y.time ≤ x + w)
    let starts := fun x : CoincEntry =>
      x.claimed = false ∧ x.time ≤ e.time ∧ e.time ≤ x.time + w ∧
      s.cfg.kc ≤ ((inside x.time).map CoincEntry.station).dedup.length
    ((∃ v ∈ s.coinc.windows, v.lo ≤ e.time ∧ e.time ≤ v.hi) →
      declarationTest e s =
        { s with coinc := { s.coinc with
          list := s.coinc.list.map fun y =>
            if y.order = e.order then { y with claimed := true } else y
          lateJoiner := bump s.coinc.lateJoiner } }) ∧
    ((∀ v ∈ s.coinc.windows, ¬ (v.lo ≤ e.time ∧ e.time ≤ v.hi)) →
      ((∀ x ∈ s.coinc.list, ¬ starts x) → declarationTest e s = s) ∧
      ∀ before x after, s.coinc.list = before ++ x :: after → (∀ y ∈ before, ¬ starts y) → starts x →
        declarationTest e s =
          { s with
            coinc := { s.coinc with
              list := s.coinc.list.map fun y =>
                if x.time ≤ y.time ∧ y.time ≤ x.time + w then { y with claimed := true } else y
              windows :=
                (if s.coinc.windows.length < 4 then s.coinc.windows else s.coinc.windows.tail) ++
                  [⟨x.time, min (2 ^ 62) (x.time + w), x.storedK⟩]
              pulseEnd := some (s.time.k + 200000) }
            port := s.port.arrive s.time.k s.startup.endK.isSome
              (.coincidence
                { start := ⟨x.time / 10 ^ 9, x.time % 10 ^ 9⟩
                  window := s.cfg.window
                  stations := ((inside x.time).map CoincEntry.station).dedup.length
                  items := ((inside x.time).take 16).map fun y =>
                    ⟨y.station, (y.time - x.time) / 1000, (y.u + 999) / 1000⟩ }) })

/-- LIST_EXPIRY removes the entries more than 300 s before T and nothing else; the tick or the step on which
T's seconds wrap empties the coincidence list and the declared windows and leaves the outgoing notices'
number (R168). That T is read held at 2^62 ns is the model's reading: log 16. -/
def Obligations.StaleEntriesLeaveTheList : Prop :=
  (∀ s, ∃ t, exec .listExpiry s = .next t ∧
    t = { s with coinc := { s.coinc with list := t.coinc.list } } ∧
    t.coinc.list.Sublist s.coinc.list ∧
    ∀ e, e ∈ t.coinc.list ↔
      e ∈ s.coinc.list ∧ min (2 ^ 62) s.nowT.nsCount ≤ e.time + 300000000000) ∧
  (∀ s pins t, exec (.tick pins) s = .next t →
    (t.time.wraps ≠ s.time.wraps → t.coinc = { s.coinc with list := [], windows := [] }) ∧
    (t.time.wraps = s.time.wraps → t.coinc = s.coinc)) ∧
  ∀ s t, exec .stepApplication s = .next t → t.time.wraps ≠ s.time.wraps →
    t.coinc.list = [] ∧ t.coinc.windows = [] ∧
    t.coinc.outgoing.length = s.coinc.outgoing.length

/-- A peer's notice of a station that is not TRACKED is counted and dropped, a repeat is dropped, and a new
one joins the peer's recent notices and is inserted at its time less θ; an insertion more than 300 s before
T changes nothing, any other replaces its key's entry, displaces the earliest of 32, and is placed in order
(R82, R166, R167). That T is read held at 2^62 ns is the model's reading: log 16. -/
def Obligations.PeerNoticesEnterTheList : Prop :=
  (∀ s station n, (∀ e, s.peers.find station = some e → e.state ≠ .tracked) →
    peerNotice station n s =
      { s with coinc := { s.coinc with noticeUntracked := bump s.coinc.noticeUntracked } }) ∧
  (∀ s station n e, s.peers.find station = some e → e.state = .tracked → n.seq ∈ e.recent →
    peerNotice station n s = s) ∧
  (∀ s station n e o, s.peers.find station = some e → e.state = .tracked → n.seq ∉ e.recent →
    e.derive s.nowQ s.time.k = some o →
    peerNotice station n s =
      insertEntry station n.seq
        (max 0 (min (2 ^ 62) ((n.time.secs : Int) * 10 ^ 9 + n.time.ns - o.theta))).toNat o.u
        { s with peers := s.peers.modify station fun x =>
          { x with recent := (if x.recent.length < 4 then x.recent else x.recent.tail) ++ [n.seq] } }) ∧
  ∀ s station (seq : Seq) time u,
    (time + 300000000000 < min (2 ^ 62) s.nowT.nsCount → insertEntry station seq time u s = s) ∧
    (min (2 ^ 62) s.nowT.nsCount ≤ time + 300000000000 →
      ∃ e kept list, e = ⟨station, seq, time, u, false, s.time.k, s.coinc.inserted⟩ ∧
        kept = s.coinc.list.filter (fun x => !(x.station == station && x.seq == seq)) ∧
        list.Perm (e :: if kept.length < 32 then kept else kept.tail) ∧
        (s.coinc.list.Pairwise (fun a b => a.before b = true) →
          list.Pairwise (fun a b => a.before b = true)) ∧
        insertEntry station seq time u s =
          declarationTest e
            { s with coinc := { s.coinc with
              list := list
              coincOverflow :=
                if kept.length < 32 then s.coinc.coincOverflow else bump s.coinc.coincOverflow
              inserted := s.coinc.inserted + 1 } })

/-! ## The link: sending -/

/-- A draw is sixteen steps of the register: each shifts one place up and enters the exclusive-or of bits
16, 14, 13 and 11 at bit 1; neither a step nor the seed ever gives 0 (R42). -/
def Obligations.DrawsAdvanceTheRegister : Prop :=
  (∀ x : BitVec 16,
    (lfsrStep x).getLsbD 0 =
      (x.getLsbD 15 ^^ (x.getLsbD 13 ^^ (x.getLsbD 12 ^^ x.getLsbD 10))) ∧
    ∀ i, i < 15 → (lfsrStep x).getLsbD (i + 1) = x.getLsbD i) ∧
  (∀ x, lfsrDraw x = (lfsrStep^[16]) x) ∧
  (∀ x, x ≠ 0 → lfsrDraw x ≠ 0) ∧
  ∀ station, lfsrSeed station ≠ 0

/-- At the end of the listen period and of each mark interval the next interval of M seconds begins on that
tick; unless MUTED a draw sets the regular slot pending, its reference instant at the launch offset, its
key-up the lead before it, its bound the interval's end. In the configured ranges the reference instant lies
between 12.5% and 895/1024 (87.4%) of the interval and the key-up after its start (R41, R43). That
LISTEN_PERIOD_END makes the first interval's start, and that an event may be taken late, are the model's
readings: logs 11 and 5. -/
def Obligations.MarkIntervalsScheduleLaunches : Prop :=
  ∀ c s start, (c = .listenPeriodEnd ∧ s.link.schedule = .listening start) ∨
      (c = .markIntervalStart ∧ s.link.schedule = .running start) →
    start ≤ s.time.k →
    (s.link.muted = true →
      exec c s = .next { s with link := { s.link with
        schedule := .running (start + s.cfg.mSeconds * 20000000) } }) ∧
    (s.link.muted = false →
      ∃ ref lead,
        ref = start +
          s.cfg.mSeconds * 1000 * (128 + (lfsrDraw s.link.lfsr).toNat % 768) / 1024 * 20000 ∧
        lead = max (s.cfg.keyLead * 20000) (roundDiv (60 * 20000000) s.cfg.linkRate).toNat ∧
        exec c s = .next { s with link := { s.link with
          schedule := .running (start + s.cfg.mSeconds * 20000000)
          lfsr := lfsrDraw s.link.lfsr
          regular := some ⟨ref - lead, ref, 0, start + s.cfg.mSeconds * 20000000⟩ } } ∧
        (s.cfg.keyLead ≤ 50 →
          start < ref - lead ∧ ref - lead + lead = ref ∧
          8 * (ref - start) ≥ s.cfg.mSeconds * 20000000 ∧
          1024 * (ref - start) ≤ 895 * (s.cfg.mSeconds * 20000000)))

/-- At a slot's key-up a free channel keys the launch; on a busy one a fresh draw defers it while fewer than
three deferrals were made and the reference instant stays before the bound, and otherwise it is skipped,
which advances the launch count and ages the echo queue (R26, R28, R44, R52, R53). An event taken late is
included, the model's choice: log 5. -/
def Obligations.KeyUpCheckKeysDefersOrSkips : Prop :=
  ∀ s kind sl, s.link.slot kind = some sl → sl.keyUp ≤ s.time.k →
    let busy := (∃ pins, s.lines.levels = some pins ∧ pins.linkCd = true) ∨
      (∃ body edge, s.link.rx = .assemble body edge) ∨ s.link.flight ≠ none
    let delay := (20 + (lfsrDraw s.link.lfsr).toNat % 256) * 20000
    let skipped := fun l : MarkLink =>
      { l.setSlot kind none with
        skipped := bump l.skipped
        launchCount := l.launchCount + 1
        echoes := l.echoes.filter fun e => (l.launchCount + 1 - e.count).toNat < 2 }
    (¬ busy →
      exec (.keyUpCheck kind) s = .next
        { s with
          link := { s.link.setSlot kind none with
            flight := some ⟨kind, sl.ref, none⟩, rx := .stopped, byteIn := none }
          cap := { s.cap with ref := .idle, provisional := none } }) ∧
    (busy → sl.deferrals < 3 → sl.ref + delay < sl.bound →
      exec (.keyUpCheck kind) s = .next
        { s with link := { s.link.setSlot kind
            (some ⟨sl.keyUp + delay, sl.ref + delay, sl.deferrals + 1, sl.bound⟩) with
          lfsr := lfsrDraw s.link.lfsr, deferred := bump s.link.deferred } }) ∧
    (busy → sl.deferrals < 3 → sl.bound ≤ sl.ref + delay →
      exec (.keyUpCheck kind) s = .next
        { s with link := skipped { s.link with lfsr := lfsrDraw s.link.lfsr } }) ∧
    (busy → 3 ≤ sl.deferrals →
      exec (.keyUpCheck kind) s = .next { s with link := skipped s.link })

/-- On its reference-instant tick a launch's body is composed from the values presented then, the launch is
listed with its R and counted, up to six echo entries are taken and the rest aged, and each outgoing notice
is carried once more or leaves (R47, R48, R49, R52, R165). An event taken late is included, the model's
choice: log 5. -/
def Obligations.ReferenceInstantComposesMark : Prop :=
  ∀ s kind ref, s.link.flight = some ⟨kind, ref, none⟩ → ref ≤ s.time.k →
    let m : Mark :=
      { version := 1
        kind := match kind with | .regular => 0 | .notice => 1
        station := s.startup.station.toNat
        seq := s.link.nextSeq
        time := ⟨s.nowT.secs.val, s.nowT.ns.val⟩
        uCode := min 16777215 ((s.servo.advU + 15) / 16)
        depth := s.servo.advDepth
        clock := match s.servo.clock with | .unset => 0 | .pullIn => 1 | .locked => 2 | .coast => 3
        echoes := (s.link.echoes.take 6).map fun e =>
          ⟨e.station, e.seq, min (2 ^ 48 - 1) ((s.nowR.units - e.r.units) / 2 ^ 32)⟩
        notices := (s.coinc.outgoing.take 4).map fun n =>
          ⟨n.seq, ⟨n.time / 10 ^ 9, n.time % 10 ^ 9⟩⟩ }
    exec .referenceInstant s = .next
      { s with
        link := { s.link with
          flight := some ⟨kind, ref, some m.body⟩
          launches :=
            (if s.link.launches.length < 4 then s.link.launches else s.link.launches.tail) ++
              [⟨s.link.nextSeq, s.nowR⟩]
          nextSeq := s.link.nextSeq + 1
          launchCount := s.link.launchCount + 1
          echoes := (s.link.echoes.drop 6).filter fun e =>
            (s.link.launchCount + 1 - e.count).toNat < 2 }
        coinc := { s.coinc with
          outgoing := (s.coinc.outgoing.filter fun n => n.sends = 0).map fun n =>
            { n with sends := 1 } } }

/-- Every mark whose fields fit the layout is sent as R196 lays its body out, byte by byte: header, echo items,
notice items, CRC-16, each field most significant byte first. It is read back from its body whole, with the
length its counts give and a CRC that agrees (R40, R194, R195, R196). -/
def Obligations.MarkBodyRoundTrip : Prop :=
  ∀ m : Mark, m.Fits →
    let covered : List Byte :=
      [BitVec.ofNat 8 (16 * m.version + m.kind), BitVec.ofNat 8 m.station, m.seq] ++
      bigEndian 5 m.time.secs ++ bigEndian 4 m.time.ns ++ bigEndian 3 m.uCode ++
      [BitVec.ofNat 8 (16 * m.depth + m.clock),
        BitVec.ofNat 8 (16 * m.echoes.length + m.notices.length)] ++
      (m.echoes.flatMap fun e => [BitVec.ofNat 8 e.station, e.seq] ++ bigEndian 6 e.hold) ++
      m.notices.flatMap fun n => [n.seq] ++ bigEndian 5 n.time.secs ++ bigEndian 4 n.time.ns
    m.body = covered ++ bigEndian 2 (crc16 covered).toNat ∧
    Mark.ofBody m.body = m ∧
    m.body.length = 19 + 8 * m.echoes.length + 10 * m.notices.length ∧
    bodyCrcAgrees m.body = true ∧
    echoCount m.body = m.echoes.length ∧ noticeCount m.body = m.notices.length

/-- Every step keeps the echo queue within eight entries and one a station, the launch list within four, the
register off 0, the deferral counts within 3, and in MUTED both slots absent and the echo queue empty (R42,
R44, R49, R51, R59). The register before its seed is the model's choice: log 9. -/
def Obligations.LinkKeptLegal : Prop :=
  ∀ s t, s.link.Legal → step s = .next t → t.link.Legal

/-! ## The link: receiving -/

/-- A falling edge while the receiver waits gives the provisional capture and starts a byte. On the tick of the
third sample of its start bit, sample 9, a start bit that reads low is confirmed: the provisional capture
becomes the start-edge slot's content, and in ARMED the reference capture too, with the reference edge counter
up by 1. A start bit that reads high is withdrawn. With no start edge for 30 bit times HUNT forgets its byte
and a receipt in ASSEMBLE ends as truncated (R25, R26, R54, R55, R56). That the confirmation comes with TICK,
the tick from which edges count again, the end of a gap after a false start, and events taken late are the
model's readings: logs 8, 21 and 5. -/
def Obligations.StartEdgesAndGaps : Prop :=
  (∀ s e, s.lines.edges.link = true → s.startup.endK = some e → e < s.time.k →
    s.link.flight = none → s.link.byteIn = none → s.link.rx ≠ .stopped →
    s.cap.linkPrevK < s.time.k →
    exec .linkStartEdge s = .next
      { s with
        cap := { s.cap with provisional := some (s.capture s.cap.refEdges) }
        link := { s.link with byteIn := some ⟨s.time.k, []⟩ } }) ∧
  (∀ s pins edge x y p, s.link.byteIn = some ⟨edge, [x, y]⟩ → s.cap.provisional = some p →
    9 * 20000000 ≤ 16 * s.cfg.linkRate * (min (2 ^ 64 - 1) (s.time.k + 1) - edge) →
    (x && y || x && pins.linkRxd || y && pins.linkRxd) = false →
    ∃ t, exec (.tick pins) s = .next t ∧
      t.link.byteIn = some ⟨edge, [x, y, pins.linkRxd]⟩ ∧
      (s.cap.ref = .armed →
        t.cap = { s.cap with
          startEdge := some p, provisional := none, ref := .held p
          refEdges := s.cap.refEdges + 1 }) ∧
      (s.cap.ref ≠ .armed → t.cap = { s.cap with startEdge := some p, provisional := none })) ∧
  (∀ s edge x y z rest, s.link.byteIn = some ⟨edge, x :: y :: z :: rest⟩ →
    (x && y || x && z || y && z) = true →
    exec .linkFalseStart s = .next
      { s with
        cap := { s.cap with provisional := none, linkPrevK := s.time.k }
        link := { s.link with byteIn := none } }) ∧
  (∀ s b edge, s.link.rx = .hunt (some (b, edge)) → s.link.byteIn = none →
    s.lines.edges.link = false →
    edge + (roundDiv (30 * 20000000) s.cfg.linkRate).toNat ≤ s.time.k →
    exec .huntHistoryForget s = .next { s with link := { s.link with rx := .hunt none } }) ∧
  (∀ s body edge, s.link.rx = .assemble body edge → s.link.byteIn = none →
    s.lines.edges.link = false →
    edge + (roundDiv (30 * 20000000) s.cfg.linkRate).toNat ≤ s.time.k →
    exec .receiptTruncated s = .next
      { s with
        cap := { s.cap with ref := .idle }
        link := { s.link with rx := .hunt none, truncated := bump s.link.truncated } }) ∧
  ∀ s body edge, s.link.rx = .assemble body edge →
    s.link.byteIn.isSome = true ∨
      s.time.k < edge + (roundDiv (30 * 20000000) s.cfg.linkRate).toNat →
    exec .receiptTruncated s = .next s

/-- A complete byte in HUNT becomes the history; 0xD4 after 0x2D is sync: the reference slot is armed, a capture
held in it discarded, and the receiver enters ASSEMBLE with no body bytes (R26, R54, R55). The tick from which
edges count again is the model's reading: log 21. -/
def Obligations.LinkByteInHunt : Prop :=
  ∀ s b history, s.link.byteIn = some b → b.complete = true → s.link.rx = .hunt history →
    (b.value = 0xD4 → (∃ edge, history = some (0x2D, edge)) →
      exec .linkByteReceived s = .next
        { s with
          cap := { s.cap with linkPrevK := s.time.k, ref := .armed }
          link := { s.link with byteIn := none, rx := .assemble [] b.edge } }) ∧
    (¬ (b.value = 0xD4 ∧ ∃ edge, history = some (0x2D, edge)) →
      exec .linkByteReceived s = .next
        { s with
          cap := { s.cap with linkPrevK := s.time.k }
          link := { s.link with byteIn := none, rx := .hunt (some (b.value, b.edge)) } })

/-- A complete byte in ASSEMBLE joins the body; counts beyond 6 and 4 in the 17th byte, a CRC-16 that disagrees
and a field out of its values refuse the receipt, counted as FORMAT_ERR, CRC_ERR and FORMAT_ERR, and the
reference slot gives up its capture (R26, R27, R56, R57). The tick from which edges count again is the model's
reading: log 21. -/
def Obligations.LinkByteInAssemble : Prop :=
  ∀ s b body edge, s.link.byteIn = some b → b.complete = true →
    s.link.rx = .assemble body edge →
    let whole := body ++ [b.value]
    let echoes := (whole.getD 16 0).toNat / 16
    let notices := (whole.getD 16 0).toNat % 16
    let length := 19 + 8 * echoes + 10 * notices
    let m := Mark.ofBody whole
    let refused := fun l : MarkLink =>
      { s with cap := { s.cap with linkPrevK := s.time.k, ref := .idle }, link := l }
    (whole.length < 17 ∨
        17 ≤ whole.length ∧ echoes ≤ 6 ∧ notices ≤ 4 ∧ whole.length < length →
      exec .linkByteReceived s = .next
        { s with
          cap := { s.cap with linkPrevK := s.time.k }
          link := { s.link with byteIn := none, rx := .assemble whole b.edge } }) ∧
    (17 ≤ whole.length → 6 < echoes ∨ 4 < notices →
      exec .linkByteReceived s = .next (refused
        { s.link with
          byteIn := none, rx := .hunt none, formatErr := bump s.link.formatErr })) ∧
    (17 ≤ whole.length → echoes ≤ 6 → notices ≤ 4 → length ≤ whole.length →
      (crc16 (whole.take (whole.length - 2))).toNat ≠ beNat (whole.drop (whole.length - 2)) →
      exec .linkByteReceived s = .next (refused
        { s.link with byteIn := none, rx := .hunt none, crcErr := bump s.link.crcErr })) ∧
    (17 ≤ whole.length → echoes ≤ 6 → notices ≤ 4 → length ≤ whole.length →
      (crc16 (whole.take (whole.length - 2))).toNat = beNat (whole.drop (whole.length - 2)) →
      m.version ≠ 1 ∨ 2 ≤ m.kind ∨ m.station = 0 ∨ 63 ≤ m.station ∨ 4 ≤ m.clock ∨
        1000000000 ≤ m.time.ns ∨ (∃ n ∈ m.notices, 1000000000 ≤ n.time.ns) →
      exec .linkByteReceived s = .next (refused
        { s.link with
          byteIn := none, rx := .hunt none, formatErr := bump s.link.formatErr }))

/-- The last byte of a valid mark ends the receipt and hands the mark on: the own number sets MUTED and
nothing else; a mark the Peer Table does not use is counted as TABLE_FULL; a used mark hands on the echo
items that name this part, then the notices, and unless MUTED places the sender's echo entry at the tail: in
the place of the sender's older entry, of the oldest of eight with ECHO_OVERWRITTEN up by 1, or of none (R27,
R51, R58, R59, R65). The tick from which edges count again is the model's reading: log 21. -/
def Obligations.ValidMarkHandled : Prop :=
  ∀ s b c body edge, s.link.byteIn = some b → b.complete = true →
    s.link.rx = .assemble body edge → s.cap.ref = .held c →
    let whole := body ++ [b.value]
    let m := Mark.ofBody whole
    17 ≤ whole.length → (whole.getD 16 0).toNat / 16 ≤ 6 → (whole.getD 16 0).toNat % 16 ≤ 4 →
    19 + 8 * ((whole.getD 16 0).toNat / 16) + 10 * ((whole.getD 16 0).toNat % 16) ≤
      whole.length →
    (crc16 (whole.take (whole.length - 2))).toNat = beNat (whole.drop (whole.length - 2)) →
    m.version = 1 → m.kind ≤ 1 → 1 ≤ m.station → m.station ≤ 62 → m.clock ≤ 3 →
    m.time.ns ≤ 999999999 → (∀ n ∈ m.notices, n.time.ns ≤ 999999999) →
    ∃ ended,
      ended = { s with
        cap := { s.cap with linkPrevK := s.time.k, ref := .idle }
        link := { s.link with byteIn := none, rx := .hunt none } } ∧
      (m.station = s.startup.station.toNat → s.link.muted = true →
        exec .linkByteReceived s = .next ended) ∧
      (m.station = s.startup.station.toNat → s.link.muted = false →
        exec .linkByteReceived s = .next
          { ended with
            link := { ended.link with muted := true, regular := none, notice := none, echoes := [] }
            port := { s.port with alerts := { s.port.alerts with muted := true } } }) ∧
      (m.station ≠ s.startup.station.toNat →
        let use : MarkUse :=
          ⟨m.station, m.seq, m.uCode * 16, m.depth, ClockState.ofCode m.clock, c.k⟩
        (s.peers.useMark use = none →
          exec .linkByteReceived s = .next
            { ended with peers := { s.peers with tableFull := bump s.peers.tableFull } }) ∧
        ∀ peers, s.peers.useMark use = some peers →
          ∃ t handed, exec .linkByteReceived s = .next t ∧
            handed =
              m.notices.foldl (fun x n => peerNotice m.station n x)
                ((m.echoes.filter fun e => e.station = s.startup.station.toNat).foldl
                  (fun x e =>
                    { x with
                      peers :=
                        x.peers.exchange m.station m.time c (s.cfg.delayLimit * 1000000)
                          ((s.link.launches.find? fun y => y.seq == e.seq).map LaunchEntry.r)
                          e.hold })
                  { ended with peers := peers }) ∧
            t = { ended with
              peers := handed.peers, coinc := handed.coinc, port := handed.port, link := t.link } ∧
            (s.link.muted = true → t.link = ended.link) ∧
            (s.link.muted = false →
              let e : EchoEntry := ⟨m.station, m.seq, c.r, s.link.launchCount⟩
              ((∃ x ∈ s.link.echoes, x.station = m.station) →
                t.link = { ended.link with
                  echoes := (s.link.echoes.filter fun x => x.station ≠ m.station) ++ [e] }) ∧
              ((∀ x ∈ s.link.echoes, x.station ≠ m.station) →
                (s.link.echoes.length < 8 →
                  t.link = { ended.link with echoes := s.link.echoes ++ [e] }) ∧
                (8 ≤ s.link.echoes.length →
                  t.link = { ended.link with
                    echoes := s.link.echoes.tail ++ [e]
                    echoOverwritten := bump s.link.echoOverwritten }))))

/-! ## Peers -/

/-- A known sender's entry has five fields rewritten; an unknown sender takes the lowest EMPTY slot, else
the SILENT entry heard least recently, else the TRIAL one, the lower slot on a tie, as a fresh TRIAL entry;
where every slot is TRACKED or BARRED the mark is not used (R63, R64, R65). -/
def Obligations.PeerAdmissionChoosesSlot : Prop :=
  ∀ (p : PeerTable) (m : MarkUse),
    let fresh : PeerEntry :=
      { station := m.station, state := .trial, advU := m.advU, advDepth := m.advDepth
        advClock := m.advClock, lastSeq := m.seq, lastK := m.k, history := [], rejects := 0
        barEnd := none, recent := [] }
    let oldest := fun (st : EntryState) (i : Nat) =>
      ∃ e, p.slots[i]? = some (some e) ∧ e.state = st ∧
        ∀ (j : Nat) x, p.slots[j]? = some (some x) → x.state = st →
          e.lastK < x.lastK ∨ e.lastK = x.lastK ∧ i ≤ j
    (∀ (i : Nat) e, p.stations.Nodup → p.slots[i]? = some (some e) → e.station = m.station →
      p.useMark m = some { p with slots := p.slots.set i (some
        { e with
          advU := m.advU, advDepth := m.advDepth, advClock := m.advClock, lastSeq := m.seq
          lastK := m.k }) }) ∧
    (m.station ∉ p.stations →
      (∀ i : Nat, p.slots[i]? = some none → (∀ j : Nat, j < i → p.slots[j]? ≠ some none) →
        p.useMark m = some { p with slots := p.slots.set i (some fresh) }) ∧
      ((∀ i : Nat, p.slots[i]? ≠ some none) →
        (∀ i, oldest .silent i → p.useMark m = some { p with slots := p.slots.set i (some fresh) }) ∧
        ((∀ e, some e ∈ p.slots → e.state ≠ .silent) →
          (∀ i, oldest .trial i →
            p.useMark m = some { p with slots := p.slots.set i (some fresh) }) ∧
          ((∀ e, some e ∈ p.slots → e.state ≠ .trial) → p.useMark m = none))))

/-- An echo item whose sequence is not listed is stale; otherwise the delay is the interval on R less the
hold, truncated to whole ns; below 0 or above the limit it is refused and counted; else one record joins the
sender's history, the oldest of eight leaving, and the entry moves by its state (R72, R73, R74, R75, R76).
-/
def Obligations.ExchangeJudgedAndRecorded : Prop :=
  ∀ (p : PeerTable) station (t3 : Stamp) (c : Capture) (limit hold : Nat),
    p.exchange station t3 c limit none hold = { p with staleEcho := bump p.staleEcho } ∧
    ∀ r1 : TimeVal, r1.units ≤ c.r.units →
      let d : Int := ((c.r.units - r1.units) / 2 ^ 32 : Nat) - hold
      (d < 0 → p.exchange station t3 c limit (some r1) hold =
        { p with negativeDelay := bump p.negativeDelay }) ∧
      (limit < d → p.exchange station t3 c limit (some r1) hold =
        { p with delayOver := bump p.delayOver }) ∧
      (0 ≤ d → d ≤ limit → ∀ (i : Nat) e, p.stations.Nodup → p.slots[i]? = some (some e) →
        e.station = station →
        ∃ history, history =
            (if e.history.length < 8 then e.history else e.history.tail) ++
              [⟨max (-(2 ^ 62)) (min (2 ^ 62)
                (((t3.secs : Int) - c.t.secs.val) * 10 ^ 9 + ((t3.ns : Int) - c.t.ns.val) + d / 2)),
                d.toNat, c.q, c.k⟩] ∧
          p.exchange station t3 c limit (some r1) hold =
            { p with slots := p.slots.set i (some
              { e with
                history := history
                state :=
                  if e.state = .barred then .barred
                  else if e.state = .tracked ∨ 3 ≤ history.length then .tracked
                  else .trial }) })

/-- An entry's offset comes from its record of least delay, the most recent of several, less the change of
Q since, held at ±2^62; its uncertainty is the advertised one, half the delay spread, 100 ns and 1 ns a
second of age, held at U_MAX; an empty history gives none (R78, R79, R80). -/
def Obligations.OffsetNowFromLeastDelay : Prop :=
  ∀ (e : PeerEntry) (q : QWord) (k : Nat),
    (e.history = [] → e.derive q k = none) ∧
    (e.history ≠ [] → ∃ before r after most,
      e.history = before ++ r :: after ∧ (∀ x ∈ before, r.d ≤ x.d) ∧ (∀ x ∈ after, r.d < x.d) ∧
      most ∈ e.history ∧ (∀ x ∈ e.history, x.d ≤ most.d) ∧
      e.derive q k = some
        { theta := max (-(2 ^ 62)) (min (2 ^ 62) (r.theta - (qDiff q r.q).tdiv (2 ^ 32)))
          leastD := r.d
          spread := most.d - r.d
          u := min 268435440
            (e.advU + (most.d - r.d + 1) / 2 + 100 + (k - r.k) / 20000000) })

/-- Every step keeps the Peer Table at 24 slots with no two entries of one station, none of the part's own,
every entry's history, notices, reject count and barring end legal, and the link unreleased before K =
90,000 (R64, R70, R71, R76, R82, R192). -/
def Obligations.PeerTableKeptLegal : Prop :=
  ∀ s t, s.PeersLegal → step s = .next t → t.PeersLegal

/-- TRIAL entries unheard for 4M s and SILENT ones unheard for 16M s become EMPTY, a TRACKED entry 4M s
after its newest record becomes SILENT, the oldest record leaves at 8M s, and a BARRED entry becomes a TRIAL
entry with a cleared history at its barring end (R66, R67, R68, R69, R71, R77). That one command expires one
record, that an entry barred and unheard for 4M s leaves by BARRING_END and then TRIAL_TIMEOUT, and that events
may be taken late, are the model's choices: logs 17, 22 and 5. -/
def Obligations.PeerTimersMoveEntries : Prop :=
  ∀ (s : State) (slot : Nat) e n, slot < 24 → s.peers.slots[slot]? = some (some e) →
    n = s.cfg.mSeconds * 20000000 →
    let put := fun x : Option PeerEntry =>
      { s with peers := { s.peers with slots := s.peers.slots.set slot x } }
    (e.state = .trial → e.lastK + 4 * n ≤ s.time.k →
      exec (.trialTimeout slot) s = .next (put none)) ∧
    (e.state = .silent → e.lastK + 16 * n ≤ s.time.k →
      exec (.silentTimeout slot) s = .next (put none)) ∧
    (∀ r, e.state = .tracked → e.history.getLast? = some r → r.k + 4 * n ≤ s.time.k →
      exec (.trackedSilent slot) s = .next (put (some { e with state := .silent }))) ∧
    (∀ r rest, e.history = r :: rest → r.k + 8 * n ≤ s.time.k →
      exec (.recordExpiry slot) s = .next (put (some { e with history := rest }))) ∧
    (∀ b, e.state = .barred → e.barEnd = some b → b ≤ s.time.k →
      exec (.barringEnd slot) s = .next (put (some
        { e with state := .trial, rejects := 0, history := [], barEnd := none }))) ∧
    (e.state ≠ .trial ∨ s.time.k < e.lastK + 4 * n → exec (.trialTimeout slot) s = .next s) ∧
    (e.state ≠ .silent ∨ s.time.k < e.lastK + 16 * n → exec (.silentTimeout slot) s = .next s) ∧
    (∀ b, e.barEnd = some b → s.time.k < b → exec (.barringEnd slot) s = .next s)

/-! ## The Combiner -/

/-- A run gathers the TRACKED peers that do not advertise UNSET and whose U is at most U_MAX - 50, the
anchor where it is strapped, valid and not barred, and the origin where its flag is set and not barred; with
none its result is NONE, else it selects, reports and combines; it changes the Peer Table and the Combiner
alone (R81, R85, R87, R88, R89, R91, R95). That an entry without an offset is no source is the model's
reading: log 19. -/
def Obligations.RunGathersSources : Prop :=
  (∀ s x, x ∈ sources s ↔
    (∃ e o, some e ∈ s.peers.slots ∧ e.state = .tracked ∧ e.advClock ≠ .unset ∧
      e.advU ≤ 268435390 ∧ e.derive s.nowQ s.time.k = some o ∧
      x = ⟨.peer e.station, o.theta, o.u, e.advU, e.advDepth⟩) ∨
    (∃ a, s.startup.anchorEn = true ∧ s.anchor.consistency = 3 ∧ s.comb.anchorBarred = none ∧
      s.anchor.sample = some a ∧
      x = ⟨.anchor,
        max (-(2 ^ 62)) (min (2 ^ 62) (a.theta - (qDiff s.nowQ a.q).tdiv (2 ^ 32))),
        a.quality * 16 + 50, a.quality * 16, 0⟩) ∨
    (s.comb.originFlag = true ∧ s.comb.originBarred = none ∧
      x = ⟨.origin, 0, s.cfg.originFloor, s.cfg.originFloor - 50, 15⟩)) ∧
  (∀ s, sources s = [] → combinerRun s = ({ s with comb := originRule s none }, none)) ∧
  ∀ s, sources s ≠ [] → ∃ t dmin, combinerRun s =
      ({ t with comb := originRule t (some dmin) },
        some (combine (survivors (candidates (sources s))))) ∧
    t = (candidates (sources s)).foldl
      (reportOne (weightedMedian (candidates (sources s)))) s ∧
    t = { s with peers := t.peers, comb := t.comb } ∧
    (∃ x ∈ sources s, x.depth = dmin) ∧ (∀ x ∈ sources s, dmin ≤ x.depth) ∧
    ∀ x, x ∈ candidates (sources s) ↔ x ∈ sources s ∧ x.depth ≤ dmin + 1

/-- The weighted median is the offset of the first candidate, ordered by offset and ranking number, at which
twice the cumulative weight reaches the total; a candidate survives within 2u + 200 ns of it; and the
median candidate always does (R93, R94). -/
def Obligations.MedianSelectsSurvivors : Prop :=
  ∀ xs : List Source, xs ≠ [] →
    (orderSources xs).Perm xs ∧
    (orderSources xs).Pairwise (fun a b =>
      a.theta < b.theta ∨ a.theta = b.theta ∧ a.rank ≤ b.rank) ∧
    ∃ before x after, orderSources xs = before ++ x :: after ∧ weightedMedian xs = x.theta ∧
      2 * (before.map Source.weight).sum < (xs.map Source.weight).sum ∧
      (xs.map Source.weight).sum ≤ 2 * ((before.map Source.weight).sum + x.weight) ∧
      x ∈ survivors xs ∧
      ∀ y, y ∈ survivors xs ↔ y ∈ xs ∧ (y.theta - x.theta).natAbs ≤ 2 * y.u + 200

/-- A weight is max(1, floor(2^38 / u²)); the combined uncertainty is the smallest positive x with x² times
the total weight at least 2^38, between 1 and 524,288; for one survivor with u below 10,000 ns it is u or
one or two ns above (R92, R97). -/
def Obligations.WeightsAndCombinedUncertainty : Prop :=
  (∀ x : Source, 50 ≤ x.u →
    x.weight = max 1 (2 ^ 38 / (x.u * x.u)) ∧ 1 ≤ x.weight ∧ x.weight ≤ 109951162 ∧
    (524288 < x.u → x.weight = 1)) ∧
  (∀ w, 1 ≤ w → 1 ≤ combinedU w ∧ combinedU w ≤ 524288 ∧
    2 ^ 38 ≤ combinedU w * combinedU w * w ∧
    ∀ y, 0 < y → y < combinedU w → y * y * w < 2 ^ 38) ∧
  ∀ x : Source, 50 ≤ x.u → x.u < 10000 →
    x.u ≤ combinedU x.weight ∧ combinedU x.weight ≤ x.u + 2

/-- The combined offset is the weighted mean of the survivors rounded to the nearest ns, halves away from
zero, so it lies between their least and greatest offsets; U_adv is the combined uncertainty or the least
base plus 50, held at U_MAX; the own depth is 0 with the anchor, 15 for the origin alone, else the least
depth plus 1, at most 15 (R96, R98, R99, R100). -/
def Obligations.CombinedResultFromSurvivors : Prop :=
  ∀ xs : List Source, xs ≠ [] →
    let total := (xs.map Source.weight).sum
    let sum := (xs.map fun x => (x.weight : Int) * x.theta).sum
    let c := combine xs
    2 * (c.theta * total - sum).natAbs ≤ total ∧
    (2 * (c.theta * total - sum).natAbs = total → sum.natAbs < c.theta.natAbs * total) ∧
    (∀ lo hi, (∀ x ∈ xs, lo ≤ x.theta ∧ x.theta ≤ hi) → lo ≤ c.theta ∧ c.theta ≤ hi) ∧
    (∃ y ∈ xs, (∀ x ∈ xs, y.base ≤ x.base) ∧
      c.u = min 268435440 (max (combinedU total) (y.base + 50))) ∧
    ((∃ x ∈ xs, x.id = .anchor) → c.depth = 0) ∧
    ((∀ x ∈ xs, x.id = .origin) → c.depth = 15) ∧
    ((∀ x ∈ xs, x.id ≠ .anchor) → (∃ x ∈ xs, x.id ≠ .origin) →
      ∃ y ∈ xs, (∀ x ∈ xs, y.depth ≤ x.depth) ∧ c.depth = min 15 (y.depth + 1))

/-- At the end of a run the origin count rises, held at 4, on NONE in UNSET and else becomes 0; at 4 the
flag is set where every TRIAL or TRACKED peer advertises UNSET and has a greater number than the part's; a
selection with Dmin of 14 or less clears the flag and ends the origin's barring (R101, R102, R103). -/
def Obligations.OriginRuleAtEndOfRun : Prop :=
  (∀ s : State, ∃ flag, originRule s none =
      { s.comb with
        originCount := if s.servo.clock = .unset then min 4 (s.comb.originCount + 1) else 0
        originFlag := flag } ∧
    (flag = true ↔ s.comb.originFlag = true ∨
      s.servo.clock = .unset ∧ 3 ≤ s.comb.originCount ∧
      ∀ e, some e ∈ s.peers.slots → e.state = .trial ∨ e.state = .tracked →
        e.advClock = .unset ∧ s.startup.station.toNat < e.station)) ∧
  (∀ (s : State) d, d ≤ 14 → originRule s (some d) =
    { s.comb with
      originCount := 0, originFlag := false, originRejects := 0, originBarred := none }) ∧
  ∀ (s : State) d, 14 < d → originRule s (some d) = { s.comb with originCount := 0 }

/-- A report on a candidate clears its reject count or raises it, and at 4 bars the source for 16M seconds;
a peer's report acts on its TRACKED entry alone; the end of a local source's barring removes it with its
reject count (R70, R90, R95). An event taken late is included, the model's choice: log 5. -/
def Obligations.ReportsBarSources : Prop :=
  (∀ s b, s.comb.anchorBarred = some b → b ≤ s.time.k →
    exec (.localSourceBarringEnd .anchor) s = .next
      { s with comb := { s.comb with anchorRejects := 0, anchorBarred := none } }) ∧
  (∀ s b, s.comb.originBarred = some b → b ≤ s.time.k →
    exec (.localSourceBarringEnd .origin) s = .next
      { s with comb := { s.comb with originRejects := 0, originBarred := none } }) ∧
  ∀ m (s : State) (x : Source), ∃ kept : Bool,
    (kept = true ↔ (x.theta - m).natAbs ≤ 2 * x.u + 200) ∧
    let barEnd := some (s.time.k + 16 * (s.cfg.mSeconds * 20000000))
    (x.id = .anchor → reportOne m s x = { s with comb := { s.comb with
      anchorRejects :=
        if kept then 0 else if s.comb.anchorRejects < 3 then s.comb.anchorRejects + 1 else 4
      anchorBarred :=
        if kept = false ∧ 3 ≤ s.comb.anchorRejects then barEnd else s.comb.anchorBarred } }) ∧
    (x.id = .origin → reportOne m s x = { s with comb := { s.comb with
      originRejects :=
        if kept then 0 else if s.comb.originRejects < 3 then s.comb.originRejects + 1 else 4
      originBarred :=
        if kept = false ∧ 3 ≤ s.comb.originRejects then barEnd else s.comb.originBarred } }) ∧
    ∀ station, x.id = .peer station → reportOne m s x =
      { s with peers := { s.peers with slots := s.peers.slots.map fun slot => slot.map fun e =>
        if e.station = station ∧ e.state = .tracked then
          if kept then { e with rejects := 0 }
          else if e.rejects < 3 then { e with rejects := e.rejects + 1 }
          else { e with rejects := 4, state := .barred, barEnd := barEnd }
        else e } }

/-! ## The servo -/

/-- An update in UNSET with a result leaves it for PULL-IN, by a step at 1,000 ns or more and else by a
slew; NONE there changes nothing more than the run. In PULL-IN an offset beyond the step limit is stepped;
any other is slewed, and the fourth in a row within the lock threshold enters LOCKED (R105, R108, R109,
R110, R111, R113, R114, R115). -/
def Obligations.ServoUpdateTowardsLock : Prop :=
  ∀ s t result, 0 < s.time.k → s.time.k % (s.cfg.mSeconds * 20000000) = 0 →
    s.servo.lastUpdate < s.time.k →
    combinerRun { s with servo := { s.servo with lastUpdate := s.time.k } } = (t, result) →
    let p := fun theta : Int => max (-21474836) (min 21474836
      (roundDiv (theta * 2 ^ 32) (s.cfg.mSeconds * 20000000)))
    let slewed := fun theta : Int =>
      { t.time with
        f := max (-42949673) (min 42949673
          (s.time.f + roundDiv (p theta) (2 ^ s.cfg.gain)))
        p := if s.time.step.isSome then s.time.p else p theta }
    let stepping := fun theta : Int => t.time.request s.link.flight.isSome theta
    let limit := s.cfg.stepLimit * 1000
    (s.servo.clock = .unset → result = none → exec .servoUpdate s = .next t) ∧
    (∀ r, s.servo.clock = .unset → result = some r → 1000 ≤ r.theta.natAbs →
      exec .servoUpdate s = .next { t with
        time := stepping r.theta
        servo := { t.servo with
          clock := .pullIn, lockCount := 0, noneCount := 0, last := some (r.u, r.depth)
          advU := r.u, advDepth := r.depth, reason := some .initial } }) ∧
    (∀ r, s.servo.clock = .unset → result = some r → r.theta.natAbs < 1000 →
      exec .servoUpdate s = .next { t with
        time := slewed r.theta
        servo := { t.servo with
          clock := .pullIn, lockCount := 0, noneCount := 0, last := some (r.u, r.depth)
          advU := r.u, advDepth := r.depth } }) ∧
    (∀ r, s.servo.clock = .pullIn → result = some r → limit < r.theta.natAbs →
      exec .servoUpdate s = .next { t with
        time := stepping r.theta
        servo := { t.servo with
          lockCount := 0, noneCount := 0, last := some (r.u, r.depth)
          advU := r.u, advDepth := r.depth, reason := some .pullIn } }) ∧
    (∀ r, s.servo.clock = .pullIn → result = some r → r.theta.natAbs ≤ limit →
      4 * r.u + 1000 < r.theta.natAbs ∨ s.servo.lockCount < 3 →
      exec .servoUpdate s = .next { t with
        time := slewed r.theta
        servo := { t.servo with
          lockCount :=
            if r.theta.natAbs ≤ 4 * r.u + 1000 then s.servo.lockCount + 1 else 0
          noneCount := 0, last := some (r.u, r.depth), advU := r.u, advDepth := r.depth } }) ∧
    ∀ r, s.servo.clock = .pullIn → result = some r → r.theta.natAbs ≤ limit →
      r.theta.natAbs ≤ 4 * r.u + 1000 → 3 ≤ s.servo.lockCount →
      exec .servoUpdate s = .next { t with
        time := slewed r.theta
        servo := { t.servo with
          clock := .locked, lockCount := 4, noneCount := 0, breakCount := 0
          last := some (r.u, r.depth), advU := r.u, advDepth := r.depth } }

/-- LOCKED slews within the step limit, learning within the lock threshold, and steps at the third result in
a row beyond it. NONE withdraws P in PULL-IN and LOCKED and enters COAST at the second in a row, with the
coast record, frequency and block flag; a result ends COAST by a slew or a step (R116, R117, R118, R119,
R120, R121, R124, R125, R158). -/
def Obligations.ServoUpdateInLockAndCoast : Prop :=
  ∀ s t result, 0 < s.time.k → s.time.k % (s.cfg.mSeconds * 20000000) = 0 →
    s.servo.lastUpdate < s.time.k →
    combinerRun { s with servo := { s.servo with lastUpdate := s.time.k } } = (t, result) →
    let p := fun theta : Int => max (-21474836) (min 21474836
      (roundDiv (theta * 2 ^ 32) (s.cfg.mSeconds * 20000000)))
    let newF := fun theta : Int => max (-42949673) (min 42949673
      (s.time.f + roundDiv (p theta) (2 ^ s.cfg.gain)))
    let slewed := fun theta : Int =>
      { t.time with
        f := newF theta, p := if s.time.step.isSome then s.time.p else p theta }
    let unslewed := { t.time with p := if s.time.step.isSome then s.time.p else 0 }
    let stepping := fun theta : Int => t.time.request s.link.flight.isSome theta
    let kept := fun r : Combined =>
      { t.servo with last := some (r.u, r.depth), advU := r.u, advDepth := r.depth }
    let limit := s.cfg.stepLimit * 1000
    let chosen := fun entry : Int => max (-42949673) (min 42949673
      (match s.temp.currentBin with
        | some b => if 4 ≤ b.count then b.f else entry
        | none => entry))
    (∀ r, s.servo.clock = .locked → result = some r → r.theta.natAbs ≤ limit →
      exec .servoUpdate s = .next { t with
        time := slewed r.theta
        servo := { kept r with breakCount := 0, noneCount := 0 }
        temp := if r.theta.natAbs ≤ 4 * r.u + 1000 then s.temp.learn (newF r.theta)
          else s.temp }) ∧
    (∀ r, s.servo.clock = .locked → result = some r → limit < r.theta.natAbs →
      s.servo.breakCount < 2 →
      exec .servoUpdate s = .next { t with
        time := unslewed
        servo := { kept r with noneCount := 0, breakCount := s.servo.breakCount + 1 } }) ∧
    (∀ r, s.servo.clock = .locked → result = some r → limit < r.theta.natAbs →
      2 ≤ s.servo.breakCount →
      exec .servoUpdate s = .next { t with
        time := stepping r.theta
        servo := { kept r with
          clock := .pullIn, lockCount := 0, noneCount := 0, breakCount := 0
          reason := some .lockedBreak } }) ∧
    (s.servo.clock = .pullIn ∨ s.servo.clock = .locked → result = none →
      s.servo.noneCount = 0 →
      exec .servoUpdate s = .next { t with
        time := unslewed, servo := { t.servo with noneCount := 1 } }) ∧
    (s.servo.clock = .pullIn ∨ s.servo.clock = .locked → result = none →
      1 ≤ s.servo.noneCount → ∃ depth,
      depth = (if s.servo.advDepth = 0 then 1 else s.servo.advDepth) ∧
      exec .servoUpdate s = .next { t with
        time := { unslewed with f := chosen s.time.f }
        servo := { t.servo with
          clock := .coast, lockCount := 0, noneCount := 0, breakCount := 0, advDepth := depth
          coast := some ⟨s.time.k, s.time.f, s.servo.advU, depth, false, s.time.k⟩ }
        align := { s.align with block := s.align.block.map fun b => { b with coast := true } } }) ∧
    (∀ r, s.servo.clock = .coast → result = some r →
      exec .servoUpdate s = .next { t with
        time := if limit < r.theta.natAbs then stepping r.theta else slewed r.theta
        servo := { kept r with
          clock := .pullIn, lockCount := 0, noneCount := 0, breakCount := 0, coast := none
          reason := if limit < r.theta.natAbs then some .coastBreak else s.servo.reason } }) ∧
    ∀ c, s.servo.clock = .coast → result = none → s.servo.coast = some c →
      exec .servoUpdate s = .next { t with time := { unslewed with f := chosen c.entryF } }

/-- Every step keeps the advertised U and depth what R107 says of the clock state, within their ranges, and
the coast record present in COAST alone with a depth of at least 1 (R106, R107, R120). -/
def Obligations.AdvertisedValuesKeptLegal : Prop :=
  ∀ s t, s.servo.Legal → step s = .next t → t.servo.Legal

/-- In COAST the coast U and the advertised U grow by g' on each whole second of coast time, held at U_MAX
and never falling; past the coast limit, once, the depth becomes 15 and COAST_LONG latches (R122, R123). -/
def Obligations.CoastGrowsAndPassesItsLimit : Prop :=
  ∀ s c, s.servo.clock = .coast → s.servo.coast = some c →
    (c.startK < s.time.k → (s.time.k - c.startK) % 20000000 = 0 → c.lastGrowth < s.time.k →
      ∃ g u, g = (match s.temp.currentBin with
          | some b => if 4 ≤ b.count then s.cfg.growth / 2 else s.cfg.growth
          | none => s.cfg.growth) ∧
        u = min 268435440 (c.u + g) ∧ (c.u ≤ 268435440 → c.u ≤ u) ∧
        exec .coastGrowth s = .next
          { s with servo := { s.servo with
            coast := some { c with u := u, lastGrowth := s.time.k }, advU := u } }) ∧
    (c.startK + s.cfg.coastLimit * 1200000000 < s.time.k → c.limitPassed = false →
      exec .coastLimit s = .next
        { s with
          servo := { s.servo with
            coast := some { c with depth := 15, limitPassed := true }, advDepth := 15 }
          port := { s.port with alerts := { s.port.alerts with coastLong := true } } }) ∧
    (s.time.k ≤ c.startK + s.cfg.coastLimit * 1200000000 ∨ c.limitPassed = true →
      exec .coastLimit s = .next s)

/-! ## Temperature and drift -/

/-- A conversion starts on each positive multiple of 80,000,000 and 20,000 ticks later delivers a code,
which joins the last four as min(code, 500) - 160; the temperature is their mean truncated and the bin
floor((t + 160) / 32); a bin change in COAST sets F to the chosen frequency. A learn request takes its first
sample whole and moves by an eighth after, never past F. Every step keeps at most four conversions and
sixteen bins in their ranges (R121, R127, R128, R129, R130, R132, R133). A completion taken late is
included, the model's choice: log 5. -/
def Obligations.ConversionsAndLearning : Prop :=
  (∀ s n, s.time.k = 80000000 * (n + 1) → s.temp.converting = none →
    exec .conversionStart s = .next
      { s with temp := { s.temp with converting := some s.time.k } }) ∧
  (∀ s k0 code, s.temp.converting = some k0 → k0 + 20000 ≤ s.time.k → code < 1024 →
    ∃ t, exec (.conversionComplete code) s = .next t ∧
      t = { s with temp := t.temp, time := { s.time with f := t.time.f } } ∧
      t.temp = { s.temp with
        converting := none
        slots := (if s.temp.slots.length < 4 then s.temp.slots else s.temp.slots.tail) ++
          [(min code 500 : Int) - 160] } ∧
      (s.servo.clock ≠ .coast ∨ t.temp.bin = s.temp.bin → t.time.f = s.time.f) ∧
      ∀ c, s.servo.clock = .coast → t.temp.bin ≠ s.temp.bin → s.servo.coast = some c →
        t.time.f = max (-42949673) (min 42949673
          (match t.temp.currentBin with
            | some b => if 4 ≤ b.count then b.f else c.entryF
            | none => c.entryF))) ∧
  (∀ m : Temperature, m.slots.length ≠ 4 → m.bin = none ∧ m.current = none) ∧
  (∀ (m : Temperature) a b c d, m.slots = [a, b, c, d] →
    m.current = some ((a + b + c + d).tdiv 4) ∧
    m.bin = some (((a + b + c + d).tdiv 4 + 160) / 32).toNat) ∧
  (∀ (m : Temperature) f, m.bin = none → m.learn f = m) ∧
  (∀ (m : Temperature) f i old, m.bin = some i → m.bins[i]? = some old →
    ∃ new, m.learn f = { m with bins := m.bins.set i new } ∧
      (old.count = 0 → new = ⟨f, 1⟩) ∧
      (1 ≤ old.count → new = ⟨old.f + (f - old.f).tdiv 8, min 255 (old.count + 1)⟩ ∧
        min old.f f ≤ new.f ∧ new.f ≤ max old.f f)) ∧
  ∀ s t, s.temp.Legal → step s = .next t → t.temp.Legal

/-! ## Records -/

/-- Every step keeps the record queue within 16 records and the peer cursor on a slot (R179, R184). -/
def Obligations.RecordPortKeptLegal : Prop :=
  ∀ s t, s.port.Legal → step s = .next t → t.port.Legal

/-- An arriving record of class 4 or 5 is dropped at 12 waiting; one that finds room queues last; one that
finds 16 displaces the newest record of the lowest class where that is lower than its own, and else is
dropped; each loss is counted in its class and latches RECORD_DROP. Before the end of the configuration read
the records wait. After it an arrival that finds the transmitter SENDING waits too, and one that finds it IDLE
lets it take the first arrived record of the highest class, whose frame begins on that tick. At FRAME_END the
transmitter takes the next such record, or becomes IDLE (R178, R180, R181, R182). An event taken late is
included, the model's choice: log 5. -/
def Obligations.RecordsQueueAndLeave : Prop :=
  (∀ (p : RecordPort) r,
    let lost := fun (q : RecordPort) (class_ : Nat) =>
      { q with
        drops := q.drops.count class_
        alerts := { q.alerts with recordDrop := true } }
    (4 ≤ r.cls → 12 ≤ p.queue.length → p.enqueue r = lost p r.cls) ∧
    (r.cls < 4 ∨ p.queue.length < 12 → p.queue.length < 16 →
      p.enqueue r = { p with queue := p.queue ++ [r] }) ∧
    (r.cls < 4 → 16 ≤ p.queue.length → (∀ x ∈ p.queue, x.cls ≤ r.cls) →
      p.enqueue r = lost p r.cls) ∧
    ∀ before x after, r.cls < 4 → 16 ≤ p.queue.length → p.queue = before ++ x :: after →
      r.cls < x.cls → (∀ y ∈ before, y.cls ≤ x.cls) → (∀ y ∈ after, y.cls < x.cls) →
      p.enqueue r = lost { p with queue := before ++ after ++ [r] } x.cls) ∧
  (∀ (s : State) r,
    (s.startup.endK = none → s.arrive r = { s with port := s.port.enqueue r }) ∧
    ∀ e, s.startup.endK = some e →
      (∀ f, s.port.frame = some f → s.arrive r = { s with port := s.port.enqueue r }) ∧
      (s.port.frame = none → ∀ before x after, (s.port.enqueue r).queue = before ++ x :: after →
        (∀ y ∈ before, x.cls < y.cls) → (∀ y ∈ after, x.cls ≤ y.cls) →
        s.arrive r = { s with port := { s.port.enqueue r with
          queue := before ++ after, frame := some ⟨s.time.k, x.frame⟩ } })) ∧
  ∀ s f, s.port.frame = some f →
    f.start + (roundDiv (10 * f.bytes.length * 20000000 : Nat) s.cfg.recordRate).toNat ≤ s.time.k →
    (s.port.queue = [] →
      exec .frameEnd s = .next { s with port := { s.port with frame := none } }) ∧
    ∀ before x after, s.port.queue = before ++ x :: after → (∀ y ∈ before, x.cls < y.cls) →
      (∀ y ∈ after, x.cls ≤ y.cls) →
      exec .frameEnd s = .next { s with port := { s.port with
        queue := before ++ after, frame := some ⟨s.time.k, x.frame⟩ } }

/-- On each positive multiple of their periods after the end of the configuration read the status timer
forms a STATUS record of the values presented, and the peer timer moves the cursor to the next slot that is
not EMPTY and forms its PEER record, or nothing where all are EMPTY; a REARM edge clears the latched alerts
whose condition is not present (R183, R184, R186). -/
def Obligations.TimersReportAndRearmClears : Prop :=
  (∀ s e n, s.startup.endK = some e → s.time.k = e + (n + 1) * (s.cfg.statusInterval * 20000000) →
    0 < s.cfg.statusInterval → s.port.lastStatus < s.time.k →
    exec .statusTimer s = .next
      { s with
        port := ({ s.port with lastStatus := s.time.k }).arrive s.time.k true
          (.status
          { cause := s.startup.cause, clock := s.servo.clock, depth := s.servo.advDepth
            u := s.servo.advU, f := s.time.f, temp := s.temp.current, bin := s.temp.bin
            anchorValid := s.startup.anchorEn && decide (s.anchor.consistency = 3)
            muted := s.link.muted, originFlag := s.comb.originFlag
            defaulted := s.startup.defaulted, clamped := s.startup.clamped
            alerts := s.port.alerts, edges := s.edgeCounters, stats := s.statCounters }) }) ∧
  (∀ s e n, s.startup.endK = some e → s.time.k = e + (n + 1) * (s.cfg.mSeconds * 20000000) →
    s.port.lastPeer < s.time.k →
    ((∀ (slot : Nat) x, slot < 24 → s.peers.slots[slot]? ≠ some (some x)) →
      exec .peerTimer s = .next { s with port := { s.port with lastPeer := s.time.k } }) ∧
    ∀ (i : Nat) x, 1 ≤ i → i ≤ 24 → s.peers.slots[(s.port.cursor + i) % 24]? = some (some x) →
      (∀ (j : Nat) y, 1 ≤ j → j < i → s.peers.slots[(s.port.cursor + j) % 24]? ≠ some (some y)) →
      exec .peerTimer s = .next
        { s with
          port :=
          ({ s.port with
            cursor := (s.port.cursor + i) % 24, lastPeer := s.time.k }).arrive s.time.k true
            (.peer
              { station := x.station, state := x.state, depth := x.advDepth, clock := x.advClock
                u := x.advU, lastSeq := x.lastSeq, offset := x.derive s.nowQ s.time.k
                records := x.history.length, rejects := x.rejects
                age := (s.time.k - x.lastK) / 20000000 }) }) ∧
  ∀ s, s.lines.edges.rearm = true → ∃ t, exec .rearmEdge s = .next t ∧
    t = { s with
      lines := { s.lines with edges := { s.lines.edges with rearm := false } }
      port := { s.port with alerts := t.port.alerts } } ∧
    t.port.alerts.muted = s.port.alerts.muted ∧ t.port.alerts.config = s.port.alerts.config ∧
    t.port.alerts.step = false ∧ t.port.alerts.rateOut = false ∧
    t.port.alerts.recordDrop = false ∧
    (t.port.alerts.coastLong = true ↔ s.port.alerts.coastLong = true ∧
      s.servo.clock = .coast ∧ ∃ c, s.servo.coast = some c ∧ c.limitPassed = true) ∧
    (t.port.alerts.anchorLost = true ↔ s.port.alerts.anchorLost = true ∧
      s.startup.anchorEn = true ∧ s.anchor.consistency ≠ 3)

/-- A record's frame is 0xA5, its type, its length, its payload laid out byte by byte as the tables give it, and
a CRC-16 over type, length and payload; a value wider than its field is sent modulo the field (the model's
choice, log 18). STATUS carries the edge counters and the statistic counters in their order. While a mark is
sent LINK_TXD shows bit m of its frame, the preamble and sync counting from -60 and the body from 0, from tick
round(m * 20,000,000 / rate) after its reference tick until the next bit's tick: start bit low, data bits least
significant first, stop bit high; it is high before bit -60, after the last stop bit and with no launch in
flight. REC_TXD does the same from the tick on which a record's frame begins, and is high with none (R38, R40,
R46, R177, R194, R195, R198, R199). That the lines are functions of the state is the model's choice: log 10. -/
def Obligations.FramesOnTheLines : Prop :=
  (let signed := fun (n : Nat) (v : Int) => bigEndian n (v % 2 ^ (8 * n)).toNat
   let time := fun t : Stamp => bigEndian 5 t.secs ++ bigEndian 4 t.ns
   let clock := fun c : ClockState =>
     match c with | .unset => 0 | .pullIn => 1 | .locked => 2 | .coast => 3
   let state := fun (depth : Nat) c => bigEndian 1 (16 * depth + clock c)
   let payload := fun r : Record => match r with
     | .brk x =>
       bigEndian 1
           (match x.reason with
             | .initial => 0 | .pullIn => 1 | .lockedBreak => 2 | .coastBreak => 3) ++
         signed 8 x.amount ++ time x.time ++ bigEndian 4 x.nextBlock.toNat ++ bigEndian 1 (clock x.clock)
     | .coincidence x =>
       time x.start ++ bigEndian 1 x.window ++ bigEndian 1 x.stations ++
         bigEndian 1 x.items.length ++
         x.items.flatMap fun i => bigEndian 1 i.station ++ bigEndian 4 i.offset ++ bigEndian 3 i.u
     | .timing x =>
       bigEndian 4 x.number.toNat ++ bigEndian 4 x.firstSample.toNat ++ time x.time ++
         bigEndian 4 x.u ++ state x.depth x.clock ++ bigEndian 2 x.samples ++
         bigEndian 6 x.periodPs ++ signed 4 (max (-2147483648) (min 2147483647 x.rateDev)) ++
         signed 4 x.gridDev ++ bigEndian 4 x.skipped ++
         bigEndian 1
           (x.gap.toNat + 2 * x.stepped.toNat + 4 * x.coast.toNat + 8 * x.rateOut.toNat)
     | .trigger x => bigEndian 1 x.seq.toNat ++ time x.time ++ bigEndian 4 x.u
     | .status x =>
       bigEndian 1 (match x.cause with | .power => 0 | .pin => 1) ++ state x.depth x.clock ++
         bigEndian 4 x.u ++ signed 4 x.f ++
         (match x.temp with | some q => signed 2 q | none => [0x80, 0x00]) ++
         (match x.bin with | some b => bigEndian 1 b | none => [0xFF]) ++
         bigEndian 1
           (x.anchorValid.toNat + 2 * x.muted.toNat + 4 * x.originFlag.toNat +
             8 * x.defaulted.toNat + 16 * x.clamped.toNat) ++
         bigEndian 1
           (x.alerts.muted.toNat + 2 * x.alerts.config.toNat + 4 * x.alerts.step.toNat +
             8 * x.alerts.coastLong.toNat + 16 * x.alerts.rateOut.toNat +
             32 * x.alerts.recordDrop.toNat + 64 * x.alerts.anchorLost.toNat) ++
         (x.edges.flatMap fun c => bigEndian 4 c.toNat) ++ x.stats.flatMap fun c => bigEndian 2 c.toNat
     | .peer x =>
       bigEndian 1 x.station ++
         bigEndian 1
           (match x.state with | .trial => 1 | .tracked => 2 | .silent => 3 | .barred => 4) ++
         state x.depth x.clock ++ bigEndian 4 x.u ++ bigEndian 1 x.lastSeq.toNat ++
         (match x.offset with
           | some o =>
             [0x01] ++ signed 8 o.theta ++ bigEndian 4 o.leastD ++ bigEndian 4 o.spread ++ bigEndian 4 o.u
           | none => List.replicate 21 0x00) ++
         bigEndian 1 x.records ++ bigEndian 1 x.rejects ++ bigEndian 4 x.age
   ∀ r : Record, (∀ x, r = .status x → x.edges.length = 4 ∧ x.stats.length = 24) →
     let n := match r with
       | .brk _ => 23
       | .coincidence x => 12 + 8 * x.items.length
       | .timing _ => 43
       | .trigger _ => 14
       | .status _ => 79
       | .peer _ => 35
     let covered := [BitVec.ofNat 8 (r.cls + 1), BitVec.ofNat 8 n] ++ payload r
     (payload r).length = n ∧
     r.frame = [0xA5] ++ covered ++ bigEndian 2 (crc16 covered).toNat) ∧
  (∀ s : State,
    s.edgeCounters = [s.cap.refEdges, s.cap.ppsEdges, s.cap.sampleEdges, s.cap.trigEdges] ∧
    s.statCounters =
      [s.cap.spuriousPps, s.cap.spuriousStrobe, s.link.deferred, s.link.skipped, s.link.truncated,
        s.link.crcErr, s.link.formatErr, s.link.echoOverwritten, s.peers.tableFull,
        s.peers.staleEcho, s.peers.negativeDelay, s.peers.delayOver, s.anchor.msgErr,
        s.anchor.unlabelled, s.coinc.noticeDropped, s.coinc.noticeUntracked, s.coinc.coincOverflow,
        s.coinc.lateJoiner, s.port.drops.brk, s.port.drops.coincidence, s.port.drops.timing,
        s.port.drops.trigger, s.port.drops.status, s.port.drops.peer]) ∧
  (∀ s : State, s.link.flight = none → s.linkTxd = true) ∧
  (∀ (s : State) kind ref body, s.link.flight = some ⟨kind, ref, body⟩ →
    s.cfg.linkRate ≤ 10000000 →
    let after := (s.time.k : Int) - ref
    let starts := fun m : Int => roundDiv (m * 20000000) s.cfg.linkRate
    let bit := fun (b : Byte) (j : Nat) =>
      if j = 0 then false else if j = 9 then true else b.getLsbD (j - 1)
    (after < starts (-60) → s.linkTxd = true) ∧
    (∀ i j : Nat, i < 6 → j < 10 → starts (10 * i + j - 60) ≤ after →
      after < starts (10 * i + j - 60 + 1) →
      s.linkTxd = bit ([0x55, 0x55, 0x55, 0x55, 0x2D, 0xD4].getD i 0) j) ∧
    ∀ bytes, body = some bytes →
      (∀ (i j : Nat) byte, bytes[i]? = some byte → j < 10 → starts (10 * i + j) ≤ after →
        after < starts (10 * i + j + 1) → s.linkTxd = bit byte j) ∧
      (starts (10 * bytes.length) ≤ after → s.linkTxd = true)) ∧
  (∀ s : State, s.port.frame = none → s.recTxd = true) ∧
  ∀ (s : State) (f : Frame) (i j : Nat) byte, s.port.frame = some f → f.bytes[i]? = some byte → j < 10 →
    roundDiv ((10 * i + j : Nat) * 20000000) s.cfg.recordRate ≤ (s.time.k : Int) - f.start →
    (s.time.k : Int) - f.start < roundDiv ((10 * i + j + 1 : Nat) * 20000000) s.cfg.recordRate →
    s.recTxd = if j = 0 then false else if j = 9 then true else byte.getLsbD (j - 1)

/-! ## The reset state -/

/-- The state after a power-on reset meets every invariant above. The register before its seed is the
model's choice: log 9. -/
def Obligations.ResetStateIsLegal : Prop :=
  State.reset.time.Legal ∧ State.reset.link.Legal ∧ State.reset.PeersLegal ∧
  State.reset.servo.Legal ∧ State.reset.coinc.Legal ∧ State.reset.port.Legal ∧
  State.reset.temp.Legal

end
end

