-- ==== Sys2Proof/Laws/State.lean ====
section
/-!
SUPPORT. The fields of a state after each plain update, true by `rfl`, so that no proof unfolds a record
update.
-/

namespace Sys2Proof.Machine

variable (s : State)

@[simp] theorem State.withQueue_time (q : List Instr) : (s.withQueue q).time = s.time := rfl
@[simp] theorem State.withQueue_lines (q : List Instr) : (s.withQueue q).lines = s.lines := rfl
@[simp] theorem State.withQueue_cap (q : List Instr) : (s.withQueue q).cap = s.cap := rfl
@[simp] theorem State.withQueue_link (q : List Instr) : (s.withQueue q).link = s.link := rfl
@[simp] theorem State.withQueue_peers (q : List Instr) : (s.withQueue q).peers = s.peers := rfl
@[simp] theorem State.withQueue_comb (q : List Instr) : (s.withQueue q).comb = s.comb := rfl
@[simp] theorem State.withQueue_servo (q : List Instr) : (s.withQueue q).servo = s.servo := rfl
@[simp] theorem State.withQueue_temp (q : List Instr) : (s.withQueue q).temp = s.temp := rfl
@[simp] theorem State.withQueue_anchor (q : List Instr) : (s.withQueue q).anchor = s.anchor := rfl
@[simp] theorem State.withQueue_align (q : List Instr) : (s.withQueue q).align = s.align := rfl
@[simp] theorem State.withQueue_coinc (q : List Instr) : (s.withQueue q).coinc = s.coinc := rfl
@[simp] theorem State.withQueue_port (q : List Instr) : (s.withQueue q).port = s.port := rfl
@[simp] theorem State.withQueue_startup (q : List Instr) : (s.withQueue q).startup = s.startup := rfl
@[simp] theorem State.withQueue_pending (q : List Instr) : (s.withQueue q).pending = q := rfl

@[simp] theorem State.withLink_time (f : MarkLink → MarkLink) : (s.withLink f).time = s.time := rfl
@[simp] theorem State.withLink_lines (f : MarkLink → MarkLink) : (s.withLink f).lines = s.lines := rfl
@[simp] theorem State.withLink_cap (f : MarkLink → MarkLink) : (s.withLink f).cap = s.cap := rfl
@[simp] theorem State.withLink_link (f : MarkLink → MarkLink) : (s.withLink f).link = f s.link := rfl
@[simp] theorem State.withLink_peers (f : MarkLink → MarkLink) : (s.withLink f).peers = s.peers := rfl
@[simp] theorem State.withLink_comb (f : MarkLink → MarkLink) : (s.withLink f).comb = s.comb := rfl
@[simp] theorem State.withLink_servo (f : MarkLink → MarkLink) : (s.withLink f).servo = s.servo := rfl
@[simp] theorem State.withLink_temp (f : MarkLink → MarkLink) : (s.withLink f).temp = s.temp := rfl
@[simp] theorem State.withLink_anchor (f : MarkLink → MarkLink) : (s.withLink f).anchor = s.anchor := rfl
@[simp] theorem State.withLink_align (f : MarkLink → MarkLink) : (s.withLink f).align = s.align := rfl
@[simp] theorem State.withLink_coinc (f : MarkLink → MarkLink) : (s.withLink f).coinc = s.coinc := rfl
@[simp] theorem State.withLink_port (f : MarkLink → MarkLink) : (s.withLink f).port = s.port := rfl
@[simp] theorem State.withLink_startup (f : MarkLink → MarkLink) : (s.withLink f).startup = s.startup := rfl
@[simp] theorem State.withLink_pending (f : MarkLink → MarkLink) : (s.withLink f).pending = s.pending := rfl

@[simp] theorem State.withServo_time (f : Servo → Servo) : (s.withServo f).time = s.time := rfl
@[simp] theorem State.withServo_lines (f : Servo → Servo) : (s.withServo f).lines = s.lines := rfl
@[simp] theorem State.withServo_cap (f : Servo → Servo) : (s.withServo f).cap = s.cap := rfl
@[simp] theorem State.withServo_link (f : Servo → Servo) : (s.withServo f).link = s.link := rfl
@[simp] theorem State.withServo_peers (f : Servo → Servo) : (s.withServo f).peers = s.peers := rfl
@[simp] theorem State.withServo_comb (f : Servo → Servo) : (s.withServo f).comb = s.comb := rfl
@[simp] theorem State.withServo_servo (f : Servo → Servo) : (s.withServo f).servo = f s.servo := rfl
@[simp] theorem State.withServo_temp (f : Servo → Servo) : (s.withServo f).temp = s.temp := rfl
@[simp] theorem State.withServo_anchor (f : Servo → Servo) : (s.withServo f).anchor = s.anchor := rfl
@[simp] theorem State.withServo_align (f : Servo → Servo) : (s.withServo f).align = s.align := rfl
@[simp] theorem State.withServo_coinc (f : Servo → Servo) : (s.withServo f).coinc = s.coinc := rfl
@[simp] theorem State.withServo_port (f : Servo → Servo) : (s.withServo f).port = s.port := rfl
@[simp] theorem State.withServo_startup (f : Servo → Servo) : (s.withServo f).startup = s.startup := rfl
@[simp] theorem State.withServo_pending (f : Servo → Servo) : (s.withServo f).pending = s.pending := rfl

@[simp] theorem State.withCoinc_time (f : Coincidence → Coincidence) : (s.withCoinc f).time = s.time := rfl
@[simp] theorem State.withCoinc_lines (f : Coincidence → Coincidence) : (s.withCoinc f).lines = s.lines := rfl
@[simp] theorem State.withCoinc_cap (f : Coincidence → Coincidence) : (s.withCoinc f).cap = s.cap := rfl
@[simp] theorem State.withCoinc_link (f : Coincidence → Coincidence) : (s.withCoinc f).link = s.link := rfl
@[simp] theorem State.withCoinc_peers (f : Coincidence → Coincidence) : (s.withCoinc f).peers = s.peers := rfl
@[simp] theorem State.withCoinc_comb (f : Coincidence → Coincidence) : (s.withCoinc f).comb = s.comb := rfl
@[simp] theorem State.withCoinc_servo (f : Coincidence → Coincidence) : (s.withCoinc f).servo = s.servo := rfl
@[simp] theorem State.withCoinc_temp (f : Coincidence → Coincidence) : (s.withCoinc f).temp = s.temp := rfl
@[simp] theorem State.withCoinc_anchor (f : Coincidence → Coincidence) : (s.withCoinc f).anchor = s.anchor := rfl
@[simp] theorem State.withCoinc_align (f : Coincidence → Coincidence) : (s.withCoinc f).align = s.align := rfl
@[simp] theorem State.withCoinc_coinc (f : Coincidence → Coincidence) : (s.withCoinc f).coinc = f s.coinc := rfl
@[simp] theorem State.withCoinc_port (f : Coincidence → Coincidence) : (s.withCoinc f).port = s.port := rfl
@[simp] theorem State.withCoinc_startup (f : Coincidence → Coincidence) : (s.withCoinc f).startup = s.startup := rfl
@[simp] theorem State.withCoinc_pending (f : Coincidence → Coincidence) : (s.withCoinc f).pending = s.pending := rfl

@[simp] theorem State.withAlign_time (f : Aligner → Aligner) : (s.withAlign f).time = s.time := rfl
@[simp] theorem State.withAlign_lines (f : Aligner → Aligner) : (s.withAlign f).lines = s.lines := rfl
@[simp] theorem State.withAlign_cap (f : Aligner → Aligner) : (s.withAlign f).cap = s.cap := rfl
@[simp] theorem State.withAlign_link (f : Aligner → Aligner) : (s.withAlign f).link = s.link := rfl
@[simp] theorem State.withAlign_peers (f : Aligner → Aligner) : (s.withAlign f).peers = s.peers := rfl
@[simp] theorem State.withAlign_comb (f : Aligner → Aligner) : (s.withAlign f).comb = s.comb := rfl
@[simp] theorem State.withAlign_servo (f : Aligner → Aligner) : (s.withAlign f).servo = s.servo := rfl
@[simp] theorem State.withAlign_temp (f : Aligner → Aligner) : (s.withAlign f).temp = s.temp := rfl
@[simp] theorem State.withAlign_anchor (f : Aligner → Aligner) : (s.withAlign f).anchor = s.anchor := rfl
@[simp] theorem State.withAlign_align (f : Aligner → Aligner) : (s.withAlign f).align = f s.align := rfl
@[simp] theorem State.withAlign_coinc (f : Aligner → Aligner) : (s.withAlign f).coinc = s.coinc := rfl
@[simp] theorem State.withAlign_port (f : Aligner → Aligner) : (s.withAlign f).port = s.port := rfl
@[simp] theorem State.withAlign_startup (f : Aligner → Aligner) : (s.withAlign f).startup = s.startup := rfl
@[simp] theorem State.withAlign_pending (f : Aligner → Aligner) : (s.withAlign f).pending = s.pending := rfl

@[simp] theorem State.withAnchor_time (f : AnchorInput → AnchorInput) : (s.withAnchor f).time = s.time := rfl
@[simp] theorem State.withAnchor_lines (f : AnchorInput → AnchorInput) : (s.withAnchor f).lines = s.lines := rfl
@[simp] theorem State.withAnchor_cap (f : AnchorInput → AnchorInput) : (s.withAnchor f).cap = s.cap := rfl
@[simp] theorem State.withAnchor_link (f : AnchorInput → AnchorInput) : (s.withAnchor f).link = s.link := rfl
@[simp] theorem State.withAnchor_peers (f : AnchorInput → AnchorInput) : (s.withAnchor f).peers = s.peers := rfl
@[simp] theorem State.withAnchor_comb (f : AnchorInput → AnchorInput) : (s.withAnchor f).comb = s.comb := rfl
@[simp] theorem State.withAnchor_servo (f : AnchorInput → AnchorInput) : (s.withAnchor f).servo = s.servo := rfl
@[simp] theorem State.withAnchor_temp (f : AnchorInput → AnchorInput) : (s.withAnchor f).temp = s.temp := rfl
@[simp] theorem State.withAnchor_anchor (f : AnchorInput → AnchorInput) : (s.withAnchor f).anchor = f s.anchor := rfl
@[simp] theorem State.withAnchor_align (f : AnchorInput → AnchorInput) : (s.withAnchor f).align = s.align := rfl
@[simp] theorem State.withAnchor_coinc (f : AnchorInput → AnchorInput) : (s.withAnchor f).coinc = s.coinc := rfl
@[simp] theorem State.withAnchor_port (f : AnchorInput → AnchorInput) : (s.withAnchor f).port = s.port := rfl
@[simp] theorem State.withAnchor_startup (f : AnchorInput → AnchorInput) : (s.withAnchor f).startup = s.startup := rfl
@[simp] theorem State.withAnchor_pending (f : AnchorInput → AnchorInput) : (s.withAnchor f).pending = s.pending := rfl

@[simp] theorem State.withCap_time (f : CaptureUnit → CaptureUnit) : (s.withCap f).time = s.time := rfl
@[simp] theorem State.withCap_lines (f : CaptureUnit → CaptureUnit) : (s.withCap f).lines = s.lines := rfl
@[simp] theorem State.withCap_cap (f : CaptureUnit → CaptureUnit) : (s.withCap f).cap = f s.cap := rfl
@[simp] theorem State.withCap_link (f : CaptureUnit → CaptureUnit) : (s.withCap f).link = s.link := rfl
@[simp] theorem State.withCap_peers (f : CaptureUnit → CaptureUnit) : (s.withCap f).peers = s.peers := rfl
@[simp] theorem State.withCap_comb (f : CaptureUnit → CaptureUnit) : (s.withCap f).comb = s.comb := rfl
@[simp] theorem State.withCap_servo (f : CaptureUnit → CaptureUnit) : (s.withCap f).servo = s.servo := rfl
@[simp] theorem State.withCap_temp (f : CaptureUnit → CaptureUnit) : (s.withCap f).temp = s.temp := rfl
@[simp] theorem State.withCap_anchor (f : CaptureUnit → CaptureUnit) : (s.withCap f).anchor = s.anchor := rfl
@[simp] theorem State.withCap_align (f : CaptureUnit → CaptureUnit) : (s.withCap f).align = s.align := rfl
@[simp] theorem State.withCap_coinc (f : CaptureUnit → CaptureUnit) : (s.withCap f).coinc = s.coinc := rfl
@[simp] theorem State.withCap_port (f : CaptureUnit → CaptureUnit) : (s.withCap f).port = s.port := rfl
@[simp] theorem State.withCap_startup (f : CaptureUnit → CaptureUnit) : (s.withCap f).startup = s.startup := rfl
@[simp] theorem State.withCap_pending (f : CaptureUnit → CaptureUnit) : (s.withCap f).pending = s.pending := rfl

@[simp] theorem State.latch_time (a : Alert) : (s.latch a).time = s.time := rfl
@[simp] theorem State.latch_lines (a : Alert) : (s.latch a).lines = s.lines := rfl
@[simp] theorem State.latch_cap (a : Alert) : (s.latch a).cap = s.cap := rfl
@[simp] theorem State.latch_link (a : Alert) : (s.latch a).link = s.link := rfl
@[simp] theorem State.latch_peers (a : Alert) : (s.latch a).peers = s.peers := rfl
@[simp] theorem State.latch_comb (a : Alert) : (s.latch a).comb = s.comb := rfl
@[simp] theorem State.latch_servo (a : Alert) : (s.latch a).servo = s.servo := rfl
@[simp] theorem State.latch_temp (a : Alert) : (s.latch a).temp = s.temp := rfl
@[simp] theorem State.latch_anchor (a : Alert) : (s.latch a).anchor = s.anchor := rfl
@[simp] theorem State.latch_align (a : Alert) : (s.latch a).align = s.align := rfl
@[simp] theorem State.latch_coinc (a : Alert) : (s.latch a).coinc = s.coinc := rfl
@[simp] theorem State.latch_port (a : Alert) : (s.latch a).port = s.port.latch a := rfl
@[simp] theorem State.latch_startup (a : Alert) : (s.latch a).startup = s.startup := rfl
@[simp] theorem State.latch_pending (a : Alert) : (s.latch a).pending = s.pending := rfl

@[simp] theorem State.arrive_time (r : Record) : (s.arrive r).time = s.time := rfl
@[simp] theorem State.arrive_lines (r : Record) : (s.arrive r).lines = s.lines := rfl
@[simp] theorem State.arrive_cap (r : Record) : (s.arrive r).cap = s.cap := rfl
@[simp] theorem State.arrive_link (r : Record) : (s.arrive r).link = s.link := rfl
@[simp] theorem State.arrive_peers (r : Record) : (s.arrive r).peers = s.peers := rfl
@[simp] theorem State.arrive_comb (r : Record) : (s.arrive r).comb = s.comb := rfl
@[simp] theorem State.arrive_servo (r : Record) : (s.arrive r).servo = s.servo := rfl
@[simp] theorem State.arrive_temp (r : Record) : (s.arrive r).temp = s.temp := rfl
@[simp] theorem State.arrive_anchor (r : Record) : (s.arrive r).anchor = s.anchor := rfl
@[simp] theorem State.arrive_align (r : Record) : (s.arrive r).align = s.align := rfl
@[simp] theorem State.arrive_coinc (r : Record) : (s.arrive r).coinc = s.coinc := rfl
@[simp] theorem State.arrive_port (r : Record) : (s.arrive r).port = s.port.arrive s.k s.ended r := rfl
@[simp] theorem State.arrive_startup (r : Record) : (s.arrive r).startup = s.startup := rfl
@[simp] theorem State.arrive_pending (r : Record) : (s.arrive r).pending = s.pending := rfl

@[simp] theorem State.setF_time (v : Int) : (s.setF v).time = s.time.setF v := rfl
@[simp] theorem State.setF_lines (v : Int) : (s.setF v).lines = s.lines := rfl
@[simp] theorem State.setF_cap (v : Int) : (s.setF v).cap = s.cap := rfl
@[simp] theorem State.setF_link (v : Int) : (s.setF v).link = s.link := rfl
@[simp] theorem State.setF_peers (v : Int) : (s.setF v).peers = s.peers := rfl
@[simp] theorem State.setF_comb (v : Int) : (s.setF v).comb = s.comb := rfl
@[simp] theorem State.setF_servo (v : Int) : (s.setF v).servo = s.servo := rfl
@[simp] theorem State.setF_temp (v : Int) : (s.setF v).temp = s.temp := rfl
@[simp] theorem State.setF_anchor (v : Int) : (s.setF v).anchor = s.anchor := rfl
@[simp] theorem State.setF_align (v : Int) : (s.setF v).align = s.align := rfl
@[simp] theorem State.setF_coinc (v : Int) : (s.setF v).coinc = s.coinc := rfl
@[simp] theorem State.setF_port (v : Int) : (s.setF v).port = s.port := rfl
@[simp] theorem State.setF_startup (v : Int) : (s.setF v).startup = s.startup := rfl
@[simp] theorem State.setF_pending (v : Int) : (s.setF v).pending = s.pending := rfl

@[simp] theorem State.setP_time (v : Int) : (s.setP v).time = s.time.setP v := rfl
@[simp] theorem State.setP_lines (v : Int) : (s.setP v).lines = s.lines := rfl
@[simp] theorem State.setP_cap (v : Int) : (s.setP v).cap = s.cap := rfl
@[simp] theorem State.setP_link (v : Int) : (s.setP v).link = s.link := rfl
@[simp] theorem State.setP_peers (v : Int) : (s.setP v).peers = s.peers := rfl
@[simp] theorem State.setP_comb (v : Int) : (s.setP v).comb = s.comb := rfl
@[simp] theorem State.setP_servo (v : Int) : (s.setP v).servo = s.servo := rfl
@[simp] theorem State.setP_temp (v : Int) : (s.setP v).temp = s.temp := rfl
@[simp] theorem State.setP_anchor (v : Int) : (s.setP v).anchor = s.anchor := rfl
@[simp] theorem State.setP_align (v : Int) : (s.setP v).align = s.align := rfl
@[simp] theorem State.setP_coinc (v : Int) : (s.setP v).coinc = s.coinc := rfl
@[simp] theorem State.setP_port (v : Int) : (s.setP v).port = s.port := rfl
@[simp] theorem State.setP_startup (v : Int) : (s.setP v).startup = s.startup := rfl
@[simp] theorem State.setP_pending (v : Int) : (s.setP v).pending = s.pending := rfl

@[simp] theorem State.slew_time (v : Int) : (s.slew v).time = (s.time.setP (slewP s.cfg v)).setF (slewF s.cfg s.time.f v) := rfl
@[simp] theorem State.slew_lines (v : Int) : (s.slew v).lines = s.lines := rfl
@[simp] theorem State.slew_cap (v : Int) : (s.slew v).cap = s.cap := rfl
@[simp] theorem State.slew_link (v : Int) : (s.slew v).link = s.link := rfl
@[simp] theorem State.slew_peers (v : Int) : (s.slew v).peers = s.peers := rfl
@[simp] theorem State.slew_comb (v : Int) : (s.slew v).comb = s.comb := rfl
@[simp] theorem State.slew_servo (v : Int) : (s.slew v).servo = s.servo := rfl
@[simp] theorem State.slew_temp (v : Int) : (s.slew v).temp = s.temp := rfl
@[simp] theorem State.slew_anchor (v : Int) : (s.slew v).anchor = s.anchor := rfl
@[simp] theorem State.slew_align (v : Int) : (s.slew v).align = s.align := rfl
@[simp] theorem State.slew_coinc (v : Int) : (s.slew v).coinc = s.coinc := rfl
@[simp] theorem State.slew_port (v : Int) : (s.slew v).port = s.port := rfl
@[simp] theorem State.slew_startup (v : Int) : (s.slew v).startup = s.startup := rfl
@[simp] theorem State.slew_pending (v : Int) : (s.slew v).pending = s.pending := rfl

@[simp] theorem State.requestStep_time (r : BreakReason) (v : Int) : (s.requestStep r v).time = s.time.request s.link.flight.isSome v := rfl
@[simp] theorem State.requestStep_lines (r : BreakReason) (v : Int) : (s.requestStep r v).lines = s.lines := rfl
@[simp] theorem State.requestStep_cap (r : BreakReason) (v : Int) : (s.requestStep r v).cap = s.cap := rfl
@[simp] theorem State.requestStep_link (r : BreakReason) (v : Int) : (s.requestStep r v).link = s.link := rfl
@[simp] theorem State.requestStep_peers (r : BreakReason) (v : Int) : (s.requestStep r v).peers = s.peers := rfl
@[simp] theorem State.requestStep_comb (r : BreakReason) (v : Int) : (s.requestStep r v).comb = s.comb := rfl
@[simp] theorem State.requestStep_servo (r : BreakReason) (v : Int) : (s.requestStep r v).servo = { s.servo with reason := some r } := rfl
@[simp] theorem State.requestStep_temp (r : BreakReason) (v : Int) : (s.requestStep r v).temp = s.temp := rfl
@[simp] theorem State.requestStep_anchor (r : BreakReason) (v : Int) : (s.requestStep r v).anchor = s.anchor := rfl
@[simp] theorem State.requestStep_align (r : BreakReason) (v : Int) : (s.requestStep r v).align = s.align := rfl
@[simp] theorem State.requestStep_coinc (r : BreakReason) (v : Int) : (s.requestStep r v).coinc = s.coinc := rfl
@[simp] theorem State.requestStep_port (r : BreakReason) (v : Int) : (s.requestStep r v).port = s.port := rfl
@[simp] theorem State.requestStep_startup (r : BreakReason) (v : Int) : (s.requestStep r v).startup = s.startup := rfl
@[simp] theorem State.requestStep_pending (r : BreakReason) (v : Int) : (s.requestStep r v).pending = s.pending := rfl

@[simp] theorem State.emptySlot_time (i : Nat) : (s.emptySlot i).time = s.time := rfl
@[simp] theorem State.emptySlot_lines (i : Nat) : (s.emptySlot i).lines = s.lines := rfl
@[simp] theorem State.emptySlot_cap (i : Nat) : (s.emptySlot i).cap = s.cap := rfl
@[simp] theorem State.emptySlot_link (i : Nat) : (s.emptySlot i).link = s.link := rfl
@[simp] theorem State.emptySlot_peers (i : Nat) : (s.emptySlot i).peers = s.peers.put i none := rfl
@[simp] theorem State.emptySlot_comb (i : Nat) : (s.emptySlot i).comb = s.comb := rfl
@[simp] theorem State.emptySlot_servo (i : Nat) : (s.emptySlot i).servo = s.servo := rfl
@[simp] theorem State.emptySlot_temp (i : Nat) : (s.emptySlot i).temp = s.temp := rfl
@[simp] theorem State.emptySlot_anchor (i : Nat) : (s.emptySlot i).anchor = s.anchor := rfl
@[simp] theorem State.emptySlot_align (i : Nat) : (s.emptySlot i).align = s.align := rfl
@[simp] theorem State.emptySlot_coinc (i : Nat) : (s.emptySlot i).coinc = s.coinc := rfl
@[simp] theorem State.emptySlot_port (i : Nat) : (s.emptySlot i).port = s.port := rfl
@[simp] theorem State.emptySlot_startup (i : Nat) : (s.emptySlot i).startup = s.startup := rfl
@[simp] theorem State.emptySlot_pending (i : Nat) : (s.emptySlot i).pending = s.pending := rfl

@[simp] theorem State.modifyEntry_time (i : Nat) (f : PeerEntry → PeerEntry) : (s.modifyEntry i f).time = s.time := rfl
@[simp] theorem State.modifyEntry_lines (i : Nat) (f : PeerEntry → PeerEntry) : (s.modifyEntry i f).lines = s.lines := rfl
@[simp] theorem State.modifyEntry_cap (i : Nat) (f : PeerEntry → PeerEntry) : (s.modifyEntry i f).cap = s.cap := rfl
@[simp] theorem State.modifyEntry_link (i : Nat) (f : PeerEntry → PeerEntry) : (s.modifyEntry i f).link = s.link := rfl
@[simp] theorem State.modifyEntry_peers (i : Nat) (f : PeerEntry → PeerEntry) : (s.modifyEntry i f).peers = s.peers.put i ((s.peers.entry i).map f) := rfl
@[simp] theorem State.modifyEntry_comb (i : Nat) (f : PeerEntry → PeerEntry) : (s.modifyEntry i f).comb = s.comb := rfl
@[simp] theorem State.modifyEntry_servo (i : Nat) (f : PeerEntry → PeerEntry) : (s.modifyEntry i f).servo = s.servo := rfl
@[simp] theorem State.modifyEntry_temp (i : Nat) (f : PeerEntry → PeerEntry) : (s.modifyEntry i f).temp = s.temp := rfl
@[simp] theorem State.modifyEntry_anchor (i : Nat) (f : PeerEntry → PeerEntry) : (s.modifyEntry i f).anchor = s.anchor := rfl
@[simp] theorem State.modifyEntry_align (i : Nat) (f : PeerEntry → PeerEntry) : (s.modifyEntry i f).align = s.align := rfl
@[simp] theorem State.modifyEntry_coinc (i : Nat) (f : PeerEntry → PeerEntry) : (s.modifyEntry i f).coinc = s.coinc := rfl
@[simp] theorem State.modifyEntry_port (i : Nat) (f : PeerEntry → PeerEntry) : (s.modifyEntry i f).port = s.port := rfl
@[simp] theorem State.modifyEntry_startup (i : Nat) (f : PeerEntry → PeerEntry) : (s.modifyEntry i f).startup = s.startup := rfl
@[simp] theorem State.modifyEntry_pending (i : Nat) (f : PeerEntry → PeerEntry) : (s.modifyEntry i f).pending = s.pending := rfl

@[simp] theorem State.takePps_time : (s.takePps).time = s.time := rfl
@[simp] theorem State.takePps_cap : (s.takePps).cap = s.cap := rfl
@[simp] theorem State.takePps_link : (s.takePps).link = s.link := rfl
@[simp] theorem State.takePps_peers : (s.takePps).peers = s.peers := rfl
@[simp] theorem State.takePps_comb : (s.takePps).comb = s.comb := rfl
@[simp] theorem State.takePps_servo : (s.takePps).servo = s.servo := rfl
@[simp] theorem State.takePps_temp : (s.takePps).temp = s.temp := rfl
@[simp] theorem State.takePps_anchor : (s.takePps).anchor = s.anchor := rfl
@[simp] theorem State.takePps_align : (s.takePps).align = s.align := rfl
@[simp] theorem State.takePps_coinc : (s.takePps).coinc = s.coinc := rfl
@[simp] theorem State.takePps_port : (s.takePps).port = s.port := rfl
@[simp] theorem State.takePps_startup : (s.takePps).startup = s.startup := rfl
@[simp] theorem State.takePps_pending : (s.takePps).pending = s.pending := rfl

@[simp] theorem State.takeStrobe_time : (s.takeStrobe).time = s.time := rfl
@[simp] theorem State.takeStrobe_cap : (s.takeStrobe).cap = s.cap := rfl
@[simp] theorem State.takeStrobe_link : (s.takeStrobe).link = s.link := rfl
@[simp] theorem State.takeStrobe_peers : (s.takeStrobe).peers = s.peers := rfl
@[simp] theorem State.takeStrobe_comb : (s.takeStrobe).comb = s.comb := rfl
@[simp] theorem State.takeStrobe_servo : (s.takeStrobe).servo = s.servo := rfl
@[simp] theorem State.takeStrobe_temp : (s.takeStrobe).temp = s.temp := rfl
@[simp] theorem State.takeStrobe_anchor : (s.takeStrobe).anchor = s.anchor := rfl
@[simp] theorem State.takeStrobe_align : (s.takeStrobe).align = s.align := rfl
@[simp] theorem State.takeStrobe_coinc : (s.takeStrobe).coinc = s.coinc := rfl
@[simp] theorem State.takeStrobe_port : (s.takeStrobe).port = s.port := rfl
@[simp] theorem State.takeStrobe_startup : (s.takeStrobe).startup = s.startup := rfl
@[simp] theorem State.takeStrobe_pending : (s.takeStrobe).pending = s.pending := rfl

@[simp] theorem State.takeTrig_time : (s.takeTrig).time = s.time := rfl
@[simp] theorem State.takeTrig_cap : (s.takeTrig).cap = s.cap := rfl
@[simp] theorem State.takeTrig_link : (s.takeTrig).link = s.link := rfl
@[simp] theorem State.takeTrig_peers : (s.takeTrig).peers = s.peers := rfl
@[simp] theorem State.takeTrig_comb : (s.takeTrig).comb = s.comb := rfl
@[simp] theorem State.takeTrig_servo : (s.takeTrig).servo = s.servo := rfl
@[simp] theorem State.takeTrig_temp : (s.takeTrig).temp = s.temp := rfl
@[simp] theorem State.takeTrig_anchor : (s.takeTrig).anchor = s.anchor := rfl
@[simp] theorem State.takeTrig_align : (s.takeTrig).align = s.align := rfl
@[simp] theorem State.takeTrig_coinc : (s.takeTrig).coinc = s.coinc := rfl
@[simp] theorem State.takeTrig_port : (s.takeTrig).port = s.port := rfl
@[simp] theorem State.takeTrig_startup : (s.takeTrig).startup = s.startup := rfl
@[simp] theorem State.takeTrig_pending : (s.takeTrig).pending = s.pending := rfl

end Sys2Proof.Machine
end

