-- ==== Sys2Proof/Laws/Arith.lean ====
section
/-!
SUPPORT. The laws of the shared arithmetic: time values, limits, rounding, bytes and CRCs.
-/

namespace Sys2Proof.Machine

/-! ## Time values -/

theorem TimeVal.units_lt (t : TimeVal) : t.units < Config.timeRange := by
  have hs := t.secs.isLt; have hn := t.ns.isLt; have hf := t.frac.isLt
  simp only [TimeVal.units, TimeVal.nsCount, Config.timeRange, Config.secondsRange,
    Config.nsPerSecond, Config.unitsPerNs]
  omega

theorem TimeVal.units_ofUnits (u : Nat) : (TimeVal.ofUnits u).units = u % Config.timeRange := by
  simp only [TimeVal.units, TimeVal.nsCount, TimeVal.ofUnits, Fin.ofNat, Config.timeRange,
    Config.secondsRange, Config.nsPerSecond, Config.unitsPerNs]
  omega

theorem TimeVal.ofUnits_units (t : TimeVal) : TimeVal.ofUnits t.units = t := by
  obtain ⟨⟨a, ha⟩, ⟨b, hb⟩, ⟨c, hc⟩⟩ := t
  simp only [TimeVal.units, TimeVal.nsCount, TimeVal.ofUnits, Fin.ofNat,
    Config.nsPerSecond, Config.unitsPerNs, TimeVal.mk.injEq, Fin.mk.injEq]
  omega

theorem TimeVal.units_inj {a b : TimeVal} (h : a.units = b.units) : a = b := by
  rw [← a.ofUnits_units, ← b.ofUnits_units, h]

theorem TimeVal.units_zero : TimeVal.zero.units = 0 := rfl

theorem TimeVal.largest_eq : TimeVal.largest = ⟨1099511627775, 999999999, 4294967295⟩ := by
  decide

theorem TimeVal.units_largest : TimeVal.largest.units = Config.timeRange - 1 := by
  rw [TimeVal.largest, TimeVal.units_ofUnits]; decide

theorem TimeVal.nsCount_eq (t : TimeVal) : t.nsCount = t.units / Config.unitsPerNs := by
  have hf := t.frac.isLt
  simp only [TimeVal.units, Config.unitsPerNs]; omega

theorem TimeVal.nsCount_ofNs (n : Nat) : (TimeVal.ofNs n).nsCount = n % (2 ^ 40 * 10 ^ 9) := by
  simp only [TimeVal.nsCount, TimeVal.ofNs, TimeVal.ofUnits, Fin.ofNat, Config.nsPerSecond,
    Config.unitsPerNs]
  omega

theorem TimeVal.frac_ofNs (n : Nat) : (TimeVal.ofNs n).frac = 0 := by
  simp only [TimeVal.ofNs, TimeVal.ofUnits, Fin.ofNat, Config.unitsPerNs]
  apply Fin.ext; simp

/-! ## Limits and rounding -/

theorem clampSym_bounds {l : Int} (hl : 0 ≤ l) (x : Int) : -l ≤ clampSym l x ∧ clampSym l x ≤ l := by
  unfold clampSym; omega

theorem clampSym_of_within {l x : Int} (h1 : -l ≤ x) (h2 : x ≤ l) : clampSym l x = x := by
  unfold clampSym; omega

theorem holdU_le (u : Nat) : holdU u ≤ Config.uMax := by unfold holdU; omega

theorem holdTime_le (x : Int) : holdTime x ≤ Config.hold62 := by unfold holdTime; omega

/-- The rounded quotient lies within half a divisor of the exact one. -/
theorem roundDiv_near (n : Int) {d : Nat} (hd : 0 < d) :
    2 * (roundDiv n d * d - n).natAbs ≤ d := by
  unfold roundDiv
  have h : (2 * n.natAbs + d) / (2 * d) * (2 * d) ≤ 2 * n.natAbs + d ∧
      2 * n.natAbs + d < ((2 * n.natAbs + d) / (2 * d) + 1) * (2 * d) :=
    ⟨Nat.div_mul_le_self _ _, Nat.lt_mul_of_div_lt (Nat.lt_succ_self _) (by omega)⟩
  generalize (2 * n.natAbs + d) / (2 * d) = q at h
  have e1 : q * (2 * d) = 2 * (q * d) := by ring
  have e2 : (q + 1) * (2 * d) = 2 * (q * d) + 2 * d := by ring
  rw [e1, e2] at h
  dsimp only
  split
  · rw [show (-(q : Int)) * (d : Int) = -((q * d : Nat) : Int) by push_cast; ring]; omega
  · rw [show (q : Int) * (d : Int) = ((q * d : Nat) : Int) by push_cast; ring]; omega

/-- A half is rounded away from zero. -/
theorem roundDiv_half (n : Int) {d : Nat} (hd : 0 < d)
    (h : 2 * (roundDiv n d * d - n).natAbs = d) : n.natAbs < (roundDiv n d).natAbs * d := by
  unfold roundDiv at h ⊢
  have hq : (2 * n.natAbs + d) / (2 * d) * (2 * d) ≤ 2 * n.natAbs + d ∧
      2 * n.natAbs + d < ((2 * n.natAbs + d) / (2 * d) + 1) * (2 * d) :=
    ⟨Nat.div_mul_le_self _ _, Nat.lt_mul_of_div_lt (Nat.lt_succ_self _) (by omega)⟩
  generalize (2 * n.natAbs + d) / (2 * d) = q at h hq ⊢
  have e1 : q * (2 * d) = 2 * (q * d) := by ring
  have e2 : (q + 1) * (2 * d) = 2 * (q * d) + 2 * d := by ring
  rw [e1, e2] at hq
  dsimp only at h ⊢
  split at h
  · rw [show (-(q : Int)) * (d : Int) = -((q * d : Nat) : Int) by push_cast; ring] at h
    simp only [*, if_true, Int.natAbs_neg, Int.natAbs_natCast]; omega
  · rw [show (q : Int) * (d : Int) = ((q * d : Nat) : Int) by push_cast; ring] at h
    simp only [*, if_false, Int.natAbs_natCast]; omega

theorem roundDiv_ofNat (n d : Nat) : roundDiv (n : Int) d = ((2 * n + d) / (2 * d) : Nat) := by
  unfold roundDiv; simp

/-! ## Bytes -/

theorem beBytes_length (n v : Nat) : (beBytes n v).length = n := by
  induction n generalizing v with
  | zero => rfl
  | succ n ih => simp [beBytes, ih]

theorem timeBytes_length (t : Stamp) : (timeBytes t).length = 9 := by
  simp [timeBytes, beBytes_length]

theorem signedBytes_length (n : Nat) (v : Int) : (signedBytes n v).length = n := beBytes_length _ _

theorem beNat_snoc (bs : List Byte) (b : Byte) : beNat (bs ++ [b]) = beNat bs * 256 + b.toNat := by
  simp [beNat, List.foldl_append]

theorem beNat_beBytes (n v : Nat) : beNat (beBytes n v) = v % 256 ^ n := by
  induction n generalizing v with
  | zero => simp [beBytes, beNat, Nat.mod_one]
  | succ n ih =>
    rw [beBytes, beNat_snoc, ih, BitVec.toNat_ofNat,
      show (256 : Nat) ^ (n + 1) = 256 * 256 ^ n from pow_succ' 256 n, Nat.mod_mul]
    norm_num; ring

/-- A field read back from a list that starts with other bytes. -/
theorem field_append {a b c : List Byte} {i n : Nat} (hi : a.length = i) (hn : b.length = n) :
    field (a ++ (b ++ c)) i n = beNat b := by
  unfold field
  rw [List.drop_append_of_le_length (by omega), List.drop_of_length_le (by omega),
    List.nil_append, List.take_append_of_le_length (by omega), List.take_of_length_le (by omega)]

end Sys2Proof.Machine
end

