-- ==== Sys2Proof/Laws/Due.lean ====
section
/-!
SUPPORT. When each timed command is due, as a proposition, so that no proof unfolds the test. Rewrite with
these rather than by `decide`: the kernel must not evaluate a comparison of an open term with a large
numeral.
-/

namespace Sys2Proof.Machine

variable (s : State)

theorem State.afterEnd_iff : s.afterEnd = true ↔ ∃ e, s.startup.endK = some e ∧ e < s.time.k := by
  unfold State.afterEnd State.k
  cases s.startup.endK <;> simp

theorem TimeScale.stepDue_iff (ts : TimeScale) :
    ts.stepDue = true ↔ ∃ a d, ts.step = some ⟨a, some d⟩ ∧ d ≤ ts.k := by
  unfold TimeScale.stepDue
  cases h : ts.step with
  | none => simp
  | some p =>
    obtain ⟨a, d⟩ := p
    cases d with
    | none => simp
    | some d =>
      simp only [decide_eq_true_eq, Option.some.injEq, PendingStep.mk.injEq]
      exact ⟨fun h => ⟨a, d, ⟨rfl, rfl⟩, h⟩, fun ⟨_, _, ⟨_, h1⟩, h2⟩ => h1 ▸ h2⟩

theorem State.settleDue_iff :
    s.settleDue = true ↔ s.startup.settled = false ∧
      ((∃ a, s.startup.abandoned = some a ∧ a + 200 ≤ s.time.k) ∨
        (s.startup.abandoned = none ∧ Config.stopK ≤ s.time.k)) := by
  unfold State.settleDue State.k
  cases s.startup.abandoned <;> simp

theorem State.readEndDue_iff :
    s.readEndDue = true ↔
      s.startup.settled = true ∧ s.startup.endK = none ∧ Config.readEndK ≤ s.time.k := by
  unfold State.readEndDue State.k
  simp [and_assoc]

theorem State.strobeSeen_iff :
    s.strobeSeen = true ↔
      s.lines.edges.sample = true ∧ s.afterEnd = true ∧ s.startup.genMode = false := by
  unfold State.strobeSeen; simp [and_assoc]

theorem State.trigSeen_iff :
    s.trigSeen = true ↔ s.lines.edges.trig = true ∧ s.afterEnd = true := by
  unfold State.trigSeen; simp

theorem State.ppsSeen_iff :
    s.ppsSeen = true ↔ s.lines.edges.pps = true ∧ s.startup.anchorEn = true := by
  unfold State.ppsSeen; simp

theorem State.gapDeadlineDue_iff :
    s.gapDeadlineDue = true ↔
      ∃ b d, s.align.block = some b ∧ s.align.gapDeadline = some d ∧ d ≤ s.time.k := by
  unfold State.gapDeadlineDue State.k
  cases s.align.block <;> cases s.align.gapDeadline <;> simp

theorem State.gridPulseDue_iff :
    s.gridPulseDue = true ↔
      s.startup.genMode = true ∧ s.afterEnd = true ∧ s.align.pulseEnd = none ∧
      s.align.cmdLowFrom + 200 ≤ s.time.k ∧
      ∃ g, s.align.grid = some g ∧ gridReached s.nowT g = true := by
  unfold State.gridPulseDue State.cmdRested State.k
  cases s.align.grid <;> simp [and_assoc]

theorem State.cmdPulseEndDue_iff :
    s.cmdPulseEndDue = true ↔ ∃ e, s.align.pulseEnd = some e ∧ e ≤ s.time.k := by
  unfold State.cmdPulseEndDue State.k
  cases s.align.pulseEnd <;> simp

theorem State.coincPulseEndDue_iff :
    s.coincPulseEndDue = true ↔ ∃ e, s.coinc.pulseEnd = some e ∧ e ≤ s.time.k := by
  unfold State.coincPulseEndDue State.k
  cases s.coinc.pulseEnd <;> simp

theorem State.anchorByteDue_iff :
    s.anchorByteDue = true ↔
      s.startup.anchorEn = true ∧ ∃ b, s.anchor.byteIn = some b ∧ b.complete = true := by
  unfold State.anchorByteDue
  cases s.anchor.byteIn <;> simp

theorem State.anchorGapDue_iff :
    s.anchorGapDue = true ↔
      s.startup.anchorEn = true ∧ s.anchor.byteIn = none ∧
      ∃ bytes edge, s.anchor.rx = .assemble bytes edge ∧ bytes.length < 11 ∧
        edge + gapTicks anchorRate ≤ s.time.k := by
  unfold State.anchorGapDue State.k
  cases s.anchor.rx <;> simp [and_assoc]

theorem State.lossDue_iff :
    s.lossDue = true ↔
      s.startup.anchorEn = true ∧ s.anchor.lossExpired = false ∧
      s.anchor.lossK + 40000000 ≤ s.time.k := by
  unfold State.lossDue State.k
  simp [and_assoc]

theorem State.keyUpDue_iff (kind : MarkKind) :
    s.keyUpDue kind = true ↔ ∃ sl, s.link.slot kind = some sl ∧ sl.keyUp ≤ s.time.k := by
  unfold State.keyUpDue State.k
  cases s.link.slot kind <;> simp

theorem State.listenPeriodEndDue_iff :
    s.listenPeriodEndDue = true ↔ ∃ u, s.link.schedule = .listening u ∧ u ≤ s.time.k := by
  unfold State.listenPeriodEndDue State.k
  cases s.link.schedule <;> simp

theorem State.markIntervalStartDue_iff :
    s.markIntervalStartDue = true ↔ ∃ e, s.link.schedule = .running e ∧ e ≤ s.time.k := by
  unfold State.markIntervalStartDue State.k
  cases s.link.schedule <;> simp

theorem State.referenceInstantDue_iff :
    s.referenceInstantDue = true ↔
      ∃ f, s.link.flight = some f ∧ f.ref ≤ s.time.k ∧ f.body = none := by
  unfold State.referenceInstantDue State.k
  cases s.link.flight <;> simp

theorem State.launchEndDue_iff :
    s.launchEndDue = true ↔
      ∃ kind ref b, s.link.flight = some ⟨kind, ref, some b⟩ ∧
        frameEndTick s.cfg.linkRate ref b.length ≤ s.time.k := by
  unfold State.launchEndDue State.k
  cases h : s.link.flight with
  | none => simp
  | some f =>
    obtain ⟨kind, ref, body⟩ := f
    cases body <;> simp

theorem State.linkEdgeSeen_iff :
    s.linkEdgeSeen = true ↔
      s.lines.edges.link = true ∧ s.afterEnd = true ∧ s.link.flight = none ∧
      s.link.byteIn = none ∧ s.link.rx ≠ .stopped ∧ s.cap.linkPrevK < s.time.k := by
  unfold State.linkEdgeSeen State.k
  simp [and_assoc]

theorem State.linkGap_iff (edge : Nat) :
    s.linkGap edge = true ↔
      s.link.byteIn = none ∧ s.linkEdgeSeen = false ∧
      edge + gapTicks s.cfg.linkRate ≤ s.time.k := by
  unfold State.linkGap State.k
  simp [and_assoc]

theorem State.servoUpdateDue_iff :
    s.servoUpdateDue = true ↔
      0 < s.time.k ∧ s.time.k % s.cfg.markTicks = 0 ∧ s.servo.lastUpdate < s.time.k := by
  unfold State.servoUpdateDue State.k; simp

theorem State.coastGrowthDue_iff :
    s.coastGrowthDue = true ↔
      ∃ c, s.servo.coast = some c ∧ s.servo.clock = .coast ∧ c.startK < s.time.k ∧
        (s.time.k - c.startK) % Config.ticksPerSecond = 0 ∧ c.lastGrowth < s.time.k := by
  unfold State.coastGrowthDue State.k
  cases s.servo.coast <;> simp

theorem State.coastLimitDue_iff :
    s.coastLimitDue = true ↔
      ∃ c, s.servo.coast = some c ∧ s.servo.clock = .coast ∧
        c.startK + s.cfg.coastLimitTicks < s.time.k ∧ c.limitPassed = false := by
  unfold State.coastLimitDue State.k
  cases s.servo.coast <;> simp

theorem State.conversionStartDue_iff :
    s.conversionStartDue = true ↔
      0 < s.time.k ∧ s.time.k % 80000000 = 0 ∧ s.temp.converting = none := by
  unfold State.conversionStartDue State.k; simp

theorem State.conversionCompleteDue_iff :
    s.conversionCompleteDue = true ↔ ∃ k0, s.temp.converting = some k0 ∧ k0 + 20000 ≤ s.time.k := by
  unfold State.conversionCompleteDue State.k
  cases s.temp.converting <;> simp

theorem State.frameEndDue_iff :
    s.frameEndDue = true ↔
      ∃ f, s.port.frame = some f ∧
        frameEndTick s.cfg.recordRate f.start f.bytes.length ≤ s.time.k := by
  unfold State.frameEndDue State.k
  cases s.port.frame <;> simp

theorem State.timerDue_iff (period last : Nat) :
    s.timerDue period last = true ↔
      ∃ e, s.startup.endK = some e ∧ e < s.time.k ∧ (s.time.k - e) % period = 0 ∧
        last < s.time.k := by
  unfold State.timerDue State.k
  cases s.startup.endK <;> simp

theorem stale_iff (now time : Nat) : stale now time = true ↔ time + staleAge < now := by
  unfold stale; rw [decide_eq_true_eq]

theorem tooSoon_iff (spacing k : Nat) (slot : Option Capture) :
    tooSoon spacing k slot = true ↔ ∃ c, slot = some c ∧ k - c.k < spacing := by
  unfold tooSoon
  cases slot <;> simp

end Sys2Proof.Machine
end

