-- ==== Sys2Proof/Laws/Frames.lean ====
section
/-!
SUPPORT. One lemma for each composite operation that says which blocks it can touch: the result is the
argument with those blocks replaced. A field's frame follows by `congrArg`.
-/

namespace Sys2Proof.Machine

/-! ## Servo -/

theorem State.chooseCoastF_touches (s : State) :
    s.chooseCoastF = { s with time := s.chooseCoastF.time } := by
  unfold State.chooseCoastF; split <;> rfl

theorem State.enterCoast_touches (s : State) :
    s.enterCoast =
      { s with
        time := s.enterCoast.time, servo := s.enterCoast.servo, align := s.enterCoast.align } := by
  unfold State.enterCoast; rw [State.chooseCoastF_touches]

theorem servoAct_touches (r : Option Combined) (s : State) :
    servoAct r s =
      { s with
        time := (servoAct r s).time, servo := (servoAct r s).servo
        temp := (servoAct r s).temp, align := (servoAct r s).align } := by
  unfold servoAct
  split
  · unfold updateUnset; split <;> rfl
  · rfl
  · unfold updatePullIn pullInSlew; split <;> rfl
  · unfold updateNone; dsimp only; split
    · rw [State.enterCoast_touches]; rfl
    · rfl
  · unfold updateLocked lockedBreak lockedSlew; dsimp only
    split <;> split <;> rfl
  · unfold updateNone; dsimp only; split
    · rw [State.enterCoast_touches]; rfl
    · rfl
  · unfold updateCoast; split <;> rfl
  · unfold updateCoastNone; rw [State.chooseCoastF_touches]; rfl

/-! ## Combiner -/

theorem reportOne_touches (m : Int) (s : State) (x : Source) :
    reportOne m s x =
      { s with peers := (reportOne m s x).peers, comb := (reportOne m s x).comb } := by
  unfold reportOne; dsimp only; split <;> rfl

theorem reports_touch (m : Int) (xs : List Source) (s : State) :
    xs.foldl (reportOne m) s =
      { s with
        peers := (xs.foldl (reportOne m) s).peers, comb := (xs.foldl (reportOne m) s).comb } := by
  induction xs generalizing s with
  | nil => rfl
  | cons x xs ih =>
    rw [List.foldl_cons, ih, reportOne_touches]

theorem report_touches (xs : List Source) (s : State) :
    report xs s = { s with peers := (report xs s).peers, comb := (report xs s).comb } :=
  reports_touch _ _ _

theorem combinerRun_touches (s : State) :
    (combinerRun s).1 =
      { s with peers := (combinerRun s).1.peers, comb := (combinerRun s).1.comb } := by
  unfold combinerRun; dsimp only; split
  · rfl
  · dsimp only; rw [report_touches]

theorem servoUpdate_touches (s : State) :
    servoUpdate s =
      { s with
        time := (servoUpdate s).time, servo := (servoUpdate s).servo
        temp := (servoUpdate s).temp, align := (servoUpdate s).align
        peers := (servoUpdate s).peers, comb := (servoUpdate s).comb } := by
  unfold servoUpdate; dsimp only
  rw [servoAct_touches, combinerRun_touches]; rfl

theorem conversionComplete_touches (code : Nat) (s : State) :
    conversionComplete code s =
      { s with
        time := (conversionComplete code s).time, temp := s.temp.complete code } := by
  unfold conversionComplete; dsimp only; split
  · rw [State.chooseCoastF_touches]
  · rfl

/-! ## Sending -/

theorem State.enterMuted_touches (s : State) :
    s.enterMuted = { s with link := s.enterMuted.link, port := s.enterMuted.port } := by
  unfold State.enterMuted; split <;> rfl

theorem keyUpCheck_touches (kind : MarkKind) (s : State) :
    keyUpCheck kind s =
      { s with link := (keyUpCheck kind s).link, cap := (keyUpCheck kind s).cap } := by
  unfold keyUpCheck; split
  · split <;> rfl
  · rfl

theorem referenceInstant_touches (s : State) :
    referenceInstant s =
      { s with link := (referenceInstant s).link, coinc := (referenceInstant s).coinc } := by
  unfold referenceInstant; split <;> rfl

/-! ## Coincidence -/

theorem declare_touches (x : CoincEntry) (s : State) :
    declare x s = { s with coinc := (declare x s).coinc, port := (declare x s).port } := rfl

theorem declarationTest_touches (e : CoincEntry) (s : State) :
    declarationTest e s =
      { s with
        coinc := (declarationTest e s).coinc, port := (declarationTest e s).port } := by
  by_cases h : (s.coinc.windows.any fun w => w.has e.time) = true
  · have : declarationTest e s = s.withCoinc fun c =>
      { c with list := c.list.map (claimOrder e.order), lateJoiner := bump c.lateJoiner } := if_pos h
    rw [this]; rfl
  · have : declarationTest e s =
      match windowStart s.cfg.windowNs s.cfg.kc e.time s.coinc.list with
      | some x => declare x s
      | none => s := if_neg h
    rw [this]
    cases windowStart s.cfg.windowNs s.cfg.kc e.time s.coinc.list with
    | none => rfl
    | some x => exact declare_touches x s

theorem insertEntry_touches (station : Nat) (seq : Seq) (time u : Nat) (s : State) :
    insertEntry station seq time u s =
      { s with
        coinc := (insertEntry station seq time u s).coinc
        port := (insertEntry station seq time u s).port } := by
  unfold insertEntry
  generalize stale s.coincT time = late
  generalize newEntry s station seq time u = e
  cases late with
  | true => rfl
  | false =>
    have h := declarationTest_touches e (s.withCoinc (Coincidence.place e))
    simp only [Bool.false_eq_true, if_false]
    generalize declarationTest e (s.withCoinc (Coincidence.place e)) = t at h ⊢
    exact h

theorem peerNotice_touches (station : Nat) (n : NoticeItem) (s : State) :
    peerNotice station n s =
      { s with
        coinc := (peerNotice station n s).coinc, port := (peerNotice station n s).port
        peers := (peerNotice station n s).peers } := by
  unfold peerNotice
  cases s.peers.answer s.nowQ s.k station n.seq with
  | untracked => rfl
  | repeated => rfl
  | new theta u =>
    have h := insertEntry_touches station n.seq (holdTime ((n.time.nsCount : Int) - theta)) u
      { s with peers := s.peers.noteNotice station n.seq }
    dsimp only
    generalize insertEntry station n.seq (holdTime ((n.time.nsCount : Int) - theta)) u
      { s with peers := s.peers.noteNotice station n.seq } = t at h ⊢
    rw [show t.peers = s.peers.noteNotice station n.seq from congrArg State.peers h]
    exact h

/-- The state in which an own trigger's entry is inserted: sequence, record, notice and request done. -/
def noticedTrigger (c : Capture) (s : State) : State :=
  (((s.withCoinc fun x => { x with seq := s.coinc.seq + 1 }).arrive
    (.trigger ⟨s.coinc.seq + 1, c.t.stamp, s.servo.advU⟩)).withCoinc
      (Coincidence.addOutgoing ⟨s.coinc.seq + 1, c.t.nsCount, 0, s.k⟩)).withLink
        (MarkLink.requestNotice s.cfg s.k)

theorem noticedTrigger_touches (c : Capture) (s : State) :
    noticedTrigger c s =
      { s with
        coinc := (noticedTrigger c s).coinc, port := (noticedTrigger c s).port
        link := s.link.requestNotice s.cfg s.k } := rfl

theorem ownTrigger_eq (c : Capture) (s : State) :
    ownTrigger c s =
      insertEntry s.own (s.coinc.seq + 1) (holdTime c.t.nsCount) s.servo.advU
        (noticedTrigger c s) := by
  unfold ownTrigger; rfl

theorem insertedIn_touches {s n t : State} {l : MarkLink}
    (h : t = { n with coinc := t.coinc, port := t.port })
    (hn : n = { s with coinc := n.coinc, port := n.port, link := l }) :
    t = { s with coinc := t.coinc, port := t.port, link := l } := by
  rw [h, hn]

theorem ownTrigger_touches (c : Capture) (s : State) :
    ownTrigger c s =
      { s with
        coinc := (ownTrigger c s).coinc, port := (ownTrigger c s).port
        link := s.link.requestNotice s.cfg s.k } := by
  rw [ownTrigger_eq]
  exact insertedIn_touches (insertEntry_touches s.own _ _ _ _) (noticedTrigger_touches c s)

theorem triggerIn_touches {s n t : State} {l : MarkLink}
    (h : t = { n with coinc := t.coinc, port := t.port, link := l })
    (hn : n = { s with lines := n.lines, cap := n.cap }) :
    t = { s with
      lines := t.lines, cap := t.cap, coinc := t.coinc, port := t.port, link := t.link } := by
  rw [h, hn]

theorem trigInEdge_touches (s : State) :
    trigInEdge s =
      { s with
        lines := (trigInEdge s).lines, cap := (trigInEdge s).cap
        coinc := (trigInEdge s).coinc, port := (trigInEdge s).port
        link := (trigInEdge s).link } := by
  unfold trigInEdge; split
  · rfl
  · exact triggerIn_touches (ownTrigger_touches _ (captureTrig s.takeTrig)) rfl

/-! ## Samples -/

theorem takeSample_touches (c : Capture) (s : State) :
    takeSample c s = { s with align := (takeSample c s).align, port := (takeSample c s).port } := by
  unfold takeSample; split
  · rfl
  · split
    · rfl
    · unfold closeFull closeBlock; dsimp only; split <;> rfl

theorem strobeEdge_touches (s : State) :
    strobeEdge s =
      { s with
        lines := (strobeEdge s).lines, cap := (strobeEdge s).cap
        align := (strobeEdge s).align, port := (strobeEdge s).port } := by
  unfold strobeEdge; split
  · rfl
  · rw [takeSample_touches]; rfl

theorem closeBlock_touches (b : OpenBlock) (period dev : Int) (gap : Bool) (s : State) :
    closeBlock b period dev gap s = { s with port := (closeBlock b period dev gap s).port } := by
  unfold closeBlock; split <;> rfl

theorem gapDeadline_touches (s : State) :
    gapDeadline s =
      { s with align := (gapDeadline s).align, port := (gapDeadline s).port } := by
  unfold gapDeadline; split
  · unfold closeShort; dsimp only; rw [closeBlock_touches]; rfl
  · rfl

theorem gridPulse_touches (s : State) :
    gridPulse s =
      { s with
        cap := (gridPulse s).cap, align := (gridPulse s).align, port := (gridPulse s).port } := by
  unfold gridPulse; rw [takeSample_touches]; rfl

/-! ## Anchor -/

theorem ppsEdge_touches (s : State) :
    ppsEdge s =
      { s with
        lines := (ppsEdge s).lines, cap := (ppsEdge s).cap, anchor := (ppsEdge s).anchor } := by
  unfold ppsEdge; split <;> rfl

theorem anchorByte_touches (s : State) :
    anchorByte s = { s with anchor := (anchorByte s).anchor } := by
  unfold anchorByte; split <;> rfl

theorem anchorMessage_touches (s : State) :
    anchorMessage s = { s with anchor := (anchorMessage s).anchor } := by
  unfold anchorMessage; split <;> rfl

/-! ## Receiving -/

theorem echoes_touch (m : Mark) (c : Capture) (es : List EchoItem) (s : State) :
    es.foldl (takeEcho m c) s = { s with peers := (es.foldl (takeEcho m c) s).peers } := by
  induction es generalizing s with
  | nil => rfl
  | cons e es ih => rw [List.foldl_cons, ih]; rfl

theorem takeEchoes_touches (m : Mark) (c : Capture) (s : State) :
    takeEchoes m c s = { s with peers := (takeEchoes m c s).peers } := echoes_touch m c _ s

theorem notices_touch (station : Nat) (ns : List NoticeItem) (s : State) :
    ns.foldl (fun s n => peerNotice station n s) s =
      { s with
        coinc := (ns.foldl (fun s n => peerNotice station n s) s).coinc
        port := (ns.foldl (fun s n => peerNotice station n s) s).port
        peers := (ns.foldl (fun s n => peerNotice station n s) s).peers } := by
  induction ns generalizing s with
  | nil => rfl
  | cons n ns ih => rw [List.foldl_cons, ih, peerNotice_touches]

theorem takeNotices_touches (m : Mark) (s : State) :
    takeNotices m s =
      { s with
        coinc := (takeNotices m s).coinc, port := (takeNotices m s).port
        peers := (takeNotices m s).peers } := notices_touch m.station m.notices s

theorem placeEcho_touches (m : Mark) (c : Capture) (s : State) :
    placeEcho m c s = { s with link := (placeEcho m c s).link } := by
  unfold placeEcho; split <;> rfl

theorem handleMark_touches (m : Mark) (c : Capture) (s : State) :
    handleMark m c s =
      { s with
        link := (handleMark m c s).link, peers := (handleMark m c s).peers
        coinc := (handleMark m c s).coinc, port := (handleMark m c s).port } := by
  unfold handleMark; split
  · rw [State.enterMuted_touches]
  · split
    · rfl
    · rw [placeEcho_touches, takeNotices_touches, takeEchoes_touches]

theorem markCheck_touches (body : List Byte) (s : State) :
    markCheck body s =
      { s with
        cap := (markCheck body s).cap, link := (markCheck body s).link
        peers := (markCheck body s).peers, coinc := (markCheck body s).coinc
        port := (markCheck body s).port } := by
  unfold markCheck; split
  · rfl
  · split
    · rfl
    · split
      · rw [handleMark_touches]; rfl
      · rfl

theorem receiveByte_touches (b : Byte) (edge : Nat) (s : State) :
    receiveByte b edge s =
      { s with
        cap := (receiveByte b edge s).cap, link := (receiveByte b edge s).link
        peers := (receiveByte b edge s).peers, coinc := (receiveByte b edge s).coinc
        port := (receiveByte b edge s).port } := by
  unfold receiveByte; split
  · rfl
  · unfold huntByte; split <;> rfl
  · unfold appendByte; split
    · rfl
    · split
      · rfl
      · split
        · rfl
        · rw [markCheck_touches]

theorem linkByteReceived_touches (s : State) :
    linkByteReceived s =
      { s with
        cap := (linkByteReceived s).cap, link := (linkByteReceived s).link
        peers := (linkByteReceived s).peers, coinc := (linkByteReceived s).coinc
        port := (linkByteReceived s).port } := by
  unfold linkByteReceived; split
  · rw [receiveByte_touches]; rfl
  · rfl

/-! ## Ticks, steps, start-up, records -/

theorem reportBreak_touches (s t : State) :
    reportBreak s t =
      { t with port := (reportBreak s t).port, servo := (reportBreak s t).servo } := by
  unfold reportBreak; split
  · rfl
  · split <;> rfl

theorem stepApplication_touches (s : State) :
    stepApplication s =
      { s with
        time := s.time.stepped, align := (stepApplication s).align
        coinc := (stepApplication s).coinc, port := (stepApplication s).port
        servo := (stepApplication s).servo } := by
  unfold stepApplication; dsimp only; rw [reportBreak_touches]

theorem latchStraps_touches (pins : Pins) (s : State) :
    latchStraps pins s =
      { s with
        startup := s.startup.latchStraps pins, link := (latchStraps pins s).link
        align := { s.align with cmdLowFrom := s.k }, port := (latchStraps pins s).port } := by
  unfold latchStraps; dsimp only; split
  · rw [State.enterMuted_touches]
  · rfl

theorem startPort_touches (s : State) :
    startPort s = { s with port := (startPort s).port } := by
  unfold startPort; dsimp only; split <;> rfl

theorem peerTimer_touches (s : State) :
    peerTimer s = { s with port := (peerTimer s).port } := by
  unfold peerTimer; dsimp only; split
  · rfl
  · split <;> rfl

end Sys2Proof.Machine
end

