-- ==== Sys2Proof/Laws/Exec.lean ====
section
/-!
SUPPORT. What a command can do, once: a next state is the state itself or the state after the command's
effect; and for each block, the commands whose effect touches it.
-/

namespace Sys2Proof.Machine

/-- The effect of a command that is due. -/
def effect (c : Instr) (s : State) : State :=
  match c with
  | .tick pins => tick pins s
  | .powerOnReset => State.afterReset 0 Temperature.clearedBins true s.pending
  | .resetPinReset =>
    State.afterReset s.time.f s.temp.bins (s.startup.supplyFailed && decide (s.k = 0)) s.pending
  | .strapSampling =>
    match s.lines.levels with
    | some pins => latchStraps pins s
    | none => s
  | .missingAcknowledge => { s with startup := { s.startup with abandoned := some s.k } }
  | .configSettle => { s with startup := s.startup.settle }
  | .configReadEnd => startPort (releaseBlocks s)
  | .stepApplication => stepApplication s
  | .ppsEdge => ppsEdge s
  | .sampleStrobeEdge => strobeEdge s
  | .gapDeadline => gapDeadline s
  | .gridPulseIssue => gridPulse s
  | .sampleCmdPulseEnd => s.withAlign fun a => { a with pulseEnd := none, cmdLowFrom := s.k }
  | .trigInEdge => trigInEdge s
  | .linkByteReceived => linkByteReceived s
  | .huntHistoryForget => s.withLink fun l => { l with rx := .hunt none }
  | .receiptTruncated => truncateReceipt s
  | .listenPeriodEnd => s.withLink (MarkLink.startInterval s.cfg s.link.schedule.turn)
  | .markIntervalStart => s.withLink (MarkLink.startInterval s.cfg s.link.schedule.turn)
  | .keyUpCheck kind => keyUpCheck kind s
  | .referenceInstant => referenceInstant s
  | .launchEnd => launchEnd s
  | .trialTimeout slot => s.emptySlot slot
  | .trackedSilent slot => s.modifyEntry slot fun e => { e with state := .silent }
  | .silentTimeout slot => s.emptySlot slot
  | .recordExpiry slot => s.modifyEntry slot fun e => { e with history := e.history.tail }
  | .barringEnd slot => s.modifyEntry slot PeerEntry.unbarred
  | .servoUpdate => servoUpdate s
  | .localSourceBarringEnd source => { s with comb := s.comb.unbar source }
  | .coastGrowth => s.withServo (Servo.grow (growthStep s.cfg s.temp) s.k)
  | .coastLimit => (s.withServo Servo.passLimit).latch .coastLong
  | .conversionStart => { s with temp := { s.temp with converting := some s.k } }
  | .conversionComplete code => conversionComplete code s
  | .anchorMessageComplete => anchorMessage s
  | .anchorMessageAbandoned =>
    s.withAnchor fun a => { a with rx := .hunt, msgErr := bump a.msgErr }
  | .lossTimerExpiry =>
    (s.withAnchor fun a => { a with consistency := 0, lossExpired := true }).latch .anchorLost
  | .listExpiry =>
    s.withCoinc fun c => { c with list := c.list.filter fun e => !stale s.coincT e.time }
  | .coincOutPulseEnd => s.withCoinc fun c => { c with pulseEnd := none }
  | .frameEnd => { s with port := s.port.endFrame s.k }
  | .statusTimer => formStatus s
  | .peerTimer => peerTimer s
  | .rearmEdge => rearmEdge s
  | .linkStartEdge => linkStartEdge s
  | .linkFalseStart => linkFalseStart s
  | .anchorByteReceived => anchorByte s

/-- A next state is the state itself or the state after the command's effect. -/
theorem exec_effect {c : Instr} {s t : State} (h : exec c s = .next t) : t = s ∨ t = effect c s := by
  cases c with
  | tick pins =>
    exact .inr (Host.Outcome.next.inj h).symm
  | powerOnReset =>
    exact .inr (Host.Outcome.next.inj h).symm
  | resetPinReset =>
    exact .inr (Host.Outcome.next.inj h).symm
  | strapSampling =>
    have h := Host.Outcome.next.inj h
    simp only [effect]
    split at h
    · split at h
      · exact .inr (by simp only [*])
      · exact .inl h.symm
    · exact .inl h.symm
  | missingAcknowledge =>
    have h := Host.Outcome.next.inj h
    split at h
    · exact .inr h.symm
    · exact .inl h.symm
  | configSettle =>
    have h := Host.Outcome.next.inj h
    split at h
    · exact .inr h.symm
    · exact .inl h.symm
  | configReadEnd =>
    have h := Host.Outcome.next.inj h
    split at h
    · exact .inr h.symm
    · exact .inl h.symm
  | stepApplication =>
    have h := Host.Outcome.next.inj h
    split at h
    · exact .inr h.symm
    · exact .inl h.symm
  | ppsEdge =>
    have h := Host.Outcome.next.inj h
    split at h
    · exact .inr h.symm
    · exact .inl h.symm
  | sampleStrobeEdge =>
    have h := Host.Outcome.next.inj h
    split at h
    · exact .inr h.symm
    · exact .inl h.symm
  | gapDeadline =>
    have h := Host.Outcome.next.inj h
    split at h
    · exact .inr h.symm
    · exact .inl h.symm
  | gridPulseIssue =>
    have h := Host.Outcome.next.inj h
    split at h
    · exact .inr h.symm
    · exact .inl h.symm
  | sampleCmdPulseEnd =>
    have h := Host.Outcome.next.inj h
    split at h
    · exact .inr h.symm
    · exact .inl h.symm
  | trigInEdge =>
    have h := Host.Outcome.next.inj h
    split at h
    · exact .inr h.symm
    · exact .inl h.symm
  | linkByteReceived =>
    exact .inr (Host.Outcome.next.inj h).symm
  | huntHistoryForget =>
    have h := Host.Outcome.next.inj h
    split at h
    · exact .inr h.symm
    · exact .inl h.symm
  | receiptTruncated =>
    have h := Host.Outcome.next.inj h
    split at h
    · exact .inr h.symm
    · exact .inl h.symm
  | listenPeriodEnd =>
    have h := Host.Outcome.next.inj h
    split at h
    · exact .inr h.symm
    · exact .inl h.symm
  | markIntervalStart =>
    have h := Host.Outcome.next.inj h
    split at h
    · exact .inr h.symm
    · exact .inl h.symm
  | keyUpCheck kind =>
    have h := Host.Outcome.next.inj h
    split at h
    · exact .inr h.symm
    · exact .inl h.symm
  | referenceInstant =>
    have h := Host.Outcome.next.inj h
    split at h
    · exact .inr h.symm
    · exact .inl h.symm
  | launchEnd =>
    have h := Host.Outcome.next.inj h
    split at h
    · exact .inr h.symm
    · exact .inl h.symm
  | trialTimeout slot =>
    change slotCommand _ _ _ _ = _ at h
    unfold slotCommand at h
    split at h
    · have h := Host.Outcome.next.inj h
      split at h
      · exact .inr h.symm
      · exact .inl h.symm
    · cases h
  | trackedSilent slot =>
    change slotCommand _ _ _ _ = _ at h
    unfold slotCommand at h
    split at h
    · have h := Host.Outcome.next.inj h
      split at h
      · exact .inr h.symm
      · exact .inl h.symm
    · cases h
  | silentTimeout slot =>
    change slotCommand _ _ _ _ = _ at h
    unfold slotCommand at h
    split at h
    · have h := Host.Outcome.next.inj h
      split at h
      · exact .inr h.symm
      · exact .inl h.symm
    · cases h
  | recordExpiry slot =>
    change slotCommand _ _ _ _ = _ at h
    unfold slotCommand at h
    split at h
    · have h := Host.Outcome.next.inj h
      split at h
      · exact .inr h.symm
      · exact .inl h.symm
    · cases h
  | barringEnd slot =>
    change slotCommand _ _ _ _ = _ at h
    unfold slotCommand at h
    split at h
    · have h := Host.Outcome.next.inj h
      split at h
      · exact .inr h.symm
      · exact .inl h.symm
    · cases h
  | servoUpdate =>
    have h := Host.Outcome.next.inj h
    split at h
    · exact .inr h.symm
    · exact .inl h.symm
  | localSourceBarringEnd source =>
    have h := Host.Outcome.next.inj h
    split at h
    · exact .inr h.symm
    · exact .inl h.symm
  | coastGrowth =>
    have h := Host.Outcome.next.inj h
    split at h
    · exact .inr h.symm
    · exact .inl h.symm
  | coastLimit =>
    have h := Host.Outcome.next.inj h
    split at h
    · exact .inr h.symm
    · exact .inl h.symm
  | conversionStart =>
    have h := Host.Outcome.next.inj h
    split at h
    · exact .inr h.symm
    · exact .inl h.symm
  | conversionComplete code =>
    change execConversionComplete code s = _ at h
    unfold execConversionComplete at h
    split at h
    · have h := Host.Outcome.next.inj h
      split at h
      · exact .inr h.symm
      · exact .inl h.symm
    · cases h
  | anchorMessageComplete =>
    have h := Host.Outcome.next.inj h
    split at h
    · exact .inr h.symm
    · exact .inl h.symm
  | anchorMessageAbandoned =>
    have h := Host.Outcome.next.inj h
    split at h
    · exact .inr h.symm
    · exact .inl h.symm
  | lossTimerExpiry =>
    have h := Host.Outcome.next.inj h
    split at h
    · exact .inr h.symm
    · exact .inl h.symm
  | listExpiry =>
    exact .inr (Host.Outcome.next.inj h).symm
  | coincOutPulseEnd =>
    have h := Host.Outcome.next.inj h
    split at h
    · exact .inr h.symm
    · exact .inl h.symm
  | frameEnd =>
    have h := Host.Outcome.next.inj h
    split at h
    · exact .inr h.symm
    · exact .inl h.symm
  | statusTimer =>
    have h := Host.Outcome.next.inj h
    split at h
    · exact .inr h.symm
    · exact .inl h.symm
  | peerTimer =>
    have h := Host.Outcome.next.inj h
    split at h
    · exact .inr h.symm
    · exact .inl h.symm
  | rearmEdge =>
    have h := Host.Outcome.next.inj h
    split at h
    · exact .inr h.symm
    · exact .inl h.symm
  | linkStartEdge =>
    have h := Host.Outcome.next.inj h
    split at h
    · exact .inr h.symm
    · exact .inl h.symm
  | linkFalseStart =>
    have h := Host.Outcome.next.inj h
    split at h
    · exact .inr h.symm
    · exact .inl h.symm
  | anchorByteReceived =>
    have h := Host.Outcome.next.inj h
    split at h
    · exact .inr h.symm
    · exact .inl h.symm

/-- The effects that touch the Time Scale Unit. -/
theorem effect_time (c : Instr) (s : State) :
    (effect c s).time = s.time ∨
    (∃ pins, c = .tick pins) ∨
    c = .powerOnReset ∨
    c = .resetPinReset ∨
    c = .stepApplication ∨
    c = .launchEnd ∨
    c = .servoUpdate ∨
    (∃ code, c = .conversionComplete code) := by
  cases c with
  | tick pins => exact .inr (.inl ⟨pins, rfl⟩)
  | powerOnReset => exact .inr (.inr (.inl rfl))
  | resetPinReset => exact .inr (.inr (.inr (.inl rfl)))
  | strapSampling =>
    left; simp only [effect]; split
    · exact (congrArg State.time (latchStraps_touches _ s) :)
    · rfl
  | missingAcknowledge => exact .inl rfl
  | configSettle => exact .inl rfl
  | configReadEnd => exact .inl (congrArg State.time (startPort_touches (releaseBlocks s)) :)
  | stepApplication => exact .inr (.inr (.inr (.inr (.inl rfl))))
  | ppsEdge => exact .inl (congrArg State.time (ppsEdge_touches s) :)
  | sampleStrobeEdge => exact .inl (congrArg State.time (strobeEdge_touches s) :)
  | gapDeadline => exact .inl (congrArg State.time (gapDeadline_touches s) :)
  | gridPulseIssue => exact .inl (congrArg State.time (gridPulse_touches s) :)
  | sampleCmdPulseEnd => exact .inl rfl
  | trigInEdge => exact .inl (congrArg State.time (trigInEdge_touches s) :)
  | linkByteReceived => exact .inl (congrArg State.time (linkByteReceived_touches s) :)
  | huntHistoryForget => exact .inl rfl
  | receiptTruncated => exact .inl rfl
  | listenPeriodEnd => exact .inl rfl
  | markIntervalStart => exact .inl rfl
  | keyUpCheck kind => exact .inl (congrArg State.time (keyUpCheck_touches kind s) :)
  | referenceInstant => exact .inl (congrArg State.time (referenceInstant_touches s) :)
  | launchEnd => exact .inr (.inr (.inr (.inr (.inr (.inl rfl)))))
  | trialTimeout slot => exact .inl rfl
  | trackedSilent slot => exact .inl rfl
  | silentTimeout slot => exact .inl rfl
  | recordExpiry slot => exact .inl rfl
  | barringEnd slot => exact .inl rfl
  | servoUpdate => exact .inr (.inr (.inr (.inr (.inr (.inr (.inl rfl))))))
  | localSourceBarringEnd source => exact .inl rfl
  | coastGrowth => exact .inl rfl
  | coastLimit => exact .inl rfl
  | conversionStart => exact .inl rfl
  | conversionComplete code => exact .inr (.inr (.inr (.inr (.inr (.inr (.inr ⟨code, rfl⟩))))))
  | anchorMessageComplete => exact .inl (congrArg State.time (anchorMessage_touches s) :)
  | anchorMessageAbandoned => exact .inl rfl
  | lossTimerExpiry => exact .inl rfl
  | listExpiry => exact .inl rfl
  | coincOutPulseEnd => exact .inl rfl
  | frameEnd => exact .inl rfl
  | statusTimer => exact .inl rfl
  | peerTimer => exact .inl (congrArg State.time (peerTimer_touches s) :)
  | rearmEdge => exact .inl rfl
  | linkStartEdge => exact .inl rfl
  | linkFalseStart => exact .inl rfl
  | anchorByteReceived => exact .inl (congrArg State.time (anchorByte_touches s) :)

/-- The effects that touch the sampled lines. -/
theorem effect_lines (c : Instr) (s : State) :
    (effect c s).lines = s.lines ∨
    (∃ pins, c = .tick pins) ∨
    c = .powerOnReset ∨
    c = .resetPinReset ∨
    c = .ppsEdge ∨
    c = .sampleStrobeEdge ∨
    c = .trigInEdge ∨
    c = .rearmEdge := by
  cases c with
  | tick pins => exact .inr (.inl ⟨pins, rfl⟩)
  | powerOnReset => exact .inr (.inr (.inl rfl))
  | resetPinReset => exact .inr (.inr (.inr (.inl rfl)))
  | strapSampling =>
    left; simp only [effect]; split
    · exact (congrArg State.lines (latchStraps_touches _ s) :)
    · rfl
  | missingAcknowledge => exact .inl rfl
  | configSettle => exact .inl rfl
  | configReadEnd => exact .inl (congrArg State.lines (startPort_touches (releaseBlocks s)) :)
  | stepApplication => exact .inl (congrArg State.lines (stepApplication_touches s) :)
  | ppsEdge => exact .inr (.inr (.inr (.inr (.inl rfl))))
  | sampleStrobeEdge => exact .inr (.inr (.inr (.inr (.inr (.inl rfl)))))
  | gapDeadline => exact .inl (congrArg State.lines (gapDeadline_touches s) :)
  | gridPulseIssue => exact .inl (congrArg State.lines (gridPulse_touches s) :)
  | sampleCmdPulseEnd => exact .inl rfl
  | trigInEdge => exact .inr (.inr (.inr (.inr (.inr (.inr (.inl rfl))))))
  | linkByteReceived => exact .inl (congrArg State.lines (linkByteReceived_touches s) :)
  | huntHistoryForget => exact .inl rfl
  | receiptTruncated => exact .inl rfl
  | listenPeriodEnd => exact .inl rfl
  | markIntervalStart => exact .inl rfl
  | keyUpCheck kind => exact .inl (congrArg State.lines (keyUpCheck_touches kind s) :)
  | referenceInstant => exact .inl (congrArg State.lines (referenceInstant_touches s) :)
  | launchEnd => exact .inl rfl
  | trialTimeout slot => exact .inl rfl
  | trackedSilent slot => exact .inl rfl
  | silentTimeout slot => exact .inl rfl
  | recordExpiry slot => exact .inl rfl
  | barringEnd slot => exact .inl rfl
  | servoUpdate => exact .inl (congrArg State.lines (servoUpdate_touches s) :)
  | localSourceBarringEnd source => exact .inl rfl
  | coastGrowth => exact .inl rfl
  | coastLimit => exact .inl rfl
  | conversionStart => exact .inl rfl
  | conversionComplete code =>
    exact .inl (congrArg State.lines (conversionComplete_touches code s) :)
  | anchorMessageComplete => exact .inl (congrArg State.lines (anchorMessage_touches s) :)
  | anchorMessageAbandoned => exact .inl rfl
  | lossTimerExpiry => exact .inl rfl
  | listExpiry => exact .inl rfl
  | coincOutPulseEnd => exact .inl rfl
  | frameEnd => exact .inl rfl
  | statusTimer => exact .inl rfl
  | peerTimer => exact .inl (congrArg State.lines (peerTimer_touches s) :)
  | rearmEdge => exact .inr (.inr (.inr (.inr (.inr (.inr (.inr rfl))))))
  | linkStartEdge => exact .inl rfl
  | linkFalseStart => exact .inl rfl
  | anchorByteReceived => exact .inl (congrArg State.lines (anchorByte_touches s) :)

/-- The effects that touch the Capture Unit. -/
theorem effect_cap (c : Instr) (s : State) :
    (effect c s).cap = s.cap ∨
    (∃ pins, c = .tick pins) ∨
    c = .powerOnReset ∨
    c = .resetPinReset ∨
    c = .configReadEnd ∨
    c = .ppsEdge ∨
    c = .sampleStrobeEdge ∨
    c = .gridPulseIssue ∨
    c = .trigInEdge ∨
    c = .linkByteReceived ∨
    c = .receiptTruncated ∨
    (∃ kind, c = .keyUpCheck kind) ∨
    c = .launchEnd ∨
    c = .linkStartEdge ∨
    c = .linkFalseStart := by
  cases c with
  | tick pins => exact .inr (.inl ⟨pins, rfl⟩)
  | powerOnReset => exact .inr (.inr (.inl rfl))
  | resetPinReset => exact .inr (.inr (.inr (.inl rfl)))
  | strapSampling =>
    left; simp only [effect]; split
    · exact (congrArg State.cap (latchStraps_touches _ s) :)
    · rfl
  | missingAcknowledge => exact .inl rfl
  | configSettle => exact .inl rfl
  | configReadEnd => exact .inr (.inr (.inr (.inr (.inl rfl))))
  | stepApplication => exact .inl (congrArg State.cap (stepApplication_touches s) :)
  | ppsEdge => exact .inr (.inr (.inr (.inr (.inr (.inl rfl)))))
  | sampleStrobeEdge => exact .inr (.inr (.inr (.inr (.inr (.inr (.inl rfl))))))
  | gapDeadline => exact .inl (congrArg State.cap (gapDeadline_touches s) :)
  | gridPulseIssue => exact .inr (.inr (.inr (.inr (.inr (.inr (.inr (.inl rfl)))))))
  | sampleCmdPulseEnd => exact .inl rfl
  | trigInEdge => exact .inr (.inr (.inr (.inr (.inr (.inr (.inr (.inr (.inl rfl))))))))
  | linkByteReceived =>
    exact .inr (.inr (.inr (.inr (.inr (.inr (.inr (.inr (.inr (.inl rfl)))))))))
  | huntHistoryForget => exact .inl rfl
  | receiptTruncated =>
    exact .inr (.inr (.inr (.inr (.inr (.inr (.inr (.inr (.inr (.inr (.inl rfl))))))))))
  | listenPeriodEnd => exact .inl rfl
  | markIntervalStart => exact .inl rfl
  | keyUpCheck kind =>
    exact .inr (.inr (.inr (.inr (.inr (.inr (.inr (.inr (.inr (.inr (.inr (.inl ⟨kind, rfl⟩)))))))))))
  | referenceInstant => exact .inl (congrArg State.cap (referenceInstant_touches s) :)
  | launchEnd =>
    exact .inr (.inr (.inr (.inr (.inr (.inr (.inr (.inr (.inr (.inr (.inr (.inr (.inl rfl))))))))))))
  | trialTimeout slot => exact .inl rfl
  | trackedSilent slot => exact .inl rfl
  | silentTimeout slot => exact .inl rfl
  | recordExpiry slot => exact .inl rfl
  | barringEnd slot => exact .inl rfl
  | servoUpdate => exact .inl (congrArg State.cap (servoUpdate_touches s) :)
  | localSourceBarringEnd source => exact .inl rfl
  | coastGrowth => exact .inl rfl
  | coastLimit => exact .inl rfl
  | conversionStart => exact .inl rfl
  | conversionComplete code =>
    exact .inl (congrArg State.cap (conversionComplete_touches code s) :)
  | anchorMessageComplete => exact .inl (congrArg State.cap (anchorMessage_touches s) :)
  | anchorMessageAbandoned => exact .inl rfl
  | lossTimerExpiry => exact .inl rfl
  | listExpiry => exact .inl rfl
  | coincOutPulseEnd => exact .inl rfl
  | frameEnd => exact .inl rfl
  | statusTimer => exact .inl rfl
  | peerTimer => exact .inl (congrArg State.cap (peerTimer_touches s) :)
  | rearmEdge => exact .inl rfl
  | linkStartEdge =>
    exact .inr (.inr (.inr (.inr (.inr (.inr (.inr (.inr (.inr (.inr (.inr (.inr (.inr (.inl rfl)))))))))))))
  | linkFalseStart =>
    exact .inr (.inr (.inr (.inr (.inr (.inr (.inr (.inr (.inr (.inr (.inr (.inr (.inr (.inr rfl)))))))))))))
  | anchorByteReceived => exact .inl (congrArg State.cap (anchorByte_touches s) :)

/-- The effects that touch the Mark Link Controller. -/
theorem effect_link (c : Instr) (s : State) :
    (effect c s).link = s.link ∨
    (∃ pins, c = .tick pins) ∨
    c = .powerOnReset ∨
    c = .resetPinReset ∨
    c = .strapSampling ∨
    c = .configReadEnd ∨
    c = .trigInEdge ∨
    c = .linkByteReceived ∨
    c = .huntHistoryForget ∨
    c = .receiptTruncated ∨
    c = .listenPeriodEnd ∨
    c = .markIntervalStart ∨
    (∃ kind, c = .keyUpCheck kind) ∨
    c = .referenceInstant ∨
    c = .launchEnd ∨
    c = .linkStartEdge ∨
    c = .linkFalseStart := by
  cases c with
  | tick pins => exact .inr (.inl ⟨pins, rfl⟩)
  | powerOnReset => exact .inr (.inr (.inl rfl))
  | resetPinReset => exact .inr (.inr (.inr (.inl rfl)))
  | strapSampling => exact .inr (.inr (.inr (.inr (.inl rfl))))
  | missingAcknowledge => exact .inl rfl
  | configSettle => exact .inl rfl
  | configReadEnd => exact .inr (.inr (.inr (.inr (.inr (.inl rfl)))))
  | stepApplication => exact .inl (congrArg State.link (stepApplication_touches s) :)
  | ppsEdge => exact .inl (congrArg State.link (ppsEdge_touches s) :)
  | sampleStrobeEdge => exact .inl (congrArg State.link (strobeEdge_touches s) :)
  | gapDeadline => exact .inl (congrArg State.link (gapDeadline_touches s) :)
  | gridPulseIssue => exact .inl (congrArg State.link (gridPulse_touches s) :)
  | sampleCmdPulseEnd => exact .inl rfl
  | trigInEdge => exact .inr (.inr (.inr (.inr (.inr (.inr (.inl rfl))))))
  | linkByteReceived => exact .inr (.inr (.inr (.inr (.inr (.inr (.inr (.inl rfl)))))))
  | huntHistoryForget => exact .inr (.inr (.inr (.inr (.inr (.inr (.inr (.inr (.inl rfl))))))))
  | receiptTruncated =>
    exact .inr (.inr (.inr (.inr (.inr (.inr (.inr (.inr (.inr (.inl rfl)))))))))
  | listenPeriodEnd =>
    exact .inr (.inr (.inr (.inr (.inr (.inr (.inr (.inr (.inr (.inr (.inl rfl))))))))))
  | markIntervalStart =>
    exact .inr (.inr (.inr (.inr (.inr (.inr (.inr (.inr (.inr (.inr (.inr (.inl rfl)))))))))))
  | keyUpCheck kind =>
    exact .inr (.inr (.inr (.inr (.inr (.inr (.inr (.inr (.inr (.inr (.inr (.inr (.inl ⟨kind,
      rfl⟩))))))))))))
  | referenceInstant =>
    exact .inr (.inr (.inr (.inr (.inr (.inr (.inr (.inr (.inr (.inr (.inr (.inr (.inr (.inl
      rfl)))))))))))))
  | launchEnd =>
    exact .inr (.inr (.inr (.inr (.inr (.inr (.inr (.inr (.inr (.inr (.inr (.inr (.inr (.inr (.inl
      rfl))))))))))))))
  | trialTimeout slot => exact .inl rfl
  | trackedSilent slot => exact .inl rfl
  | silentTimeout slot => exact .inl rfl
  | recordExpiry slot => exact .inl rfl
  | barringEnd slot => exact .inl rfl
  | servoUpdate => exact .inl (congrArg State.link (servoUpdate_touches s) :)
  | localSourceBarringEnd source => exact .inl rfl
  | coastGrowth => exact .inl rfl
  | coastLimit => exact .inl rfl
  | conversionStart => exact .inl rfl
  | conversionComplete code =>
    exact .inl (congrArg State.link (conversionComplete_touches code s) :)
  | anchorMessageComplete => exact .inl (congrArg State.link (anchorMessage_touches s) :)
  | anchorMessageAbandoned => exact .inl rfl
  | lossTimerExpiry => exact .inl rfl
  | listExpiry => exact .inl rfl
  | coincOutPulseEnd => exact .inl rfl
  | frameEnd => exact .inl rfl
  | statusTimer => exact .inl rfl
  | peerTimer => exact .inl (congrArg State.link (peerTimer_touches s) :)
  | rearmEdge => exact .inl rfl
  | linkStartEdge =>
    exact .inr (.inr (.inr (.inr (.inr (.inr (.inr (.inr (.inr (.inr (.inr (.inr (.inr (.inr (.inr
      (.inl rfl)))))))))))))))
  | linkFalseStart =>
    exact .inr (.inr (.inr (.inr (.inr (.inr (.inr (.inr (.inr (.inr (.inr (.inr (.inr (.inr (.inr
      (.inr rfl)))))))))))))))
  | anchorByteReceived => exact .inl (congrArg State.link (anchorByte_touches s) :)

/-- The effects that touch the Peer Table. -/
theorem effect_peers (c : Instr) (s : State) :
    (effect c s).peers = s.peers ∨
    c = .powerOnReset ∨
    c = .resetPinReset ∨
    c = .linkByteReceived ∨
    (∃ slot, c = .trialTimeout slot) ∨
    (∃ slot, c = .trackedSilent slot) ∨
    (∃ slot, c = .silentTimeout slot) ∨
    (∃ slot, c = .recordExpiry slot) ∨
    (∃ slot, c = .barringEnd slot) ∨
    c = .servoUpdate := by
  cases c with
  | tick pins => exact .inl rfl
  | powerOnReset => exact .inr (.inl rfl)
  | resetPinReset => exact .inr (.inr (.inl rfl))
  | strapSampling =>
    left; simp only [effect]; split
    · exact (congrArg State.peers (latchStraps_touches _ s) :)
    · rfl
  | missingAcknowledge => exact .inl rfl
  | configSettle => exact .inl rfl
  | configReadEnd => exact .inl (congrArg State.peers (startPort_touches (releaseBlocks s)) :)
  | stepApplication => exact .inl (congrArg State.peers (stepApplication_touches s) :)
  | ppsEdge => exact .inl (congrArg State.peers (ppsEdge_touches s) :)
  | sampleStrobeEdge => exact .inl (congrArg State.peers (strobeEdge_touches s) :)
  | gapDeadline => exact .inl (congrArg State.peers (gapDeadline_touches s) :)
  | gridPulseIssue => exact .inl (congrArg State.peers (gridPulse_touches s) :)
  | sampleCmdPulseEnd => exact .inl rfl
  | trigInEdge => exact .inl (congrArg State.peers (trigInEdge_touches s) :)
  | linkByteReceived => exact .inr (.inr (.inr (.inl rfl)))
  | huntHistoryForget => exact .inl rfl
  | receiptTruncated => exact .inl rfl
  | listenPeriodEnd => exact .inl rfl
  | markIntervalStart => exact .inl rfl
  | keyUpCheck kind => exact .inl (congrArg State.peers (keyUpCheck_touches kind s) :)
  | referenceInstant => exact .inl (congrArg State.peers (referenceInstant_touches s) :)
  | launchEnd => exact .inl rfl
  | trialTimeout slot => exact .inr (.inr (.inr (.inr (.inl ⟨slot, rfl⟩))))
  | trackedSilent slot => exact .inr (.inr (.inr (.inr (.inr (.inl ⟨slot, rfl⟩)))))
  | silentTimeout slot => exact .inr (.inr (.inr (.inr (.inr (.inr (.inl ⟨slot, rfl⟩))))))
  | recordExpiry slot => exact .inr (.inr (.inr (.inr (.inr (.inr (.inr (.inl ⟨slot, rfl⟩)))))))
  | barringEnd slot =>
    exact .inr (.inr (.inr (.inr (.inr (.inr (.inr (.inr (.inl ⟨slot, rfl⟩))))))))
  | servoUpdate => exact .inr (.inr (.inr (.inr (.inr (.inr (.inr (.inr (.inr rfl))))))))
  | localSourceBarringEnd source => exact .inl rfl
  | coastGrowth => exact .inl rfl
  | coastLimit => exact .inl rfl
  | conversionStart => exact .inl rfl
  | conversionComplete code =>
    exact .inl (congrArg State.peers (conversionComplete_touches code s) :)
  | anchorMessageComplete => exact .inl (congrArg State.peers (anchorMessage_touches s) :)
  | anchorMessageAbandoned => exact .inl rfl
  | lossTimerExpiry => exact .inl rfl
  | listExpiry => exact .inl rfl
  | coincOutPulseEnd => exact .inl rfl
  | frameEnd => exact .inl rfl
  | statusTimer => exact .inl rfl
  | peerTimer => exact .inl (congrArg State.peers (peerTimer_touches s) :)
  | rearmEdge => exact .inl rfl
  | linkStartEdge => exact .inl rfl
  | linkFalseStart => exact .inl rfl
  | anchorByteReceived => exact .inl (congrArg State.peers (anchorByte_touches s) :)

/-- The effects that touch the Combiner. -/
theorem effect_comb (c : Instr) (s : State) :
    (effect c s).comb = s.comb ∨
    c = .powerOnReset ∨
    c = .resetPinReset ∨
    c = .servoUpdate ∨
    (∃ source, c = .localSourceBarringEnd source) := by
  cases c with
  | tick pins => exact .inl rfl
  | powerOnReset => exact .inr (.inl rfl)
  | resetPinReset => exact .inr (.inr (.inl rfl))
  | strapSampling =>
    left; simp only [effect]; split
    · exact (congrArg State.comb (latchStraps_touches _ s) :)
    · rfl
  | missingAcknowledge => exact .inl rfl
  | configSettle => exact .inl rfl
  | configReadEnd => exact .inl (congrArg State.comb (startPort_touches (releaseBlocks s)) :)
  | stepApplication => exact .inl (congrArg State.comb (stepApplication_touches s) :)
  | ppsEdge => exact .inl (congrArg State.comb (ppsEdge_touches s) :)
  | sampleStrobeEdge => exact .inl (congrArg State.comb (strobeEdge_touches s) :)
  | gapDeadline => exact .inl (congrArg State.comb (gapDeadline_touches s) :)
  | gridPulseIssue => exact .inl (congrArg State.comb (gridPulse_touches s) :)
  | sampleCmdPulseEnd => exact .inl rfl
  | trigInEdge => exact .inl (congrArg State.comb (trigInEdge_touches s) :)
  | linkByteReceived => exact .inl (congrArg State.comb (linkByteReceived_touches s) :)
  | huntHistoryForget => exact .inl rfl
  | receiptTruncated => exact .inl rfl
  | listenPeriodEnd => exact .inl rfl
  | markIntervalStart => exact .inl rfl
  | keyUpCheck kind => exact .inl (congrArg State.comb (keyUpCheck_touches kind s) :)
  | referenceInstant => exact .inl (congrArg State.comb (referenceInstant_touches s) :)
  | launchEnd => exact .inl rfl
  | trialTimeout slot => exact .inl rfl
  | trackedSilent slot => exact .inl rfl
  | silentTimeout slot => exact .inl rfl
  | recordExpiry slot => exact .inl rfl
  | barringEnd slot => exact .inl rfl
  | servoUpdate => exact .inr (.inr (.inr (.inl rfl)))
  | localSourceBarringEnd source => exact .inr (.inr (.inr (.inr ⟨source, rfl⟩)))
  | coastGrowth => exact .inl rfl
  | coastLimit => exact .inl rfl
  | conversionStart => exact .inl rfl
  | conversionComplete code =>
    exact .inl (congrArg State.comb (conversionComplete_touches code s) :)
  | anchorMessageComplete => exact .inl (congrArg State.comb (anchorMessage_touches s) :)
  | anchorMessageAbandoned => exact .inl rfl
  | lossTimerExpiry => exact .inl rfl
  | listExpiry => exact .inl rfl
  | coincOutPulseEnd => exact .inl rfl
  | frameEnd => exact .inl rfl
  | statusTimer => exact .inl rfl
  | peerTimer => exact .inl (congrArg State.comb (peerTimer_touches s) :)
  | rearmEdge => exact .inl rfl
  | linkStartEdge => exact .inl rfl
  | linkFalseStart => exact .inl rfl
  | anchorByteReceived => exact .inl (congrArg State.comb (anchorByte_touches s) :)

/-- The effects that touch the servo. -/
theorem effect_servo (c : Instr) (s : State) :
    (effect c s).servo = s.servo ∨
    c = .powerOnReset ∨
    c = .resetPinReset ∨
    c = .stepApplication ∨
    c = .servoUpdate ∨
    c = .coastGrowth ∨
    c = .coastLimit := by
  cases c with
  | tick pins => exact .inl rfl
  | powerOnReset => exact .inr (.inl rfl)
  | resetPinReset => exact .inr (.inr (.inl rfl))
  | strapSampling =>
    left; simp only [effect]; split
    · exact (congrArg State.servo (latchStraps_touches _ s) :)
    · rfl
  | missingAcknowledge => exact .inl rfl
  | configSettle => exact .inl rfl
  | configReadEnd => exact .inl (congrArg State.servo (startPort_touches (releaseBlocks s)) :)
  | stepApplication => exact .inr (.inr (.inr (.inl rfl)))
  | ppsEdge => exact .inl (congrArg State.servo (ppsEdge_touches s) :)
  | sampleStrobeEdge => exact .inl (congrArg State.servo (strobeEdge_touches s) :)
  | gapDeadline => exact .inl (congrArg State.servo (gapDeadline_touches s) :)
  | gridPulseIssue => exact .inl (congrArg State.servo (gridPulse_touches s) :)
  | sampleCmdPulseEnd => exact .inl rfl
  | trigInEdge => exact .inl (congrArg State.servo (trigInEdge_touches s) :)
  | linkByteReceived => exact .inl (congrArg State.servo (linkByteReceived_touches s) :)
  | huntHistoryForget => exact .inl rfl
  | receiptTruncated => exact .inl rfl
  | listenPeriodEnd => exact .inl rfl
  | markIntervalStart => exact .inl rfl
  | keyUpCheck kind => exact .inl (congrArg State.servo (keyUpCheck_touches kind s) :)
  | referenceInstant => exact .inl (congrArg State.servo (referenceInstant_touches s) :)
  | launchEnd => exact .inl rfl
  | trialTimeout slot => exact .inl rfl
  | trackedSilent slot => exact .inl rfl
  | silentTimeout slot => exact .inl rfl
  | recordExpiry slot => exact .inl rfl
  | barringEnd slot => exact .inl rfl
  | servoUpdate => exact .inr (.inr (.inr (.inr (.inl rfl))))
  | localSourceBarringEnd source => exact .inl rfl
  | coastGrowth => exact .inr (.inr (.inr (.inr (.inr (.inl rfl)))))
  | coastLimit => exact .inr (.inr (.inr (.inr (.inr (.inr rfl)))))
  | conversionStart => exact .inl rfl
  | conversionComplete code =>
    exact .inl (congrArg State.servo (conversionComplete_touches code s) :)
  | anchorMessageComplete => exact .inl (congrArg State.servo (anchorMessage_touches s) :)
  | anchorMessageAbandoned => exact .inl rfl
  | lossTimerExpiry => exact .inl rfl
  | listExpiry => exact .inl rfl
  | coincOutPulseEnd => exact .inl rfl
  | frameEnd => exact .inl rfl
  | statusTimer => exact .inl rfl
  | peerTimer => exact .inl (congrArg State.servo (peerTimer_touches s) :)
  | rearmEdge => exact .inl rfl
  | linkStartEdge => exact .inl rfl
  | linkFalseStart => exact .inl rfl
  | anchorByteReceived => exact .inl (congrArg State.servo (anchorByte_touches s) :)

/-- The effects that touch the Temperature Monitor. -/
theorem effect_temp (c : Instr) (s : State) :
    (effect c s).temp = s.temp ∨
    c = .powerOnReset ∨
    c = .resetPinReset ∨
    c = .servoUpdate ∨
    c = .conversionStart ∨
    (∃ code, c = .conversionComplete code) := by
  cases c with
  | tick pins => exact .inl rfl
  | powerOnReset => exact .inr (.inl rfl)
  | resetPinReset => exact .inr (.inr (.inl rfl))
  | strapSampling =>
    left; simp only [effect]; split
    · exact (congrArg State.temp (latchStraps_touches _ s) :)
    · rfl
  | missingAcknowledge => exact .inl rfl
  | configSettle => exact .inl rfl
  | configReadEnd => exact .inl (congrArg State.temp (startPort_touches (releaseBlocks s)) :)
  | stepApplication => exact .inl (congrArg State.temp (stepApplication_touches s) :)
  | ppsEdge => exact .inl (congrArg State.temp (ppsEdge_touches s) :)
  | sampleStrobeEdge => exact .inl (congrArg State.temp (strobeEdge_touches s) :)
  | gapDeadline => exact .inl (congrArg State.temp (gapDeadline_touches s) :)
  | gridPulseIssue => exact .inl (congrArg State.temp (gridPulse_touches s) :)
  | sampleCmdPulseEnd => exact .inl rfl
  | trigInEdge => exact .inl (congrArg State.temp (trigInEdge_touches s) :)
  | linkByteReceived => exact .inl (congrArg State.temp (linkByteReceived_touches s) :)
  | huntHistoryForget => exact .inl rfl
  | receiptTruncated => exact .inl rfl
  | listenPeriodEnd => exact .inl rfl
  | markIntervalStart => exact .inl rfl
  | keyUpCheck kind => exact .inl (congrArg State.temp (keyUpCheck_touches kind s) :)
  | referenceInstant => exact .inl (congrArg State.temp (referenceInstant_touches s) :)
  | launchEnd => exact .inl rfl
  | trialTimeout slot => exact .inl rfl
  | trackedSilent slot => exact .inl rfl
  | silentTimeout slot => exact .inl rfl
  | recordExpiry slot => exact .inl rfl
  | barringEnd slot => exact .inl rfl
  | servoUpdate => exact .inr (.inr (.inr (.inl rfl)))
  | localSourceBarringEnd source => exact .inl rfl
  | coastGrowth => exact .inl rfl
  | coastLimit => exact .inl rfl
  | conversionStart => exact .inr (.inr (.inr (.inr (.inl rfl))))
  | conversionComplete code => exact .inr (.inr (.inr (.inr (.inr ⟨code, rfl⟩))))
  | anchorMessageComplete => exact .inl (congrArg State.temp (anchorMessage_touches s) :)
  | anchorMessageAbandoned => exact .inl rfl
  | lossTimerExpiry => exact .inl rfl
  | listExpiry => exact .inl rfl
  | coincOutPulseEnd => exact .inl rfl
  | frameEnd => exact .inl rfl
  | statusTimer => exact .inl rfl
  | peerTimer => exact .inl (congrArg State.temp (peerTimer_touches s) :)
  | rearmEdge => exact .inl rfl
  | linkStartEdge => exact .inl rfl
  | linkFalseStart => exact .inl rfl
  | anchorByteReceived => exact .inl (congrArg State.temp (anchorByte_touches s) :)

/-- The effects that touch the Anchor Input. -/
theorem effect_anchor (c : Instr) (s : State) :
    (effect c s).anchor = s.anchor ∨
    (∃ pins, c = .tick pins) ∨
    c = .powerOnReset ∨
    c = .resetPinReset ∨
    c = .ppsEdge ∨
    c = .anchorMessageComplete ∨
    c = .anchorMessageAbandoned ∨
    c = .lossTimerExpiry ∨
    c = .anchorByteReceived := by
  cases c with
  | tick pins => exact .inr (.inl ⟨pins, rfl⟩)
  | powerOnReset => exact .inr (.inr (.inl rfl))
  | resetPinReset => exact .inr (.inr (.inr (.inl rfl)))
  | strapSampling =>
    left; simp only [effect]; split
    · exact (congrArg State.anchor (latchStraps_touches _ s) :)
    · rfl
  | missingAcknowledge => exact .inl rfl
  | configSettle => exact .inl rfl
  | configReadEnd => exact .inl (congrArg State.anchor (startPort_touches (releaseBlocks s)) :)
  | stepApplication => exact .inl (congrArg State.anchor (stepApplication_touches s) :)
  | ppsEdge => exact .inr (.inr (.inr (.inr (.inl rfl))))
  | sampleStrobeEdge => exact .inl (congrArg State.anchor (strobeEdge_touches s) :)
  | gapDeadline => exact .inl (congrArg State.anchor (gapDeadline_touches s) :)
  | gridPulseIssue => exact .inl (congrArg State.anchor (gridPulse_touches s) :)
  | sampleCmdPulseEnd => exact .inl rfl
  | trigInEdge => exact .inl (congrArg State.anchor (trigInEdge_touches s) :)
  | linkByteReceived => exact .inl (congrArg State.anchor (linkByteReceived_touches s) :)
  | huntHistoryForget => exact .inl rfl
  | receiptTruncated => exact .inl rfl
  | listenPeriodEnd => exact .inl rfl
  | markIntervalStart => exact .inl rfl
  | keyUpCheck kind => exact .inl (congrArg State.anchor (keyUpCheck_touches kind s) :)
  | referenceInstant => exact .inl (congrArg State.anchor (referenceInstant_touches s) :)
  | launchEnd => exact .inl rfl
  | trialTimeout slot => exact .inl rfl
  | trackedSilent slot => exact .inl rfl
  | silentTimeout slot => exact .inl rfl
  | recordExpiry slot => exact .inl rfl
  | barringEnd slot => exact .inl rfl
  | servoUpdate => exact .inl (congrArg State.anchor (servoUpdate_touches s) :)
  | localSourceBarringEnd source => exact .inl rfl
  | coastGrowth => exact .inl rfl
  | coastLimit => exact .inl rfl
  | conversionStart => exact .inl rfl
  | conversionComplete code =>
    exact .inl (congrArg State.anchor (conversionComplete_touches code s) :)
  | anchorMessageComplete => exact .inr (.inr (.inr (.inr (.inr (.inl rfl)))))
  | anchorMessageAbandoned => exact .inr (.inr (.inr (.inr (.inr (.inr (.inl rfl))))))
  | lossTimerExpiry => exact .inr (.inr (.inr (.inr (.inr (.inr (.inr (.inl rfl)))))))
  | listExpiry => exact .inl rfl
  | coincOutPulseEnd => exact .inl rfl
  | frameEnd => exact .inl rfl
  | statusTimer => exact .inl rfl
  | peerTimer => exact .inl (congrArg State.anchor (peerTimer_touches s) :)
  | rearmEdge => exact .inl rfl
  | linkStartEdge => exact .inl rfl
  | linkFalseStart => exact .inl rfl
  | anchorByteReceived => exact .inr (.inr (.inr (.inr (.inr (.inr (.inr (.inr rfl)))))))

/-- The effects that touch the Sample Aligner. -/
theorem effect_align (c : Instr) (s : State) :
    (effect c s).align = s.align ∨
    c = .powerOnReset ∨
    c = .resetPinReset ∨
    c = .strapSampling ∨
    c = .configReadEnd ∨
    c = .stepApplication ∨
    c = .sampleStrobeEdge ∨
    c = .gapDeadline ∨
    c = .gridPulseIssue ∨
    c = .sampleCmdPulseEnd ∨
    c = .servoUpdate := by
  cases c with
  | tick pins => exact .inl rfl
  | powerOnReset => exact .inr (.inl rfl)
  | resetPinReset => exact .inr (.inr (.inl rfl))
  | strapSampling => exact .inr (.inr (.inr (.inl rfl)))
  | missingAcknowledge => exact .inl rfl
  | configSettle => exact .inl rfl
  | configReadEnd => exact .inr (.inr (.inr (.inr (.inl rfl))))
  | stepApplication => exact .inr (.inr (.inr (.inr (.inr (.inl rfl)))))
  | ppsEdge => exact .inl (congrArg State.align (ppsEdge_touches s) :)
  | sampleStrobeEdge => exact .inr (.inr (.inr (.inr (.inr (.inr (.inl rfl))))))
  | gapDeadline => exact .inr (.inr (.inr (.inr (.inr (.inr (.inr (.inl rfl)))))))
  | gridPulseIssue => exact .inr (.inr (.inr (.inr (.inr (.inr (.inr (.inr (.inl rfl))))))))
  | sampleCmdPulseEnd =>
    exact .inr (.inr (.inr (.inr (.inr (.inr (.inr (.inr (.inr (.inl rfl)))))))))
  | trigInEdge => exact .inl (congrArg State.align (trigInEdge_touches s) :)
  | linkByteReceived => exact .inl (congrArg State.align (linkByteReceived_touches s) :)
  | huntHistoryForget => exact .inl rfl
  | receiptTruncated => exact .inl rfl
  | listenPeriodEnd => exact .inl rfl
  | markIntervalStart => exact .inl rfl
  | keyUpCheck kind => exact .inl (congrArg State.align (keyUpCheck_touches kind s) :)
  | referenceInstant => exact .inl (congrArg State.align (referenceInstant_touches s) :)
  | launchEnd => exact .inl rfl
  | trialTimeout slot => exact .inl rfl
  | trackedSilent slot => exact .inl rfl
  | silentTimeout slot => exact .inl rfl
  | recordExpiry slot => exact .inl rfl
  | barringEnd slot => exact .inl rfl
  | servoUpdate => exact .inr (.inr (.inr (.inr (.inr (.inr (.inr (.inr (.inr (.inr rfl)))))))))
  | localSourceBarringEnd source => exact .inl rfl
  | coastGrowth => exact .inl rfl
  | coastLimit => exact .inl rfl
  | conversionStart => exact .inl rfl
  | conversionComplete code =>
    exact .inl (congrArg State.align (conversionComplete_touches code s) :)
  | anchorMessageComplete => exact .inl (congrArg State.align (anchorMessage_touches s) :)
  | anchorMessageAbandoned => exact .inl rfl
  | lossTimerExpiry => exact .inl rfl
  | listExpiry => exact .inl rfl
  | coincOutPulseEnd => exact .inl rfl
  | frameEnd => exact .inl rfl
  | statusTimer => exact .inl rfl
  | peerTimer => exact .inl (congrArg State.align (peerTimer_touches s) :)
  | rearmEdge => exact .inl rfl
  | linkStartEdge => exact .inl rfl
  | linkFalseStart => exact .inl rfl
  | anchorByteReceived => exact .inl (congrArg State.align (anchorByte_touches s) :)

/-- The effects that touch the Coincidence Unit. -/
theorem effect_coinc (c : Instr) (s : State) :
    (effect c s).coinc = s.coinc ∨
    (∃ pins, c = .tick pins) ∨
    c = .powerOnReset ∨
    c = .resetPinReset ∨
    c = .stepApplication ∨
    c = .trigInEdge ∨
    c = .linkByteReceived ∨
    c = .referenceInstant ∨
    c = .listExpiry ∨
    c = .coincOutPulseEnd := by
  cases c with
  | tick pins => exact .inr (.inl ⟨pins, rfl⟩)
  | powerOnReset => exact .inr (.inr (.inl rfl))
  | resetPinReset => exact .inr (.inr (.inr (.inl rfl)))
  | strapSampling =>
    left; simp only [effect]; split
    · exact (congrArg State.coinc (latchStraps_touches _ s) :)
    · rfl
  | missingAcknowledge => exact .inl rfl
  | configSettle => exact .inl rfl
  | configReadEnd => exact .inl (congrArg State.coinc (startPort_touches (releaseBlocks s)) :)
  | stepApplication => exact .inr (.inr (.inr (.inr (.inl rfl))))
  | ppsEdge => exact .inl (congrArg State.coinc (ppsEdge_touches s) :)
  | sampleStrobeEdge => exact .inl (congrArg State.coinc (strobeEdge_touches s) :)
  | gapDeadline => exact .inl (congrArg State.coinc (gapDeadline_touches s) :)
  | gridPulseIssue => exact .inl (congrArg State.coinc (gridPulse_touches s) :)
  | sampleCmdPulseEnd => exact .inl rfl
  | trigInEdge => exact .inr (.inr (.inr (.inr (.inr (.inl rfl)))))
  | linkByteReceived => exact .inr (.inr (.inr (.inr (.inr (.inr (.inl rfl))))))
  | huntHistoryForget => exact .inl rfl
  | receiptTruncated => exact .inl rfl
  | listenPeriodEnd => exact .inl rfl
  | markIntervalStart => exact .inl rfl
  | keyUpCheck kind => exact .inl (congrArg State.coinc (keyUpCheck_touches kind s) :)
  | referenceInstant => exact .inr (.inr (.inr (.inr (.inr (.inr (.inr (.inl rfl)))))))
  | launchEnd => exact .inl rfl
  | trialTimeout slot => exact .inl rfl
  | trackedSilent slot => exact .inl rfl
  | silentTimeout slot => exact .inl rfl
  | recordExpiry slot => exact .inl rfl
  | barringEnd slot => exact .inl rfl
  | servoUpdate => exact .inl (congrArg State.coinc (servoUpdate_touches s) :)
  | localSourceBarringEnd source => exact .inl rfl
  | coastGrowth => exact .inl rfl
  | coastLimit => exact .inl rfl
  | conversionStart => exact .inl rfl
  | conversionComplete code =>
    exact .inl (congrArg State.coinc (conversionComplete_touches code s) :)
  | anchorMessageComplete => exact .inl (congrArg State.coinc (anchorMessage_touches s) :)
  | anchorMessageAbandoned => exact .inl rfl
  | lossTimerExpiry => exact .inl rfl
  | listExpiry => exact .inr (.inr (.inr (.inr (.inr (.inr (.inr (.inr (.inl rfl))))))))
  | coincOutPulseEnd => exact .inr (.inr (.inr (.inr (.inr (.inr (.inr (.inr (.inr rfl))))))))
  | frameEnd => exact .inl rfl
  | statusTimer => exact .inl rfl
  | peerTimer => exact .inl (congrArg State.coinc (peerTimer_touches s) :)
  | rearmEdge => exact .inl rfl
  | linkStartEdge => exact .inl rfl
  | linkFalseStart => exact .inl rfl
  | anchorByteReceived => exact .inl (congrArg State.coinc (anchorByte_touches s) :)

/-- The effects that touch the Record Port. -/
theorem effect_port (c : Instr) (s : State) :
    (effect c s).port = s.port ∨
    c = .powerOnReset ∨
    c = .resetPinReset ∨
    c = .strapSampling ∨
    c = .configReadEnd ∨
    c = .stepApplication ∨
    c = .sampleStrobeEdge ∨
    c = .gapDeadline ∨
    c = .gridPulseIssue ∨
    c = .trigInEdge ∨
    c = .linkByteReceived ∨
    c = .coastLimit ∨
    c = .lossTimerExpiry ∨
    c = .frameEnd ∨
    c = .statusTimer ∨
    c = .peerTimer ∨
    c = .rearmEdge := by
  cases c with
  | tick pins => exact .inl rfl
  | powerOnReset => exact .inr (.inl rfl)
  | resetPinReset => exact .inr (.inr (.inl rfl))
  | strapSampling => exact .inr (.inr (.inr (.inl rfl)))
  | missingAcknowledge => exact .inl rfl
  | configSettle => exact .inl rfl
  | configReadEnd => exact .inr (.inr (.inr (.inr (.inl rfl))))
  | stepApplication => exact .inr (.inr (.inr (.inr (.inr (.inl rfl)))))
  | ppsEdge => exact .inl (congrArg State.port (ppsEdge_touches s) :)
  | sampleStrobeEdge => exact .inr (.inr (.inr (.inr (.inr (.inr (.inl rfl))))))
  | gapDeadline => exact .inr (.inr (.inr (.inr (.inr (.inr (.inr (.inl rfl)))))))
  | gridPulseIssue => exact .inr (.inr (.inr (.inr (.inr (.inr (.inr (.inr (.inl rfl))))))))
  | sampleCmdPulseEnd => exact .inl rfl
  | trigInEdge => exact .inr (.inr (.inr (.inr (.inr (.inr (.inr (.inr (.inr (.inl rfl)))))))))
  | linkByteReceived =>
    exact .inr (.inr (.inr (.inr (.inr (.inr (.inr (.inr (.inr (.inr (.inl rfl))))))))))
  | huntHistoryForget => exact .inl rfl
  | receiptTruncated => exact .inl rfl
  | listenPeriodEnd => exact .inl rfl
  | markIntervalStart => exact .inl rfl
  | keyUpCheck kind => exact .inl (congrArg State.port (keyUpCheck_touches kind s) :)
  | referenceInstant => exact .inl (congrArg State.port (referenceInstant_touches s) :)
  | launchEnd => exact .inl rfl
  | trialTimeout slot => exact .inl rfl
  | trackedSilent slot => exact .inl rfl
  | silentTimeout slot => exact .inl rfl
  | recordExpiry slot => exact .inl rfl
  | barringEnd slot => exact .inl rfl
  | servoUpdate => exact .inl (congrArg State.port (servoUpdate_touches s) :)
  | localSourceBarringEnd source => exact .inl rfl
  | coastGrowth => exact .inl rfl
  | coastLimit =>
    exact .inr (.inr (.inr (.inr (.inr (.inr (.inr (.inr (.inr (.inr (.inr (.inl rfl)))))))))))
  | conversionStart => exact .inl rfl
  | conversionComplete code =>
    exact .inl (congrArg State.port (conversionComplete_touches code s) :)
  | anchorMessageComplete => exact .inl (congrArg State.port (anchorMessage_touches s) :)
  | anchorMessageAbandoned => exact .inl rfl
  | lossTimerExpiry =>
    exact .inr (.inr (.inr (.inr (.inr (.inr (.inr (.inr (.inr (.inr (.inr (.inr (.inl rfl))))))))))))
  | listExpiry => exact .inl rfl
  | coincOutPulseEnd => exact .inl rfl
  | frameEnd =>
    exact .inr (.inr (.inr (.inr (.inr (.inr (.inr (.inr (.inr (.inr (.inr (.inr (.inr (.inl
      rfl)))))))))))))
  | statusTimer =>
    exact .inr (.inr (.inr (.inr (.inr (.inr (.inr (.inr (.inr (.inr (.inr (.inr (.inr (.inr (.inl
      rfl))))))))))))))
  | peerTimer =>
    exact .inr (.inr (.inr (.inr (.inr (.inr (.inr (.inr (.inr (.inr (.inr (.inr (.inr (.inr (.inr
      (.inl rfl)))))))))))))))
  | rearmEdge =>
    exact .inr (.inr (.inr (.inr (.inr (.inr (.inr (.inr (.inr (.inr (.inr (.inr (.inr (.inr (.inr
      (.inr rfl)))))))))))))))
  | linkStartEdge => exact .inl rfl
  | linkFalseStart => exact .inl rfl
  | anchorByteReceived => exact .inl (congrArg State.port (anchorByte_touches s) :)

/-- The effects that touch the Start-up Controller. -/
theorem effect_startup (c : Instr) (s : State) :
    (effect c s).startup = s.startup ∨
    (∃ pins, c = .tick pins) ∨
    c = .powerOnReset ∨
    c = .resetPinReset ∨
    c = .strapSampling ∨
    c = .missingAcknowledge ∨
    c = .configSettle ∨
    c = .configReadEnd := by
  cases c with
  | tick pins => exact .inr (.inl ⟨pins, rfl⟩)
  | powerOnReset => exact .inr (.inr (.inl rfl))
  | resetPinReset => exact .inr (.inr (.inr (.inl rfl)))
  | strapSampling => exact .inr (.inr (.inr (.inr (.inl rfl))))
  | missingAcknowledge => exact .inr (.inr (.inr (.inr (.inr (.inl rfl)))))
  | configSettle => exact .inr (.inr (.inr (.inr (.inr (.inr (.inl rfl))))))
  | configReadEnd => exact .inr (.inr (.inr (.inr (.inr (.inr (.inr rfl))))))
  | stepApplication => exact .inl (congrArg State.startup (stepApplication_touches s) :)
  | ppsEdge => exact .inl (congrArg State.startup (ppsEdge_touches s) :)
  | sampleStrobeEdge => exact .inl (congrArg State.startup (strobeEdge_touches s) :)
  | gapDeadline => exact .inl (congrArg State.startup (gapDeadline_touches s) :)
  | gridPulseIssue => exact .inl (congrArg State.startup (gridPulse_touches s) :)
  | sampleCmdPulseEnd => exact .inl rfl
  | trigInEdge => exact .inl (congrArg State.startup (trigInEdge_touches s) :)
  | linkByteReceived => exact .inl (congrArg State.startup (linkByteReceived_touches s) :)
  | huntHistoryForget => exact .inl rfl
  | receiptTruncated => exact .inl rfl
  | listenPeriodEnd => exact .inl rfl
  | markIntervalStart => exact .inl rfl
  | keyUpCheck kind => exact .inl (congrArg State.startup (keyUpCheck_touches kind s) :)
  | referenceInstant => exact .inl (congrArg State.startup (referenceInstant_touches s) :)
  | launchEnd => exact .inl rfl
  | trialTimeout slot => exact .inl rfl
  | trackedSilent slot => exact .inl rfl
  | silentTimeout slot => exact .inl rfl
  | recordExpiry slot => exact .inl rfl
  | barringEnd slot => exact .inl rfl
  | servoUpdate => exact .inl (congrArg State.startup (servoUpdate_touches s) :)
  | localSourceBarringEnd source => exact .inl rfl
  | coastGrowth => exact .inl rfl
  | coastLimit => exact .inl rfl
  | conversionStart => exact .inl rfl
  | conversionComplete code =>
    exact .inl (congrArg State.startup (conversionComplete_touches code s) :)
  | anchorMessageComplete => exact .inl (congrArg State.startup (anchorMessage_touches s) :)
  | anchorMessageAbandoned => exact .inl rfl
  | lossTimerExpiry => exact .inl rfl
  | listExpiry => exact .inl rfl
  | coincOutPulseEnd => exact .inl rfl
  | frameEnd => exact .inl rfl
  | statusTimer => exact .inl rfl
  | peerTimer => exact .inl (congrArg State.startup (peerTimer_touches s) :)
  | rearmEdge => exact .inl rfl
  | linkStartEdge => exact .inl rfl
  | linkFalseStart => exact .inl rfl
  | anchorByteReceived => exact .inl (congrArg State.startup (anchorByte_touches s) :)

/-- No effect touches the queue. -/
theorem effect_pending (c : Instr) (s : State) :
    (effect c s).pending = s.pending := by
  cases c with
  | tick pins => exact rfl
  | powerOnReset => exact rfl
  | resetPinReset => exact rfl
  | strapSampling =>
    simp only [effect]; split
    · exact (congrArg State.pending (latchStraps_touches _ s) :)
    · rfl
  | missingAcknowledge => exact rfl
  | configSettle => exact rfl
  | configReadEnd => exact (congrArg State.pending (startPort_touches (releaseBlocks s)) :)
  | stepApplication => exact (congrArg State.pending (stepApplication_touches s) :)
  | ppsEdge => exact (congrArg State.pending (ppsEdge_touches s) :)
  | sampleStrobeEdge => exact (congrArg State.pending (strobeEdge_touches s) :)
  | gapDeadline => exact (congrArg State.pending (gapDeadline_touches s) :)
  | gridPulseIssue => exact (congrArg State.pending (gridPulse_touches s) :)
  | sampleCmdPulseEnd => exact rfl
  | trigInEdge => exact (congrArg State.pending (trigInEdge_touches s) :)
  | linkByteReceived => exact (congrArg State.pending (linkByteReceived_touches s) :)
  | huntHistoryForget => exact rfl
  | receiptTruncated => exact rfl
  | listenPeriodEnd => exact rfl
  | markIntervalStart => exact rfl
  | keyUpCheck kind => exact (congrArg State.pending (keyUpCheck_touches kind s) :)
  | referenceInstant => exact (congrArg State.pending (referenceInstant_touches s) :)
  | launchEnd => exact rfl
  | trialTimeout slot => exact rfl
  | trackedSilent slot => exact rfl
  | silentTimeout slot => exact rfl
  | recordExpiry slot => exact rfl
  | barringEnd slot => exact rfl
  | servoUpdate => exact (congrArg State.pending (servoUpdate_touches s) :)
  | localSourceBarringEnd source => exact rfl
  | coastGrowth => exact rfl
  | coastLimit => exact rfl
  | conversionStart => exact rfl
  | conversionComplete code =>
    exact (congrArg State.pending (conversionComplete_touches code s) :)
  | anchorMessageComplete => exact (congrArg State.pending (anchorMessage_touches s) :)
  | anchorMessageAbandoned => exact rfl
  | lossTimerExpiry => exact rfl
  | listExpiry => exact rfl
  | coincOutPulseEnd => exact rfl
  | frameEnd => exact rfl
  | statusTimer => exact rfl
  | peerTimer => exact (congrArg State.pending (peerTimer_touches s) :)
  | rearmEdge => exact rfl
  | linkStartEdge => exact rfl
  | linkFalseStart => exact rfl
  | anchorByteReceived => exact (congrArg State.pending (anchorByte_touches s) :)

end Sys2Proof.Machine
end

