-- ==== Sys2Proof/Laws/Coinc.lean ====
section
/-!
SUPPORT. What each operation of the Coincidence Unit does, once: the order of its list, insertion, the
search for a window, and the unit's legality under each operation.
-/

namespace Sys2Proof.Machine

/-! ## The order of the list -/

theorem CoincEntry.before_total (a b : CoincEntry) : a.before b = true ∨ b.before a = true := by
  simp only [CoincEntry.before, decide_eq_true_eq]; omega

theorem CoincEntry.before_trans {a b c : CoincEntry} (h1 : a.before b = true)
    (h2 : b.before c = true) : a.before c = true := by
  simp only [CoincEntry.before, decide_eq_true_eq] at *; omega

theorem CoincEntry.before_time {a b : CoincEntry} (h : a.before b = true) : a.time ≤ b.time := by
  simp only [CoincEntry.before, decide_eq_true_eq] at h; omega

/-- The order looks at time, station and insertion alone. -/
theorem CoincEntry.before_congr {a a' b b' : CoincEntry} (ha : a'.time = a.time)
    (ha2 : a'.station = a.station) (ha3 : a'.order = a.order) (hb : b'.time = b.time)
    (hb2 : b'.station = b.station) (hb3 : b'.order = b.order) : a'.before b' = a.before b := by
  simp only [CoincEntry.before, ha, ha2, ha3, hb, hb2, hb3]

theorem placeEntry_perm (e : CoincEntry) (l : List CoincEntry) :
    (placeEntry e l).Perm (e :: l) := by
  induction l with
  | nil => exact .refl _
  | cons x xs ih =>
    unfold placeEntry; split
    · exact .refl _
    · exact (ih.cons x).trans (.swap e x xs)

theorem placeEntry_sorted (e : CoincEntry) {l : List CoincEntry}
    (h : l.Pairwise fun a b => a.before b = true) :
    (placeEntry e l).Pairwise fun a b => a.before b = true := by
  induction l with
  | nil => exact List.pairwise_singleton _ _
  | cons x xs ih =>
    unfold placeEntry
    rw [List.pairwise_cons] at h
    split
    · rename_i hb
      refine List.pairwise_cons.mpr ⟨fun y hy => ?_, List.pairwise_cons.mpr h⟩
      rcases List.mem_cons.mp hy with rfl | hy
      · exact hb
      · exact CoincEntry.before_trans hb (h.1 y hy)
    · rename_i hb
      refine List.pairwise_cons.mpr ⟨fun y hy => ?_, ih h.2⟩
      rcases List.mem_cons.mp ((placeEntry_perm e xs).mem_iff.mp hy) with rfl | hy
      · exact (CoincEntry.before_total x y).resolve_right hb
      · exact h.1 y hy

theorem orderEntries_perm (l : List CoincEntry) : (orderEntries l).Perm l := by
  unfold orderEntries
  induction l with
  | nil => exact .nil
  | cons x xs ih => exact (placeEntry_perm _ _).trans (ih.cons x)

theorem orderEntries_sorted (l : List CoincEntry) :
    (orderEntries l).Pairwise fun a b => a.before b = true := by
  unfold orderEntries
  induction l with
  | nil => exact .nil
  | cons x xs ih => exact placeEntry_sorted _ ih

/-- A change that leaves time, station, sequence and insertion keeps the order and the keys. -/
theorem map_sorted {f : CoincEntry → CoincEntry}
    (hf : ∀ e, (f e).time = e.time ∧ (f e).station = e.station ∧ (f e).order = e.order)
    {l : List CoincEntry} (h : l.Pairwise fun a b => a.before b = true) :
    (l.map f).Pairwise fun a b => a.before b = true := by
  rw [List.pairwise_map]
  refine h.imp fun {a b} hab => ?_
  obtain ⟨a1, a2, a3⟩ := hf a
  obtain ⟨b1, b2, b3⟩ := hf b
  rw [CoincEntry.before_congr a1 a2 a3 b1 b2 b3]
  exact hab

theorem map_keys {f : CoincEntry → CoincEntry} (hf : ∀ e, (f e).key = e.key)
    (l : List CoincEntry) : (l.map f).map CoincEntry.key = l.map CoincEntry.key := by
  rw [List.map_map]
  exact List.map_congr_left fun e _ => hf e

theorem claimIn_keeps (w x : Nat) (e : CoincEntry) :
    claimIn w x e = { e with claimed := (claimIn w x e).claimed } := by
  unfold claimIn; split <;> rfl

theorem claimOrder_keeps (n : Nat) (e : CoincEntry) :
    claimOrder n e = { e with claimed := (claimOrder n e).claimed } := by
  unfold claimOrder; split <;> rfl

/-! ## Stations -/

/-- One step of the gathering of distinct stations. -/
theorem stations_step (l : List CoincEntry) (acc : List Nat) (h : acc.Nodup) :
    (l.foldl (fun acc e => if e.station ∈ acc then acc else acc ++ [e.station]) acc).Nodup ∧
    ∀ x, x ∈ l.foldl (fun acc e => if e.station ∈ acc then acc else acc ++ [e.station]) acc ↔
      x ∈ acc ∨ x ∈ l.map CoincEntry.station := by
  induction l generalizing acc with
  | nil => exact ⟨h, fun x => by simp⟩
  | cons y ys ih =>
    rw [List.foldl_cons]
    by_cases hy : y.station ∈ acc
    · rw [if_pos hy]
      refine ⟨(ih acc h).1, fun x => ?_⟩
      rw [(ih acc h).2 x, List.map_cons, List.mem_cons]
      constructor
      · rintro (h | h)
        · exact .inl h
        · exact .inr (.inr h)
      · rintro (h | h | h)
        · exact .inl h
        · exact .inl (h ▸ hy)
        · exact .inr h
    · rw [if_neg hy]
      have hn : (acc ++ [y.station]).Nodup := by
        rw [List.nodup_append]
        refine ⟨h, List.nodup_singleton _, fun a ha b hb hab => ?_⟩
        rw [List.mem_singleton] at hb
        exact hy (hb ▸ hab ▸ ha)
      refine ⟨(ih _ hn).1, fun x => ?_⟩
      rw [(ih _ hn).2 x, List.map_cons, List.mem_cons, List.mem_append, List.mem_singleton]
      exact or_assoc

theorem stationsOf_nodup (l : List CoincEntry) : (stationsOf l).Nodup :=
  (stations_step l [] List.nodup_nil).1

theorem mem_stationsOf (l : List CoincEntry) (x : Nat) :
    x ∈ stationsOf l ↔ x ∈ l.map CoincEntry.station := by
  rw [stationsOf, (stations_step l [] List.nodup_nil).2 x]
  simp

/-- The number of distinct stations (R169). -/
theorem stationsOf_length (l : List CoincEntry) :
    (stationsOf l).length = (l.map CoincEntry.station).dedup.length := by
  apply List.Perm.length_eq
  rw [List.perm_ext_iff_of_nodup (stationsOf_nodup l) (List.nodup_dedup _)]
  intro x
  rw [mem_stationsOf, List.mem_dedup]

/-! ## Limits of the short lists -/

theorem addWindow_length (w : Window) {l : List Window} (h : l.length ≤ 4) :
    (addWindow w l).length ≤ 4 := by
  unfold addWindow; split <;> simp <;> omega

theorem addOutgoing_length (n : OutNotice) {c : Coincidence} (h : c.outgoing.length ≤ 4) :
    (c.addOutgoing n).outgoing.length ≤ 4 := by
  unfold Coincidence.addOutgoing; split <;> simp <;> omega

theorem carried_length (l : List OutNotice) : (carried l).length ≤ l.length := by
  unfold carried; rw [List.length_map]; exact List.length_filter_le _ _

/-! ## The unit stays legal -/

/-- The part of legality that the list carries. -/
theorem Coincidence.Legal.relist {c c' : Coincidence} (h : c.Legal)
    (hlen : c'.list.length ≤ 32) (hs : c'.list.Pairwise fun a b => a.before b = true)
    (hk : (c'.list.map CoincEntry.key).Nodup) (ho : c'.outgoing.length ≤ c.outgoing.length)
    (hw : c'.windows.length ≤ c.windows.length) : c'.Legal :=
  ⟨hlen, hs, hk, ho.trans h.2.2.2.1, hw.trans h.2.2.2.2⟩

theorem Coincidence.Legal.sublist {c c' : Coincidence} (h : c.Legal) (hl : c'.list.Sublist c.list)
    (ho : c'.outgoing.length ≤ c.outgoing.length) (hw : c'.windows.length ≤ c.windows.length) :
    c'.Legal :=
  h.relist (hl.length_le.trans h.1) (h.2.1.sublist hl)
    (h.2.2.1.sublist (hl.map _)) ho hw

theorem sameKey_iff (a b : CoincEntry) : a.sameKey b = true ↔ a.key = b.key := by
  simp [CoincEntry.sameKey, CoincEntry.key]

theorem Coincidence.Legal.place {c : Coincidence} (h : c.Legal) (e : CoincEntry) :
    (c.place e).Legal := by
  have hsub : (c.list.filter fun x => !x.sameKey e).Sublist c.list := List.filter_sublist
  have hne : ∀ x ∈ c.list.filter fun x => !x.sameKey e, x.key ≠ e.key := by
    intro x hx hxe
    have := (List.mem_filter.mp hx).2
    rw [(sameKey_iff x e).mpr hxe] at this
    cases this
  have hkept : ∃ kept, (c.place e).list = placeEntry e kept ∧ kept.Sublist c.list ∧
      kept.length < 32 ∧ ∀ x ∈ kept, x.key ≠ e.key := by
    unfold Coincidence.place
    by_cases hl : (c.list.filter fun x => !x.sameKey e).length < 32
    · exact ⟨_, by dsimp only; rw [if_pos hl], hsub, hl, hne⟩
    · refine ⟨_, by dsimp only; rw [if_neg hl], (List.tail_sublist _).trans hsub, ?_,
        fun x hx => hne x (List.mem_of_mem_tail hx)⟩
      have := hsub.length_le
      have := h.1
      rw [List.length_tail]; omega
  obtain ⟨kept, he, hs, hl, hk⟩ := hkept
  refine ⟨?_, ?_, ?_, h.2.2.2.1, h.2.2.2.2⟩
  · rw [he, (placeEntry_perm e kept).length_eq, List.length_cons]; omega
  · rw [he]; exact placeEntry_sorted e (h.2.1.sublist hs)
  · rw [he, ((placeEntry_perm e kept).map _).nodup_iff, List.map_cons, List.nodup_cons]
    refine ⟨fun hm => ?_, h.2.2.1.sublist (hs.map _)⟩
    obtain ⟨x, hx, hxe⟩ := List.mem_map.mp hm
    exact hk x hx hxe

theorem Coincidence.Legal.addOutgoing {c : Coincidence} (h : c.Legal) (n : OutNotice) :
    (c.addOutgoing n).Legal := by
  have hl := addOutgoing_length n h.2.2.2.1
  unfold Coincidence.addOutgoing at hl ⊢
  split
  · rename_i hc
    rw [if_pos hc] at hl
    exact ⟨h.1, h.2.1, h.2.2.1, hl, h.2.2.2.2⟩
  · rename_i hc
    rw [if_neg hc] at hl
    exact ⟨h.1, h.2.1, h.2.2.1, hl, h.2.2.2.2⟩

theorem Coincidence.Legal.mapList {c c' : Coincidence} (h : c.Legal) {f : CoincEntry → CoincEntry}
    (hf : ∀ e, f e = { e with claimed := (f e).claimed }) (hl : c'.list = c.list.map f)
    (ho : c'.outgoing = c.outgoing) (hw : c'.windows.length ≤ 4) : c'.Legal := by
  refine ⟨?_, ?_, ?_, ho ▸ h.2.2.2.1, hw⟩
  · rw [hl, List.length_map]; exact h.1
  · rw [hl]
    exact map_sorted (fun e => by rw [hf e]; exact ⟨rfl, rfl, rfl⟩) h.2.1
  · rw [hl, map_keys fun e => by rw [hf e]; rfl]; exact h.2.2.1

theorem declare_legal {s : State} (h : s.coinc.Legal) (x : CoincEntry) :
    (declare x s).coinc.Legal :=
  h.mapList (claimIn_keeps s.cfg.windowNs x.time) rfl rfl (addWindow_length _ h.2.2.2.2)

theorem declarationTest_legal {s : State} (h : s.coinc.Legal) (e : CoincEntry) :
    (declarationTest e s).coinc.Legal := by
  unfold declarationTest
  split
  · exact h.mapList (claimOrder_keeps e.order) rfl rfl h.2.2.2.2
  · split
    · exact declare_legal h _
    · exact h

theorem insertEntry_legal {s : State} (h : s.coinc.Legal) (station : Nat) (seq : Seq)
    (time u : Nat) : (insertEntry station seq time u s).coinc.Legal := by
  unfold insertEntry
  split
  · exact h
  · exact declarationTest_legal (s := s.withCoinc _) (h.place _) _

theorem moveTimes_legal {c : Coincidence} (h : c.Legal) (amount : Int) (k : Nat) :
    (c.moveTimes amount k).Legal := by
  have hp := orderEntries_perm
    (c.list.map fun e => { e with time := moveTime amount k e.storedK e.time })
  refine ⟨?_, orderEntries_sorted _, ?_, ?_, ?_⟩
  · show (orderEntries _).length ≤ 32
    rw [hp.length_eq, List.length_map]; exact h.1
  · show ((orderEntries _).map CoincEntry.key).Nodup
    rw [(hp.map _).nodup_iff, List.map_map]; exact h.2.2.1
  · show (List.map _ _).length ≤ 4
    rw [List.length_map]; exact h.2.2.2.1
  · show (List.map _ _).length ≤ 4
    rw [List.length_map]; exact h.2.2.2.2

theorem emptied_legal {c : Coincidence} (h : c.Legal) : c.emptied.Legal :=
  h.sublist (List.nil_sublist _) (Nat.le_refl _) (Nat.zero_le _)

theorem afterReset_legal : Coincidence.afterReset.Legal :=
  ⟨Nat.zero_le _, .nil, List.nodup_nil, Nat.zero_le _, Nat.zero_le _⟩

theorem peerNotice_legal {s : State} (h : s.coinc.Legal) (station : Nat) (n : NoticeItem) :
    (peerNotice station n s).coinc.Legal := by
  unfold peerNotice
  split
  · exact h
  · exact h
  · apply insertEntry_legal
    exact h

theorem takeNotices_legal {s : State} (h : s.coinc.Legal) (m : Mark) :
    (takeNotices m s).coinc.Legal := by
  unfold takeNotices
  generalize m.notices = ns
  induction ns generalizing s with
  | nil => exact h
  | cons n ns ih => exact ih (peerNotice_legal h m.station n)

theorem ownTrigger_legal {s : State} (h : s.coinc.Legal) (c : Capture) :
    (ownTrigger c s).coinc.Legal := by
  rw [ownTrigger_eq]
  apply insertEntry_legal
  exact Coincidence.Legal.addOutgoing (c := { s.coinc with seq := s.coinc.seq + 1 }) h _

end Sys2Proof.Machine
end

