-- ==== Sys2Proof/Laws/Combine.lean ====
section
/-!
SUPPORT. What each operation of the Source Combiner does, once: the least value, the order, the median, the
root and the local report.
-/

namespace Sys2Proof.Machine

/-! ## The least value -/

/-- A running least lies at or below its start and every value, and is one of them. -/
theorem least_fold (f : Source → Nat) (xs : List Source) (a : Nat) :
    xs.foldl (fun m y => min m (f y)) a ≤ a ∧
    (∀ x ∈ xs, xs.foldl (fun m y => min m (f y)) a ≤ f x) ∧
    (xs.foldl (fun m y => min m (f y)) a = a ∨
      ∃ x ∈ xs, xs.foldl (fun m y => min m (f y)) a = f x) := by
  induction xs generalizing a with
  | nil => exact ⟨le_refl a, fun x hx => absurd hx List.not_mem_nil, .inl rfl⟩
  | cons y ys ih =>
    rw [List.foldl_cons]
    obtain ⟨h1, h2, h3⟩ := ih (min a (f y))
    refine ⟨by omega, fun x hx => ?_, ?_⟩
    · rcases List.mem_cons.mp hx with rfl | hx
      · omega
      · exact h2 x hx
    · rcases h3 with h3 | ⟨x, hx, h3⟩
      · rcases Nat.le_total a (f y) with h | h
        · exact .inl (by omega)
        · exact .inr ⟨y, List.mem_cons_self, by omega⟩
      · exact .inr ⟨x, List.mem_cons_of_mem _ hx, h3⟩

theorem leastOf_le (f : Source → Nat) {xs : List Source} {x : Source} (hx : x ∈ xs) :
    leastOf f xs ≤ f x := by
  cases xs with
  | nil => exact absurd hx List.not_mem_nil
  | cons y ys =>
    obtain ⟨h1, h2, -⟩ := least_fold f ys (f y)
    rcases List.mem_cons.mp hx with rfl | hx
    · exact h1
    · exact h2 x hx

theorem leastOf_mem (f : Source → Nat) {xs : List Source} (h : xs ≠ []) :
    ∃ x ∈ xs, leastOf f xs = f x := by
  cases xs with
  | nil => exact absurd rfl h
  | cons y ys =>
    rcases (least_fold f ys (f y)).2.2 with h | ⟨x, hx, h⟩
    · exact ⟨y, List.mem_cons_self, h⟩
    · exact ⟨x, List.mem_cons_of_mem _ hx, h⟩

/-- The least value of a part of the list is no less than that of the whole. -/
theorem leastOf_sub (f : Source → Nat) {xs ys : List Source} (h : ys ⊆ xs) (hy : ys ≠ []) :
    leastOf f xs ≤ leastOf f ys := by
  obtain ⟨y, hm, e⟩ := leastOf_mem f hy
  rw [e]
  exact leastOf_le f (h hm)

theorem candidates_ne_nil {xs : List Source} (h : xs ≠ []) : candidates xs ≠ [] := by
  obtain ⟨x, hx, e⟩ := leastOf_mem Source.depth h
  refine List.ne_nil_of_mem (a := x) (List.mem_filter.mpr ⟨hx, decide_eq_true ?_⟩)
  unfold leastDepth; omega

/-! ## The order -/

theorem insertSource_perm (x : Source) (xs : List Source) : (insertSource x xs).Perm (x :: xs) := by
  induction xs with
  | nil => exact List.Perm.refl _
  | cons y ys ih =>
    unfold insertSource; split
    · exact List.Perm.refl _
    · exact (ih.cons y).trans (List.Perm.swap x y ys)

theorem orderSources_perm (xs : List Source) : (orderSources xs).Perm xs := by
  induction xs with
  | nil => exact List.Perm.refl _
  | cons y ys ih => exact (insertSource_perm y _).trans (ih.cons y)

theorem Source.before_iff (a b : Source) :
    a.before b = true ↔ a.theta < b.theta ∨ a.theta = b.theta ∧ a.rank ≤ b.rank := by
  unfold Source.before; rw [decide_eq_true_eq]

theorem insertSource_sorted (x : Source) {xs : List Source}
    (h : xs.Pairwise fun a b => a.before b = true) :
    (insertSource x xs).Pairwise fun a b => a.before b = true := by
  induction xs with
  | nil => exact List.pairwise_singleton _ _
  | cons y ys ih =>
    rw [List.pairwise_cons] at h
    unfold insertSource; split
    · rename_i hxy
      refine List.pairwise_cons.mpr ⟨fun z hz => ?_, List.pairwise_cons.mpr h⟩
      rcases List.mem_cons.mp hz with rfl | hz
      · exact hxy
      · have := h.1 z hz
        rw [Source.before_iff] at *; omega
    · rename_i hxy
      refine List.pairwise_cons.mpr ⟨fun z hz => ?_, ih h.2⟩
      rcases List.mem_cons.mp ((insertSource_perm x ys).mem_iff.mp hz) with rfl | hz
      · rw [Source.before_iff] at *; omega
      · exact h.1 z hz

theorem orderSources_sorted (xs : List Source) :
    (orderSources xs).Pairwise fun a b => a.before b = true := by
  induction xs with
  | nil => exact List.Pairwise.nil
  | cons y ys ih => exact insertSource_sorted y ih

/-! ## Weights and the median -/

theorem Source.weight_pos (x : Source) : 1 ≤ x.weight := by unfold Source.weight; omega

theorem totalWeight_pos {xs : List Source} (h : xs ≠ []) : 1 ≤ totalWeight xs := by
  cases xs with
  | nil => exact absurd rfl h
  | cons x xs =>
    have := x.weight_pos
    unfold totalWeight
    rw [List.map_cons, List.sum_cons]; omega

theorem totalWeight_order (xs : List Source) : totalWeight (orderSources xs) = totalWeight xs :=
  ((orderSources_perm xs).map _).sum_eq

/-- The median search stops at the first source at which twice the cumulative weight reaches the total. -/
theorem medianFrom_spec (total acc : Nat) (xs : List Source)
    (h : total ≤ 2 * (acc + totalWeight xs)) (hacc : 2 * acc < total) :
    ∃ before x after, xs = before ++ x :: after ∧ medianFrom total acc xs = x.theta ∧
      2 * (acc + totalWeight before) < total ∧
      total ≤ 2 * (acc + totalWeight before + x.weight) := by
  induction xs generalizing acc with
  | nil =>
    have : totalWeight [] = 0 := rfl
    omega
  | cons y ys ih =>
    unfold medianFrom; split
    · rename_i hy
      exact ⟨[], y, ys, rfl, rfl, hacc, hy⟩
    · rename_i hy
      have e : ∀ l, totalWeight (y :: l) = y.weight + totalWeight l := fun l => rfl
      obtain ⟨b, x, a, h1, h2, h3, h4⟩ := ih (acc + y.weight) (by rw [e] at h; omega) (by omega)
      refine ⟨y :: b, x, a, by rw [h1]; rfl, h2, ?_, ?_⟩
      · rw [e]; omega
      · rw [e]; omega

/-! ## The combined uncertainty -/

/-- The bits kept stay below the root, and no bit more fits. -/
theorem belowRoot_spec (w n y : Nat) (hlo : y * y * w < Config.weightOne)
    (hhi : Config.weightOne ≤ (y + 2 ^ n) * (y + 2 ^ n) * w) :
    belowRoot w n y * belowRoot w n y * w < Config.weightOne ∧
    Config.weightOne ≤ (belowRoot w n y + 1) * (belowRoot w n y + 1) * w := by
  induction n generalizing y with
  | zero => exact ⟨hlo, hhi⟩
  | succ n ih =>
    unfold belowRoot; split
    · rename_i h
      refine ih _ h ?_
      rwa [show y + 2 ^ n + 2 ^ n = y + 2 ^ (n + 1) by rw [pow_succ]; omega]
    · rename_i h
      exact ih _ hlo (Nat.not_lt.mp h)

/-- The combined uncertainty is the smallest positive number whose square times the weight reaches 2^38. -/
theorem combinedU_spec {w : Nat} (hw : 1 ≤ w) :
    Config.weightOne ≤ combinedU w * combinedU w * w ∧
    ∀ y, y < combinedU w → y * y * w < Config.weightOne := by
  have hlo : 0 * 0 * w < Config.weightOne := by rw [Nat.zero_mul]; decide
  have hhi : Config.weightOne ≤ (0 + 2 ^ 20) * (0 + 2 ^ 20) * w :=
    le_trans (by decide) (Nat.le_mul_of_pos_right _ hw)
  obtain ⟨h1, h2⟩ := belowRoot_spec w 20 0 hlo hhi
  refine ⟨h2, fun y hy => lt_of_le_of_lt ?_ h1⟩
  unfold combinedU at hy
  exact Nat.mul_le_mul_right w (Nat.mul_le_mul (by omega) (by omega))

/-! ## Reports -/

/-- A report on a local source. -/
theorem localReport_eq (k bar : Nat) (kept : Bool) (n : Nat) (b : Option Nat) :
    localReport k bar kept n b =
      (if kept then 0 else if n < 3 then n + 1 else 4,
        if kept = false ∧ 3 ≤ n then some (k + bar) else b) := by
  unfold localReport
  cases kept
  · by_cases h : n < 3
    · rw [if_neg (by decide), if_pos (by omega), if_neg (by decide), if_pos h, if_neg (by omega)]
    · rw [if_neg (by decide), if_neg (by omega), if_neg (by decide), if_neg h, if_pos ⟨rfl, by omega⟩]
  · rw [if_pos rfl, if_pos rfl, if_neg fun h => nomatch h.1]

end Sys2Proof.Machine
end

