-- ==== Sys2Proof/Laws/Line.lean ====
section
/-!
SUPPORT. The bit a line shows on a tick, the fields of a frame, and the lengths of the records' payloads.
-/

namespace Sys2Proof.Machine

/-! ## The bit on a line -/

/-- Bit `m` has begun by tick `d` of a frame exactly where the bit on the line is `m` or a later one. -/
theorem bitTick_le_iff {rate : Nat} (hr : 0 < rate) (hm : rate ≤ 10000000) (m d : Int) :
    bitTick rate m ≤ d ↔ m ≤ bitAt rate d := by
  have near : ∀ n : Int, bitTick rate n * rate ≤ n * 20000000 + 5000000 ∧
      n * 20000000 ≤ bitTick rate n * rate + 5000000 ∧
      2 * (n * 20000000) ≤ 2 * (bitTick rate n * rate) + rate ∧
      2 * (bitTick rate n * rate) ≤ 2 * (n * 20000000) + rate := by
    intro n
    have h := roundDiv_near (n * Config.ticksPerSecond) hr
    have e : bitTick rate n = roundDiv (n * Config.ticksPerSecond) rate := rfl
    rw [← e, show (Config.ticksPerSecond : Int) = 20000000 from rfl] at h
    omega
  have hd := Int.mul_ediv_add_emod (d * rate) 20000000
  have h0 := Int.emod_nonneg (d * rate) (b := 20000000) (by decide)
  have h1 := Int.emod_lt_of_pos (d * rate) (b := 20000000) (by decide)
  unfold bitAt
  dsimp only
  rw [show (Config.ticksPerSecond : Int) = 20000000 from rfl]
  generalize d * rate / 20000000 = q at *
  have le : ∀ n : Int, bitTick rate n ≤ d → n ≤ q + 1 := fun n h => by
    have := near n
    have := Int.mul_le_mul_of_nonneg_right h (Int.natCast_nonneg rate)
    omega
  have lt : ∀ n : Int, d < bitTick rate n → q < n := fun n h => by
    have := near n
    have := Int.mul_le_mul_of_nonneg_right (Int.add_one_le_of_lt h) (Int.natCast_nonneg rate)
    rw [Int.add_mul, Int.one_mul] at this
    omega
  have ge : ∀ n : Int, n ≤ q → bitTick rate n ≤ d := fun n h =>
    Int.not_lt.mp fun h' => absurd (lt n h') (Int.not_lt.mpr h)
  split
  · rename_i h
    refine ⟨le m, fun h' => ?_⟩
    rcases Int.le_iff_lt_or_eq.mp h' with h' | rfl
    · exact ge m (Int.lt_add_one_iff.mp h')
    · exact h
  · rename_i h
    refine ⟨fun h' => ?_, ge m⟩
    rcases Int.le_iff_lt_or_eq.mp (le m h') with h'' | rfl
    · exact Int.lt_add_one_iff.mp h''
    · exact absurd h' h

/-- The bit on the line from its tick until the next bit's tick. -/
theorem bitAt_eq {rate : Nat} (hr : 0 < rate) (hm : rate ≤ 10000000) {m d : Int}
    (h1 : bitTick rate m ≤ d) (h2 : d < bitTick rate (m + 1)) : bitAt rate d = m := by
  have := (bitTick_le_iff hr hm m d).mp h1
  have := mt (bitTick_le_iff hr hm (m + 1) d).mpr (Int.not_le.mpr h2)
  omega

theorem asyncBits_length (b : Byte) : (asyncBits b).length = 10 := rfl

/-- Bit `j` of byte `i` of a frame's line bits. -/
theorem lineBits_getD {bytes : List Byte} {i j : Nat} {b : Byte} (h : bytes[i]? = some b)
    (hj : j < 10) :
    (bytes.flatMap asyncBits).getD (10 * i + j) true =
      if j = 0 then false else if j = 9 then true else b.getLsbD (j - 1) := by
  induction bytes generalizing i with
  | nil => simp at h
  | cons x xs ih =>
    rw [List.flatMap_cons, List.getD_eq_getElem?_getD]
    cases i with
    | zero =>
      cases h
      rw [List.getElem?_append_left (by rw [asyncBits_length]; omega)]
      interval_cases j <;> rfl
    | succ i =>
      rw [List.getElem?_append_right (by rw [asyncBits_length]; omega), asyncBits_length,
        show 10 * (i + 1) + j - 10 = 10 * i + j by omega, ← List.getD_eq_getElem?_getD]
      exact ih h

/-! ## Fields -/

/-- A field is its bytes, most significant first (R194). -/
theorem beBytes_eq (n v : Nat) : beBytes n v = bigEndian n v := by
  induction n generalizing v with
  | zero => rfl
  | succ n ih =>
    unfold bigEndian at ih ⊢
    rw [beBytes, ih, List.range_succ, List.map_append]
    congr 1
    · refine List.map_congr_left fun i hi => ?_
      have := List.mem_range.mp hi
      rw [Nat.div_div_eq_div_mul, ← Nat.pow_succ', show (n - 1 - i).succ = n + 1 - 1 - i by omega]
    · simp

/-! ## Payload lengths -/

theorem flatMap_length {α : Type} {f : α → List Byte} {n : Nat} (hf : ∀ a, (f a).length = n)
    (l : List α) : (l.flatMap f).length = n * l.length := by
  induction l with
  | nil => rfl
  | cons a as ih =>
    rw [List.flatMap_cons, List.length_append, hf, ih, List.length_cons, Nat.mul_succ, Nat.add_comm]

theorem BreakRec.payload_length (r : BreakRec) : r.payload.length = 23 := by
  simp [BreakRec.payload, beBytes_length, signedBytes_length, timeBytes_length]

theorem CoincRec.payload_length (r : CoincRec) : r.payload.length = 12 + 8 * r.items.length := by
  have := flatMap_length (f := fun i : StationItem =>
    beBytes 1 i.station ++ beBytes 4 i.offset ++ beBytes 3 i.u) (n := 8)
    (fun a => by simp [beBytes_length]) r.items
  simp only [CoincRec.payload, List.length_append, beBytes_length, timeBytes_length, this]

theorem TimingRec.payload_length (r : TimingRec) : r.payload.length = 43 := by
  simp [TimingRec.payload, beBytes_length, signedBytes_length, timeBytes_length]

theorem TriggerRec.payload_length (r : TriggerRec) : r.payload.length = 14 := by
  simp [TriggerRec.payload, beBytes_length, timeBytes_length]

theorem StatusRec.payload_length {r : StatusRec} (he : r.edges.length = 4) (hs : r.stats.length = 24) :
    r.payload.length = 79 := by
  have h1 := flatMap_length (f := fun c : Count32 => beBytes 4 c.toNat) (n := 4)
    (fun a => beBytes_length _ _) r.edges
  have h2 := flatMap_length (f := fun c : Stat => beBytes 2 c.toNat) (n := 2)
    (fun a => beBytes_length _ _) r.stats
  unfold StatusRec.payload
  simp only [List.length_append, h1, h2, he, hs, beBytes_length, signedBytes_length,
    List.length_singleton]
  cases r.temp <;> cases r.bin <;> simp [beBytes_length, signedBytes_length]

theorem PeerRec.payload_length (r : PeerRec) : r.payload.length = 35 := by
  unfold PeerRec.payload
  cases r.offset <;> simp [beBytes_length, signedBytes_length]

end Sys2Proof.Machine
end

