-- ==== Sys2Proof/Laws/Link.lean ====
section
/-!
SUPPORT. What each operation of the Mark Link Controller does, once: its lists, its slots, its timings.
-/

namespace Sys2Proof.Machine

/-! ## Timings -/

theorem Settings.mSeconds_ge (c : Settings) : 4 ≤ c.mSeconds := by
  unfold Settings.mSeconds
  exact Nat.le_mul_of_pos_right 4 (Nat.pow_pos (by decide))

theorem Settings.markTicks_pos (c : Settings) : 0 < c.markTicks := by
  have := c.mSeconds_ge
  unfold Settings.markTicks Config.ticksPerSecond; omega

theorem Settings.linkRate_ge (c : Settings) : 4800 ≤ c.linkRate := by
  unfold Settings.linkRate
  exact Nat.le_mul_of_pos_right 4800 (Nat.pow_pos (by decide))

/-- The lead is at most 50 ms for a key lead in its range (R43). -/
theorem Settings.lead_le (c : Settings) (h : c.keyLead ≤ 50) : c.lead ≤ 1000000 := by
  have hr := c.linkRate_ge
  have : (bitTick c.linkRate 60).toNat ≤ 250000 := by
    have e : bitTick c.linkRate 60 = ((2 * 1200000000 + c.linkRate) / (2 * c.linkRate) : Nat) := by
      unfold bitTick
      rw [show (60 * (Config.ticksPerSecond : Nat) : Int) = ((1200000000 : Nat) : Int) by decide,
        roundDiv_ofNat]
    rw [e, Int.toNat_natCast]
    generalize c.linkRate = r at *
    apply Nat.le_of_lt_succ
    rw [Nat.div_lt_iff_lt_mul (by omega)]
    omega
  unfold Settings.lead Config.ticksPerMs
  omega

/-! ## A byte in progress -/

/-- The start bit has been read and reads high: two of its three samples are high (R54). -/
theorem ByteIn.falseStart_iff (b : ByteIn) :
    b.falseStart = true ↔ 3 ≤ b.votes.length ∧ 2 ≤ (b.votes.take 3).count true := by
  unfold ByteIn.falseStart voteBit
  match b.votes with
  | [] => simp
  | [_] => simp
  | [_, _] => simp
  | x :: y :: z :: _ => cases x <;> cases y <;> cases z <;> simp [majority]

/-- The edge is confirmed where the start bit has been read and does not read high (R54). -/
theorem ByteIn.confirmed_iff (b : ByteIn) :
    b.confirmed = true ↔ 3 ≤ b.votes.length ∧ b.falseStart = false := by
  unfold ByteIn.confirmed ByteIn.falseStart
  by_cases h : 3 ≤ b.votes.length <;> simp [h]

/-- The tick of a sample is the first at or after its time (R54). -/
theorem sampleTick_le_iff {rate : Nat} (hr : 0 < rate) (edge j k : Nat) (hj : 0 < j) :
    sampleTick rate edge j ≤ k ↔ j * 20000000 ≤ 16 * rate * (k - edge) := by
  unfold sampleTick ceilDiv Config.ticksPerSecond
  have hd : 0 < 16 * rate := by omega
  generalize 16 * rate = d at *
  have hq : (j * 20000000 + d - 1) / d ≤ k - edge ↔ j * 20000000 ≤ d * (k - edge) := by
    rw [← Nat.lt_succ_iff, Nat.div_lt_iff_lt_mul hd, Nat.succ_mul, Nat.mul_comm (k - edge) d]
    omega
  have : 0 < (j * 20000000 + d - 1) / d := Nat.div_pos (by omega) hd
  rw [← hq]
  omega

/-! ## The confirmation of a start bit -/

/-- What a confirmation does (R25, R26). -/
theorem CaptureUnit.confirm_armed {c : CaptureUnit} {p : Capture} (hp : c.provisional = some p)
    (hr : c.ref = .armed) :
    c.confirm =
      { c with
        startEdge := some p, provisional := none, ref := .held p, refEdges := c.refEdges + 1 } := by
  unfold CaptureUnit.confirm; rw [hp, hr]

theorem CaptureUnit.confirm_other {c : CaptureUnit} {p : Capture} (hp : c.provisional = some p)
    (hr : c.ref ≠ .armed) : c.confirm = { c with startEdge := some p, provisional := none } := by
  unfold CaptureUnit.confirm
  rw [hp]
  cases h : c.ref with
  | armed => exact absurd h hr
  | idle => rfl
  | held _ => rfl

/-- Nothing is confirmed while no start bit has been read low (R54). -/
theorem CaptureUnit.hear_none {l : MarkLink} (c : CaptureUnit)
    (h : ∀ b, l.byteIn = some b → b.confirmed = false) : c.hear l = c := by
  unfold CaptureUnit.hear MarkLink.startConfirmed
  cases hb : l.byteIn with
  | none => rfl
  | some b => exact if_neg (Bool.not_eq_true _ ▸ h b hb)

/-- A start bit read low is confirmed (R54). -/
theorem CaptureUnit.hear_confirmed {l : MarkLink} {b : ByteIn} (c : CaptureUnit) (hb : l.byteIn = some b)
    (h : b.confirmed = true) : c.hear l = c.confirm := by
  unfold CaptureUnit.hear MarkLink.startConfirmed; rw [hb]; dsimp only; rw [if_pos h]

/-! ## The echo queue and the launch list -/

theorem ageEchoes_sublist (count : Count32) (q : List EchoEntry) :
    (ageEchoes count q).Sublist q := List.filter_sublist

theorem dropStation_sublist (station : Nat) (q : List EchoEntry) :
    (dropStation station q).Sublist q := List.filter_sublist

theorem dropStation_not_mem (station : Nat) (q : List EchoEntry) :
    station ∉ (dropStation station q).map EchoEntry.station := by
  intro h
  obtain ⟨e, he, hs⟩ := List.mem_map.mp h
  exact of_decide_eq_true (List.mem_filter.mp he).2 hs

/-- The sender's entry is dropped where there is one, so that the queue is shorter. -/
theorem dropStation_length {station : Nat} {q : List EchoEntry}
    (h : (q.any fun x => decide (x.station = station)) = true) :
    (dropStation station q).length < q.length := by
  obtain ⟨x, hx, hs⟩ := List.any_eq_true.mp h
  unfold dropStation
  refine Nat.lt_of_le_of_ne (List.length_filter_le _ _) fun hl => ?_
  rw [List.length_filter_eq_length_iff] at hl
  exact of_decide_eq_true (hl x hx) (of_decide_eq_true hs)

theorem addLaunch_length (e : LaunchEntry) {l : List LaunchEntry} (h : l.length ≤ 4) :
    (addLaunch e l).length ≤ 4 := by
  unfold addLaunch; split <;> simp <;> omega

/-- An entry placed leaves at most eight entries, one a station (R51). -/
theorem placeEcho_echoes (e : EchoEntry) {l : MarkLink} (hl : l.echoes.length ≤ 8)
    (hn : (l.echoes.map EchoEntry.station).Nodup) :
    (l.placeEcho e).echoes.length ≤ 8 ∧ ((l.placeEcho e).echoes.map EchoEntry.station).Nodup := by
  have hsnoc : ∀ q : List EchoEntry, (q.map EchoEntry.station).Nodup →
      e.station ∉ q.map EchoEntry.station → ((q ++ [e]).map EchoEntry.station).Nodup := by
    intro q h1 h2
    rw [List.map_append, List.nodup_append]
    refine ⟨h1, List.nodup_singleton _, fun a ha b hb hab => h2 ?_⟩
    rw [List.mem_singleton.mp hb] at hab
    exact hab ▸ ha
  unfold MarkLink.placeEcho
  split
  · rename_i h
    have := dropStation_length h
    refine ⟨?_, hsnoc _ (hn.sublist ((dropStation_sublist _ _).map _)) (dropStation_not_mem _ _)⟩
    show (_ ++ [e]).length ≤ 8
    rw [List.length_append, List.length_singleton]; omega
  · rename_i h
    have hne : e.station ∉ l.echoes.map EchoEntry.station := by
      intro hm
      obtain ⟨x, hx, hs⟩ := List.mem_map.mp hm
      exact h (List.any_eq_true.mpr ⟨x, hx, decide_eq_true hs⟩)
    split
    · refine ⟨?_, hsnoc _ (hn.sublist ((List.tail_sublist _).map _)) fun hm => hne ?_⟩
      · show (_ ++ [e]).length ≤ 8
        rw [List.length_append, List.length_singleton, List.length_tail]; omega
      · exact ((List.tail_sublist _).map _).subset hm
    · refine ⟨?_, hsnoc _ hn hne⟩
      show (_ ++ [e]).length ≤ 8
      rw [List.length_append, List.length_singleton]; omega

/-- A sender's older entry leaves for the new one (R51). -/
theorem placeEcho_known {e : EchoEntry} {l : MarkLink} (h : ∃ x ∈ l.echoes, x.station = e.station) :
    l.placeEcho e = { l with echoes := dropStation e.station l.echoes ++ [e] } := by
  obtain ⟨x, hx, hs⟩ := h
  unfold MarkLink.placeEcho
  rw [if_pos (List.any_eq_true.mpr ⟨x, hx, decide_eq_true hs⟩)]

/-- A new sender's entry joins the tail of a queue with room; the oldest of eight leaves and is counted
(R51). -/
theorem placeEcho_new {e : EchoEntry} {l : MarkLink} (h : ∀ x ∈ l.echoes, x.station ≠ e.station) :
    l.placeEcho e =
      if l.echoes.length < 8 then { l with echoes := l.echoes ++ [e] }
      else { l with
        echoes := l.echoes.tail ++ [e], echoOverwritten := bump l.echoOverwritten } := by
  have hn : ¬ (l.echoes.any fun x => decide (x.station = e.station)) = true := by
    rw [List.any_eq_true]
    rintro ⟨x, hx, hs⟩
    exact h x hx (of_decide_eq_true hs)
  unfold MarkLink.placeEcho
  rw [if_neg hn]
  split
  · rw [if_neg (by omega)]
  · rw [if_pos (by omega)]

/-- What placing an echo entry leaves. -/
theorem placeEcho_keeps (e : EchoEntry) (l : MarkLink) :
    l.placeEcho e =
      { l with
        echoes := (l.placeEcho e).echoes
        echoOverwritten := (l.placeEcho e).echoOverwritten } := by
  unfold MarkLink.placeEcho
  split
  · rfl
  · split <;> rfl

end Sys2Proof.Machine
end

