-- ==== Sys2Proof/Laws/Peers.lean ====
section
/-!
SUPPORT. What each operation of the Peer Table does, once: the slots' stations under each change, lookups,
and an entry's legality.
-/

namespace Sys2Proof.Machine

/-! ## The stations of slots -/

/-- The stations of a list of slots, in order. -/
theorem stations_eq (p : PeerTable) :
    p.stations = p.slots.filterMap (Option.map PeerEntry.station) := rfl

theorem stations_cons (e : PeerEntry) (l : List (Option PeerEntry)) :
    (some e :: l).filterMap (Option.map PeerEntry.station) =
      e.station :: l.filterMap (Option.map PeerEntry.station) := rfl

theorem stations_skip (l : List (Option PeerEntry)) :
    (none :: l).filterMap (Option.map PeerEntry.station) =
      l.filterMap (Option.map PeerEntry.station) := rfl

theorem mem_stations (p : PeerTable) (n : Nat) :
    n ∈ p.stations ↔ ∃ e, some e ∈ p.slots ∧ e.station = n := by
  unfold PeerTable.stations
  rw [List.mem_filterMap]
  constructor
  · rintro ⟨slot, hs, h⟩
    cases slot with
    | none => cases h
    | some e => exact ⟨e, hs, Option.some.inj h⟩
  · rintro ⟨e, he, rfl⟩
    exact ⟨some e, he, rfl⟩

theorem any_holdsStation (p : PeerTable) (n : Nat) :
    p.slots.any (holdsStation n) = true ↔ n ∈ p.stations := by
  rw [mem_stations, List.any_eq_true]
  constructor
  · rintro ⟨slot, hs, h⟩
    cases slot with
    | none => cases h
    | some e => exact ⟨e, hs, of_decide_eq_true h⟩
  · rintro ⟨e, he, h⟩
    exact ⟨some e, he, decide_eq_true h⟩

/-- A change of entries that keeps their stations keeps the stations of the slots. -/
theorem stations_map {f : Option PeerEntry → Option PeerEntry}
    (hf : ∀ slot, (f slot).map PeerEntry.station = slot.map PeerEntry.station)
    (l : List (Option PeerEntry)) :
    (l.map f).filterMap (Option.map PeerEntry.station) =
      l.filterMap (Option.map PeerEntry.station) := by
  rw [List.filterMap_map]
  exact congrArg (fun g => l.filterMap g) (funext hf)

theorem modifySlot_station {station : Nat} {f : PeerEntry → PeerEntry}
    (hf : ∀ e, (f e).station = e.station) (slot : Option PeerEntry) :
    (modifySlot station f slot).map PeerEntry.station = slot.map PeerEntry.station := by
  cases slot with
  | none => rfl
  | some e =>
    unfold modifySlot; dsimp only; split
    · exact congrArg some (hf e)
    · rfl

/-- The stations after the change of one station's entry. -/
theorem modify_stations (p : PeerTable) (station : Nat) {f : PeerEntry → PeerEntry}
    (hf : ∀ e, (f e).station = e.station) : (p.modify station f).stations = p.stations :=
  stations_map (modifySlot_station hf) p.slots

/-- Where no station stands twice, two slots with one station are one slot. -/
theorem slot_unique {l : List (Option PeerEntry)}
    (h : (l.filterMap (Option.map PeerEntry.station)).Nodup) {i j : Nat} {a b : PeerEntry}
    (hi : l[i]? = some (some a)) (hj : l[j]? = some (some b)) (hab : a.station = b.station) :
    i = j := by
  induction l generalizing i j with
  | nil => simp at hi
  | cons x xs ih =>
    have hmem : ∀ (k : Nat) (e : PeerEntry), xs[k]? = some (some e) →
        e.station ∈ xs.filterMap (Option.map PeerEntry.station) := fun k e hk =>
      List.mem_filterMap.mpr ⟨some e, List.mem_of_getElem? hk, rfl⟩
    cases i with
    | zero =>
      cases j with
      | zero => rfl
      | succ j =>
        rw [List.getElem?_cons_zero] at hi
        cases hi
        rw [stations_cons a, List.nodup_cons] at h
        exact absurd (hab ▸ hmem j b hj) h.1
    | succ i =>
      cases j with
      | zero =>
        rw [List.getElem?_cons_zero] at hj
        cases hj
        rw [stations_cons b, List.nodup_cons] at h
        exact absurd (hab ▸ hmem i a hi) h.1
      | succ j =>
        rw [List.getElem?_cons_succ] at hi hj
        refine congrArg Nat.succ (ih ?_ hi hj)
        cases x with
        | none => exact h
        | some e => exact (List.nodup_cons.mp h).2

/-- Where no station stands twice, a change by station is a change of one slot. -/
theorem modify_eq_set {p : PeerTable} (h : p.stations.Nodup) {i : Nat} {e : PeerEntry}
    (hi : p.slots[i]? = some (some e)) (f : PeerEntry → PeerEntry) :
    p.modify e.station f = { p with slots := p.slots.set i (some (f e)) } := by
  unfold PeerTable.modify
  congr 1
  apply List.ext_getElem?
  intro j
  rw [List.getElem?_map, List.getElem?_set]
  have hlt := (List.getElem?_eq_some_iff.mp hi).1
  by_cases hj : i = j
  · subst hj
    rw [hi, if_pos rfl, if_pos hlt]
    simp [modifySlot]
  · rw [if_neg hj]
    cases hs : p.slots[j]? with
    | none => rfl
    | some slot =>
      cases slot with
      | none => rfl
      | some x =>
        have : x.station ≠ e.station := fun hx => hj (slot_unique h hi hs hx.symm)
        simp [modifySlot, this]

/-- A station that no slot holds changes nothing. -/
theorem modify_absent {p : PeerTable} {station : Nat} (h : station ∉ p.stations)
    (f : PeerEntry → PeerEntry) : p.modify station f = p := by
  unfold PeerTable.modify
  have : p.slots.map (modifySlot station f) = p.slots := by
    conv_rhs => rw [← List.map_id p.slots]
    refine List.map_congr_left fun slot hs => ?_
    cases slot with
    | none => rfl
    | some e =>
      have : e.station ≠ station := fun he => h ((mem_stations p station).mpr ⟨e, hs, he⟩)
      simp [modifySlot, this]
  rw [this]

/-! ## One slot changed -/

theorem entry_of_getElem? {p : PeerTable} {i : Nat} {x : Option PeerEntry}
    (h : p.slots[i]? = some x) : p.entry i = x := by
  unfold PeerTable.entry
  rw [List.getD_eq_getElem?_getD, h, Option.getD_some]

/-- Emptying a slot leaves a sublist of the stations. -/
theorem set_none_stations (l : List (Option PeerEntry)) (i : Nat) :
    ((l.set i none).filterMap (Option.map PeerEntry.station)).Sublist
      (l.filterMap (Option.map PeerEntry.station)) := by
  induction l generalizing i with
  | nil => exact List.Sublist.refl _
  | cons x xs ih =>
    cases i with
    | zero =>
      rw [List.set_cons_zero, stations_skip]
      cases x with
      | none => exact List.Sublist.refl _
      | some e => exact List.sublist_cons_self _ _
    | succ i =>
      rw [List.set_cons_succ]
      cases x with
      | none => exact ih i
      | some e => exact (ih i).cons_cons _

/-- Replacing a slot's entry by one of the same station keeps the stations. -/
theorem set_same_stations {l : List (Option PeerEntry)} {i : Nat} {e e' : PeerEntry}
    (h : l[i]? = some (some e)) (hs : e'.station = e.station) :
    (l.set i (some e')).filterMap (Option.map PeerEntry.station) =
      l.filterMap (Option.map PeerEntry.station) := by
  induction l generalizing i with
  | nil => simp at h
  | cons x xs ih =>
    cases i with
    | zero =>
      rw [List.getElem?_cons_zero] at h
      cases h
      rw [List.set_cons_zero, stations_cons e,
        stations_cons e', hs]
    | succ i =>
      rw [List.getElem?_cons_succ] at h
      rw [List.set_cons_succ]
      cases x with
      | none => exact ih h
      | some y => exact congrArg (y.station :: ·) (ih h)

/-- Filling a slot with a new station adds that station. -/
theorem set_some_stations {l : List (Option PeerEntry)} {i : Nat} (e : PeerEntry)
    (hn : (l.filterMap (Option.map PeerEntry.station)).Nodup)
    (he : e.station ∉ l.filterMap (Option.map PeerEntry.station)) :
    ((l.set i (some e)).filterMap (Option.map PeerEntry.station)).Nodup ∧
    ∀ n ∈ (l.set i (some e)).filterMap (Option.map PeerEntry.station),
      n = e.station ∨ n ∈ l.filterMap (Option.map PeerEntry.station) := by
  induction l generalizing i with
  | nil => exact ⟨List.nodup_nil, fun n h => by simp at h⟩
  | cons x xs ih =>
    cases i with
    | zero =>
      rw [List.set_cons_zero, stations_cons e]
      cases x with
      | none =>
        exact ⟨List.nodup_cons.mpr ⟨he, hn⟩, fun n h => List.mem_cons.mp h⟩
      | some y =>
        rw [stations_cons y] at hn he ⊢
        rw [List.nodup_cons] at hn
        rw [List.mem_cons] at he
        refine ⟨List.nodup_cons.mpr ⟨fun h => he (.inr h), hn.2⟩, fun n h => ?_⟩
        rcases List.mem_cons.mp h with h | h
        · exact .inl h
        · exact .inr (List.mem_cons_of_mem _ h)
    | succ i =>
      rw [List.set_cons_succ]
      cases x with
      | none => exact ih hn he
      | some y =>
        rw [stations_cons y] at hn he ⊢
        rw [List.nodup_cons] at hn
        rw [List.mem_cons] at he
        obtain ⟨h1, h2⟩ := ih (i := i) hn.2 fun h => he (.inr h)
        rw [stations_cons y]
        refine ⟨List.nodup_cons.mpr ⟨fun h => ?_, h1⟩, fun n h => ?_⟩
        · rcases h2 _ h with h | h
          · exact he (.inl h.symm)
          · exact hn.1 h
        · rcases List.mem_cons.mp h with h | h
          · exact .inr (h ▸ List.mem_cons_self)
          · rcases h2 n h with h | h
            · exact .inl h
            · exact .inr (List.mem_cons_of_mem _ h)

/-! ## The choice of a slot -/

/-- The slot found for a state holds an entry of that state. -/
theorem leastHeard_spec (st : EntryState) (l : List (Option PeerEntry)) (base : Nat)
    (best : Option (Nat × Nat)) (i : Nat) (h : leastHeard st l base best = some i) :
    (∃ k, best = some (i, k)) ∨
    ∃ j e, i = base + j ∧ l[j]? = some (some e) ∧ e.state = st := by
  induction l generalizing base best with
  | nil =>
    unfold leastHeard at h
    cases best with
    | none => cases h
    | some b => cases h; exact .inl ⟨b.2, rfl⟩
  | cons x xs ih =>
    unfold leastHeard at h
    have next : ∀ best', leastHeard st xs (base + 1) best' = some i → (∃ k, best' = some (i, k)) ∨
        ∃ j e, i = base + j ∧ (x :: xs)[j]? = some (some e) ∧ e.state = st := fun best' h' => by
      rcases ih _ _ h' with h'' | ⟨j, e, h1, h2, h3⟩
      · exact .inl h''
      · exact .inr ⟨j + 1, e, by omega, by rwa [List.getElem?_cons_succ], h3⟩
    cases x with
    | none => exact next best h
    | some e =>
      dsimp only at h
      split at h
      · rename_i hc
        rcases next _ h with ⟨k, hk⟩ | hr
        · cases hk
          exact .inr ⟨0, e, rfl, rfl, hc.1⟩
        · exact .inr hr
      · exact next best h

/-- A slot found by the search is the entry of the state that was heard least recently, the lower slot on a
tie; none is found where no entry has the state. `best` carries the best slot before `base`. -/
theorem leastHeard_best (st : EntryState) (l : List (Option PeerEntry)) (base : Nat)
    (best : Option (Nat × Nat)) :
    (∀ b, best = some b →
      (∀ (j : Nat) e, l[j]? = some (some e) → e.state = st → b.2 ≤ e.lastK) →
      leastHeard st l base best = some b.1) ∧
    (∀ (i : Nat) e, l[i]? = some (some e) → e.state = st → (∀ b, best = some b → e.lastK < b.2) →
      (∀ (j : Nat) x, l[j]? = some (some x) → x.state = st →
        e.lastK < x.lastK ∨ e.lastK = x.lastK ∧ i ≤ j) →
      leastHeard st l base best = some (base + i)) ∧
    (best = none → (∀ (j : Nat) e, l[j]? = some (some e) → e.state ≠ st) →
      leastHeard st l base best = none) := by
  induction l generalizing base best with
  | nil =>
    refine ⟨fun b hb _ => ?_, fun i e hi => ?_, fun hb _ => ?_⟩
    · unfold leastHeard; rw [hb]; rfl
    · simp at hi
    · unfold leastHeard; rw [hb]; rfl
  | cons y ys ih =>
    have tail : ∀ {P : Nat → PeerEntry → Prop},
        (∀ (j : Nat) x, (y :: ys)[j]? = some (some x) → P j x) →
        ∀ (j : Nat) x, ys[j]? = some (some x) → P (j + 1) x := fun h j x hj =>
      h (j + 1) x (by rwa [List.getElem?_cons_succ])
    refine ⟨fun b hb hall => ?_, fun i e hi he hbest hall => ?_, fun hb hall => ?_⟩
    · unfold leastHeard
      cases y with
      | none => exact (ih (base + 1) best).1 b hb (tail hall)
      | some a =>
        dsimp only
        rw [if_neg]
        · exact (ih (base + 1) best).1 b hb (tail hall)
        · rintro ⟨ha, hb'⟩
          rw [hb] at hb'
          have := of_decide_eq_true (show decide (a.lastK < b.2) = true from hb')
          have := hall 0 a rfl ha
          omega
    · unfold leastHeard
      cases i with
      | zero =>
        rw [List.getElem?_cons_zero] at hi
        cases hi
        dsimp only
        rw [if_pos]
        · refine (ih (base + 1) _).1 (base, e.lastK) rfl fun j x hj hx => ?_
          rcases hall (j + 1) x (by rwa [List.getElem?_cons_succ]) hx with h | h
          · exact h.le
          · exact h.1.le
        · refine ⟨he, ?_⟩
          cases best with
          | none => rfl
          | some b => exact decide_eq_true (hbest b rfl)
      | succ i =>
        rw [List.getElem?_cons_succ] at hi
        have hall' : ∀ (j : Nat) x, ys[j]? = some (some x) → x.state = st →
            e.lastK < x.lastK ∨ e.lastK = x.lastK ∧ i ≤ j := fun j x hj hx => by
          rcases hall (j + 1) x (by rwa [List.getElem?_cons_succ]) hx with h | h
          · exact .inl h
          · exact .inr ⟨h.1, by omega⟩
        have e1 : base + (i + 1) = base + 1 + i := by omega
        rw [e1]
        cases y with
        | none => exact (ih (base + 1) best).2.1 i e hi he hbest hall'
        | some a =>
          dsimp only
          split
          · rename_i hc
            refine (ih (base + 1) _).2.1 i e hi he (fun b hb => ?_) hall'
            cases hb
            rcases hall 0 a rfl hc.1 with h | h
            · exact h
            · omega
          · exact (ih (base + 1) best).2.1 i e hi he hbest hall'
    · unfold leastHeard
      cases y with
      | none => exact (ih (base + 1) best).2.2 hb (tail hall)
      | some a =>
        dsimp only
        rw [if_neg fun hc => hall 0 a rfl hc.1]
        exact (ih (base + 1) best).2.2 hb (tail hall)

/-! ## Histories -/

theorem addRecord_length (r : ExchangeRecord) {h : List ExchangeRecord} (hl : h.length ≤ 8) :
    (addRecord r h).length ≤ 8 := by
  unfold addRecord; split <;> simp <;> omega

theorem addRecent_legal (q : Seq) {l : List Seq} (hl : l.length ≤ 4) (hn : l.Nodup) (hq : q ∉ l) :
    (addRecent q l).length ≤ 4 ∧ (addRecent q l).Nodup := by
  have snoc : ∀ m : List Seq, m.Nodup → q ∉ m → (m ++ [q]).Nodup := fun m h1 h2 => by
    rw [List.nodup_append]
    refine ⟨h1, List.nodup_singleton _, fun a ha b hb hab => h2 ?_⟩
    rw [List.mem_singleton.mp hb] at hab
    exact hab ▸ ha
  unfold addRecent
  split
  · exact ⟨by simp; omega, snoc _ hn hq⟩
  · exact ⟨by simp; omega, snoc _ (hn.sublist (List.tail_sublist _))
      fun h => hq (List.mem_of_mem_tail h)⟩

end Sys2Proof.Machine
end

