-- ==== Sys2Proof/Laws/PerInstr.lean ====
section
/-!
SUPPORT. Statements about each command as syntax: the operands that number something the part has only so
many of, and the well-formedness that follows from them.
-/

namespace Sys2Proof.Laws

/-- The operand that numbers a slot of the Peer Table, where the command has one (4.1). -/
def slotOperand : Instr → Option Nat
  | .trialTimeout slot | .trackedSilent slot | .silentTimeout slot
  | .recordExpiry slot | .barringEnd slot => some slot
  | .tick _ | .powerOnReset | .resetPinReset | .strapSampling | .missingAcknowledge
  | .configSettle | .configReadEnd | .stepApplication | .ppsEdge | .sampleStrobeEdge
  | .gapDeadline | .gridPulseIssue | .sampleCmdPulseEnd | .trigInEdge | .linkByteReceived
  | .huntHistoryForget | .receiptTruncated | .listenPeriodEnd | .markIntervalStart
  | .keyUpCheck _ | .referenceInstant | .launchEnd | .servoUpdate | .localSourceBarringEnd _
  | .coastGrowth | .coastLimit | .conversionStart | .conversionComplete _
  | .anchorMessageComplete | .anchorMessageAbandoned | .lossTimerExpiry | .listExpiry
  | .coincOutPulseEnd | .frameEnd | .statusTimer | .peerTimer | .rearmEdge | .linkStartEdge
  | .linkFalseStart | .anchorByteReceived => none

/-- The operand that a converter delivers, where the command has one (R127). -/
def codeOperand : Instr → Option Nat
  | .conversionComplete code => some code
  | .tick _ | .powerOnReset | .resetPinReset | .strapSampling | .missingAcknowledge
  | .configSettle | .configReadEnd | .stepApplication | .ppsEdge | .sampleStrobeEdge
  | .gapDeadline | .gridPulseIssue | .sampleCmdPulseEnd | .trigInEdge | .linkByteReceived
  | .huntHistoryForget | .receiptTruncated | .listenPeriodEnd | .markIntervalStart
  | .keyUpCheck _ | .referenceInstant | .launchEnd | .trialTimeout _ | .trackedSilent _
  | .silentTimeout _ | .recordExpiry _ | .barringEnd _ | .servoUpdate
  | .localSourceBarringEnd _ | .coastGrowth | .coastLimit | .conversionStart
  | .anchorMessageComplete | .anchorMessageAbandoned | .lossTimerExpiry | .listExpiry
  | .coincOutPulseEnd | .frameEnd | .statusTimer | .peerTimer | .rearmEdge | .linkStartEdge
  | .linkFalseStart | .anchorByteReceived => none

/-- A command is well-formed exactly when its slot operand is below 24 and its code operand below
1,024. -/
def OperandRange.Statement (i : Instr) : Prop :=
  i.wellFormed = true ↔
    (∀ slot, slotOperand i = some slot → slot < 24) ∧ ∀ code, codeOperand i = some code → code < 1024

/-- A command with neither operand. -/
theorem range_free {i : Instr} (hw : i.wellFormed = true) (hs : slotOperand i = none)
    (hc : codeOperand i = none) : OperandRange.Statement i := by
  refine ⟨fun _ => ⟨fun _ h => ?_, fun _ h => ?_⟩, fun _ => hw⟩
  · rw [hs] at h; exact nomatch h
  · rw [hc] at h; exact nomatch h

/-- A command with a slot operand. -/
theorem range_slot {i : Instr} {slot : Nat} (hw : i.wellFormed = decide (slot < 24))
    (hs : slotOperand i = some slot) (hc : codeOperand i = none) : OperandRange.Statement i := by
  unfold OperandRange.Statement
  rw [hw, hs, hc, decide_eq_true_eq]
  exact ⟨fun h => ⟨fun _ e => Option.some.inj e ▸ h, fun _ e => nomatch e⟩, fun h => h.1 slot rfl⟩

/-- A command with a code operand. -/
theorem range_code {i : Instr} {code : Nat} (hw : i.wellFormed = decide (code < 1024))
    (hs : slotOperand i = none) (hc : codeOperand i = some code) : OperandRange.Statement i := by
  unfold OperandRange.Statement
  rw [hw, hs, hc, decide_eq_true_eq]
  exact ⟨fun h => ⟨fun _ e => (nomatch e), fun _ e => Option.some.inj e ▸ h⟩, fun h => h.2 code rfl⟩

theorem OperandRange.tick (pins : Pins) :
    OperandRange.Statement (.tick pins) := range_free rfl rfl rfl

theorem OperandRange.powerOnReset : OperandRange.Statement .powerOnReset := range_free rfl rfl rfl

theorem OperandRange.resetPinReset : OperandRange.Statement .resetPinReset := range_free rfl rfl rfl

theorem OperandRange.strapSampling : OperandRange.Statement .strapSampling := range_free rfl rfl rfl

theorem OperandRange.missingAcknowledge : OperandRange.Statement .missingAcknowledge :=
  range_free rfl rfl rfl

theorem OperandRange.configSettle : OperandRange.Statement .configSettle := range_free rfl rfl rfl

theorem OperandRange.configReadEnd : OperandRange.Statement .configReadEnd := range_free rfl rfl rfl

theorem OperandRange.stepApplication : OperandRange.Statement .stepApplication :=
  range_free rfl rfl rfl

theorem OperandRange.ppsEdge : OperandRange.Statement .ppsEdge := range_free rfl rfl rfl

theorem OperandRange.sampleStrobeEdge : OperandRange.Statement .sampleStrobeEdge :=
  range_free rfl rfl rfl

theorem OperandRange.gapDeadline : OperandRange.Statement .gapDeadline := range_free rfl rfl rfl

theorem OperandRange.gridPulseIssue : OperandRange.Statement .gridPulseIssue :=
  range_free rfl rfl rfl

theorem OperandRange.sampleCmdPulseEnd : OperandRange.Statement .sampleCmdPulseEnd :=
  range_free rfl rfl rfl

theorem OperandRange.trigInEdge : OperandRange.Statement .trigInEdge := range_free rfl rfl rfl

theorem OperandRange.linkByteReceived : OperandRange.Statement .linkByteReceived :=
  range_free rfl rfl rfl

theorem OperandRange.huntHistoryForget : OperandRange.Statement .huntHistoryForget :=
  range_free rfl rfl rfl

theorem OperandRange.receiptTruncated : OperandRange.Statement .receiptTruncated :=
  range_free rfl rfl rfl

theorem OperandRange.listenPeriodEnd : OperandRange.Statement .listenPeriodEnd :=
  range_free rfl rfl rfl

theorem OperandRange.markIntervalStart : OperandRange.Statement .markIntervalStart :=
  range_free rfl rfl rfl

theorem OperandRange.keyUpCheck (kind : MarkKind) :
    OperandRange.Statement (.keyUpCheck kind) := range_free rfl rfl rfl

theorem OperandRange.referenceInstant : OperandRange.Statement .referenceInstant :=
  range_free rfl rfl rfl

theorem OperandRange.launchEnd : OperandRange.Statement .launchEnd := range_free rfl rfl rfl

theorem OperandRange.trialTimeout (slot : Nat) :
    OperandRange.Statement (.trialTimeout slot) := range_slot rfl rfl rfl

theorem OperandRange.trackedSilent (slot : Nat) :
    OperandRange.Statement (.trackedSilent slot) := range_slot rfl rfl rfl

theorem OperandRange.silentTimeout (slot : Nat) :
    OperandRange.Statement (.silentTimeout slot) := range_slot rfl rfl rfl

theorem OperandRange.recordExpiry (slot : Nat) :
    OperandRange.Statement (.recordExpiry slot) := range_slot rfl rfl rfl

theorem OperandRange.barringEnd (slot : Nat) :
    OperandRange.Statement (.barringEnd slot) := range_slot rfl rfl rfl

theorem OperandRange.servoUpdate : OperandRange.Statement .servoUpdate := range_free rfl rfl rfl

theorem OperandRange.localSourceBarringEnd (source : LocalSource) :
    OperandRange.Statement (.localSourceBarringEnd source) := range_free rfl rfl rfl

theorem OperandRange.coastGrowth : OperandRange.Statement .coastGrowth := range_free rfl rfl rfl

theorem OperandRange.coastLimit : OperandRange.Statement .coastLimit := range_free rfl rfl rfl

theorem OperandRange.conversionStart : OperandRange.Statement .conversionStart :=
  range_free rfl rfl rfl

theorem OperandRange.conversionComplete (code : Nat) :
    OperandRange.Statement (.conversionComplete code) := range_code rfl rfl rfl

theorem OperandRange.anchorMessageComplete : OperandRange.Statement .anchorMessageComplete :=
  range_free rfl rfl rfl

theorem OperandRange.anchorMessageAbandoned : OperandRange.Statement .anchorMessageAbandoned :=
  range_free rfl rfl rfl

theorem OperandRange.lossTimerExpiry : OperandRange.Statement .lossTimerExpiry :=
  range_free rfl rfl rfl

theorem OperandRange.listExpiry : OperandRange.Statement .listExpiry := range_free rfl rfl rfl

theorem OperandRange.coincOutPulseEnd : OperandRange.Statement .coincOutPulseEnd :=
  range_free rfl rfl rfl

theorem OperandRange.frameEnd : OperandRange.Statement .frameEnd := range_free rfl rfl rfl

theorem OperandRange.statusTimer : OperandRange.Statement .statusTimer := range_free rfl rfl rfl

theorem OperandRange.peerTimer : OperandRange.Statement .peerTimer := range_free rfl rfl rfl

theorem OperandRange.rearmEdge : OperandRange.Statement .rearmEdge := range_free rfl rfl rfl

theorem OperandRange.linkStartEdge : OperandRange.Statement .linkStartEdge := range_free rfl rfl rfl

theorem OperandRange.linkFalseStart : OperandRange.Statement .linkFalseStart :=
  range_free rfl rfl rfl

theorem OperandRange.anchorByteReceived : OperandRange.Statement .anchorByteReceived :=
  range_free rfl rfl rfl

end Sys2Proof.Laws
end

