-- ==== Sys2Proof/Laws/Port.lean ====
section
/-!
SUPPORT. What each operation of the Record Port does, once: the classes waiting, the head, the displacement
of a record, and the length of the queue.
-/

namespace Sys2Proof.Machine

theorem Record.cls_le (r : Record) : r.cls ≤ 5 := by
  cases r <;> exact of_decide_eq_true rfl

/-! ## The classes waiting -/

theorem greatest_fold (q : List Record) (a : Nat) :
    a ≤ q.foldl (fun m r => max m r.cls) a ∧
    (∀ r ∈ q, r.cls ≤ q.foldl (fun m r => max m r.cls) a) ∧
    (q.foldl (fun m r => max m r.cls) a = a ∨
      ∃ r ∈ q, q.foldl (fun m r => max m r.cls) a = r.cls) := by
  induction q generalizing a with
  | nil => exact ⟨le_refl a, fun r hr => absurd hr List.not_mem_nil, .inl rfl⟩
  | cons y ys ih =>
    rw [List.foldl_cons]
    obtain ⟨h1, h2, h3⟩ := ih (max a y.cls)
    refine ⟨by omega, fun r hr => ?_, ?_⟩
    · rcases List.mem_cons.mp hr with rfl | hr
      · omega
      · exact h2 r hr
    · rcases h3 with h3 | ⟨x, hx, h3⟩
      · rcases Nat.le_total a y.cls with h | h
        · exact .inr ⟨y, List.mem_cons_self, by omega⟩
        · exact .inl (by omega)
      · exact .inr ⟨x, List.mem_cons_of_mem _ hx, h3⟩

theorem least_class_fold (q : List Record) (a : Nat) :
    q.foldl (fun m r => min m r.cls) a ≤ a ∧
    (∀ r ∈ q, q.foldl (fun m r => min m r.cls) a ≤ r.cls) ∧
    (q.foldl (fun m r => min m r.cls) a = a ∨
      ∃ r ∈ q, q.foldl (fun m r => min m r.cls) a = r.cls) := by
  induction q generalizing a with
  | nil => exact ⟨le_refl a, fun r hr => absurd hr List.not_mem_nil, .inl rfl⟩
  | cons y ys ih =>
    rw [List.foldl_cons]
    obtain ⟨h1, h2, h3⟩ := ih (min a y.cls)
    refine ⟨by omega, fun r hr => ?_, ?_⟩
    · rcases List.mem_cons.mp hr with rfl | hr
      · omega
      · exact h2 r hr
    · rcases h3 with h3 | ⟨x, hx, h3⟩
      · rcases Nat.le_total a y.cls with h | h
        · exact .inl (by omega)
        · exact .inr ⟨y, List.mem_cons_self, by omega⟩
      · exact .inr ⟨x, List.mem_cons_of_mem _ hx, h3⟩

/-- The lowest class waiting is the greatest class number of the queue. -/
theorem lowestClass_eq {q : List Record} {x : Record} (hx : x ∈ q) (h : ∀ y ∈ q, y.cls ≤ x.cls) :
    lowestClass q = x.cls := by
  obtain ⟨-, h2, h3⟩ := greatest_fold q 0
  refine le_antisymm ?_ (h2 x hx)
  rcases h3 with h3 | ⟨r, hr, h3⟩
  · exact h3.le.trans (Nat.zero_le _)
  · exact h3.le.trans (h r hr)

theorem le_lowestClass {q : List Record} {x : Record} (hx : x ∈ q) : x.cls ≤ lowestClass q :=
  (greatest_fold q 0).2.1 x hx

theorem lowestClass_le {q : List Record} {n : Nat} (h : ∀ y ∈ q, y.cls ≤ n) : lowestClass q ≤ n := by
  rcases (greatest_fold q 0).2.2 with h3 | ⟨r, hr, h3⟩
  · exact h3.le.trans (Nat.zero_le _)
  · exact h3.le.trans (h r hr)

/-- The highest class waiting is the least class number of the queue. -/
theorem highestClass_eq {q : List Record} {x : Record} (hx : x ∈ q) (h : ∀ y ∈ q, x.cls ≤ y.cls) :
    highestClass q = x.cls := by
  obtain ⟨-, h2, h3⟩ := least_class_fold q 5
  refine le_antisymm (h2 x hx) ?_
  rcases h3 with h3 | ⟨r, hr, h3⟩
  · exact (Record.cls_le x).trans h3.ge
  · exact (h r hr).trans h3.ge

/-- A class that a waiting record has: the lowest one. -/
theorem lowestClass_mem {q : List Record} (h : q ≠ []) : ∃ x ∈ q, x.cls = lowestClass q := by
  rcases (greatest_fold q 0).2.2 with h3 | ⟨r, hr, h3⟩
  · cases q with
    | nil => exact absurd rfl h
    | cons y ys =>
      refine ⟨y, List.mem_cons_self, ?_⟩
      have := le_lowestClass (q := y :: ys) (x := y) List.mem_cons_self
      have h3 : lowestClass (y :: ys) = 0 := h3
      omega
  · exact ⟨r, hr, h3.symm⟩

/-! ## Removal -/

theorem eraseP_split {p : Record → Bool} {before after : List Record} {x : Record}
    (hb : ∀ y ∈ before, p y = false) (hx : p x = true) :
    (before ++ x :: after).eraseP p = before ++ after := by
  induction before with
  | nil => simp [hx]
  | cons y ys ih =>
    rw [List.cons_append, List.eraseP_cons_of_neg (by simp [hb y List.mem_cons_self]),
      ih fun z hz => hb z (List.mem_cons_of_mem _ hz)]
    rfl

theorem removeOldest_split {before after : List Record} {x : Record} {n : Nat}
    (hb : ∀ y ∈ before, y.cls ≠ n) (hx : x.cls = n) :
    removeOldest n (before ++ x :: after) = before ++ after :=
  eraseP_split (fun y hy => beq_eq_false_iff_ne.mpr (hb y hy)) (beq_iff_eq.mpr hx)

theorem removeNewest_split {before after : List Record} {x : Record} {n : Nat}
    (ha : ∀ y ∈ after, y.cls ≠ n) (hx : x.cls = n) :
    removeNewest n (before ++ x :: after) = before ++ after := by
  unfold removeNewest
  rw [List.reverse_append, List.reverse_cons, List.append_assoc, List.singleton_append,
    eraseP_split (fun y hy => beq_eq_false_iff_ne.mpr (ha y (List.mem_reverse.mp hy)))
      (beq_iff_eq.mpr hx), ← List.reverse_append, List.reverse_reverse]

theorem removeNewest_length {q : List Record} (h : q ≠ []) :
    (removeNewest (lowestClass q) q).length = q.length - 1 := by
  obtain ⟨x, hx, hc⟩ := lowestClass_mem h
  unfold removeNewest
  have hp : (x.cls == lowestClass q) = true := beq_iff_eq.mpr hc
  rw [List.length_reverse,
    List.length_eraseP_of_mem (p := fun r => r.cls == lowestClass q) (List.mem_reverse.mpr hx) hp,
    List.length_reverse]

theorem removeOldest_length (n : Nat) (q : List Record) : (removeOldest n q).length ≤ q.length :=
  List.length_eraseP_le

/-- The head of a queue is the first record of its highest class. -/
theorem headRecord_split {before after : List Record} {x : Record} (hb : ∀ y ∈ before, x.cls < y.cls)
    (ha : ∀ y ∈ after, x.cls ≤ y.cls) :
    headRecord (before ++ x :: after) = some x ∧ highestClass (before ++ x :: after) = x.cls := by
  have hc : highestClass (before ++ x :: after) = x.cls := by
    refine highestClass_eq (by simp) fun y hy => ?_
    rcases List.mem_append.mp hy with h | h
    · exact (hb y h).le
    · rcases List.mem_cons.mp h with rfl | h
      · exact le_refl _
      · exact ha y h
  refine ⟨?_, hc⟩
  unfold headRecord
  rw [hc, List.find?_append, List.find?_eq_none.mpr]
  · rw [Option.none_or]
    exact List.find?_cons_of_pos (p := fun r : Record => r.cls == x.cls) (beq_self_eq_true _)
  · intro y hy h
    have := hb y hy
    have := beq_iff_eq.mp h
    omega

/-! ## The arrival of a record -/

theorem RecordPort.enqueue_length (r : Record) {p : RecordPort} (h : p.queue.length ≤ 16) :
    (p.enqueue r).queue.length ≤ 16 := by
  unfold RecordPort.enqueue
  split
  · exact h
  · split
    · show (p.queue ++ [r]).length ≤ 16
      rw [List.length_append, List.length_singleton]; omega
    · split
      · rename_i hl _
        have : p.queue ≠ [] := fun he => by rw [he] at hl; exact hl (by decide)
        show (removeNewest (lowestClass p.queue) p.queue ++ [r]).length ≤ 16
        rw [List.length_append, List.length_singleton, removeNewest_length this]; omega
      · exact h

theorem RecordPort.enqueue_keeps (r : Record) (p : RecordPort) :
    p.enqueue r =
      { p with
        queue := (p.enqueue r).queue, drops := (p.enqueue r).drops, alerts := (p.enqueue r).alerts } := by
  unfold RecordPort.enqueue
  split
  · rfl
  · split
    · rfl
    · split <;> rfl

theorem RecordPort.takeHead_length (k : Nat) (p : RecordPort) :
    (p.takeHead k).queue.length ≤ p.queue.length := by
  unfold RecordPort.takeHead
  split
  · exact le_refl _
  · split
    · exact le_refl _
    · exact removeOldest_length _ _

theorem RecordPort.takeHead_keeps (k : Nat) (p : RecordPort) :
    p.takeHead k = { p with queue := (p.takeHead k).queue, frame := (p.takeHead k).frame } := by
  unfold RecordPort.takeHead
  split
  · rfl
  · split <;> rfl

/-- A SENDING transmitter takes no record. -/
theorem RecordPort.takeHead_sending (k : Nat) {p : RecordPort} {f : Frame} (h : p.frame = some f) :
    p.takeHead k = p := by
  unfold RecordPort.takeHead; rw [h]

/-- An IDLE transmitter takes the first record of the highest class waiting (R178). -/
theorem RecordPort.takeHead_split (k : Nat) {p : RecordPort} {before after : List Record} {x : Record}
    (hf : p.frame = none) (hq : p.queue = before ++ x :: after) (hb : ∀ y ∈ before, x.cls < y.cls)
    (ha : ∀ y ∈ after, x.cls ≤ y.cls) :
    p.takeHead k = { p with queue := before ++ after, frame := some ⟨k, x.frame⟩ } := by
  obtain ⟨h1, h2⟩ := headRecord_split hb ha
  unfold RecordPort.takeHead
  rw [hf, hq, h1, h2]
  dsimp only
  rw [removeOldest_split (fun y hy => (hb y hy).ne') rfl]

/-- An arrival keeps the port legal. -/
theorem RecordPort.Legal.arrive {p : RecordPort} (h : p.Legal) (k : Nat) (ended : Bool) (r : Record) :
    (p.arrive k ended r).Legal := by
  have hc : (p.enqueue r).cursor = p.cursor := by rw [RecordPort.enqueue_keeps]
  unfold RecordPort.arrive
  split
  · refine ⟨(RecordPort.takeHead_length k _).trans (RecordPort.enqueue_length r h.1), ?_⟩
    rw [RecordPort.takeHead_keeps]
    exact hc ▸ h.2
  · exact ⟨RecordPort.enqueue_length r h.1, hc ▸ h.2⟩

end Sys2Proof.Machine
end

