-- ==== Sys2Proof/Laws/Samples.lean ====
section
/-!
SUPPORT. What each operation of the Sample Aligner does, once: a sample handed over, a block closed, the
grid pointer advanced.
-/

namespace Sys2Proof.Machine

theorem Settings.period_pos (c : Settings) : 0 < c.period := by
  unfold Settings.period; split <;> decide

/-! ## The close of a block -/

/-- The grid deviation is the residue of least size, the positive one at a half (R162). -/
theorem gridDeviation_spec {p : Nat} (hp : 0 < p) (t : TimeVal) :
    -(p : Int) < 2 * gridDeviation p t ∧ 2 * gridDeviation p t ≤ p ∧
    (p : Int) ∣ t.nsCount - gridDeviation p t := by
  have hd := Nat.div_add_mod t.nsCount p
  have hm := Nat.mod_lt t.nsCount hp
  unfold gridDeviation
  generalize t.nsCount / p = q at *
  generalize t.nsCount % p = r at *
  have hq : (t.nsCount : Int) = p * q + r := by exact_mod_cast hd.symm
  dsimp only
  split
  · exact ⟨by omega, by omega, ⟨q, by omega⟩⟩
  · have e : (p : Int) * (q + 1) = p * q + p := by ring
    exact ⟨by omega, by omega, ⟨q + 1, by omega⟩⟩

/-- The record of a close reports the block (R160). -/
theorem timingRecord_reports (s : State) (b : OpenBlock) (period dev : Int) (gap : Bool) :
    ReportsBlock s b period dev gap (timingRecord s b period dev gap) := by
  obtain ⟨h1, h2, h3⟩ := gridDeviation_spec s.cfg.period_pos b.first.t
  exact ⟨rfl, rfl, rfl, rfl, rfl, rfl, rfl, rfl, rfl, h1, h2, h3, rfl, rfl, rfl, rfl, rfl⟩

/-- A close latches RATE_OUT where it holds and queues the record (R159, R161). -/
theorem closeBlock_arrives (b : OpenBlock) (period dev : Int) (gap : Bool) (s : State) :
    TimingArrives s dev (timingRecord s b period dev gap) (closeBlock b period dev gap s).port := by
  unfold TimingArrives closeBlock
  cases h : rateOut dev with
  | true =>
    rw [show decide (1000000 < dev.natAbs) = true from h, Bool.or_true]; rfl
  | false =>
    rw [show decide (1000000 < dev.natAbs) = false from h, Bool.or_false]; rfl

theorem closeFull_touches (b : OpenBlock) (c : Capture) (s : State) :
    closeFull b c s = { s with port := (closeFull b c s).port } := by
  unfold closeFull; dsimp only; exact closeBlock_touches _ _ _ _ _

theorem closeShort_touches (b : OpenBlock) (s : State) :
    closeShort b s = { s with port := (closeShort b s).port } := by
  unfold closeShort; dsimp only; exact closeBlock_touches _ _ _ _ _

/-! ## A sample handed over -/

/-- A block opened in a state whose port alone was changed. -/
theorem openBlock_eq (c : Capture) {s s' : State} {p : RecordPort} (h : s' = { s with port := p }) :
    openBlock c s' =
      { s with
        align := { s.align with
          block := some
            { number := s.align.nextBlock, first := c, last := c, samples := 1, skipped := 0
              stepped := false, coast := decide (s.servo.clock = .coast) }
          nextBlock := s.align.nextBlock + 1
          gapDeadline := gapAfter s c.k }
        port := p } := by
  rw [h]; rfl

/-- A sample in NO_BLOCK opens a block (R149). -/
theorem takeSample_none (c : Capture) {s : State} (h : s.align.block = none) :
    takeSample c s = openBlock c s := by
  unfold takeSample; rw [h]

/-- A sample joins a block that is not full (R150). -/
theorem takeSample_join (c : Capture) {s : State} {b : OpenBlock} (h : s.align.block = some b)
    (hb : b.samples < 2 ^ s.cfg.blockExp) : takeSample c s = joinBlock b c s := by
  unfold takeSample; rw [h]; dsimp only; rw [if_pos (by unfold Settings.blockLength; exact hb)]

/-- A sample closes a full block and opens the next (R150). -/
theorem takeSample_full (c : Capture) {s : State} {b : OpenBlock} (h : s.align.block = some b)
    (hb : 2 ^ s.cfg.blockExp ≤ b.samples) : takeSample c s = openBlock c (closeFull b c s) := by
  unfold takeSample; rw [h]; dsimp only
  rw [if_neg (by unfold Settings.blockLength; omega)]

/-! ## The grid -/

theorem gridAdvance_zero (p : Nat) (g : TimeVal) : gridAdvance p 0 g = g := by
  unfold gridAdvance; rw [Nat.zero_mul, Nat.zero_mul, Nat.add_zero, TimeVal.ofUnits_units]

theorem Settings.period_dvd (c : Settings) : c.period ∣ 10 ^ 9 := by
  unfold Settings.period; split <;> decide

/-- A time that lies `x` after another, modulo the range. -/
theorem after_mod {t x range : Nat} (ht : t < range) (hx : x < range) :
    ((t + x) % range + range - t) % range = x := by
  rcases Nat.lt_or_ge (t + x) range with h | h
  · rw [Nat.mod_eq_of_lt h, show t + x + range - t = x + range by omega, Nat.add_mod_right,
      Nat.mod_eq_of_lt hx]
  · rw [Nat.mod_eq_sub_mod h, Nat.mod_eq_of_lt (by omega : t + x - range < range),
      show t + x - range + range - t = x by omega, Nat.mod_eq_of_lt hx]

/-- The pointer moved on by the skipped instants is the least multiple of p past T (R155). -/
theorem gridAdvance_past {p : Nat} (hp : 0 < p) (hd : p ∣ 10 ^ 9) {g : TimeVal} (t : TimeVal)
    (hf : g.frac = 0) (hg : p ∣ g.nsCount) :
    (gridAdvance p (gridAhead t g / Config.unitsPerNs / p + 1) g).frac = 0 ∧
    p ∣ (gridAdvance p (gridAhead t g / Config.unitsPerNs / p + 1) g).nsCount ∧
    0 < gridAhead (gridAdvance p (gridAhead t g / Config.unitsPerNs / p + 1) g) t ∧
    gridAhead (gridAdvance p (gridAhead t g / Config.unitsPerNs / p + 1) g) t ≤
      p * Config.unitsPerNs := by
  have hgu : g.units = g.nsCount * Config.unitsPerNs := by
    have h0 : g.frac.val = 0 := by rw [hf]; rfl
    unfold TimeVal.units; rw [h0, Nat.add_zero]
  have hadv : ∀ c, gridAdvance p c g = TimeVal.ofNs (g.nsCount + c * p) := fun c => by
    unfold gridAdvance TimeVal.ofNs; rw [hgu, Nat.add_mul]
  have hp9 := Nat.le_of_dvd (by norm_num) hd
  have htu := t.units_lt
  have hgl := g.units_lt
  have hu : Config.unitsPerNs = 4294967296 := rfl
  have hrange : 10 ^ 9 * Config.unitsPerNs < Config.timeRange := by decide
  have hahead : g.units + gridAhead t g = t.units ∨
      g.units + gridAhead t g = t.units + Config.timeRange := by
    unfold gridAhead
    rcases Nat.lt_or_ge t.units g.units with h | h
    · rw [Nat.mod_eq_of_lt (by omega)]; omega
    · rw [show t.units + Config.timeRange - g.units = t.units - g.units + Config.timeRange by omega,
        Nat.add_mod_right, Nat.mod_eq_of_lt (by omega)]; omega
  rw [hadv]
  refine ⟨TimeVal.frac_ofNs _, ?_, ?_⟩
  · rw [TimeVal.nsCount_ofNs]
    exact (Nat.dvd_mod_iff (hd.mul_left _)).mpr (hg.add (Dvd.intro_left _ rfl))
  · have h1 := Nat.div_add_mod (gridAhead t g / Config.unitsPerNs) p
    have h2 := Nat.mod_lt (gridAhead t g / Config.unitsPerNs) hp
    have h3 := Nat.div_add_mod (gridAhead t g) Config.unitsPerNs
    have h4 := Nat.mod_lt (gridAhead t g) (y := Config.unitsPerNs) (by decide)
    have hnew : (TimeVal.ofNs (g.nsCount + (gridAhead t g / Config.unitsPerNs / p + 1) * p)).units =
        (g.units + (gridAhead t g / Config.unitsPerNs / p + 1) * p * Config.unitsPerNs) %
          Config.timeRange := by
      rw [TimeVal.ofNs, TimeVal.units_ofUnits, Nat.add_mul, hgu]
    rw [gridAhead.eq_1 (TimeVal.ofNs _), hnew]
    generalize gridAhead t g = a at *
    generalize a / Config.unitsPerNs / p = q at *
    generalize Config.timeRange = range at *
    have e : (q + 1) * p = p * q + p := by ring
    rw [e]
    generalize a / Config.unitsPerNs = n at *
    rw [hu] at *
    have hx : ∃ x, (p * q + p) * 4294967296 = a + x ∧ 0 < x ∧ x ≤ p * 4294967296 :=
      ⟨(p * q + p) * 4294967296 - a, by omega, by omega, by omega⟩
    obtain ⟨x, hx, h5, h6⟩ := hx
    rw [hx]
    have : (g.units + (a + x)) % range = (t.units + x) % range := by
      rcases hahead with h | h
      · rw [show g.units + (a + x) = t.units + x by omega]
      · rw [show g.units + (a + x) = t.units + x + range by omega, Nat.add_mod_right]
    rw [this, after_mod htu (by omega)]
    exact ⟨h5, h6⟩

end Sys2Proof.Machine
end

