-- ==== Sys2Proof/Laws/Time.lean ====
section
/-!
SUPPORT. What each operation of the Time Scale Unit does, once, and that each keeps the unit legal.
-/

namespace Sys2Proof.Machine

/-- A count split at a range, its whole ranges added to a wrap count. -/
theorem wrapped_total (w n range : Nat) :
    (w + n / range) * range + n % range = w * range + n := by
  have := Nat.div_add_mod n range
  have e : (w + n / range) * range = w * range + range * (n / range) := by ring
  omega

theorem range_cast : (Config.timeRange : Int) = 2 ^ 40 * 10 ^ 9 * 2 ^ 32 := by decide

/-! ## One tick -/

theorem TimeScale.tick_k (ts : TimeScale) : ts.tick.k = min (2 ^ 64 - 1) (ts.k + 1) := rfl
theorem TimeScale.tick_f (ts : TimeScale) : ts.tick.f = ts.f := rfl
theorem TimeScale.tick_p (ts : TimeScale) : ts.tick.p = ts.p := rfl
theorem TimeScale.tick_step (ts : TimeScale) : ts.tick.step = ts.step := rfl

/-- R after a tick: the sum, or the largest value (R4). -/
theorem TimeScale.tick_r (ts : TimeScale) (hf : ts.FLegal) :
    (ts.tick.r.units : Int) =
      min (2 ^ 40 * 10 ^ 9 * 2 ^ 32 - 1) (ts.r.units + (214748364800 + ts.f)) := by
  have hu := ts.r.units_lt
  have hr := range_cast
  unfold TimeScale.FLegal at hf
  have h50 : Config.tickUnits = 214748364800 := rfl
  simp only [TimeScale.tick]
  rw [h50]
  by_cases h : (Config.timeRange : Int) ≤ (ts.r.units : Int) + (214748364800 + ts.f)
  · rw [if_pos h, TimeVal.units_largest]
    omega
  · rw [if_neg h, TimeVal.units_ofUnits, Nat.mod_eq_of_lt (by omega)]
    omega

/-- T read with its wrap count rises by 50 ns plus F and P (R5). -/
theorem TimeScale.tick_totalT (ts : TimeScale) (hf : ts.FLegal) (hp : ts.PLegal) :
    (ts.tick.totalT : Int) = ts.totalT + (214748364800 + ts.f + ts.p) := by
  unfold TimeScale.FLegal at hf
  unfold TimeScale.PLegal at hp
  have h50 : Config.tickUnits = 214748364800 := rfl
  simp only [TimeScale.totalT, TimeScale.tick, TimeVal.units_ofUnits, wrapped_total]
  rw [h50]
  omega

/-! ## A step -/

/-- A step moves T and its wrap count alone, and ceases to exist (R16). -/
theorem TimeScale.stepped_touches (ts : TimeScale) :
    ts.stepped = { ts with t := ts.stepped.t, wraps := ts.stepped.wraps, step := none } := by
  obtain ⟨k, r, t, w, f, p, st⟩ := ts
  unfold TimeScale.stepped
  cases st with
  | none => rfl
  | some p => dsimp only; split <;> rfl

/-- The announced amount of a step that is not limited is its amount (R17). -/
theorem TimeScale.appliedNs_eq (ts : TimeScale) {a : Int} {d : Option Nat}
    (h : ts.step = some ⟨a, d⟩) :
    ts.appliedNs =
      if (ts.t.units : Int) + a * 2 ^ 32 < 0 then -(ts.t.nsCount : Int) else a := by
  have hu : (Config.unitsPerNs : Int) = 2 ^ 32 := rfl
  unfold TimeScale.appliedNs TimeScale.appliedUnits truncDiv
  rw [h]
  dsimp only
  simp only [TimeScale.stepLimited, decide_eq_true_eq, hu]
  split
  · rw [TimeVal.nsCount_eq, Int.neg_tdiv]
    rfl
  · rw [Int.mul_tdiv_cancel]; decide

/-- A limited step leaves T at 0 (R16). -/
theorem TimeScale.stepped_limited (ts : TimeScale) {a : Int} {d : Option Nat}
    (h : ts.step = some ⟨a, d⟩) (hl : (ts.t.units : Int) + a * 2 ^ 32 < 0) :
    ts.stepped.t = TimeVal.zero ∧ ts.stepped.wraps = ts.wraps := by
  have : ts.stepLimited a = true := decide_eq_true hl
  unfold TimeScale.stepped
  rw [h]
  simp only [this, if_true, and_self]

/-- A step that is not limited adds its amount to T, whose seconds wrap (R5, R16). -/
theorem TimeScale.stepped_t (ts : TimeScale) {a : Int} {d : Option Nat}
    (h : ts.step = some ⟨a, d⟩) (hl : ¬ (ts.t.units : Int) + a * 2 ^ 32 < 0) :
    ts.stepped.t = TimeVal.ofUnits ((ts.t.units : Int) + a * 2 ^ 32).toNat ∧
    ts.stepped.wraps = ts.wraps + ((ts.t.units : Int) + a * 2 ^ 32).toNat / Config.timeRange := by
  have : ts.stepLimited a = false := decide_eq_false hl
  unfold TimeScale.stepped
  rw [h]
  simp only [this]
  exact ⟨rfl, rfl⟩

/-- The exact change a step makes (R16). -/
theorem TimeScale.appliedUnits_eq (ts : TimeScale) {a : Int} {d : Option Nat}
    (h : ts.step = some ⟨a, d⟩) :
    ts.appliedUnits =
      if (ts.t.units : Int) + a * 2 ^ 32 < 0 then -(ts.t.units : Int) else a * 2 ^ 32 := by
  unfold TimeScale.appliedUnits
  rw [h]
  by_cases hl : (ts.t.units : Int) + a * 2 ^ 32 < 0
  · have : ts.stepLimited a = true := decide_eq_true hl
    simp only [this, if_true, hl]
  · have : ts.stepLimited a = false := decide_eq_false hl
    simp only [this, hl, if_false]
    rfl

/-- A step's change to T read with its wrap count is its applied amount (R16). -/
theorem TimeScale.stepped_totalT (ts : TimeScale) :
    (ts.stepped.totalT : Int) = ts.totalT + ts.appliedUnits := by
  cases h : ts.step with
  | none => simp [TimeScale.stepped, TimeScale.appliedUnits, h]
  | some p =>
    obtain ⟨a, d⟩ := p
    rw [ts.appliedUnits_eq h]
    unfold TimeScale.totalT
    by_cases hl : (ts.t.units : Int) + a * 2 ^ 32 < 0
    · rw [if_pos hl, (ts.stepped_limited h hl).1, (ts.stepped_limited h hl).2, TimeVal.units_zero]
      omega
    · rw [if_neg hl, (ts.stepped_t h hl).1, (ts.stepped_t h hl).2, TimeVal.units_ofUnits,
        wrapped_total]
      omega

/-! ## The unit stays legal -/

theorem pLegal_zero {ts : TimeScale} (h : ts.p = 0) : ts.PLegal := by
  unfold TimeScale.PLegal; rw [h]; decide

theorem TimeScale.Legal.tick {ts : TimeScale} (h : ts.Legal) : ts.tick.Legal := by
  refine ⟨?_, h.2.1, h.2.2.1, h.2.2.2⟩
  have := ts.tick_k
  simp only [Config.kMax]; omega

theorem TimeScale.Legal.setF {ts : TimeScale} (h : ts.Legal) (v : Int) : (ts.setF v).Legal :=
  ⟨h.1, clampSym_bounds (by decide) v, h.2.2.1, h.2.2.2⟩

theorem TimeScale.Legal.setP {ts : TimeScale} (h : ts.Legal) (v : Int) : (ts.setP v).Legal := by
  unfold TimeScale.setP
  split
  · exact h
  · rename_i hs
    refine ⟨h.1, h.2.1, clampSym_bounds (by decide) v, fun p hp => ?_⟩
    simp only [Option.not_isSome_iff_eq_none] at hs
    rw [show ts.step = some p from hp] at hs
    cases hs

theorem TimeScale.Legal.request {ts : TimeScale} (h : ts.Legal) (keyed : Bool) (a : Int) :
    (ts.request keyed a).Legal := by
  have hb := fun x => clampSym_bounds (l := Config.stepLimit63) (by decide) x
  unfold TimeScale.request
  split
  · refine ⟨h.1, h.2.1, pLegal_zero rfl, fun p hp => ⟨rfl, ?_⟩⟩
    cases hp
    exact hb a
  · rename_i q hq
    refine ⟨h.1, h.2.1, pLegal_zero rfl, fun p hp => ⟨rfl, ?_⟩⟩
    cases hp
    exact hb _

theorem TimeScale.Legal.release {ts : TimeScale} (h : ts.Legal) : ts.release.Legal := by
  unfold TimeScale.release
  split
  · rename_i a hs
    refine ⟨h.1, h.2.1, h.2.2.1, fun p hp => ?_⟩
    cases hp
    exact h.2.2.2 ⟨a, none⟩ hs
  · exact h

theorem TimeScale.Legal.stepped {ts : TimeScale} (h : ts.Legal) : ts.stepped.Legal := by
  rw [TimeScale.stepped_touches]
  exact ⟨h.1, h.2.1, h.2.2.1, fun p hp => nomatch hp⟩

theorem TimeScale.Legal.afterReset {f : Int} (h : -42949673 ≤ f ∧ f ≤ 42949673) :
    (TimeScale.afterReset f).Legal :=
  ⟨Nat.zero_le _, h, pLegal_zero rfl, fun _ hp => nomatch hp⟩

theorem State.chooseCoastF_legal {s : State} (h : s.time.Legal) : s.chooseCoastF.time.Legal := by
  unfold State.chooseCoastF; split
  · exact h.setF _
  · exact h

theorem State.enterCoast_legal {s : State} (h : s.time.Legal) : s.enterCoast.time.Legal := by
  unfold State.enterCoast
  exact State.chooseCoastF_legal h

theorem servoAct_legal {s : State} (r : Option Combined) (h : s.time.Legal) :
    (servoAct r s).time.Legal := by
  unfold servoAct
  split
  · unfold updateUnset; split
    · exact h.request _ _
    · exact (h.setP _).setF _
  · exact h
  · unfold updatePullIn pullInSlew; split
    · exact h.request _ _
    · exact (h.setP _).setF _
  · unfold updateNone; dsimp only; split
    · exact State.enterCoast_legal (s := (s.setP 0).withServo _) (h.setP 0)
    · exact h.setP 0
  · unfold updateLocked lockedBreak lockedSlew; dsimp only
    split
    · split
      · exact (h.setP 0).request _ _
      · exact h.setP 0
    · split
      · exact (h.setP _).setF _
      · exact (h.setP _).setF _
  · unfold updateNone; dsimp only; split
    · exact State.enterCoast_legal (s := (s.setP 0).withServo _) (h.setP 0)
    · exact h.setP 0
  · unfold updateCoast; split
    · exact h.request _ _
    · exact (h.setP _).setF _
  · unfold updateCoastNone
    exact State.chooseCoastF_legal (s := s.setP 0) (h.setP 0)

end Sys2Proof.Machine
end

