-- ==== Sys2Proof/Tests/Slice0.lean ====
section
/-!
SUPPORT. Tests: the well-formedness smoke, the spec's worked examples, and for each statement with
hypotheses a state that meets them. Every expected value is the spec's; each test names where it stands.
-/

namespace Sys2Proof.Tests

open Sys2Proof.Machine

/-! ## Well-formedness -/

theorem test_wellFormed_slot :
    (Instr.trialTimeout 24).wellFormed = false ∧ (Instr.trackedSilent 24).wellFormed = false ∧
    (Instr.silentTimeout 24).wellFormed = false ∧ (Instr.recordExpiry 24).wellFormed = false ∧
    (Instr.barringEnd 24).wellFormed = false ∧ (Instr.barringEnd 23).wellFormed = true := by
  decide

theorem test_wellFormed_code :
    (Instr.conversionComplete 1024).wellFormed = false ∧
    (Instr.conversionComplete 1023).wellFormed = true := by
  decide

theorem test_no_words : ∀ n ≤ 8, decodeTableWord n 0xFF = none := by decide

/-! ## States for the tests -/

/-- A time value from seconds, nanoseconds and units of 2^-32 ns. -/
def time (secs ns : Nat) (frac : Nat := 0) : TimeVal := ⟨Fin.ofNat _ secs, Fin.ofNat _ ns, Fin.ofNat _ frac⟩

/-- The part at tick `k`, its configuration read ended at 90,000 with the defaults, straps of station 23. -/
def ready (k : Nat) : State :=
  { State.reset with
    time := { State.reset.time with k := k }
    startup :=
      { State.reset.startup with
        strapped := true, station := 23, settled := true, endK := some 90000 } }

/-- All input lines at rest. -/
def quiet : Pins := ⟨23, false, false, true, false, false, false, false, false, true, true⟩

/-- A capture of the scales given. -/
def seen (t r : TimeVal) (k : Nat) (q : QWord) : Capture := ⟨t, r, k, q, 0⟩

/-- A capture on tick `k` with everything else 0. -/
def seenAt (k : Nat) : Capture := seen (time 0 0) (time 0 0) k 0

/-- An entry of a station in the state given with the history given. -/
def peer (station : Nat) (state : EntryState) (history : List ExchangeRecord) : PeerEntry where
  station := station
  state := state
  advU := 272
  advDepth := 0
  advClock := .locked
  lastSeq := 0
  lastK := 0
  history := history
  rejects := 0
  barEnd := none
  recent := []

/-- A table whose first slots are those given, the others EMPTY. -/
def table (slots : List (Option PeerEntry)) : PeerTable :=
  { PeerTable.afterReset with slots := slots ++ List.replicate (24 - slots.length) none }

/-! ## Bytes and CRCs -/

/-- R195: the CRC-16 of the digits 1 to 9. -/
theorem test_crc16_digits :
    crc16 [0x31, 0x32, 0x33, 0x34, 0x35, 0x36, 0x37, 0x38, 0x39] = 0x29B1 := by
  decide +kernel

/-- 13.6: the TRIGGER frame of 19 bytes, and the ticks it takes at 115,200 bit/s. -/
theorem test_trigger_frame :
    ((Record.trigger ⟨5, ⟨1000, 250000000⟩, 258⟩).frame.take 17 =
      [0xA5, 0x04, 0x0E, 0x05, 0x00, 0x00, 0x00, 0x03, 0xE8, 0x0E, 0xE6, 0xB2, 0x80, 0x00, 0x00,
        0x01, 0x02] ∧
      (Record.trigger ⟨5, ⟨1000, 250000000⟩, 258⟩).frame.length = 19) ∧
    frameEndTick 115200 0 19 = 32986 := by
  decide

/-! ## Scales (1.6) -/

/-- 1.6, the interval of slewing: 320,000,000 ticks of P = 32,212 fu are 10,307,840,000,000 fu of Q. One
tick is tested. -/
theorem test_tick_slews :
    let ts := { TimeScale.afterReset 150000 with p := 32212 }
    ts.tick.r.units = 214748514800 ∧ ts.tick.t.units = 214748547012 ∧ ts.tick.qExact = 32212 := by
  decide

/-- 1.6, a backward step limited at zero: T at 4 s 50 ns, step of -5 s, applied amount -4,000,000,050. -/
theorem test_step_limited_at_zero :
    let ts : TimeScale := ⟨80000001, time 4 50, time 4 50, 0, 0, 0, some ⟨-5000000000, some 80000001⟩⟩
    ts.stepped.t = time 0 0 ∧ ts.appliedNs = -4000000050 ∧ ts.stepped.wraps = 0 ∧
    ts.stepped.r = time 4 50 := by
  decide

/-- 1.6, a step held through a launch: T 3,000 s 46,458,400 ns before and 44,458,400 ns after. -/
theorem test_step_backward :
    let ts : TimeScale :=
      ⟨960629168, time 48 0, time 3000 46458400, 0, 0, 0, some ⟨-2000000, some 960629168⟩⟩
    ts.stepDue = true ∧ ts.stepped.t = time 3000 44458400 ∧ ts.appliedNs = -2000000 := by
  decide +kernel

/-! ## Captures (2.9) -/

/-- 2.9, spurious anchor pulses: 136,000,000 is too soon after 120,000,000, 139,999,990 is not. -/
theorem test_pps_spacing :
    tooSoon ppsSpacing 136000000 (some (seenAt 120000000)) = true ∧
    tooSoon ppsSpacing 139999990 (some (seenAt 120000000)) = false := by
  decide

/-- 2.9, strobes at 100 Hz: a difference of 100,000 ticks is accepted, 99,999 is not. -/
theorem test_strobe_spacing :
    tooSoon Settings.defaults.strobeSpacing 5300000 (some (seenAt 5200000)) = false ∧
    tooSoon Settings.defaults.strobeSpacing 5399999 (some (seenAt 5300000)) = true := by
  decide

/-! ## The link (3.9) -/

/-- 3.9: the seed of station 17. -/
theorem test_seed : lfsrSeed 17 = 0x4B2D := by decide

/-- 3.9, a launch with a deferral: the slot of L = 40,001 and the delay of L' = 1,234 (230 ms). -/
theorem test_regular_slot :
    regularSlot Settings.defaults 2240090000 40001 =
      ⟨2300190000, 2300390000, 0, 2560090000⟩ ∧
    2300390000 + deferralDelay 1234 = 2304990000 := by
  decide

/-- 3.9: the holds of the three echo items, the U code of 258 ns, and the end of the 53-byte launch. -/
theorem test_launch_values :
    echoHold (time 115 249500040 3221225472) (time 101 869760040 2147483648) = 13379740000 ∧
    echoHold (time 115 249500040 3221225472) (time 106 649460040 3865470566) = 8600039999 ∧
    uCode 258 = 17 ∧ bodyLength 3 1 = 53 ∧ frameEndTick 9600 2304990000 53 = 2306094167 := by
  decide

/-- 3.9, the echo queue: a mark from 57 into a full queue removes station 3 and counts; a skip at launch
count 22 ages 12 and 57 out. -/
theorem test_echo_queue :
    let e := fun station count => EchoEntry.mk station 0 (time 0 0) count
    let l := { MarkLink.afterReset with
      echoes := [e 3 19, e 8 19, e 20 20, e 26 20, e 31 20, e 44 20, e 50 20, e 12 20] }
    ((l.placeEcho (e 57 20)).echoes.map EchoEntry.station = [8, 20, 26, 31, 44, 50, 12, 57] ∧
      (l.placeEcho (e 57 20)).echoOverwritten = 1) ∧
    ageEchoes 22 [e 12 20, e 57 20] = [] := by
  decide

/-! ## Peers (4.9 to 4.11) -/

/-- 4.9, the worked exchange: d = 30,600 ns and θ = -16,000 ns. -/
theorem test_exchange :
    let d := exchangeDelay (time 5000 250019355 858993459) (time 4994 49988604 3865470566) 6200000150
    d = 30600 ∧ exchangeOffset ⟨5000, 250000400⟩ (time 5000 250031700 3435973836) d = -16000 := by
  decide

/-- 4.10, the offset now: θ = -18,664 ns, spread 160 ns, u = 479 ns. -/
theorem test_offset_now :
    (peer 41 .tracked
      [⟨-16000, 30600, BitVec.ofNat 128 53023945923788, 100000000000⟩,
        ⟨-16210, 30520, BitVec.ofNat 128 58177906679808, 100320000000⟩,
        ⟨-16300, 30680, BitVec.ofNat 128 63331437939916, 100640000000⟩]).derive
      (BitVec.ofNat 128 68719476736000) 100860000000 = some ⟨-18664, 30520, 160, 479⟩ := by
  decide

/-- 4.11, admission into a full table: of two SILENT entries heard at the same tick the lower slot goes. -/
theorem test_evicts_silent :
    let e := fun station k => some { peer station .silent [] with lastK := k }
    leastHeard .silent [e 19 41800000000, e 7 40100000000, e 33 40100000000] 0 none = some 1 := by
  decide

/-! ## Combination (5.6 to 5.8) -/

/-- The three sources of 5.6. -/
def sources56 : List Source :=
  [⟨.peer 12, 1200, 300, 150, 0⟩, ⟨.peer 5, 900, 500, 320, 1⟩, ⟨.peer 33, 9000, 400, 200, 1⟩]

/-- 5.6: weights, median, survivors and result. -/
theorem test_combination :
    (sources56.map Source.weight = [3054198, 1099511, 1717986] ∧ candidates sources56 = sources56 ∧
      weightedMedian sources56 = 1200 ∧ survivors sources56 = sources56.take 2) ∧
    combine (sources56.take 2) = ⟨1121, 258, 1⟩ := by
  decide

/-- 5.7: the origin alone at 1,000 ns gives U_adv 1,001 and depth 15. -/
theorem test_origin_alone : combine [⟨.origin, 0, 1000, 950, 15⟩] = ⟨0, 1001, 15⟩ := by decide

/-- 5.8: the anchor outweighs three peers and the median follows it. -/
theorem test_anchor_outweighs :
    let p := fun station => Source.mk (.peer station) (-200) 300 200 1
    let xs := [p 1, p 2, p 3, ⟨.anchor, 40000, 146, 96, 0⟩]
    weightedMedian xs = 40000 ∧ (survivors xs).map Source.id = [.anchor] ∧
    (Source.mk .anchor 40000 146 96 0).weight = 12895379 := by
  decide

/-! ## The servo (6.2, 6.7) and the drift table (7.5) -/

/-- 6.2, the worked slew, and the slew at the end of the coast of 6.7. -/
theorem test_slew :
    (slewP Settings.defaults 2400 = 32212 ∧ slewF Settings.defaults 150000 2400 = 152013) ∧
    slewP Settings.defaults (-35000) = -469762 ∧ slewF Settings.defaults 152013 (-35000) = 122653 := by
  decide

/-- 7.5, the first temperatures: no bin after three conversions, 78 and bin 7 after the fourth, 103 and
bin 8 after the eighth; below zero the mean of -2.25 is -2, bin 4. -/
theorem test_temperatures :
    let after := fun codes : List Nat =>
      codes.foldl (fun m c => m.complete c) (Temperature.afterReset Temperature.clearedBins)
    ((after [236, 238, 241]).bin = none ∧ (after [236, 238, 241, 239]).current = some 78 ∧
      (after [236, 238, 241, 239]).bin = some 7) ∧
    ((after [236, 238, 241, 239, 250, 262, 270, 272]).current = some 103 ∧
      (after [236, 238, 241, 239, 250, 262, 270, 272]).bin = some 8) ∧
    (after [157, 158, 158, 158]).current = some (-2) ∧ (after [157, 158, 158, 158]).bin = some 4 := by
  decide

/-- 7.5, learning a bin: five requests leave F_bin at 151,236 with count 5. -/
theorem test_learning :
    [151000, 151880, 151500, 150900, 152013].foldl (fun b f => DriftBin.learn f b) ⟨0, 0⟩ =
      ⟨151236, 5⟩ := by
  decide

/-! ## The anchor (8.6) -/

/-- 8.6: an edge 20,000,030 ticks after the last labelled one is consistent; one of the wrong second is
not; the anchor offset of the worked sample is +1,260 ns. -/
theorem test_anchor_edges :
    consistentEdge 1700000001 50000030 (some ⟨1700000000, 30000000⟩) = true ∧
    consistentEdge 1700000004 110000120 (some ⟨1700000002, 70000060⟩) = false ∧
    anchorOffset 86400 (time 86399 999998740 2576980377) = 1260 := by
  decide

/-! ## Samples (9.7) -/

/-- 9.7, a full block at 100 Hz: period, rate deviation and grid deviation. -/
theorem test_full_block :
    measuredPeriod (time 10 0) (time 20 240003100) 1024 = 10000003027 ∧
    rateDeviation 10000000 10000003027 = 303 ∧
    gridDeviation 10000000 (time 86520 250004700 1717986918) = 4700 := by
  decide

/-- 9.7, a gap: 299 intervals of 2,990,001,495 ns give 10,000,005,000 ps and +500 ppb. -/
theorem test_short_block :
    measuredPeriod (time 10 0) (time 12 990001495) 299 = 10000005000 ∧
    rateDeviation 10000000 10000005000 = 500 := by
  decide

/-- 9.7, a forward step in GENERATE: four instants are skipped and the pointer moves to 170 ms. -/
theorem test_forward_step :
    let a := { Aligner.afterReset with grid := some (time 5000 130000000) }
    a.skips true 10000000 35000020 (time 5000 162000020) = 4 ∧
    (a.announce true 10000000 35000020 (time 5000 162000020)).grid = some (time 5000 170000000) ∧
    (a.announce true 10000000 (-25000000) (time 5000 102000000)).grid =
      some (time 5000 130000000) := by
  decide

/-! ## Coincidence (10.9) -/

/-- The list of 10.9 once the notice from 12 has been placed. -/
def list109 : List CoincEntry :=
  [⟨23, 5, 1000250000000, 258, false, 0, 0⟩, ⟨41, 12, 1001100018664, 479, false, 0, 1⟩,
    ⟨12, 7, 1003900000000, 300, false, 0, 2⟩]

/-- 10.9: no declaration for the first two entries; the third finds the own entry's window, and its
record carries the three items. -/
theorem test_declaration :
    (windowStart 8000000000 3 1001100018664 (list109.take 2) = none ∧
      windowStart 8000000000 3 1003900000000 list109 =
        some ⟨23, 5, 1000250000000, 258, false, 0, 0⟩) ∧
    coincRecord 8 1000250000000 list109 =
      ⟨⟨1000, 250000000⟩, 8, 3, [⟨23, 0, 1⟩, ⟨41, 850018, 1⟩, ⟨12, 3650000, 1⟩]⟩ := by
  decide

/-! ## Records (11.5) -/

/-- A record of each class, as short as can be. -/
def recOf : Nat → Record
  | 0 => .brk ⟨.initial, 0, ⟨0, 0⟩, 0, .unset⟩
  | 1 => .coincidence ⟨⟨0, 0⟩, 8, 0, []⟩
  | 2 => .timing ⟨0, 0, ⟨0, 0⟩, 0, .unset, 15, 0, 0, 0, 0, 0, false, false, false, false⟩
  | 3 => .trigger ⟨0, ⟨0, 0⟩, 0⟩
  | 4 => .status
      { cause := .power, clock := .unset, depth := 15, u := 0, f := 0, temp := none, bin := none
        anchorValid := false, muted := false, originFlag := false, defaulted := false
        clamped := false, alerts := RecordPort.afterReset.alerts, edges := [], stats := [] }
  | _ => .peer ⟨5, .trial, 0, .unset, 0, 0, none, 0, 0, 0⟩

/-- A queue with the numbers of records of classes 0 to 5 given. -/
def queueOf (counts : List Nat) : List Record :=
  (counts.zipIdx.map fun x => List.replicate x.1 (recOf x.2)).flatten

/-- 11.5: at occupancy 12 a PEER record is dropped early. -/
theorem test_early_drop :
    let p := { RecordPort.afterReset with queue := queueOf [0, 2, 3, 6, 1, 0] }
    (p.enqueue (recOf 5)).drops.peer = 1 ∧ (p.enqueue (recOf 5)).queue.length = 12 ∧
    (p.enqueue (recOf 5)).alerts.recordDrop = true := by
  decide

/-- 11.5: at a full queue a COINCIDENCE record displaces the STATUS record, a TRIGGER record is dropped,
and a BREAK record displaces a TRIGGER record and is the next head. -/
theorem test_displacement :
    let p := { RecordPort.afterReset with queue := queueOf [0, 2, 3, 10, 1, 0] }
    let p1 := p.enqueue (recOf 1)
    let p2 := p1.enqueue (recOf 3)
    let p3 := p2.enqueue (recOf 0)
    p1.drops.status = 1 ∧ p2.drops.trigger = 1 ∧ p3.drops.trigger = 2 ∧
    p3.queue.map Record.cls = [1, 1, 2, 2, 2, 3, 3, 3, 3, 3, 3, 3, 3, 3, 1, 0] ∧
    headRecord p3.queue = some (recOf 0) := by
  decide

/-! ## Start-up (12.7) -/

/-- 12.7: a block with key lead 60 ms is clamped to 50 ms; a missing acknowledge is seen at 42,300. -/
theorem test_startup_values :
    ({ Settings.defaults with keyLead := 60 }.clamp = { Settings.defaults with keyLead := 50 }) ∧
    ackTick 42300 = true ∧ ackTick 42301 = false ∧ ackTick 42500 = false := by
  decide


/-! ## Witnesses: states that meet the statements' hypotheses, each clause's at a boundary -/

/-- A byte on a line whose start edge was first seen on tick `edge`, all its samples read. -/
def byteSeen (b : Byte) (edge : Nat) : ByteIn := ⟨edge, (asyncBits b).flatMap fun x => [x, x, x]⟩

/-- The part at tick `k` with a step pending. -/
def stepping (k : Nat) (amount : Int) (due : Option Nat) (t : TimeVal := time 100 0) : State :=
  { ready k with
    time := { TimeScale.afterReset 0 with k := k, t := t, r := time 100 0, step := some ⟨amount, due⟩ } }

theorem witness_StepTakesTheFrontCommand :
    (∃ c q s, State.pending s = c :: q) ∧ ∃ s, State.pending s = [] :=
  ⟨⟨.tick quiet, [], { State.reset with pending := [.tick quiet] }, rfl⟩, State.reset, rfl⟩

theorem witness_WellFormedCommandsComplete :
    (∃ c : Instr, c.wellFormed = true) ∧ (∃ slot, 24 ≤ slot) ∧ ∃ code, 1024 ≤ code :=
  ⟨⟨.recordExpiry 23, rfl⟩, ⟨24, by decide⟩, 1024, by decide⟩

theorem witness_CommandsLeaveTheQueue : ∃ c s t, exec c s = .next t :=
  ⟨.tick quiet, State.reset, _, rfl⟩

theorem witness_TickCountsTheOscillator :
    (∃ c s t, (∀ pins, c ≠ .tick pins) ∧ c ≠ .powerOnReset ∧ c ≠ .resetPinReset ∧
      exec c s = .next t) ∧
    (∃ c s t, (c = .powerOnReset ∨ c = .resetPinReset) ∧ exec c s = .next t) ∧
    ∃ ticks : List Pins, ticks.length < 2 ^ 64 :=
  ⟨⟨.listExpiry, State.reset, _, fun _ h => (nomatch h), by decide, by decide, rfl⟩,
    ⟨.powerOnReset, ready 7, _, .inl rfl, rfl⟩, [quiet], by decide⟩

/-- The part at tick `k` with ANCHOR_EN and the byte in progress on ANCHOR_RX, its levels at rest. -/
def hearingAnchor (k : Nat) (byte : Option ByteIn) : State :=
  { ready k with
    lines := { State.reset.lines with levels := some quiet }
    startup := { (ready k).startup with anchorEn := true }
    anchor := { State.reset.anchor with byteIn := byte } }

/-- The time value `late` units past the last one from which a tick at F = 0 fits. -/
def nearTop (late : Nat) : TimeVal := .ofUnits (Config.timeRange - 214748364801 + late)

theorem witness_TickAdvancesTheScales :
    (∃ s : State, s.time.FLegal ∧ s.time.PLegal ∧ s.time.f = 42949673 ∧ s.time.p = -21474836) ∧
    (∀ late ∈ [(0 : Nat), 1], ∃ s : State, s.time.FLegal ∧ s.time.PLegal ∧
      (s.time.r.units : Int) + (214748364800 + s.time.f) + 1 = 2 ^ 40 * 10 ^ 9 * 2 ^ 32 + late ∧
      s.time.t = s.time.r) ∧
    (∃ s t, exec .stepApplication s = .next t ∧ s.time.step.isSome = true) ∧
    (∃ c s t, (c = .powerOnReset ∨ c = .resetPinReset) ∧ exec c s = .next t) ∧
    (∃ s : State, s.lines.levels = none ∧ s.startup.anchorEn = false ∧ s.link.byteIn = none) ∧
    (∀ late ∈ [0, 1], ∃ (s : State) (b : ByteIn), s.link.byteIn = some b ∧ b.votes = [] ∧
      s.time.k = 200910 + late ∧ b.edge = 200000 ∧ s.cfg.linkRate = 9600 ∧
      16 * 9600 * 911 < 7 * 20000000 ∧ 7 * 20000000 ≤ 16 * 9600 * 912) ∧
    (∀ start ∈ [true, false], ∃ (s : State) (b : ByteIn), s.startup.anchorEn = true ∧
      s.anchor.byteIn = some b ∧ b.votes = [start, !start, start]) ∧
    (∃ (s : State) (old pins : Pins), s.startup.anchorEn = true ∧ s.anchor.byteIn = none ∧
      s.lines.levels = some old ∧ old.anchorRx = true ∧ pins.anchorRx = false) ∧
    ∀ i ∈ [0, 23], ∀ j ∈ [0, 7, 8], ∃ s : State, s.startup.abandoned = none ∧ s.startup.endK = none ∧
      s.time.k = 40000 + 200 * (31 + 9 * i + j) + 99 := by
  refine ⟨⟨{ ready 5 with time := { TimeScale.afterReset 42949673 with p := -21474836 } },
      ⟨by decide, by decide⟩, ⟨by decide, by decide⟩, rfl, rfl⟩, fun late h => ?_,
    ⟨stepping 5 1 (some 5), _, rfl, rfl⟩, ⟨.resetPinReset, ready 7, _, .inr rfl, rfl⟩,
    ⟨ready 5, rfl, rfl, rfl⟩,
    fun late _ => ⟨{ ready (200910 + late) with
      link := { MarkLink.afterReset with byteIn := some ⟨200000, []⟩ } }, ⟨200000, []⟩, rfl, rfl, rfl,
        rfl, rfl, by decide, by decide⟩,
    fun start _ => ⟨hearingAnchor 300000 (some ⟨200000, [start, !start, start]⟩), _, rfl, rfl, rfl⟩,
    ⟨hearingAnchor 300000 none, quiet, { quiet with anchorRx := false }, rfl, rfl, rfl, rfl, rfl⟩,
    fun i _ j _ => ⟨{ State.reset with
      time := { State.reset.time with k := 40000 + 200 * (31 + 9 * i + j) + 99 } }, rfl, rfl, rfl⟩⟩
  refine ⟨{ ready 5 with time := { TimeScale.afterReset 0 with
    r := nearTop late, t := nearTop late } }, ⟨?_, ?_⟩, ⟨?_, ?_⟩, ?_, ?_⟩ <;>
  · simp only [List.mem_cons, List.not_mem_nil, or_false] at h
    rcases h with rfl | rfl <;> decide +kernel

theorem witness_ScalesNeverRunBack :
    ∃ s t, s.time.Legal ∧ exec .stepApplication s = .next t ∧ t.time.totalT < s.time.totalT :=
  ⟨stepping 5 (-1) (some 5), _,
    ⟨by decide, ⟨by decide, by decide⟩, ⟨by decide, by decide⟩, fun p h => by cases h; decide⟩,
    rfl, by decide +kernel⟩

theorem witness_AdjustmentTotalLaw :
    (∃ (s : State) (ticks : List Pins), s.time.FLegal ∧ s.time.PLegal ∧
      (s.time.r.units : Int) + ticks.length * (214748364800 + s.time.f) <
        2 ^ 40 * 10 ^ 9 * 2 ^ 32) ∧
    (∃ (s : State) (a : Int) (d : Nat), s.time.step = some ⟨a, some d⟩ ∧ d ≤ s.time.k ∧
      (s.time.t.units : Int) + a * 2 ^ 32 < 0) ∧
    (∃ (s : State) (a : Int) (d : Nat), s.time.step = some ⟨a, some d⟩ ∧ d ≤ s.time.k ∧
      (s.time.t.units : Int) + a * 2 ^ 32 = 0) ∧
    (∃ x y : TimeScale, x.qExact - y.qExact = 2 ^ 127 - 1) ∧
    ∃ x y : TimeScale, x.qExact - y.qExact = -(2 ^ 127) :=
  ⟨⟨{ ready 5 with
        time := { TimeScale.afterReset 0 with r := .ofUnits (Config.timeRange - 214748364801) } },
      [quiet], ⟨by decide, by decide⟩, ⟨by decide, by decide⟩, by decide +kernel⟩,
    ⟨stepping 5 (-100000000001) (some 5), _, _, rfl, by decide, by decide +kernel⟩,
    ⟨stepping 5 (-100000000000) (some 5), _, _, rfl, by decide, by decide +kernel⟩,
    ⟨{ TimeScale.afterReset 0 with
        wraps := (2 ^ 127 - 1) / Config.timeRange, t := .ofUnits (2 ^ 127 - 1) },
      TimeScale.afterReset 0, by decide +kernel⟩,
    TimeScale.afterReset 0,
    { TimeScale.afterReset 0 with wraps := 2 ^ 127 / Config.timeRange, t := .ofUnits (2 ^ 127) },
    by decide +kernel⟩

theorem witness_TimeControlsKeptLegal :
    (∃ s t, s.time.Legal ∧ step s = .next t) ∧ (∃ ts : TimeScale, ts.step = none) ∧
    ∃ ts : TimeScale, ts.step.isSome = true :=
  ⟨⟨{ State.reset with pending := [.tick quiet] }, _,
      ⟨by decide, ⟨by decide, by decide⟩, ⟨by decide, by decide⟩, fun _ h => (nomatch h)⟩, rfl⟩,
    ⟨TimeScale.afterReset 0, rfl⟩, (stepping 5 1 none).time, rfl⟩

theorem witness_StepApplicationMovesT :
    (∃ (s : State) (a : Int) (d : Nat), s.time.step = some ⟨a, some d⟩ ∧ d = s.time.k ∧ a = 2 ^ 63 - 1) ∧
    ∃ (s : State) (a : Int) (d : Nat), s.time.step = some ⟨a, some d⟩ ∧ d ≤ s.time.k ∧ a ≤ 2 ^ 63 - 1 ∧
      (s.time.t.units : Int) + a * 2 ^ 32 < 0 :=
  ⟨⟨stepping 5 (2 ^ 63 - 1) (some 5), _, _, rfl, rfl, by decide⟩,
    stepping 5 (-100000000001) (some 4), _, _, rfl, by decide, by decide, by decide +kernel⟩

theorem witness_LaunchHoldsStep :
    (∃ (a : Int) (ts : TimeScale), ts.step = none ∧ -(2 ^ 62) ≤ a ∧ a = 2 ^ 62) ∧
    (∃ (b : Int) (d : Option Nat) (ts : TimeScale), ts.step = some ⟨b, d⟩) ∧
    (∃ (s : State) (a : Int), s.time.step = some ⟨a, none⟩) ∧
    ∃ (s : State) (kind : MarkKind) (ref : Nat) (b : List Byte), s.link.flight = some ⟨kind, ref, some b⟩ ∧
      ref + (roundDiv (10 * b.length * 20000000 : Nat) s.cfg.linkRate).toNat = s.time.k ∧
      s.time.step = some ⟨-2000000, none⟩ :=
  ⟨⟨2 ^ 62, TimeScale.afterReset 0, rfl, by decide, by decide⟩,
    ⟨1, none, (stepping 5 1 none).time, rfl⟩, ⟨stepping 5 1 none, 1, rfl⟩,
    { stepping 960629167 (-2000000) none with
      link := { MarkLink.afterReset with
        flight := some ⟨.notice, 959900000, some (List.replicate 35 0)⟩ } },
    .notice, 959900000, List.replicate 35 0, rfl, by decide +kernel, rfl⟩

theorem witness_BreakRecordQueued :
    ∃ s reason a d, (State.servo s).reason = some reason ∧ s.time.step = some ⟨a, some d⟩ ∧
      d ≤ s.time.k :=
  ⟨{ stepping 5 4000090 (some 5) with servo := { Servo.afterReset with reason := some .lockedBreak } },
    .lockedBreak, 4000090, 5, rfl, rfl, by decide⟩

/-- The GENERATE station of the forward step of 9.7, T before the step and the grid pointer given. -/
def generating (t : TimeVal) (amount : Int) (grid : TimeVal := time 5000 130000000) : State :=
  { stepping 5 amount (some 5) t with
    startup := { (ready 5).startup with genMode := true }
    align := { Aligner.afterReset with grid := some grid } }

theorem witness_GridPassesOverStep :
    (∃ (s : State) (a : Int) (d : Nat), s.time.step = some ⟨a, some d⟩ ∧ d ≤ s.time.k ∧
      (s.startup.genMode = false ∨ a ≤ 0)) ∧
    (∀ x ∈ [(time 5000 94999980, time 5000 130000000), (.ofNs (2 ^ 39 * 10 ^ 9 - 35000021), time 0 0),
        (time (2 ^ 40 - 1) 999000000, time (2 ^ 40 - 1) 990000000),
        (time (2 ^ 40 - 1) 999000000, time 0 0)],
      ∃ s a d g, s = generating x.1 35000020 x.2 ∧ s.time.step = some ⟨a, some d⟩ ∧ d ≤ s.time.k ∧
        s.startup.genMode = true ∧ 0 < a ∧ s.align.grid = some g ∧ g.frac = 0 ∧
        s.cfg.period ∣ g.nsCount ∧
        2 * ((s.time.stepped.t.units + 2 ^ 40 * 10 ^ 9 * 2 ^ 32 - g.units) %
          (2 ^ 40 * 10 ^ 9 * 2 ^ 32)) < 2 ^ 40 * 10 ^ 9 * 2 ^ 32) ∧
    ∀ x ∈ [(time 5000 94999979, time 5000 130000000), (.ofNs (2 ^ 39 * 10 ^ 9 - 35000020), time 0 0),
        (time (2 ^ 40 - 1) 990000000, time 0 40000000)],
      ∃ s a d g, s = generating x.1 35000020 x.2 ∧ s.time.step = some ⟨a, some d⟩ ∧ d ≤ s.time.k ∧
        s.startup.genMode = true ∧ 0 < a ∧ s.align.grid = some g ∧ g.frac = 0 ∧
        s.cfg.period ∣ g.nsCount ∧
        2 ^ 40 * 10 ^ 9 * 2 ^ 32 ≤
          2 * ((s.time.stepped.t.units + 2 ^ 40 * 10 ^ 9 * 2 ^ 32 - g.units) %
            (2 ^ 40 * 10 ^ 9 * 2 ^ 32)) := by
  refine ⟨⟨stepping 5 0 (some 5), _, _, rfl, by decide, .inr (by decide)⟩, fun x h => ?_, fun x h => ?_⟩
  · simp only [List.mem_cons, List.not_mem_nil, or_false] at h
    rcases h with rfl | rfl | rfl | rfl <;>
      exact ⟨_, _, _, _, rfl, rfl, by decide, rfl, by decide, rfl, rfl, by decide +kernel,
        by decide +kernel⟩
  · simp only [List.mem_cons, List.not_mem_nil, or_false] at h
    rcases h with rfl | rfl | rfl <;>
      exact ⟨_, _, _, _, rfl, rfl, by decide, rfl, by decide, rfl, rfl, by decide +kernel,
        by decide +kernel⟩

theorem witness_StoredTimesMoveWithStep :
    (∃ (s : State) (a : Int) (d : Nat), s.time.step = some ⟨a, some d⟩ ∧ d ≤ s.time.k ∧
      (s.time.t.units : Int) + a * 2 ^ 32 + 1 = 2 ^ 40 * 10 ^ 9 * 2 ^ 32) ∧
    ∃ (s : State) (storedK time : Nat), storedK ≠ s.time.k ∧ time = 2 ^ 62 :=
  ⟨⟨stepping 5 1 (some 5) (time 1099511627775 999999998 4294967295), _, _, rfl, by decide,
      by decide +kernel⟩,
    stepping 5 1 (some 5), 4, 2 ^ 62, by decide, rfl⟩

theorem witness_StrapSamplingLatchesStraps :
    (∀ station : BitVec 6, ∃ (s : State) (pins : Pins), s.lines.levels = some pins ∧
      s.time.k = 1 ∧ s.startup.strapped = false ∧ s.link.muted = false ∧
      pins.station = station) ∧
    ∃ s : State, s.startup.strapped = true :=
  ⟨fun station =>
    ⟨{ State.reset with
        time := { State.reset.time with k := 1 }
        lines := { State.reset.lines with levels := some { quiet with station := station } } },
      { quiet with station := station }, rfl, rfl, rfl, rfl, rfl⟩, ready 2, rfl⟩

/-- The bits of a block of 23 bytes and their CRC-8, as CFG_SDA shows them. -/
def blockBits (bytes : List Byte) : List Bool := (bytes ++ [crc8 bytes]).flatMap bitsMsb

/-- The block of the defaults of 12.3, with the key lead given. -/
def defaultBlock (keyLead : Byte) : List Byte :=
  [0x01, 0x21, 0x42, 0xA4, keyLead, 3, 8, 0, 50, 0, 120, 0x03, 0xE8, 0, 100, 0x00, 0x03, 0xE8, 0x01,
    0xF4, 0, 60, 0]

/-- The part at tick `k` with its read running and the bits given. -/
def reading (k : Nat) (bits : List Bool) (abandoned : Option Nat) : State :=
  { ready k with
    startup := { State.reset.startup with strapped := true, bits := bits, abandoned := abandoned } }

theorem witness_ConfigurationSettles :
    (∀ slot ∈ [11, 20, 30], ∃ (s : State) (pins : Pins), s.lines.levels = some pins ∧
      pins.cfgSda = true ∧ s.startup.abandoned = none ∧ s.time.k = 40000 + 200 * slot + 100) ∧
    (∃ (s : State) (a : Nat), s.startup.settled = false ∧ s.startup.abandoned = some a ∧
      a + 200 = s.time.k) ∧
    (∃ s : State, s.startup.settled = false ∧ s.startup.abandoned = none ∧ 89500 = s.time.k ∧
      ¬ (s.startup.bits.length = 192 ∧
          crc8 ((blockBytes s.startup.bits).take 23) = (blockBytes s.startup.bits).getD 23 0 ∧
          (blockBytes s.startup.bits).getD 0 0 = 1)) ∧
    (∀ k ∈ [0, 20000, 21799, 39999, 40000, 89999, 90000], ∀ a ∈ [none, some 42300],
      ∃ s : State, s.time.k = k ∧ s.startup.abandoned = a) ∧
    ∀ keyLead ∈ [2, 50, 60], ∃ s : State, s.startup.settled = false ∧
      s.startup.abandoned = none ∧ 89500 = s.time.k ∧ s.startup.bits.length = 192 ∧
      crc8 ((blockBytes s.startup.bits).take 23) = (blockBytes s.startup.bits).getD 23 0 ∧
      (blockBytes s.startup.bits).getD 0 0 = 1 ∧
      (Settings.ofBlock (blockBytes s.startup.bits)).keyLead = keyLead := by
  refine ⟨fun slot _ => ⟨{ reading (40000 + 200 * slot + 100) [] none with
      lines := { State.reset.lines with levels := some quiet } }, quiet, rfl, rfl, rfl, rfl⟩,
    ⟨reading 42500 [] (some 42300), 42300, rfl, rfl, rfl⟩,
    ⟨reading 89500 (blockBits (0x02 :: (defaultBlock 10).tail)) none, rfl, rfl, rfl,
      by decide +kernel⟩, fun k _ a _ => ⟨reading k [] a, rfl, rfl⟩, fun keyLead h => ?_⟩
  refine ⟨reading 89500 (blockBits (defaultBlock (BitVec.ofNat 8 keyLead))) none, rfl, rfl, rfl, ?_⟩
  revert keyLead
  decide +kernel

theorem witness_ConfigReadEndStartsBlocks :
    (∃ s : State, s.startup.settled = true ∧ s.startup.endK = none ∧ 90000 = s.time.k ∧
      s.startup.genMode = false) ∧
    ∃ s : State, s.startup.settled = true ∧ s.startup.endK = none ∧ 90000 = s.time.k ∧
      s.startup.genMode = true ∧
      s.nowT.units + s.cfg.period * 2 ^ 32 < 2 ^ 40 * 10 ^ 9 * 2 ^ 32 :=
  ⟨⟨{ ready 90000 with startup := { (ready 0).startup with endK := none } }, rfl, rfl, rfl, rfl⟩,
    { ready 90000 with
      time := { TimeScale.afterReset 0 with k := 90000, t := time 0 4500000 }
      startup := { (ready 0).startup with endK := none, genMode := true } },
    rfl, rfl, rfl, rfl, by decide +kernel⟩

/-- The part at tick `k` with the anchor strapped. -/
def anchored (k : Nat) (a : AnchorInput) : State :=
  { ready k with startup := { (ready k).startup with anchorEn := true }, anchor := a }

/-- A PPS edge at tick `k` after one accepted at tick `prev`. -/
def ppsAt (k : Nat) (prev : Option Nat) (label : Option Label) (edge : Option LabelledEdge) : State :=
  { anchored k { AnchorInput.afterReset with label := label, prev := edge } with
    lines := { State.reset.lines with edges := ⟨true, false, false, false, false⟩ }
    cap := { CaptureUnit.afterReset with pps := prev.map seenAt } }

theorem witness_PpsEdgeJudgedAndPaired :
    (∃ (s : State) (c : Capture), s.lines.edges.pps = true ∧ s.startup.anchorEn = true ∧
      s.cap.pps = some c ∧ s.time.k - c.k = 17999999) ∧
    (∃ (s : State) (c : Capture), s.lines.edges.pps = true ∧ s.startup.anchorEn = true ∧
      s.cap.pps = some c ∧ s.time.k - c.k = 18000000 ∧ s.anchor.label = none) ∧
    (∀ ticks ∈ [19996000, 20004000], ∃ (s : State) (l : Label) (e : LabelledEdge),
      s.lines.edges.pps = true ∧ s.startup.anchorEn = true ∧ s.cap.pps = none ∧
      s.anchor.label = some l ∧ s.anchor.prev = some e ∧ l.secs = e.secs + 1 ∧
      s.time.k = e.k + ticks) ∧
    ∀ ticks ∈ [19995999, 20004001], ∃ (s : State) (l : Label) (e : LabelledEdge),
      s.lines.edges.pps = true ∧ s.startup.anchorEn = true ∧ s.cap.pps = none ∧
      s.anchor.label = some l ∧ s.anchor.prev = some e ∧ l.secs = e.secs + 1 ∧
      s.time.k = e.k + ticks ∧
      ¬ (l.secs = e.secs + 1 ∧ e.k + 19996000 ≤ s.time.k ∧ s.time.k ≤ e.k + 20004000) := by
  refine ⟨⟨ppsAt 137999999 (some 120000000) none none, seenAt 120000000, rfl, rfl, rfl, rfl⟩,
    ⟨ppsAt 138000000 (some 120000000) none none, seenAt 120000000, rfl, rfl, rfl, rfl, rfl⟩,
    fun ticks _ => ⟨ppsAt (30000000 + ticks) none (some ⟨8, 3⟩) (some ⟨7, 30000000⟩), ⟨8, 3⟩,
      ⟨7, 30000000⟩, rfl, rfl, rfl, rfl, rfl, rfl, rfl⟩, fun ticks h =>
    ⟨ppsAt (30000000 + ticks) none (some ⟨8, 3⟩) (some ⟨7, 30000000⟩), ⟨8, 3⟩,
      ⟨7, 30000000⟩, rfl, rfl, rfl, rfl, rfl, rfl, rfl, ?_⟩⟩
  simp only [List.mem_cons, List.not_mem_nil, or_false] at h
  rcases h with rfl | rfl <;> decide

/-- An anchor message with the kind given and its CRC-8 xor `bad`. -/
def anchorMessage (kind bad : Byte) : List Byte :=
  let body := [kind, 0, 0, 0, 0, 9, 0, 3, 1]
  0xC3 :: body ++ [crc8 body ^^^ bad]

theorem witness_AnchorReceiverTakesMessages :
    (∀ v ∈ [0xC3, 0x55], ∃ (s : State) (b : ByteIn), s.startup.anchorEn = true ∧
      s.anchor.byteIn = some b ∧ b.complete = true ∧ b.value = v) ∧
    (∀ x ∈ [(anchorMessage 1 0, true), (anchorMessage 1 1, false), (anchorMessage 2 0, false)],
      ∃ (s : State) (b : List Byte) (edge : Nat), s.startup.anchorEn = true ∧
        s.anchor.rx = .assemble b edge ∧ b.length = 11 ∧
        decide (crc8 ((b.drop 1).take 9) = b.getD 10 0 ∧ b.getD 1 0 = (0x01 : Byte)) = x.2) ∧
    (∃ (s : State) (b : List Byte) (edge : Nat), s.startup.anchorEn = true ∧
      s.anchor.byteIn = none ∧ s.anchor.rx = .assemble b edge ∧ b.length < 11 ∧
      edge + 62500 = s.time.k) ∧
    ∃ s : State, s.startup.anchorEn = true ∧ s.anchor.lossExpired = false ∧
      s.anchor.lossK + 40000000 = s.time.k := by
  refine ⟨fun v h => ⟨anchored 100000 { AnchorInput.afterReset with byteIn := some (byteSeen v 90100) },
      byteSeen v 90100, rfl, rfl, ?_⟩, fun x h => ⟨anchored 100000
        { AnchorInput.afterReset with rx := .assemble x.1 90100 }, x.1, 90100, rfl, rfl, ?_⟩,
    ⟨anchored 152600 { AnchorInput.afterReset with rx := .assemble [0xC3] 90100 }, [0xC3], 90100,
      rfl, rfl, rfl, by decide, rfl⟩,
    anchored 40090000 { AnchorInput.afterReset with lossK := 90000 }, rfl, rfl, rfl⟩
  · revert v; decide
  · revert x; decide +kernel

/-- The part at tick `k` with the block, sample capture and gap deadline given. -/
def sampling (k : Nat) (block : Option OpenBlock) (last : Option Nat) (gap : Option Nat) : State :=
  { ready k with
    lines := { State.reset.lines with edges := ⟨false, true, false, false, false⟩ }
    cap := { CaptureUnit.afterReset with sample := last.map seenAt }
    align := { Aligner.afterReset with block := block, gapDeadline := gap } }

/-- An open block of the samples given. -/
def openBlock (samples : Nat) : OpenBlock :=
  { number := 0, first := seenAt 100000, last := seenAt 300000, samples := samples, skipped := 0
    stepped := false, coast := false }

theorem witness_SampleStrobeBuildsBlocks :
    (∃ (s : State) (c : Capture) (e : Nat), s.lines.edges.sample = true ∧
      s.startup.genMode = false ∧ s.startup.endK = some e ∧ e < s.time.k ∧
      s.cap.sample = some c ∧ s.time.k - c.k + 1 = s.cfg.period / 100) ∧
    (∃ (s : State) (c : Capture) (e : Nat), s.lines.edges.sample = true ∧
      s.startup.genMode = false ∧ s.startup.endK = some e ∧ e < s.time.k ∧
      s.cap.sample = some c ∧ s.time.k - c.k = s.cfg.period / 100 ∧ s.align.block = none) ∧
    ∀ samples ∈ [1023, 1024], ∃ (s : State) (b : OpenBlock) (e : Nat),
      s.lines.edges.sample = true ∧ s.startup.genMode = false ∧ s.startup.endK = some e ∧
      e + 1 = s.time.k ∧ s.cap.sample = none ∧ s.align.block = some b ∧ b.samples = samples :=
  ⟨⟨sampling 399999 none (some 300000) none, seenAt 300000, 90000, rfl, rfl, rfl, by decide, rfl,
      by decide⟩,
    ⟨sampling 400000 none (some 300000) none, seenAt 300000, 90000, rfl, rfl, rfl, by decide, rfl,
      by decide, rfl⟩,
    fun samples _ => ⟨sampling 90001 (some (openBlock samples)) none none, openBlock samples, 90000,
      rfl, rfl, rfl, rfl, rfl, rfl, rfl⟩⟩

theorem witness_GapDeadlineClosesShort :
    ∀ samples ∈ [1, 2], ∃ (s : State) (b : OpenBlock) (d : Nat), s.align.block = some b ∧
      s.align.gapDeadline = some d ∧ d = s.time.k ∧ b.samples = samples :=
  fun samples _ => ⟨sampling 600000 (some (openBlock samples)) none (some 600000),
    openBlock samples, 600000, rfl, rfl, rfl, rfl⟩

/-- The scales at tick 200,200 with T on the grid. -/
def onGrid : TimeScale := { TimeScale.afterReset 0 with k := 200200, t := time 0 10000000 }

theorem witness_GridPulseIssued :
    ∀ block ∈ [none, some (openBlock 1023), some (openBlock 1024)],
      ∃ (s : State) (e : Nat) (g : TimeVal), s.startup.genMode = true ∧ s.startup.endK = some e ∧
        e < s.time.k ∧ s.align.pulseEnd = none ∧ s.align.cmdLowFrom + 200 = s.time.k ∧
        s.align.grid = some g ∧ s.align.block = block ∧
        2 * ((s.nowT.units + 2 ^ 40 * 10 ^ 9 * 2 ^ 32 - g.units) %
          (2 ^ 40 * 10 ^ 9 * 2 ^ 32)) = 0 :=
  fun block _ =>
    ⟨{ ready 200200 with
        time := onGrid
        startup := { (ready 0).startup with genMode := true }
        align := { Aligner.afterReset with
          cmdLowFrom := 200000, grid := some (time 0 10000000), block := block } },
      90000, time 0 10000000, rfl, rfl, show 90000 < 200200 by decide, rfl, rfl, rfl, rfl,
      show 2 * ((onGrid.shown.t.units + 2 ^ 40 * 10 ^ 9 * 2 ^ 32 - (time 0 10000000).units) %
        (2 ^ 40 * 10 ^ 9 * 2 ^ 32)) = 0 by decide +kernel⟩

theorem witness_PulsesEnd :
    (∀ k ∈ [500200, 500199], ∃ (s : State) (e : Nat), s.align.pulseEnd = some e ∧ e = 500200 ∧
      s.time.k = k) ∧
    ∀ k ∈ [500200, 500199], ∃ (s : State) (e : Nat), s.coinc.pulseEnd = some e ∧ e = 500200 ∧
      s.time.k = k :=
  ⟨fun k _ => ⟨{ ready k with align := { Aligner.afterReset with pulseEnd := some 500200 } }, 500200,
      rfl, rfl, rfl⟩,
    fun k _ => ⟨{ ready k with coinc := { Coincidence.afterReset with pulseEnd := some 500200 } },
      500200, rfl, rfl, rfl⟩⟩

/-- A trigger edge at tick `k` after one accepted at tick `prev`. -/
def triggered (k : Nat) (prev : Option Nat) : State :=
  { ready k with
    lines := { State.reset.lines with edges := ⟨false, false, true, false, false⟩ }
    cap := { CaptureUnit.afterReset with trig := prev.map seenAt } }

theorem witness_TriggerCapturedAndHandedOver :
    (∃ (s : State) (c : Capture) (e : Nat), s.lines.edges.trig = true ∧ s.startup.endK = some e ∧
      e < s.time.k ∧ s.cap.trig = some c ∧ s.time.k - c.k + 1 = s.cfg.holdOff * 20000) ∧
    (∃ (s : State) (c : Capture) (e : Nat), s.lines.edges.trig = true ∧ s.startup.endK = some e ∧
      e < s.time.k ∧ s.cap.trig = some c ∧ s.time.k - c.k = s.cfg.holdOff * 20000) ∧
    ∀ n ∈ [3, 4], ∃ (s : State) (e : Nat), s.lines.edges.trig = true ∧ s.startup.endK = some e ∧
      e + 1 = s.time.k ∧ s.cap.trig = none ∧ s.coinc.outgoing.length = n :=
  ⟨⟨triggered 2099999 (some 100000), seenAt 100000, 90000, rfl, rfl, by decide, rfl, by decide⟩,
    ⟨triggered 2100000 (some 100000), seenAt 100000, 90000, rfl, rfl, by decide, rfl, by decide⟩,
    fun n _ => ⟨{ triggered 90001 none with
      coinc := { Coincidence.afterReset with outgoing := List.replicate n ⟨1, 0, 0, 0⟩ } },
      90000, rfl, rfl, rfl, rfl, List.length_replicate⟩⟩

/-- A controller in a mark interval that ends at tick `e`. -/
def interval (e : Nat) : MarkLink := { MarkLink.afterReset with schedule := .running e }

theorem witness_NoticeRequestSchedulesLaunch :
    (∃ l : MarkLink, ∀ e, l.schedule ≠ .running e) ∧ (∃ l : MarkLink, l.muted = true) ∧
    (∃ l : MarkLink, l.flight.isSome = true) ∧ (∃ l : MarkLink, l.notice.isSome = true) ∧
    (∃ (l : MarkLink) (k : Nat) (sl : LaunchSlot), l.regular = some sl ∧ sl.keyUp = k + 20480000) ∧
    (∃ (l : MarkLink) (k e : Nat) (sl : LaunchSlot), l.schedule = .running e ∧ l.muted = false ∧
      l.flight = none ∧ l.notice = none ∧ l.regular = some sl ∧ sl.keyUp = k + 20480000 + 1) ∧
    ∃ (l : MarkLink) (e : Nat), l.schedule = .running e ∧ l.muted = false ∧ l.flight = none ∧
      l.notice = none ∧ l.regular = none :=
  ⟨⟨MarkLink.afterReset, fun _ h => (nomatch h)⟩, ⟨{ MarkLink.afterReset with muted := true }, rfl⟩,
    ⟨{ MarkLink.afterReset with flight := some ⟨.regular, 5, none⟩ }, rfl⟩,
    ⟨{ MarkLink.afterReset with notice := some ⟨5, 6, 0, 9⟩ }, rfl⟩,
    ⟨{ interval 320000000 with regular := some ⟨120480000, 120680000, 0, 320000000⟩ }, 100000000,
      _, rfl, rfl⟩,
    ⟨{ interval 320000000 with regular := some ⟨120480001, 120680001, 0, 320000000⟩ }, 100000000,
      320000000, _, rfl, rfl, rfl, rfl, rfl, rfl⟩,
    interval 320000000, 320000000, rfl, rfl, rfl, rfl, rfl⟩

/-- The part at tick 5,000,000 with T at `ns` ns and the coincidence list given. -/
def listing (ns : Nat) (list : List CoincEntry) (windows : List Window := []) : State :=
  { ready 5000000 with
    time := { TimeScale.afterReset 0 with k := 5000000, t := .ofNs ns }
    coinc := { Coincidence.afterReset with list := list, windows := windows, inserted := 3 } }

theorem witness_CoincidenceUnitKeptLegal : ∃ s t, s.coinc.Legal ∧ step s = .next t :=
  ⟨{ listing 1002000000000 list109 with pending := [.listExpiry] }, _,
    ⟨by decide, by decide, by decide, by decide, by decide⟩, rfl⟩

/-- The entries of 10.9 with the third at the end of the window of the first, `late` ns after it. -/
def listEdge (late : Nat) : List CoincEntry :=
  [⟨23, 5, 1000250000000, 258, false, 0, 0⟩, ⟨41, 12, 1001100018664, 479, false, 0, 1⟩,
    ⟨12, 7, 1008250000000 + late, 300, false, 0, 2⟩]

theorem witness_DeclarationFindsEarliestWindow :
    (∀ time ∈ [1000250000000, 1008250000000], ∃ (e : CoincEntry) (s : State) (v : Window),
      v ∈ s.coinc.windows ∧ v.lo ≤ e.time ∧ e.time ≤ v.hi ∧ e.time = time) ∧
    (∃ (e : CoincEntry) (s : State),
      s.coinc.windows = [] ∧ ∀ x ∈ s.coinc.list, e.time ≤ x.time + s.cfg.window * 10 ^ 9 →
        ((s.coinc.list.filter fun y => !y.claimed && decide
          (x.time ≤ y.time ∧ y.time ≤ x.time + s.cfg.window * 10 ^ 9)).map
            CoincEntry.station).dedup.length < s.cfg.kc) ∧
    ∃ (e : CoincEntry) (s : State) (before : List CoincEntry) (x : CoincEntry) (after : List CoincEntry),
      s.coinc.windows = [] ∧ s.coinc.list = before ++ x :: after ∧
      (∀ y ∈ before, y.time + s.cfg.window * 10 ^ 9 < e.time) ∧ before ≠ [] ∧
      x.claimed = false ∧ x.time ≤ e.time ∧ e.time = x.time + s.cfg.window * 10 ^ 9 ∧
      s.cfg.kc = ((s.coinc.list.filter fun y => !y.claimed && decide
        (x.time ≤ y.time ∧ y.time ≤ x.time + s.cfg.window * 10 ^ 9)).map
          CoincEntry.station).dedup.length :=
  ⟨fun time _ =>
      ⟨⟨12, 7, time, 300, false, 0, 2⟩,
        listing 1009000000000 (list109.take 2) [⟨1000250000000, 1008250000000, 0⟩],
        ⟨1000250000000, 1008250000000, 0⟩, .head _, by
          rename_i h
          simp only [List.mem_cons, List.not_mem_nil, or_false] at h
          rcases h with rfl | rfl <;> decide, by
          rename_i h
          simp only [List.mem_cons, List.not_mem_nil, or_false] at h
          rcases h with rfl | rfl <;> decide, rfl⟩,
    ⟨⟨12, 7, 1008250000001, 300, false, 0, 2⟩, listing 1009000000000 (listEdge 1), rfl,
      by decide +kernel⟩,
    ⟨12, 7, 1008250000000, 300, false, 0, 2⟩,
    listing 1009000000000 (⟨44, 1, 1000249999999, 300, false, 0, 3⟩ :: listEdge 0),
    [⟨44, 1, 1000249999999, 300, false, 0, 3⟩], ⟨23, 5, 1000250000000, 258, false, 0, 0⟩, _, rfl, rfl,
    by decide, by decide, rfl, by decide, rfl, by decide +kernel⟩

/-- R175: a window declared on the tick of a step from an entry stored before it moves with the step, and
one whose start was stored on that tick already carries it. -/
theorem test_window_moves_with_step :
    ∀ storedK ∈ [0, 5000000],
      ((declare ⟨23, 5, 1000250000000, 258, false, storedK, 0⟩
          (listing 1002000000000 list109)).coinc.moveTimes (-2000000) 5000000).windows =
        [if storedK = 0 then ⟨1000248000000, 1008248000000, 0⟩
          else ⟨1000250000000, 1008250000000, 5000000⟩] := by
  decide +kernel

theorem witness_StaleEntriesLeaveTheList :
    (∃ (s : State) (e : CoincEntry), e ∈ s.coinc.list ∧
      min (2 ^ 62) s.nowT.nsCount = e.time + 300000000000) ∧
    (∃ (s : State) (e : CoincEntry), e ∈ s.coinc.list ∧
      min (2 ^ 62) s.nowT.nsCount = e.time + 300000000000 + 1) ∧
    (∃ (s t : State), exec (.tick quiet) s = .next t ∧ t.time.wraps ≠ s.time.wraps) ∧
    (∃ (s t : State), exec (.tick quiet) s = .next t ∧ t.time.wraps = s.time.wraps) ∧
    ∃ (s t : State), exec .stepApplication s = .next t ∧ t.time.wraps ≠ s.time.wraps :=
  ⟨⟨listing 1300250000000 list109, ⟨23, 5, 1000250000000, 258, false, 0, 0⟩, .head _,
      by decide +kernel⟩,
    ⟨listing 1300250000001 list109, ⟨23, 5, 1000250000000, 258, false, 0, 0⟩, .head _,
      by decide +kernel⟩,
    ⟨{ listing 5 list109 with time := { TimeScale.afterReset 0 with t := .largest } }, _, rfl,
      by decide +kernel⟩,
    ⟨listing 5 list109, _, rfl, by decide +kernel⟩,
    stepping 5 1 (some 5) .largest, _, rfl, by decide +kernel⟩

/-- The part with station 41 of 4.10 in slot 0, in the state given. -/
def knowing (state : EntryState) (recent : List Seq) : State :=
  { ready 100860000000 with
    peers := table [some
      { peer 41 state [⟨-16000, 30600, 0, 100000000000⟩] with recent := recent }] }

theorem witness_PeerNoticesEnterTheList :
    (∃ (s : State) (station : Nat), s.peers.find station = none) ∧
    (∃ (s : State) (station : Nat) (e : PeerEntry), s.peers.find station = some e ∧
      e.state ≠ .tracked) ∧
    (∃ (s : State) (station : Nat) (e : PeerEntry) (seq : Seq), s.peers.find station = some e ∧
      e.state = .tracked ∧ seq ∈ e.recent) ∧
    (∃ (s : State) (station : Nat) (e : PeerEntry) (seq : Seq) (o : PeerOffset),
      s.peers.find station = some e ∧ e.state = .tracked ∧ seq ∉ e.recent ∧
      e.derive s.nowQ s.time.k = some o) ∧
    (∃ (s : State) (time : Nat), time + 300000000000 + 1 = min (2 ^ 62) s.nowT.nsCount) ∧
    ∃ (s : State) (time : Nat), time + 300000000000 = min (2 ^ 62) s.nowT.nsCount :=
  ⟨⟨knowing .tracked [], 5, by decide⟩,
    ⟨knowing .silent [], 41, peer 41 .silent [⟨-16000, 30600, 0, 100000000000⟩], by decide,
      by decide⟩,
    ⟨knowing .tracked [7], 41,
      { peer 41 .tracked [⟨-16000, 30600, 0, 100000000000⟩] with recent := [7] }, 7, by decide, rfl,
      by decide⟩,
    ⟨knowing .tracked [], 41, peer 41 .tracked [⟨-16000, 30600, 0, 100000000000⟩], 7,
      ⟨-16000, 30600, 0, 415⟩, by decide, rfl, by decide, by decide +kernel⟩,
    ⟨listing 1300250000001 [], 1000250000000, by decide +kernel⟩,
    listing 1300250000000 [], 1000250000000, by decide +kernel⟩

theorem witness_DrawsAdvanceTheRegister :
    (∃ i, i < 15 ∧ i + 1 = 15) ∧ ∃ x : BitVec 16, x ≠ 0 :=
  ⟨⟨14, by decide, rfl⟩, 0x8000, by decide⟩

theorem witness_MarkIntervalsScheduleLaunches :
    ∀ muted, (∃ (s : State) (start : Nat), s.link.schedule = .listening start ∧ start = s.time.k ∧
      s.link.muted = muted ∧ s.cfg.keyLead ≤ 50) ∧
    ∃ (s : State) (start : Nat), s.link.schedule = .running start ∧ start = s.time.k ∧
      s.link.muted = muted ∧ s.cfg.keyLead = 50 :=
  fun muted =>
    ⟨⟨{ ready 640090000 with
          link := { MarkLink.afterReset with schedule := .listening 640090000, muted := muted } },
        640090000, rfl, rfl, rfl, show Settings.defaults.keyLead ≤ 50 by decide⟩,
      { ready 960090000 with
        link := { interval 960090000 with muted := muted }
        startup := { (ready 0).startup with settings := { Settings.defaults with keyLead := 50 } } },
      960090000, rfl, rfl, rfl, rfl⟩

/-- The part at the key-up of a regular slot, the channel busy or free. -/
def keyUp (busy : Bool) (deferrals bound : Nat) : State :=
  { ready 2300190000 with
    lines := { State.reset.lines with levels := some { quiet with linkCd := busy } }
    link := { interval 2560090000 with
      rx := .hunt none
      lfsr := 0x4B2D
      regular := some ⟨2300190000, 2300390000, deferrals, bound⟩ } }

/-- The delay of the draw that `keyUp` makes. -/
def keyUpDelay : Nat := (20 + (lfsrDraw 0x4B2D).toNat % 256) * 20000

theorem witness_KeyUpCheckKeysDefersOrSkips :
    (∃ (s : State) (kind : MarkKind) (sl : LaunchSlot), s.link.slot kind = some sl ∧
      sl.keyUp = s.time.k ∧ ¬ ((∃ pins, s.lines.levels = some pins ∧ pins.linkCd = true) ∨
        (∃ body edge, s.link.rx = .assemble body edge) ∨ s.link.flight ≠ none)) ∧
    (∀ late ∈ [1, 0], ∃ (s : State) (kind : MarkKind) (sl : LaunchSlot),
      s.link.slot kind = some sl ∧ sl.keyUp = s.time.k ∧
      (∃ pins, s.lines.levels = some pins ∧ pins.linkCd = true) ∧ sl.deferrals = 2 ∧
      sl.ref + (20 + (lfsrDraw s.link.lfsr).toNat % 256) * 20000 + late = sl.bound) ∧
    ∃ (s : State) (kind : MarkKind) (sl : LaunchSlot), s.link.slot kind = some sl ∧
      sl.keyUp = s.time.k ∧ (∃ pins, s.lines.levels = some pins ∧ pins.linkCd = true) ∧
      sl.deferrals = 3 := by
  refine ⟨⟨keyUp false 0 2560090000, .regular, _, rfl, rfl, ?_⟩, fun late _ =>
    ⟨keyUp true 2 (2300390000 + keyUpDelay + late), .regular, _, rfl, rfl,
      ⟨_, rfl, rfl⟩, rfl, rfl⟩, keyUp true 3 2560090000, .regular, _, rfl, rfl, ⟨_, rfl, rfl⟩, rfl⟩
  rintro (⟨p, h, h'⟩ | ⟨b, e, h⟩ | h)
  · cases h; cases h'
  · cases h
  · exact h rfl

theorem witness_ReferenceInstantComposesMark :
    ∃ (s : State) (kind : MarkKind) (ref : Nat), s.link.flight = some ⟨kind, ref, none⟩ ∧
      ref = s.time.k ∧ s.link.echoes.length = 2 ∧ s.coinc.outgoing.map OutNotice.sends = [1, 0] :=
  ⟨{ ready 2304990000 with
      link := { interval 2560090000 with
        flight := some ⟨.regular, 2304990000, none⟩
        echoes := [⟨3, 1, time 100 0, 0⟩, ⟨8, 2, time 101 0, 0⟩] }
      coinc := { Coincidence.afterReset with
        outgoing := [⟨5, 1000250000000, 1, 0⟩, ⟨6, 1000450000000, 0, 0⟩] } },
    .regular, 2304990000, rfl, rfl, rfl, rfl⟩

/-- A mark of station 17 with the fields at the limits of their bytes. -/
def fullMark : Mark where
  version := 15
  kind := 15
  station := 255
  seq := 255
  time := ⟨2 ^ 40 - 1, 2 ^ 32 - 1⟩
  uCode := 2 ^ 24 - 1
  depth := 15
  clock := 15
  echoes := List.replicate 6 ⟨255, 255, 2 ^ 48 - 1⟩
  notices := List.replicate 4 ⟨255, ⟨2 ^ 40 - 1, 2 ^ 32 - 1⟩⟩

theorem witness_MarkBodyRoundTrip : ∃ m : Mark, m.Fits ∧ m.echoes.length = 6 ∧ m.notices.length = 4 := by
  refine ⟨fullMark, ⟨by decide, by decide, by decide, ⟨by decide, by decide⟩, by decide, by decide,
    by decide, by decide, by decide, fun e h => ?_, fun n h => ?_⟩, rfl, rfl⟩
  · rw [List.eq_of_mem_replicate h]; exact ⟨by decide, by decide⟩
  · rw [List.eq_of_mem_replicate h]; exact ⟨by decide, by decide⟩

theorem witness_LinkKeptLegal : ∃ s t, s.link.Legal ∧ step s = .next t ∧ s.link.echoes ≠ [] := by
  refine ⟨{ keyUp true 3 2560090000 with
    link := { (keyUp true 3 2560090000).link with echoes := [⟨3, 1, time 100 0, 0⟩] }
    pending := [.keyUpCheck .regular] }, _, ⟨by decide, by decide, by decide, by decide, ?_, ?_, ?_⟩,
    rfl, by decide⟩
  · intro sl h; cases h; decide
  · intro sl h; cases h
  · intro h; cases h

/-- The part at tick `k` with the receiver, byte in progress and edge given. -/
def listeningTo (k : Nat) (rx : RxState) (byte : Option ByteIn) (edge : Bool) : State :=
  { ready k with
    lines := { State.reset.lines with edges := ⟨false, false, false, false, edge⟩ }
    link := { MarkLink.afterReset with rx := rx, byteIn := byte } }

/-- The part at tick `k` in ASSEMBLE, two samples of a start bit taken, the first as given. -/
def confirming (k : Nat) (first : Bool) (ref : RefSlot) : State :=
  { listeningTo k (.assemble [] 180000) (some ⟨199000, [first, false]⟩) false with
    cap := { CaptureUnit.afterReset with provisional := some (seenAt 199000), ref := ref } }

theorem witness_StartEdgesAndGaps :
    (∃ (s : State) (e : Nat), s.lines.edges.link = true ∧ s.startup.endK = some e ∧
      e + 1 = s.time.k ∧ s.link.flight = none ∧ s.link.byteIn = none ∧ s.link.rx ≠ .stopped ∧
      s.cap.linkPrevK < s.time.k) ∧
    (∀ ref ∈ [.armed, .idle, .held (seenAt 200000)],
      ∃ (s : State) (pins : Pins) (edge : Nat) (x y : Bool) (p : Capture),
        s.link.byteIn = some ⟨edge, [x, y]⟩ ∧ s.cap.provisional = some p ∧
        9 * 20000000 ≤ 16 * s.cfg.linkRate * (min (2 ^ 64 - 1) (s.time.k + 1) - edge) ∧
        16 * s.cfg.linkRate * (s.time.k - edge) < 9 * 20000000 ∧
        (x && y || x && pins.linkRxd || y && pins.linkRxd) = false ∧ s.cap.ref = ref) ∧
    (∃ (s : State) (edge : Nat) (x y z : Bool) (rest : List Bool),
      s.link.byteIn = some ⟨edge, x :: y :: z :: rest⟩ ∧ (x && y || x && z || y && z) = true) ∧
    (∃ (s : State) (b : Byte) (edge : Nat), s.link.rx = .hunt (some (b, edge)) ∧
      s.link.byteIn = none ∧ s.lines.edges.link = false ∧
      edge + (roundDiv (30 * 20000000) s.cfg.linkRate).toNat = s.time.k) ∧
    (∃ (s : State) (body : List Byte) (edge : Nat), s.link.rx = .assemble body edge ∧
      s.link.byteIn = none ∧ s.lines.edges.link = false ∧
      edge + (roundDiv (30 * 20000000) s.cfg.linkRate).toNat = s.time.k) ∧
    (∃ (s : State) (body : List Byte) (edge : Nat), s.link.rx = .assemble body edge ∧
      s.link.byteIn.isSome = true) ∧
    ∃ (s : State) (body : List Byte) (edge : Nat), s.link.rx = .assemble body edge ∧
      s.time.k + 1 = edge + (roundDiv (30 * 20000000) s.cfg.linkRate).toNat :=
  ⟨⟨listeningTo 90001 (.hunt none) none true, 90000, rfl, rfl, rfl, rfl, rfl, by decide, by decide⟩,
    fun ref _ => ⟨confirming 200171 true ref, { quiet with linkRxd := false }, 199000, true, false,
      seenAt 199000, rfl, rfl,
      show 9 * 20000000 ≤ 16 * (ready 200171).cfg.linkRate * (min (2 ^ 64 - 1) (200171 + 1) - 199000) by
        decide +kernel,
      show 16 * (ready 200171).cfg.linkRate * (200171 - 199000) < 9 * 20000000 by decide +kernel,
      rfl, rfl⟩,
    ⟨listeningTo 200000 (.hunt none) (some ⟨199000, [true, false, true]⟩) false, 199000, _, _, _, _,
      rfl, rfl⟩,
    ⟨listeningTo 262500 (.hunt (some (0x2D, 200000))) none false, 0x2D, 200000, rfl, rfl, rfl,
      by decide +kernel⟩,
    ⟨listeningTo 262500 (.assemble [] 200000) none false, [], 200000, rfl, rfl, rfl,
      by decide +kernel⟩,
    ⟨listeningTo 262500 (.assemble [] 200000) (some ⟨262400, []⟩) false, [], 200000, rfl, rfl⟩,
    listeningTo 262499 (.assemble [] 200000) none false, [], 200000, rfl, by decide +kernel⟩

/-- R26, R54: in ARMED the tick of sample 9 of a start bit that reads low takes the reference capture and
counts its edge, and the tick before does neither. -/
theorem test_start_bit_confirmed :
    ∀ k ∈ [200170, 200171],
      let s := tick { quiet with linkRxd := false } (confirming k true .armed)
      (s.cap.refEdges, s.cap.ref) =
        if k = 200170 then (0, .armed) else (1, .held (seenAt 199000)) := by
  decide +kernel

/-- The part as the stop bit of `last` is read after the bytes given, the reference slot as given. -/
def receiving (rx : RxState) (last : Byte) (ref : RefSlot) : State :=
  { listeningTo 230000 rx (some (byteSeen last 209100)) false with
    cap := { CaptureUnit.afterReset with ref := ref } }

theorem byteSeen_reads : ∀ b : Byte,
    (byteSeen b 209100).complete = true ∧ (byteSeen b 209100).value = b := by
  decide +kernel

theorem witness_LinkByteInHunt :
    ∀ x ∈ [((0xD4 : Byte), (0x2D : Byte)), (0xD4, 0x55), (0x2D, 0x2D)],
      ∃ (s : State) (b : ByteIn), s.link.byteIn = some b ∧ b.complete = true ∧
        s.link.rx = .hunt (some (x.2, 206000)) ∧ b.value = x.1 :=
  fun x _ => ⟨receiving (.hunt (some (x.2, 206000))) x.1 .idle, byteSeen x.1 209100,
    rfl, (byteSeen_reads x.1).1, rfl, (byteSeen_reads x.1).2⟩

/-- A mark of station 17 with the counts, version and CRC error given. -/
def markBody (echoes notices version : Nat) (bad : Byte) : List Byte :=
  let m : Mark :=
    { version := version, kind := 0, station := 17, seq := 4, time := ⟨1000, 999999999⟩, uCode := 17
      depth := 1, clock := 2, echoes := List.replicate echoes ⟨23, 9, 13379740000⟩
      notices := List.replicate notices ⟨5, ⟨1000, 250000000⟩⟩ }
  m.body.dropLast ++ [m.body.getLastD 0 ^^^ bad]

theorem dropLast_getLast (l : List Byte) (h : l ≠ []) : l.dropLast ++ [l.getLastD 0] = l := by
  rw [List.getLastD_eq_getLast?, List.getLast?_eq_getLast_of_ne_nil h]
  exact List.dropLast_append_getLast h

theorem witness_LinkByteInAssemble :
    (∀ whole, whole ≠ [] →
      ∃ (s : State) (b : ByteIn) (body : List Byte) (edge : Nat),
        s.link.byteIn = some b ∧ b.complete = true ∧ s.link.rx = .assemble body edge ∧
        body ++ [b.value] = whole) ∧
    ((markBody 6 4 1 0).take 16).length < 17 ∧
    (∀ n ∈ [17, 106], let whole := (markBody 6 4 1 0).take n;
      17 ≤ whole.length ∧ (whole.getD 16 0).toNat / 16 = 6 ∧ (whole.getD 16 0).toNat % 16 = 4 ∧
      whole.length < 19 + 8 * 6 + 10 * 4) ∧
    (((markBody 7 0 1 0).getD 16 0).toNat / 16 = 7 ∧ ((markBody 0 5 1 0).getD 16 0).toNat % 16 = 5) ∧
    (let whole := markBody 0 0 1 1;
      whole.length = 19 ∧ (whole.getD 16 0).toNat = 0 ∧
      (crc16 (whole.take (whole.length - 2))).toNat ≠ beNat (whole.drop (whole.length - 2))) ∧
    let whole := markBody 0 0 2 0;
    whole.length = 19 ∧ (whole.getD 16 0).toNat = 0 ∧
    (crc16 (whole.take (whole.length - 2))).toNat = beNat (whole.drop (whole.length - 2)) ∧
    (Mark.ofBody whole).version = 2 := by
  refine ⟨fun whole h => ?_, by decide +kernel, by decide +kernel, by decide +kernel,
    by decide +kernel, by decide +kernel⟩
  refine ⟨receiving (.assemble whole.dropLast 200000) (whole.getLastD 0) (.held (seenAt 200000)), _, _, _,
    rfl, (byteSeen_reads _).1, rfl, ?_⟩
  rw [(byteSeen_reads _).2]
  exact dropLast_getLast whole h

/-- An echo entry of each of the stations given. -/
def echoesOf (stations : List Nat) : List EchoEntry := stations.map fun x => ⟨x, 1, time 0 0, 0⟩

theorem witness_ValidMarkHandled :
    (∀ whole, whole ≠ [] → ∀ own ∈ [17, 23], ∀ muted ∈ [true, false], ∀ (peers : PeerTable),
      ∀ echoes ∈ [echoesOf [5, 17, 9], echoesOf (List.range 7), echoesOf (List.range 8)],
        ∃ (s : State) (b : ByteIn) (c : Capture) (body : List Byte) (edge : Nat),
          s.link.byteIn = some b ∧ b.complete = true ∧ s.link.rx = .assemble body edge ∧
          s.cap.ref = .held c ∧ body ++ [b.value] = whole ∧ s.startup.station.toNat = own ∧
          s.link.muted = muted ∧ s.peers = peers ∧ s.link.echoes = echoes) ∧
    (∃ p : PeerTable, p.useMark ⟨17, 4, 272, 1, .locked, 200000⟩ = none) ∧
    (∃ p : PeerTable, (p.useMark ⟨17, 4, 272, 1, .locked, 200000⟩).isSome = true) ∧
    ∀ n ∈ [(0, 0), (2, 1)],
      (let whole := markBody n.1 n.2 1 0;
        17 ≤ whole.length ∧ (whole.getD 16 0).toNat / 16 ≤ 6 ∧ (whole.getD 16 0).toNat % 16 ≤ 4 ∧
        19 + 8 * ((whole.getD 16 0).toNat / 16) + 10 * ((whole.getD 16 0).toNat % 16) =
          whole.length ∧
        (crc16 (whole.take (whole.length - 2))).toNat = beNat (whole.drop (whole.length - 2))) ∧
      let m := Mark.ofBody (markBody n.1 n.2 1 0);
      m.version = 1 ∧ m.kind ≤ 1 ∧ m.station = 17 ∧ m.clock ≤ 3 ∧ m.time.ns = 999999999 ∧
      ∀ n ∈ m.notices, n.time.ns ≤ 999999999 := by
  refine ⟨fun whole h own ho muted _ peers echoes _ => ?_,
    ⟨table (List.replicate 24 (some (peer 41 .tracked []))), by decide +kernel⟩,
    ⟨table (List.replicate 24 none), by decide +kernel⟩, by decide +kernel⟩
  let s := receiving (.assemble whole.dropLast 200000) (whole.getLastD 0) (.held (seenAt 200000))
  refine ⟨{ s with
      link := { s.link with muted := muted, echoes := echoes }, peers := peers
      startup := { s.startup with station := BitVec.ofNat 6 own } }, _, _, _, _, rfl,
    (byteSeen_reads _).1, rfl, rfl,
    by rw [(byteSeen_reads _).2]; exact dropLast_getLast whole h, ?_, rfl, rfl, rfl⟩
  simp only [List.mem_cons, List.not_mem_nil, or_false] at ho
  rcases ho with rfl | rfl <;> rfl

/-- A full table of stations 1 to 24 in the states that `state` gives slot by slot, with the last-mark K
given. -/
def fullTable (state : Nat → EntryState) (lastK : Nat → Nat) : PeerTable :=
  { PeerTable.afterReset with
    slots := (List.range 24).map fun i => some { peer (i + 1) (state i) [] with lastK := lastK i } }

theorem fullTable_slot (state : Nat → EntryState) (lastK : Nat → Nat) (j : Nat) (x : PeerEntry)
    (h : (fullTable state lastK).slots[j]? = some (some x)) :
    j < 24 ∧ x = { peer (j + 1) (state j) [] with lastK := lastK j } := by
  simp only [fullTable, List.getElem?_map, Option.map_eq_some_iff] at h
  obtain ⟨a, ha, hx⟩ := h
  obtain ⟨hj, ha⟩ := List.getElem?_eq_some_iff.1 ha
  rw [List.getElem_range] at ha
  rw [List.length_range] at hj
  subst ha
  exact ⟨hj, (Option.some.inj hx).symm⟩

theorem fullTable_full (state : Nat → EntryState) (lastK : Nat → Nat) (i : Nat) :
    (fullTable state lastK).slots[i]? ≠ some none := by
  intro h
  simp only [fullTable, List.getElem?_map, Option.map_eq_some_iff] at h
  obtain ⟨_, _, h⟩ := h
  cases h

theorem fullTable_mem (state : Nat → EntryState) (lastK : Nat → Nat) (e : PeerEntry)
    (h : some e ∈ (fullTable state lastK).slots) : ∃ i, e.state = state i := by
  simp only [fullTable, List.mem_map] at h
  obtain ⟨i, _, h⟩ := h
  cases h
  exact ⟨i, rfl⟩

theorem witness_PeerAdmissionChoosesSlot :
    (∃ (p : PeerTable) (i : Nat) (e : PeerEntry), p.stations.Nodup ∧ p.slots[i]? = some (some e) ∧
      e.station = 24) ∧
    (∃ (p : PeerTable) (i : Nat), 41 ∉ p.stations ∧ p.slots[i]? = some none ∧
      ∀ j : Nat, j < i → p.slots[j]? ≠ some none) ∧
    (∀ st ∈ [EntryState.silent, .trial], ∃ (p : PeerTable) (i : Nat) (e : PeerEntry),
      41 ∉ p.stations ∧ (∀ i : Nat, p.slots[i]? ≠ some none) ∧
      (st = .trial → ∀ e, some e ∈ p.slots → e.state ≠ .silent) ∧
      p.slots[i]? = some (some e) ∧ e.state = st ∧
      ∀ (j : Nat) x, p.slots[j]? = some (some x) → x.state = st →
        e.lastK < x.lastK ∨ e.lastK = x.lastK ∧ i ≤ j) ∧
    ∃ p : PeerTable, 41 ∉ p.stations ∧ (∀ i : Nat, p.slots[i]? ≠ some none) ∧
      ∀ e, some e ∈ p.slots → e.state ≠ .silent ∧ e.state ≠ .trial := by
  have absent : ∀ state lastK, 41 ∉ (fullTable state lastK).stations := by
    intro state lastK h
    simp only [PeerTable.stations, fullTable, List.mem_filterMap, List.mem_map] at h
    obtain ⟨_, ⟨i, hi, rfl⟩, h⟩ := h
    have := List.mem_range.1 hi
    simp only [Option.map_some, Option.some.injEq] at h
    simp only [peer] at h
    omega
  refine ⟨⟨fullTable (fun _ => .tracked) fun _ => 0, 23, _, by decide, rfl, rfl⟩,
    ⟨table [some (peer 7 .trial [])], 1, by decide, rfl, by decide⟩, fun st hst => ?_,
    fullTable (fun i => if i < 5 then .tracked else .barred) fun _ => 0, absent _ _,
    fullTable_full _ _, fun e h => ?_⟩
  · refine ⟨fullTable (fun i => if i < 20 then .tracked else st) fun i => (i + 4) / 8, 20, _,
      absent _ _, fullTable_full _ _, fun h e he => ?_, rfl, rfl, fun j x h hx => ?_⟩
    · obtain ⟨i, hi⟩ := fullTable_mem _ _ e he
      rw [hi, h]
      split <;> decide
    · obtain ⟨hj, rfl⟩ := fullTable_slot _ _ _ _ h
      simp only at hx ⊢
      simp only [peer] at hx
      split at hx
      · rw [← hx] at hst
        exact absurd hst (by decide)
      · omega
  · obtain ⟨i, hi⟩ := fullTable_mem _ _ e h
    rw [hi]
    split <;> decide

theorem witness_ExchangeJudgedAndRecorded :
    (∃ (c : Capture) (r1 : TimeVal) (hold : Nat), r1.units ≤ c.r.units ∧
      (((c.r.units - r1.units) / 2 ^ 32 : Nat) : Int) - hold = -1) ∧
    (∃ (c : Capture) (r1 : TimeVal) (hold limit : Nat), r1.units ≤ c.r.units ∧
      (((c.r.units - r1.units) / 2 ^ 32 : Nat) : Int) - hold = limit + 1) ∧
    (∀ d ∈ [0, 500000000], ∃ (c : Capture) (r1 : TimeVal) (hold : Nat), r1.units ≤ c.r.units ∧
      (((c.r.units - r1.units) / 2 ^ 32 : Nat) : Int) - hold = d) ∧
    ∃ (p : PeerTable) (i : Nat) (e : PeerEntry), p.stations.Nodup ∧
      p.slots[i]? = some (some e) ∧ e.station = 41 :=
  ⟨⟨seen (time 0 0) (time 10 5) 7 0, time 9 5, 1000000001, by decide +kernel, by decide +kernel⟩,
    ⟨seen (time 0 0) (time 11 5) 7 0, time 9 5, 1499999999, 500000000, by decide +kernel,
      by decide +kernel⟩,
    fun d h => by
      simp only [List.mem_cons, List.not_mem_nil, or_false] at h
      rcases h with rfl | rfl
      · exact ⟨seen (time 0 0) (time 10 5) 7 0, time 9 5, 1000000000, by decide +kernel,
          by decide +kernel⟩
      · exact ⟨seen (time 0 0) (time 10 5) 7 0, time 9 5, 500000000, by decide +kernel,
          by decide +kernel⟩,
    table [none, some (peer 41 .trial [])], 1, _, by decide, rfl, rfl⟩

theorem witness_OffsetNowFromLeastDelay :
    (∃ e : PeerEntry, e.history = []) ∧ ∃ e : PeerEntry, e.history ≠ [] :=
  ⟨⟨peer 41 .trial [], rfl⟩, peer 41 .trial [⟨-16000, 30600, 0, 5⟩], by decide⟩

theorem witness_PeerTableKeptLegal :
    ∀ k ∈ [89999, 90000], ∃ s t, s.time.k = k ∧ s.PeersLegal ∧ step s = .next t := by
  intro k h
  simp only [List.mem_cons, List.not_mem_nil, or_false] at h
  rcases h with rfl | rfl
  · refine ⟨{ ready 89999 with pending := [.tick quiet] }, _, rfl,
      ⟨rfl, by decide, by decide, fun e h => ?_, fun _ => ⟨rfl, rfl, rfl, rfl, rfl, by decide⟩⟩, rfl⟩
    cases List.eq_of_mem_replicate h
  · refine ⟨{ ready 90000 with
      peers := table [some (peer 62 .tracked [⟨-16000, 30600, 0, 5⟩])], pending := [.tick quiet] }, _,
      rfl, ⟨rfl, by decide, by decide, fun e h => ?_, fun h => absurd h (by decide)⟩, rfl⟩
    obtain h | h := List.mem_append.1 h
    · cases List.mem_singleton.1 h
      exact ⟨by decide, by decide, by decide, by decide, by decide, by decide, by decide⟩
    · cases List.eq_of_mem_replicate h

/-- The part at tick `k` with the entry given in slot 23. -/
def lastSlot (k : Nat) (e : PeerEntry) : State :=
  { ready k with peers := { PeerTable.afterReset with slots := List.replicate 23 none ++ [some e] } }

theorem witness_PeerTimersMoveEntries :
    (∀ early ∈ [0, 1], ∃ (s : State) (e : PeerEntry), s.peers.slots[23]? = some (some e) ∧
      e.state = .trial ∧ e.lastK + 4 * (s.cfg.mSeconds * 20000000) = s.time.k + early) ∧
    (∀ early ∈ [0, 1], ∃ (s : State) (e : PeerEntry), s.peers.slots[23]? = some (some e) ∧
      e.state = .silent ∧ e.lastK + 16 * (s.cfg.mSeconds * 20000000) = s.time.k + early) ∧
    (∃ (s : State) (e : PeerEntry) (r : ExchangeRecord), s.peers.slots[23]? = some (some e) ∧
      e.state = .tracked ∧ e.history.getLast? = some r ∧
      r.k + 4 * (s.cfg.mSeconds * 20000000) = s.time.k) ∧
    (∃ (s : State) (e : PeerEntry) (r : ExchangeRecord) (rest : List ExchangeRecord),
      s.peers.slots[23]? = some (some e) ∧ e.history = r :: rest ∧
      r.k + 8 * (s.cfg.mSeconds * 20000000) = s.time.k) ∧
    ∀ early ∈ [0, 1], ∃ (s : State) (e : PeerEntry) (b : Nat), s.peers.slots[23]? = some (some e) ∧
      e.state = .barred ∧ e.barEnd = some b ∧ b = s.time.k + early := by
  refine ⟨fun early _ => ⟨lastSlot 1280000000 { peer 41 .trial [] with lastK := early }, _, rfl, rfl,
      by revert early; decide +kernel⟩,
    fun early _ => ⟨lastSlot 5120000000 { peer 41 .silent [] with lastK := early }, _, rfl, rfl,
      by revert early; decide +kernel⟩,
    ⟨lastSlot 1280000005 (peer 41 .tracked [⟨0, 5, 0, 1⟩, ⟨0, 5, 0, 5⟩]), _, _, rfl, rfl, rfl,
      by decide +kernel⟩,
    ⟨lastSlot 2560000001 (peer 41 .silent [⟨0, 5, 0, 1⟩, ⟨0, 5, 0, 5⟩]), _, _, _, rfl, rfl,
      by decide +kernel⟩,
    fun early _ => ⟨lastSlot 2560000000
      { peer 41 .barred [] with barEnd := some (2560000000 + early) }, _, _, rfl, rfl, rfl, rfl⟩⟩

theorem witness_RunGathersSources :
    (∃ s, sources s = []) ∧ ∃ s x, x ∈ sources s :=
  ⟨⟨ready 100860000000, by decide⟩, knowing .tracked [], ⟨.peer 41, -16000, 415, 272, 0⟩,
    by decide +kernel⟩

theorem witness_MedianSelectsSurvivors : ∃ xs : List Source, xs ≠ [] := ⟨sources56, by decide⟩

theorem witness_WeightsAndCombinedUncertainty :
    (∀ u ∈ [50, 9999], ∃ x : Source, x.u = u ∧ 50 ≤ x.u ∧ x.u < 10000) ∧
    (∃ x : Source, 50 ≤ x.u ∧ x.u = 524288 + 1) ∧ ∃ w, 1 ≤ w ∧ w = 1 :=
  ⟨fun u h => ⟨⟨.peer 5, 0, u, 0, 0⟩, rfl, by revert u; decide⟩,
    ⟨⟨.peer 5, 0, 524289, 0, 0⟩, by decide, rfl⟩, 1, by decide, rfl⟩

theorem witness_CombinedResultFromSurvivors :
    (∃ xs : List Source, xs ≠ [] ∧ ∃ x ∈ xs, x.id = .anchor) ∧
    (∃ xs : List Source, xs ≠ [] ∧ ∀ x ∈ xs, x.id = .origin) ∧
    (∃ xs : List Source, xs ≠ [] ∧ (∀ x ∈ xs, x.id ≠ .anchor) ∧ ∃ x ∈ xs, x.id ≠ .origin) ∧
    ∃ xs : List Source, xs ≠ [] ∧ ∀ x ∈ xs, (900 : Int) ≤ x.theta ∧ x.theta ≤ 9000 :=
  ⟨⟨[⟨.anchor, 40000, 146, 96, 0⟩], by decide, by decide⟩,
    ⟨[⟨.origin, 0, 1000, 950, 15⟩], by decide, by decide⟩,
    ⟨[⟨.peer 5, 0, 1000, 950, 14⟩, ⟨.origin, 0, 1000, 950, 15⟩], by decide, by decide, by decide⟩,
    sources56, by decide, by decide⟩

theorem witness_OriginRuleAtEndOfRun :
    (∃ (s : State) (d : Nat), s.comb.originFlag = true ∧ d = 14) ∧ ∃ d, 14 < d ∧ d = 15 :=
  ⟨⟨{ ready 90001 with comb := { Combiner.afterReset with originFlag := true } }, 14, rfl, rfl⟩, 15,
    by decide, rfl⟩

theorem witness_ReportsBarSources :
    (∃ (s : State) (b : Nat), s.comb.anchorBarred = some b ∧ b = s.time.k) ∧
    (∃ (s : State) (b : Nat), s.comb.originBarred = some b ∧ b = s.time.k) ∧
    (∀ theta ∈ [800, 801], ∃ (m : Int) (x : Source), x.id = .anchor ∧
      (x.theta - m).natAbs = theta ∧ 2 * x.u + 200 = 800) ∧
    ∃ (x : Source) (station : Nat), x.id = .peer station :=
  ⟨⟨{ ready 640000000 with comb := { Combiner.afterReset with anchorBarred := some 640000000 } }, _,
      rfl, rfl⟩,
    ⟨{ ready 640000000 with comb := { Combiner.afterReset with originBarred := some 640000000 } }, _,
      rfl, rfl⟩,
    fun theta _ => ⟨0, ⟨.anchor, theta, 300, 150, 0⟩, rfl, by simp, rfl⟩,
    ⟨.peer 5, 0, 300, 150, 0⟩, 5, rfl⟩

/-- The part on an update's tick, in the clock state and with the counts given, one peer at the offset
given or none. -/
def updating (clock : ClockState) (lock none_ brk : Nat) (theta : Option Int) : State :=
  { ready 640000000 with
    peers := table (theta.toList.map fun x => some (peer 41 .tracked [⟨x, 0, 0, 640000000⟩]))
    servo :=
      { Servo.afterReset with
        clock := clock, lockCount := lock, noneCount := none_, breakCount := brk
        coast := if clock = .coast then some ⟨320000000, 5, 800, 1, false, 0⟩ else none } }

/-- The run of an update. -/
def runOf (s : State) : State × Option Combined :=
  combinerRun { s with servo := { s.servo with lastUpdate := s.time.k } }

/-- An update with a clock state, lock, none and break counts and an offset or NONE. -/
abbrev UpdateCase := ClockState × Nat × Nat × Nat × Option Int

/-- A state meets an update's hypotheses in the case given; the step limit is 1,000,000 ns and the lock
threshold 2,492 ns. -/
def MeetsUpdate (x : UpdateCase) : Prop :=
  ∃ (s t : State) (result : Option Combined), 0 < s.time.k ∧ s.time.k % (s.cfg.mSeconds * 20000000) = 0 ∧
    s.servo.lastUpdate < s.time.k ∧
    combinerRun { s with servo := { s.servo with lastUpdate := s.time.k } } = (t, result) ∧
    (s.servo.clock, s.servo.lockCount, s.servo.noneCount, s.servo.breakCount,
      result.map Combined.theta) = x ∧
    s.cfg.stepLimit * 1000 = 1000000 ∧ (∀ r, result = some r → 4 * r.u + 1000 = 2492) ∧
    (s.servo.clock = .coast → ∃ c, s.servo.coast = some c)

theorem meets_update (clock : ClockState) (lock none_ brk : Nat) (theta : Option Int)
    (h : (runOf (updating clock lock none_ brk theta)).2 = theta.map fun x => ⟨x, 373, 1⟩) :
    MeetsUpdate (clock, lock, none_, brk, theta) := by
  refine ⟨updating clock lock none_ brk theta, (runOf (updating clock lock none_ brk theta)).1,
    theta.map fun x => ⟨x, 373, 1⟩,
    show 0 < 640000000 by decide, show 640000000 % (4 * 2 ^ 2 * 20000000) = 0 by decide +kernel,
    show 0 < 640000000 by decide, Prod.ext rfl h, ?_,
    show 1000 * 1000 = 1000000 by decide +kernel, fun r hr => ?_, fun hc => ?_⟩
  · cases theta <;> rfl
  · cases theta <;> cases hr
    rfl
  · have hc : clock = .coast := hc
    exact ⟨_, if_pos hc⟩

theorem witness_ServoUpdateTowardsLock :
    ∀ x ∈ ([(.unset, 0, 0, 0, none), (.unset, 0, 0, 0, some (-1000)), (.unset, 0, 0, 0, some 999),
      (.pullIn, 0, 0, 0, some (-1000001)), (.pullIn, 3, 0, 0, some 1000000),
      (.pullIn, 3, 0, 0, some 2493), (.pullIn, 2, 0, 0, some 2492),
      (.pullIn, 3, 0, 0, some (-2492))] : List UpdateCase), MeetsUpdate x := by
  simp only [List.forall_mem_cons, List.not_mem_nil, false_implies, implies_true, and_true]
  refine ⟨?_, ?_, ?_, ?_, ?_, ?_, ?_, ?_⟩ <;> exact meets_update _ _ _ _ _ (by decide +kernel)

theorem witness_ServoUpdateInLockAndCoast :
    ∀ x ∈ ([(.locked, 4, 0, 0, some 1000000), (.locked, 4, 0, 1, some 1000001),
      (.locked, 4, 0, 2, some (-1000001)), (.pullIn, 0, 0, 0, none), (.locked, 4, 0, 0, none),
      (.pullIn, 0, 1, 0, none), (.locked, 4, 1, 0, none), (.coast, 0, 0, 0, some 1000000),
      (.coast, 0, 0, 0, some 1000001), (.coast, 0, 0, 0, none)] : List UpdateCase),
      MeetsUpdate x := by
  simp only [List.forall_mem_cons, List.not_mem_nil, false_implies, implies_true, and_true]
  refine ⟨?_, ?_, ?_, ?_, ?_, ?_, ?_, ?_, ?_, ?_⟩ <;>
    exact meets_update _ _ _ _ _ (by decide +kernel)

/-- The part in COAST since tick 320,000,000, at tick `k`. -/
def coasting (k u : Nat) (passed : Bool) : State :=
  { ready k with
    servo := { Servo.afterReset with
      clock := .coast, advU := u, advDepth := 1, coast := some ⟨320000000, 5, u, 1, passed, 0⟩ } }

theorem witness_AdvertisedValuesKeptLegal :
    ∃ s t, s.servo.Legal ∧ step s = .next t ∧ s.servo.clock = .coast :=
  ⟨{ coasting 340000000 800 false with pending := [.coastGrowth] }, _,
    ⟨⟨_, rfl, rfl, rfl, by decide⟩, show (800 : Nat) ≤ 268435440 by decide,
      show (1 : Nat) ≤ 15 by decide⟩, rfl, rfl⟩

theorem witness_CoastGrowsAndPassesItsLimit :
    (∀ u ∈ [800, 268435440], ∃ (s : State) (c : CoastRecord), s.servo.clock = .coast ∧
      s.servo.coast = some c ∧ c.startK < s.time.k ∧ (s.time.k - c.startK) % 20000000 = 0 ∧
      c.lastGrowth < s.time.k ∧ c.u = u) ∧
    (∃ (s : State) (c : CoastRecord), s.servo.clock = .coast ∧ s.servo.coast = some c ∧
      c.startK + s.cfg.coastLimit * 1200000000 + 1 = s.time.k ∧ c.limitPassed = false) ∧
    (∃ (s : State) (c : CoastRecord), s.servo.clock = .coast ∧ s.servo.coast = some c ∧
      s.time.k = c.startK + s.cfg.coastLimit * 1200000000) ∧
    ∃ (s : State) (c : CoastRecord), s.servo.clock = .coast ∧ s.servo.coast = some c ∧
      c.limitPassed = true :=
  ⟨fun u _ => ⟨coasting 340000000 u false, _, rfl, rfl, show 320000000 < 340000000 by decide,
      show (340000000 - 320000000) % 20000000 = 0 by decide, show 0 < 340000000 by decide, rfl⟩,
    ⟨coasting 144320000001 800 false, _, rfl, rfl,
      show 320000000 + 120 * 1200000000 + 1 = 144320000001 by decide +kernel, rfl⟩,
    ⟨coasting 144320000000 800 false, _, rfl, rfl,
      show 144320000000 = 320000000 + 120 * 1200000000 by decide +kernel⟩,
    coasting 144320000002 800 true, _, rfl, rfl, rfl⟩

/-- A monitor with the slots given and the bin of their mean at the count given. -/
def warmed (slots : List Int) (count : Nat) : Temperature :=
  { Temperature.afterReset (List.replicate 16 ⟨150000, count⟩) with slots := slots }

theorem witness_ConversionsAndLearning :
    (∃ (s : State) (n : Nat), s.time.k = 80000000 * (n + 1) ∧ s.temp.converting = none) ∧
    (∀ code ∈ [0, 1023], ∃ (s : State) (k0 : Nat), s.temp.converting = some k0 ∧
      k0 + 20000 = s.time.k ∧ code < 1024) ∧
    (∃ (s t : State) (c : CoastRecord), s.temp.converting = some 160000000 ∧
      160020000 = s.time.k ∧ exec (.conversionComplete 1023) s = .next t ∧
      s.servo.clock = .coast ∧ t.temp.bin ≠ s.temp.bin ∧ s.servo.coast = some c) ∧
    (∃ m : Temperature, m.slots.length ≠ 4) ∧
    (∃ (m : Temperature) (a b c d : Int), m.slots = [a, b, c, d]) ∧
    (∃ m : Temperature, m.bin = none) ∧
    (∀ count ∈ [0, 1, 255], ∃ (m : Temperature) (i : Nat) (old : DriftBin), m.bin = some i ∧
      m.bins[i]? = some old ∧ old.count = count) ∧
    ∃ s t, s.temp.Legal ∧ step s = .next t := by
  refine ⟨⟨ready 80000000, 0, rfl, rfl⟩, fun code h =>
      ⟨{ ready 80020000 with temp := { (ready 0).temp with converting := some 80000000 } }, 80000000,
        rfl, rfl, by revert code; decide⟩,
    ⟨{ coasting 160020000 800 false with
        temp := { warmed [78, 78, 78] 4 with converting := some 160000000 } }, _, _, rfl, rfl, rfl, rfl,
      by decide +kernel, rfl⟩,
    ⟨warmed [1, 2, 3] 0, by decide⟩, ⟨warmed [78, 78, 78, 79] 0, _, _, _, _, rfl⟩,
    ⟨warmed [1, 2, 3] 0, rfl⟩, fun count _ => ⟨warmed [340, 340, 340, 340] count, 15, _, rfl, rfl, rfl⟩,
    { ready 5 with temp := warmed [-160, 340] 255, pending := [.conversionComplete 1023] }, _,
    ⟨by decide, by decide, rfl, fun b h => ?_⟩, rfl⟩
  rw [List.eq_of_mem_replicate h]
  decide

/-- A port with 16 records waiting. -/
def fullPort : RecordPort := { RecordPort.afterReset with queue := queueOf [0, 2, 3, 10, 1, 0] }

theorem witness_RecordPortKeptLegal : ∃ s t, s.port.Legal ∧ step s = .next t :=
  ⟨{ ready 90001 with port := fullPort, pending := [.tick quiet] }, _,
    ⟨by decide, by decide⟩, rfl⟩

theorem witness_RecordsQueueAndLeave :
    (∃ (p : RecordPort) (r : Record), 4 ≤ r.cls ∧ p.queue.length = 12) ∧
    (∃ (p : RecordPort) (r : Record), r.cls < 4 ∧ p.queue.length = 15) ∧
    (∃ (p : RecordPort) (r : Record), r.cls = 4 ∧ p.queue.length = 11) ∧
    (∃ (p : RecordPort) (r : Record), r.cls < 4 ∧ p.queue.length = 16 ∧ ∀ x ∈ p.queue, x.cls ≤ r.cls) ∧
    (∃ (p : RecordPort) (r : Record) (before : List Record) (x : Record) (after : List Record),
      r.cls < 4 ∧ p.queue.length = 16 ∧ p.queue = before ++ x :: after ∧ r.cls < x.cls ∧
      (∀ y ∈ before, y.cls ≤ x.cls) ∧ ∀ y ∈ after, y.cls < x.cls) ∧
    (∃ s : State, s.startup.endK = none) ∧
    (∃ (s : State) (e : Nat) (f : Frame), s.startup.endK = some e ∧ s.port.frame = some f) ∧
    (∃ (s : State) (r : Record) (e : Nat) (before : List Record) (x : Record) (after : List Record),
      s.startup.endK = some e ∧ s.port.frame = none ∧
      (s.port.enqueue r).queue = before ++ x :: after ∧ before ≠ [] ∧ after ≠ [] ∧
      (∀ y ∈ before, x.cls < y.cls) ∧ ∀ y ∈ after, x.cls ≤ y.cls) ∧
    (∃ (s : State) (f : Frame), s.port.frame = some f ∧
      f.start + (roundDiv (10 * f.bytes.length * 20000000 : Nat) s.cfg.recordRate).toNat = s.time.k ∧
      s.port.queue = []) ∧
    ∃ (s : State) (f : Frame) (before : List Record) (x : Record) (after : List Record),
      s.port.frame = some f ∧
      f.start + (roundDiv (10 * f.bytes.length * 20000000 : Nat) s.cfg.recordRate).toNat = s.time.k ∧
      s.port.queue = before ++ x :: after ∧ (∀ y ∈ before, x.cls < y.cls) ∧
      ∀ y ∈ after, x.cls ≤ y.cls := by
  refine ⟨⟨{ fullPort with queue := queueOf [0, 0, 0, 12, 0, 0] }, recOf 4, by decide, rfl⟩,
    ⟨{ fullPort with queue := queueOf [0, 0, 0, 12, 0, 3] }, recOf 3, by decide, rfl⟩,
    ⟨{ fullPort with queue := queueOf [0, 0, 0, 11, 0, 0] }, recOf 4, rfl, rfl⟩,
    ⟨{ fullPort with queue := queueOf [0, 2, 3, 11, 0, 0] }, recOf 3, by decide, rfl, by decide⟩,
    ⟨fullPort, recOf 1, queueOf [0, 2, 3, 10, 0, 0], recOf 4, [], by decide, rfl, rfl, by decide,
      by decide, by decide⟩,
    ⟨State.reset, rfl⟩,
    ⟨{ ready 132986 with
        port := { RecordPort.afterReset with frame := some ⟨100000, List.replicate 19 0⟩ } }, _, _, rfl,
      rfl⟩,
    ⟨{ ready 132986 with port := { RecordPort.afterReset with queue := [recOf 4, recOf 3] } }, recOf 3, _,
      [recOf 4], recOf 3, [recOf 3], rfl, rfl, by decide, by decide, by decide, by decide, by decide⟩,
    ⟨{ ready 132986 with
        port := { RecordPort.afterReset with frame := some ⟨100000, List.replicate 19 0⟩ } }, _, rfl,
      by decide +kernel, rfl⟩,
    { ready 132986 with
      port := { fullPort with
        queue := [recOf 4, recOf 3, recOf 3, recOf 5], frame := some ⟨100000, List.replicate 19 0⟩ } },
    _, [recOf 4], recOf 3, [recOf 3, recOf 5], rfl, by decide +kernel, rfl, by decide, by decide⟩

theorem witness_TimersReportAndRearmClears :
    (∃ (s : State) (e n : Nat), s.startup.endK = some e ∧
      s.time.k = e + (n + 1) * (s.cfg.statusInterval * 20000000) ∧ 0 < s.cfg.statusInterval ∧
      s.port.lastStatus < s.time.k) ∧
    (∃ (s : State) (e n : Nat), s.startup.endK = some e ∧
      s.time.k = e + (n + 1) * (s.cfg.mSeconds * 20000000) ∧ s.port.lastPeer < s.time.k ∧
      ∀ (slot : Nat) x, slot < 24 → s.peers.slots[slot]? ≠ some (some x)) ∧
    (∃ (s : State) (e n i : Nat) (x : PeerEntry), s.startup.endK = some e ∧
      s.time.k = e + (n + 1) * (s.cfg.mSeconds * 20000000) ∧ s.port.lastPeer < s.time.k ∧ 1 ≤ i ∧
      i = 24 ∧ s.peers.slots[(s.port.cursor + i) % 24]? = some (some x) ∧
      ∀ (j : Nat) y, 1 ≤ j → j < i → s.peers.slots[(s.port.cursor + j) % 24]? ≠ some (some y)) ∧
    ∃ s : State, s.lines.edges.rearm = true := by
  refine ⟨⟨ready 1200090000, 90000, 0, rfl, by decide +kernel, by decide, by decide⟩,
    ⟨ready 320090000, 90000, 0, rfl, by decide +kernel, by decide, fun slot x _ h => ?_⟩,
    ⟨lastSlot 640090000 (peer 41 .trial []), 90000, 1, 24, _, rfl, by decide +kernel, by decide,
      by decide, rfl, rfl, fun j y h1 h2 h => ?_⟩,
    { ready 90001 with lines := { State.reset.lines with edges := ⟨false, false, false, true, false⟩ } },
    rfl⟩
  · cases List.eq_of_mem_replicate (List.mem_of_getElem? h)
  · change (List.replicate 23 none ++ [some (peer 41 .trial [])])[(23 + j) % 24]? = _ at h
    rw [List.getElem?_append_left (by rw [List.length_replicate]; omega)] at h
    cases List.eq_of_mem_replicate (List.mem_of_getElem? h)

theorem witness_FramesOnTheLines :
    (∃ r : Record, (∀ x, r = .status x → x.edges.length = 4 ∧ x.stats.length = 24) ∧ r.cls = 4) ∧
    (∃ s : State, s.link.flight = none ∧ s.port.frame = none) ∧
    (∀ m ∈ [-60, -1, 0, 19, 20], ∀ late ∈ [-1, 0], ∃ (s : State) (kind : MarkKind) (ref : Nat),
      s.link.flight = some ⟨kind, ref, some [0x10, 0x17]⟩ ∧ s.cfg.linkRate ≤ 10000000 ∧
      (s.time.k : Int) - ref = roundDiv (m * 20000000) s.cfg.linkRate + late) ∧
    ∀ j ∈ [0, 9], ∃ (s : State) (f : Frame) (byte : Byte), s.port.frame = some f ∧
      f.bytes[1]? = some byte ∧ j < 10 ∧
      roundDiv ((10 * 1 + j : Nat) * 20000000) s.cfg.recordRate ≤ (s.time.k : Int) - f.start ∧
      (s.time.k : Int) - f.start + 1 =
        roundDiv ((10 * 1 + j + 1 : Nat) * 20000000) s.cfg.recordRate := by
  refine ⟨⟨.status (statusRecord (ready 90001)), fun x h => by cases h; decide, rfl⟩,
    ⟨ready 90001, rfl, rfl⟩, fun m h late hl => ?_, fun j h => ?_⟩
  · refine ⟨{ ready (1000000 + roundDiv (m * 20000000) 9600 + late).toNat with
      link := { MarkLink.afterReset with flight := some ⟨.regular, 1000000, some [0x10, 0x17]⟩ } },
      .regular, 1000000, rfl, ?_⟩
    revert m late; decide +kernel
  · refine ⟨{ ready (1000000 + (roundDiv ((10 * 1 + j + 1 : Nat) * 20000000) 115200).toNat - 1) with
      port := { RecordPort.afterReset with frame := some ⟨1000000, [0xA5, 0x04]⟩ } }, _, 0x04, rfl, rfl,
      ?_⟩
    revert j; decide +kernel

end Sys2Proof.Tests
end

namespace Sys2Proof.Machine

/-! # The time scales: what each command does to the Time Scale Unit -/

/-! ## The controls leave the scales alone -/

/-- The scales the unit counts: K, R, T and the wrap count of T's seconds. F, P and the pending step are
its controls. -/
def TimeScale.scales (ts : TimeScale) : Nat × TimeVal × TimeVal × Nat := (ts.k, ts.r, ts.t, ts.wraps)

theorem TimeScale.scales_eq_iff (x y : TimeScale) :
    x.scales = y.scales ↔ x.k = y.k ∧ x.r = y.r ∧ x.t = y.t ∧ x.wraps = y.wraps := by
  simp only [TimeScale.scales, Prod.mk.injEq]

@[simp] theorem TimeScale.setF_scales (v : Int) (ts : TimeScale) : (ts.setF v).scales = ts.scales := rfl

@[simp] theorem TimeScale.setP_scales (v : Int) (ts : TimeScale) : (ts.setP v).scales = ts.scales := by
  unfold TimeScale.setP; split <;> rfl

@[simp] theorem TimeScale.request_scales (keyed : Bool) (a : Int) (ts : TimeScale) :
    (ts.request keyed a).scales = ts.scales := by
  unfold TimeScale.request; split <;> rfl

@[simp] theorem TimeScale.release_scales (ts : TimeScale) : ts.release.scales = ts.scales := by
  unfold TimeScale.release; split <;> rfl

@[simp] theorem State.requestStep_scales (reason : BreakReason) (a : Int) (s : State) :
    (s.requestStep reason a).time.scales = s.time.scales :=
  TimeScale.request_scales _ _ _

@[simp] theorem State.slew_scales (a : Int) (s : State) : (s.slew a).time.scales = s.time.scales :=
  TimeScale.setP_scales _ _

@[simp] theorem State.chooseCoastF_scales (s : State) :
    s.chooseCoastF.time.scales = s.time.scales := by
  unfold State.chooseCoastF; split <;> rfl

@[simp] theorem State.enterCoast_scales (s : State) : s.enterCoast.time.scales = s.time.scales := by
  unfold State.enterCoast; exact State.chooseCoastF_scales _

/-- Without a result the servo sets P to 0 and may enter COAST; the scales stay. -/
theorem updateNone_scales (s : State) : (updateNone s).time.scales = s.time.scales := by
  unfold updateNone; dsimp only; split <;> simp

theorem updateLocked_scales (r : Combined) (s : State) :
    (updateLocked r s).time.scales = s.time.scales := by
  unfold updateLocked lockedBreak lockedSlew; dsimp only
  split <;> split <;> simp

/-- Whatever the servo decides, it acts on F, P and the pending step alone (R6, R8). -/
theorem servoAct_scales (r : Option Combined) (s : State) :
    (servoAct r s).time.scales = s.time.scales := by
  unfold servoAct
  split
  case h_1 => unfold updateUnset; split <;> simp
  case h_2 => rfl
  case h_3 => unfold updatePullIn pullInSlew; split <;> simp
  case h_4 => exact updateNone_scales s
  case h_5 => exact updateLocked_scales _ s
  case h_6 => exact updateNone_scales s
  case h_7 => unfold updateCoast; split <;> simp
  case h_8 => unfold updateCoastNone; simp

/-- The servo acts on the unit as the Combiner's run finds it: the run leaves the unit alone. -/
theorem combinerRun_time (s : State) : (combinerRun s).1.time = s.time :=
  (congrArg State.time (combinerRun_touches s) :)

theorem servoUpdate_scales (s : State) : (servoUpdate s).time.scales = s.time.scales := by
  unfold servoUpdate; dsimp only
  rw [servoAct_scales, combinerRun_time, State.withServo_time]

theorem conversionComplete_scales (code : Nat) (s : State) :
    (conversionComplete code s).time.scales = s.time.scales := by
  unfold conversionComplete; dsimp only; split
  · exact State.chooseCoastF_scales _
  · rfl

/-! ## The commands that move the scales -/

theorem exec_tick (pins : Pins) (s : State) : exec (.tick pins) s = .next (tick pins s) := rfl

@[simp] theorem tick_time (pins : Pins) (s : State) : (tick pins s).time = s.time.tick := rfl

/-- A reset puts the unit at its reset values with F at 0 or as it was (R18, R19). -/
theorem exec_reset_time {c : Instr} {s t : State} (hc : c = .powerOnReset ∨ c = .resetPinReset)
    (h : exec c s = .next t) : ∃ f, (f = 0 ∨ f = s.time.f) ∧ t.time = TimeScale.afterReset f := by
  rcases hc with rfl | rfl
  · cases h; exact ⟨0, .inl rfl, rfl⟩
  · cases h; exact ⟨s.time.f, .inr rfl, rfl⟩

theorem exec_stepApplication_due {s : State} (h : s.time.stepDue = true) :
    exec .stepApplication s = .next (stepApplication s) :=
  congrArg Host.Outcome.next (if_pos h)

theorem exec_stepApplication_notDue {s : State} (h : s.time.stepDue = false) :
    exec .stepApplication s = .next s :=
  congrArg Host.Outcome.next (if_neg (by rw [h]; decide))

theorem stepApplication_time (s : State) : (stepApplication s).time = s.time.stepped :=
  congrArg State.time (stepApplication_touches s)

/-- Between resets only a tick and the application of a step move the scales. -/
theorem exec_scales {c : Instr} {s t : State} (hp : c ≠ .powerOnReset) (hr : c ≠ .resetPinReset)
    (h : exec c s = .next t) :
    (∃ pins, c = .tick pins ∧ t.time = s.time.tick) ∨
    (c = .stepApplication ∧ t.time = s.time.stepped) ∨
    t.time.scales = s.time.scales := by
  rcases exec_effect h with rfl | rfl
  · exact .inr (.inr rfl)
  · rcases effect_time c s with
      hs | ⟨pins, rfl⟩ | rfl | rfl | rfl | rfl | rfl | ⟨code, rfl⟩
    · exact .inr (.inr (congrArg TimeScale.scales hs))
    · exact .inl ⟨pins, rfl, rfl⟩
    · exact absurd rfl hp
    · exact absurd rfl hr
    · exact .inr (.inl ⟨rfl, stepApplication_time s⟩)
    · exact .inr (.inr (TimeScale.release_scales s.time))
    · exact .inr (.inr (servoUpdate_scales s))
    · exact .inr (.inr (conversionComplete_scales code s))

/-! ## The unit stays legal along every step -/

theorem servoUpdate_legal {s : State} (h : s.time.Legal) : (servoUpdate s).time.Legal := by
  unfold servoUpdate; dsimp only
  exact servoAct_legal _ (by rw [combinerRun_time]; exact h)

theorem conversionComplete_legal {s : State} (code : Nat) (h : s.time.Legal) :
    (conversionComplete code s).time.Legal := by
  unfold conversionComplete; dsimp only; split
  · exact State.chooseCoastF_legal h
  · exact h

/-- Every command keeps the Time Scale Unit legal (R1, R9, R11, R15). -/
theorem exec_time_legal {c : Instr} {s t : State} (hs : s.time.Legal) (h : exec c s = .next t) :
    t.time.Legal := by
  rcases exec_effect h with rfl | rfl
  · exact hs
  · rcases effect_time c s with
      he | ⟨pins, rfl⟩ | rfl | rfl | rfl | rfl | rfl | ⟨code, rfl⟩
    · rw [he]; exact hs
    · exact hs.tick
    · exact TimeScale.Legal.afterReset (by decide)
    · exact TimeScale.Legal.afterReset hs.2.1
    · show (stepApplication s).time.Legal
      rw [stepApplication_time]; exact hs.stepped
    · exact hs.release
    · exact servoUpdate_legal hs
    · exact conversionComplete_legal code hs

/-- A step runs the front command, which keeps the unit legal; on an empty queue nothing changes. -/
theorem step_time_legal {s t : State} (hs : s.time.Legal) (h : step s = .next t) : t.time.Legal := by
  unfold step at h
  split at h
  · cases h; exact hs
  · rename_i rest _
    exact exec_time_legal (s := s.withQueue rest) hs h

/-- A value clamped to ±`l`: the nearer limit where it lies outside (R9, R15). -/
theorem clampSym_eq_ite {l : Int} (hl : 0 ≤ l) (x : Int) :
    clampSym l x = if l < x then l else if x < -l then -l else x := by
  unfold clampSym
  split
  · omega
  · split <;> omega

theorem TimeScale.setF_f (v : Int) (ts : TimeScale) : (ts.setF v).f = clampSym Config.fLimit v := rfl

theorem TimeScale.setP_free {ts : TimeScale} (h : ts.step = none) (v : Int) :
    ts.setP v = { ts with p := clampSym Config.pLimit v } := by
  unfold TimeScale.setP; rw [h]; rfl

theorem TimeScale.setP_pending {ts : TimeScale} (h : ts.step.isSome = true) (v : Int) :
    ts.setP v = ts :=
  if_pos h

/-- Settles O8: each command keeps the unit legal, and F and P are handed over through a clamp. -/
theorem timeControlsKeptLegal : Obligations.TimeControlsKeptLegal := by
  refine ⟨fun s t hs h => step_time_legal hs h, fun v ts => ?_, fun v ts h => ?_,
    fun v ts h => TimeScale.setP_pending h v⟩
  · exact clampSym_eq_ite (l := 42949673) (by decide) v
  · rw [TimeScale.setP_free h]
    exact clampSym_eq_ite (l := 21474836) (by decide) v

/-! ## K -/

/-- K after a run of ticks: their number added, held at 2^64 - 1 (R1). -/
theorem ticks_k (ticks : List Pins) (s : State) (h : s.time.k ≤ 2 ^ 64 - 1) :
    (ticks.foldl (fun x pins => tick pins x) s).time.k =
      min (2 ^ 64 - 1) (s.time.k + ticks.length) := by
  induction ticks generalizing s with
  | nil => simp only [List.foldl_nil, List.length_nil]; omega
  | cons pins ticks ih =>
    have hk : (tick pins s).time.k = min (2 ^ 64 - 1) (s.time.k + 1) := s.time.tick_k
    rw [List.foldl_cons, ih _ (by omega), hk, List.length_cons]
    omega

/-- A command that is neither a tick nor a reset leaves K (R1). -/
theorem exec_k {c : Instr} {s t : State} (ht : ∀ pins, c ≠ .tick pins) (hp : c ≠ .powerOnReset)
    (hr : c ≠ .resetPinReset) (h : exec c s = .next t) : t.time.k = s.time.k := by
  rcases exec_scales hp hr h with ⟨pins, hc, -⟩ | ⟨-, hs⟩ | hs
  · exact absurd hc (ht pins)
  · rw [hs, TimeScale.stepped_touches]
  · exact ((TimeScale.scales_eq_iff _ _).1 hs).1

/-- Settles O4: a tick adds 1 up to the largest value, other commands leave K, and from a reset K counts a
run of ticks. -/
theorem tickCountsTheOscillator : Obligations.TickCountsTheOscillator := by
  refine ⟨fun pins s => ⟨_, exec_tick pins s, ?_⟩, fun c s t ht hp hr h => exec_k ht hp hr h,
    fun c s t hc h => ?_⟩
  · have := s.time.tick_k
    rw [tick_time]
    split <;> omega
  · obtain ⟨f, -, hf⟩ := exec_reset_time hc h
    have hk : t.time.k = 0 := by rw [hf]; rfl
    refine ⟨hk, fun ticks hn => ?_⟩
    rw [ticks_k ticks t (by omega), hk]
    omega

/-! ## R and T -/

/-- The application of a step lowers T only where its amount is negative (R16). -/
theorem TimeScale.amount_neg_of_stepped_lt {ts : TimeScale} (h : ts.stepped.totalT < ts.totalT) :
    ∃ p, ts.step = some p ∧ p.amount < 0 := by
  have ht := ts.stepped_totalT
  cases hp : ts.step with
  | none => simp only [TimeScale.appliedUnits, hp] at ht; omega
  | some p =>
    obtain ⟨a, d⟩ := p
    rw [ts.appliedUnits_eq hp] at ht
    refine ⟨⟨a, d⟩, rfl, ?_⟩
    show a < 0
    split at ht <;> omega

/-- A tick raises R unless it stands at its largest value (R4, R6). -/
theorem TimeScale.tick_r_ge {ts : TimeScale} (hf : ts.FLegal) : ts.r.units ≤ ts.tick.r.units := by
  have hr := ts.tick_r hf
  have hu := ts.r.units_lt
  have hc := range_cast
  unfold TimeScale.FLegal at hf
  omega

/-- A tick raises T (R6). -/
theorem TimeScale.tick_totalT_gt {ts : TimeScale} (hf : ts.FLegal) (hp : ts.PLegal) :
    ts.totalT < ts.tick.totalT := by
  have ht := ts.tick_totalT hf hp
  unfold TimeScale.FLegal at hf
  unfold TimeScale.PLegal at hp
  omega

theorem TimeScale.tick_k_ge {ts : TimeScale} (h : ts.k ≤ Config.kMax) : ts.k ≤ ts.tick.k := by
  have hk := ts.tick_k
  unfold Config.kMax at h
  omega

/-- Settles O6, by what can move the scales: a tick, a step, or nothing. -/
theorem scalesNeverRunBack : Obligations.ScalesNeverRunBack := by
  intro c s t hp hr hl h
  obtain ⟨hk, hF, hP, -⟩ := hl
  rcases exec_scales hp hr h with ⟨pins, rfl, ht⟩ | ⟨rfl, ht⟩ | hs
  · have hT := TimeScale.tick_totalT_gt hF hP
    rw [ht]
    exact ⟨TimeScale.tick_k_ge hk, TimeScale.tick_r_ge hF, fun _ _ => hT, fun hlt => by omega⟩
  · rw [ht]
    refine ⟨?_, ?_, fun pins hc => (nomatch hc), fun hlt =>
      ⟨rfl, TimeScale.amount_neg_of_stepped_lt hlt⟩⟩
    · rw [TimeScale.stepped_touches]
    · rw [TimeScale.stepped_touches]
  · obtain ⟨hk', hr', ht', hw'⟩ := (TimeScale.scales_eq_iff _ _).1 hs
    have hT : t.time.totalT = s.time.totalT := by unfold TimeScale.totalT; rw [ht', hw']
    refine ⟨hk'.ge, by rw [hr'], fun pins hc => ?_, fun hlt => by omega⟩
    subst hc
    cases h
    exact TimeScale.tick_totalT_gt hF hP

/-! ## Q, the adjustment total -/

/-- While R does not reach its largest value, a tick adds P to Q and F does not enter it (R7, R8). -/
theorem TimeScale.tick_qExact {ts : TimeScale} (hf : ts.FLegal) (hp : ts.PLegal)
    (hr : (ts.r.units : Int) + (214748364800 + ts.f) < 2 ^ 40 * 10 ^ 9 * 2 ^ 32) :
    ts.tick.qExact = ts.qExact + ts.p := by
  have hR := ts.tick_r hf
  have hT := ts.tick_totalT hf hp
  unfold TimeScale.qExact
  omega

/-- R after a tick that stays below its largest value (R4). -/
theorem TimeScale.tick_r_below {ts : TimeScale} (hf : ts.FLegal)
    (hr : (ts.r.units : Int) + (214748364800 + ts.f) < 2 ^ 40 * 10 ^ 9 * 2 ^ 32) :
    (ts.tick.r.units : Int) = ts.r.units + (214748364800 + ts.f) := by
  have hR := ts.tick_r hf
  omega

/-- Over a run of ticks Q rises by P at each of them (R7). -/
theorem ticks_qExact (ticks : List Pins) (s : State) (hf : s.time.FLegal) (hp : s.time.PLegal)
    (hr : (s.time.r.units : Int) + ticks.length * (214748364800 + s.time.f) <
      2 ^ 40 * 10 ^ 9 * 2 ^ 32) :
    (ticks.foldl (fun x pins => tick pins x) s).time.qExact =
      s.time.qExact + s.time.p * ticks.length := by
  induction ticks generalizing s with
  | nil => simp
  | cons pins ticks ih =>
    have hpos : 0 ≤ (ticks.length : Int) * (214748364800 + s.time.f) := by
      have : 0 ≤ 214748364800 + s.time.f := by unfold TimeScale.FLegal at hf; omega
      positivity
    have hsplit : ((pins :: ticks).length : Int) * (214748364800 + s.time.f) =
        (214748364800 + s.time.f) + ticks.length * (214748364800 + s.time.f) := by
      rw [List.length_cons]; push_cast; ring
    rw [hsplit] at hr
    have hfirst : (s.time.r.units : Int) + (214748364800 + s.time.f) < 2 ^ 40 * 10 ^ 9 * 2 ^ 32 := by
      omega
    have hrest : ((tick pins s).time.r.units : Int) +
        ticks.length * (214748364800 + (tick pins s).time.f) < 2 ^ 40 * 10 ^ 9 * 2 ^ 32 := by
      rw [tick_time, TimeScale.tick_r_below hf hfirst, TimeScale.tick_f]; omega
    rw [List.foldl_cons, ih (tick pins s) hf hp hrest, tick_time,
      TimeScale.tick_qExact hf hp hfirst, TimeScale.tick_p, List.length_cons]
    push_cast; ring

/-- A step adds its applied amount to Q: R stays (R7, R16). -/
theorem TimeScale.stepped_qExact (ts : TimeScale) :
    ts.stepped.qExact = ts.qExact + ts.appliedUnits := by
  have hT := ts.stepped_totalT
  have hR : ts.stepped.r = ts.r := by rw [TimeScale.stepped_touches]
  unfold TimeScale.qExact
  rw [hR]
  omega

/-- The difference of two presented values is the exact change while that fits 128 bits signed (R7). -/
theorem qDiff_q (x y : TimeScale) (hlo : -(2 ^ 127 : Int) ≤ x.qExact - y.qExact)
    (hhi : x.qExact - y.qExact < 2 ^ 127) : qDiff x.q y.q = x.qExact - y.qExact := by
  unfold qDiff TimeScale.q
  rw [BitVec.toInt_sub, BitVec.toInt_ofInt, BitVec.toInt_ofInt, Int.sub_bmod_bmod, Int.bmod_sub_bmod]
  exact Int.bmod_eq_of_le (by omega) (by omega)

/-- After a reset R and T are both 0, so Q is (R7, R18). -/
theorem TimeScale.afterReset_qExact (f : Int) : (TimeScale.afterReset f).qExact = 0 := by
  have ht : (TimeScale.afterReset f).totalT = TimeVal.zero.units := by
    unfold TimeScale.totalT TimeScale.afterReset; rw [Nat.zero_mul, Nat.zero_add]
  unfold TimeScale.qExact
  rw [ht]
  exact sub_self _

theorem stepDue_of_step {ts : TimeScale} {a : Int} {d : Nat} (h : ts.step = some ⟨a, some d⟩)
    (hd : d ≤ ts.k) : ts.stepDue = true :=
  ts.stepDue_iff.2 ⟨a, d, h, hd⟩

/-- Settles O7: by induction over the ticks, and by the applied amount of a step. -/
theorem adjustmentTotalLaw : Obligations.AdjustmentTotalLaw := by
  refine ⟨fun s ticks hf hp hr => ticks_qExact ticks s hf hp hr, fun s t a d hs hd h => ?_,
    fun v ts => rfl, qDiff_q, TimeScale.afterReset_qExact 0⟩
  rw [exec_stepApplication_due (stepDue_of_step hs hd)] at h
  cases h
  rw [stepApplication_time, TimeScale.stepped_qExact, TimeScale.appliedUnits_eq _ hs]
  omega

/-! ## The application of a step -/

/-- The part presents a due step as applied (R13). -/
theorem TimeScale.shown_of_due {ts : TimeScale} (h : ts.stepDue = true) : ts.shown = ts.stepped :=
  if_pos h

/-- A capture on the tick of a due step carries the stepped scales (R13, R21). -/
theorem capture_of_due {s : State} (h : s.time.stepDue = true) (n : Count32) :
    s.capture n =
      ⟨s.time.stepped.t, s.time.stepped.r, s.time.stepped.k, s.time.stepped.q, n⟩ := by
  have hk : s.time.stepped.k = s.time.k := by rw [TimeScale.stepped_touches]
  unfold State.capture State.nowT State.nowR State.nowQ State.k
  rw [TimeScale.shown_of_due h, hk]

/-- A count below two ranges of T holds the range once or not at all (R3). -/
theorem div_timeRange_eq {x : Int} (h0 : 0 ≤ x) (h : x < 2 * (2 ^ 40 * 10 ^ 9 * 2 ^ 32)) :
    x.toNat / Config.timeRange = if (2 ^ 40 * 10 ^ 9 * 2 ^ 32 : Int) ≤ x then 1 else 0 := by
  have hc := range_cast
  split
  · exact Nat.div_eq_of_lt_le (by omega) (by omega)
  · exact Nat.div_eq_of_lt (by omega)

/-- A step within its limit of 2^63 - 1 ns wraps T's seconds at most once (R5, R15). -/
theorem TimeScale.stepped_wraps (ts : TimeScale) {a : Int} {d : Option Nat}
    (h : ts.step = some ⟨a, d⟩) (ha : a ≤ 2 ^ 63 - 1)
    (hl : ¬ (ts.t.units : Int) + a * 2 ^ 32 < 0) :
    ts.stepped.wraps = ts.wraps +
      (if (2 ^ 40 * 10 ^ 9 * 2 ^ 32 : Int) ≤ ts.t.units + a * 2 ^ 32 then 1 else 0) := by
  have hu := ts.t.units_lt
  have hc := range_cast
  rw [(ts.stepped_t h hl).2, div_timeRange_eq (by omega) (by omega)]

/-- Settles O9: STEP_APPLICATION is due, so the unit becomes the stepped one, which a capture of the tick
already shows. -/
theorem stepApplicationMovesT : Obligations.StepApplicationMovesT := by
  intro s a d hs hd ha
  have hdue := stepDue_of_step hs hd
  have htime := stepApplication_time s
  refine ⟨_, exec_stepApplication_due hdue, ?_, ?_, fun n => ?_, ?_⟩
  · rw [htime]; exact s.time.stepped_touches
  · rw [htime]
    split
    case isTrue hl => exact s.time.stepped_limited hs hl
    case isFalse hl =>
      refine ⟨?_, s.time.stepped_wraps hs ha hl⟩
      have hT := s.time.stepped_totalT
      rw [TimeScale.appliedUnits_eq _ hs, if_neg hl] at hT
      exact hT
  · rw [htime]; exact capture_of_due hdue n
  · rw [htime]; exact stepApplication_touches s

/-! ## The hold of a launch -/

theorem TimeScale.request_free {ts : TimeScale} (h : ts.step = none) (keyed : Bool) (a : Int) :
    ts.request keyed a =
      { ts with
        p := 0
        step := some ⟨clampSym Config.stepLimit63 a, if keyed then none else some (ts.k + 1)⟩ } := by
  unfold TimeScale.request; rw [h]

theorem TimeScale.request_pending {ts : TimeScale} {b : Int} {d : Option Nat}
    (h : ts.step = some ⟨b, d⟩) (keyed : Bool) (a : Int) :
    ts.request keyed a =
      { ts with p := 0, step := some ⟨clampSym Config.stepLimit63 (b + a), d⟩ } := by
  unfold TimeScale.request; rw [h]

/-- The end of a launch lets a held step go on the following tick (R14). -/
theorem TimeScale.release_held {ts : TimeScale} {a : Int} (h : ts.step = some ⟨a, none⟩) :
    ts.release = { ts with step := some ⟨a, some (ts.k + 1)⟩ } := by
  unfold TimeScale.release; rw [h]

/-- The end of a launch leaves the unit where no step is held (R14). -/
theorem TimeScale.release_other {ts : TimeScale} (h : ∀ a, ts.step ≠ some ⟨a, none⟩) :
    ts.release = ts := by
  unfold TimeScale.release
  split
  case h_1 a hs => exact absurd hs (h a)
  case h_2 => rfl

/-- A step that a launch holds is not due (R14). -/
theorem stepDue_of_held {ts : TimeScale} {a : Int} (h : ts.step = some ⟨a, none⟩) :
    ts.stepDue = false := by
  rw [← Bool.not_eq_true, ts.stepDue_iff, h]
  rintro ⟨_, _, hs, -⟩
  cases hs

/-- The tick on which a frame of `n` bytes has sent its last stop bit (R38). -/
theorem frameEndTick_eq (rate start n : Nat) :
    frameEndTick rate start n = start + (roundDiv (10 * n * 20000000 : Nat) rate).toNat := by
  unfold frameEndTick bitTick Config.ticksPerSecond
  push_cast
  rfl

theorem exec_launchEnd_due {s : State} (h : s.launchEndDue = true) :
    exec .launchEnd s = .next (launchEnd s) :=
  congrArg Host.Outcome.next (if_pos h)

/-- Settles O10, by what a request, the hold and the release each do to the pending step. -/
theorem launchHoldsStep : Obligations.LaunchHoldsStep := by
  refine ⟨fun keyed a ts h hlo hhi => ?_, fun keyed a b d ts h => ?_,
    fun s a h => exec_stepApplication_notDue (stepDue_of_held h),
    fun s kind ref b hfl hend => ⟨launchEnd s, exec_launchEnd_due ?_, fun a ha => ?_, fun ha => ?_, rfl⟩⟩
  · have hl : Config.stepLimit63 = 2 ^ 63 - 1 := rfl
    rw [TimeScale.request_free h, clampSym_of_within (by omega) (by omega)]
  · rw [TimeScale.request_pending h, clampSym_eq_ite (by decide)]
    rfl
  · exact s.launchEndDue_iff.2 ⟨kind, ref, b, hfl, by rw [frameEndTick_eq]; exact hend⟩
  · exact TimeScale.release_held ha
  · exact TimeScale.release_other ha

/-! ## The lines that a tick samples -/

/-- A sample is taken where it falls due, the start bit not reading high (R54). -/
theorem ByteIn.sampled_eq {rate : Nat} (hr : 0 < rate) (k : Nat) (level : Bool) (b : ByteIn) :
    b.sampled rate k level =
      if b.votes.length < 30 ∧ ¬ (3 ≤ b.votes.length ∧ 2 ≤ (b.votes.take 3).count true) ∧
          (16 * (b.votes.length / 3) + 7 + b.votes.length % 3) * 20000000 ≤
            16 * rate * (k - b.edge) then
        { b with votes := b.votes ++ [level] }
      else b := by
  have htick : sampleTick rate b.edge (voteSample b.votes.length) ≤ k ↔
      (16 * (b.votes.length / 3) + 7 + b.votes.length % 3) * 20000000 ≤ 16 * rate * (k - b.edge) :=
    sampleTick_le_iff hr b.edge _ k (by unfold voteSample; omega)
  unfold ByteIn.sampled
  simp only [b.falseStart_iff, htick]

/-- The edges of a tick, each as the two levels that make it (R22, R186). -/
theorem edgesOf_eq (old new : Pins) :
    edgesOf old new =
      { pps := decide (old.anchorPps = false ∧ new.anchorPps = true)
        sample := decide (old.sample = false ∧ new.sample = true)
        trig := decide (old.trigIn = false ∧ new.trigIn = true)
        rearm := decide (old.rearm = false ∧ new.rearm = true)
        link := decide (old.linkRxd = true ∧ new.linkRxd = false) } := by
  simp only [edgesOf, Bool.decide_and, Bool.decide_eq_true, Bool.decide_eq_false]

theorem Lines.sampled_first {l : Lines} (h : l.levels = none) (new : Pins) :
    (l.sampled new).edges = ⟨false, false, false, false, false⟩ := by
  unfold Lines.sampled; rw [h]; rfl

theorem Lines.sampled_next {l : Lines} {old : Pins} (h : l.levels = some old) (new : Pins) :
    (l.sampled new).edges = edgesOf old new := by
  unfold Lines.sampled; rw [h]

/-- A data bit is sampled on tick 100 of the eight data slots of each of the 24 bytes (R189). -/
theorem dataBitTick_iff (k : Nat) :
    dataBitTick k = true ↔
      ∃ i j, i < 24 ∧ j < 8 ∧ k = 40000 + 200 * (31 + 9 * i + j) + 100 := by
  unfold dataBitTick busOffset busSlot
  rw [decide_eq_true_eq]
  constructor
  · rintro ⟨h0, ho, hlo, hhi, hj⟩
    exact ⟨((k - 40000) / 200 - 31) / 9, ((k - 40000) / 200 - 31) % 9, by omega, hj, by omega⟩
  · rintro ⟨i, j, hi, hj, rfl⟩
    omega

/-- Sampling the bus reads a data bit or changes nothing (R189). -/
theorem Startup.sampleBus_touches (k : Nat) (level : Bool) (u : Startup) :
    u.sampleBus k level = { u with bits := (u.sampleBus k level).bits } := by
  unfold Startup.sampleBus; split <;> rfl

theorem Startup.sampleBus_bits (k : Nat) (level : Bool) (u : Startup) :
    (u.sampleBus k level).bits =
      if dataBitTick k = true ∧ u.abandoned = none ∧ u.endK = none then u.bits ++ [level]
      else u.bits := by
  unfold Startup.sampleBus; split <;> rfl

/-! ### ANCHOR_RX -/

theorem AnchorInput.sampleLine_touches (k : Nat) (prev : Option Bool) (level : Bool)
    (a : AnchorInput) :
    a.sampleLine k prev level = { a with byteIn := (a.sampleLine k prev level).byteIn } := by
  unfold AnchorInput.sampleLine
  split
  · rfl
  · split <;> rfl

theorem State.sampleAnchor_touches (k : Nat) (pins : Pins) (s : State) :
    s.sampleAnchor k pins = { s.anchor with byteIn := (s.sampleAnchor k pins).byteIn } := by
  unfold State.sampleAnchor
  split
  · exact AnchorInput.sampleLine_touches _ _ _ _
  · rfl

theorem State.sampleAnchor_off {s : State} (h : s.startup.anchorEn = false) (k : Nat) (pins : Pins) :
    s.sampleAnchor k pins = s.anchor := by
  unfold State.sampleAnchor; rw [h]; rfl

theorem State.sampleAnchor_on {s : State} (h : s.startup.anchorEn = true) (k : Nat) (pins : Pins) :
    s.sampleAnchor k pins =
      s.anchor.sampleLine k (s.lines.levels.map Pins.anchorRx) pins.anchorRx :=
  if_pos h

/-- A byte in progress is sampled, and dropped where its start bit then reads high (R137). -/
theorem AnchorInput.sampleLine_byte {a : AnchorInput} {b : ByteIn} (h : a.byteIn = some b) (k : Nat)
    (prev : Option Bool) (level : Bool) :
    (a.sampleLine k prev level).byteIn =
      if (b.sampled anchorRate k level).falseStart then none
      else some (b.sampled anchorRate k level) := by
  unfold AnchorInput.sampleLine; rw [h]

/-- Without a byte in progress a falling edge starts one (R137). -/
theorem AnchorInput.sampleLine_idle {a : AnchorInput} (h : a.byteIn = none) (k : Nat)
    (prev : Option Bool) (level : Bool) :
    (a.sampleLine k prev level).byteIn =
      if prev = some true ∧ level = false then some ⟨k, []⟩ else none := by
  unfold AnchorInput.sampleLine
  rw [h]
  dsimp only
  split
  · rfl
  · exact h

/-! ### The Capture Unit -/

/-- A byte whose start bit has not been read low confirms nothing (R54). -/
theorem ByteIn.not_confirmed {b : ByteIn}
    (h : b.votes.length < 3 ∨ 3 ≤ b.votes.length ∧ 2 ≤ (b.votes.take 3).count true) :
    b.confirmed = false := by
  rw [← Bool.not_eq_true, b.confirmed_iff, ← Bool.not_eq_true, b.falseStart_iff]
  rintro ⟨hlen, hlow⟩
  rcases h with hshort | hhigh
  · omega
  · exact hlow hhigh

/-! ## One tick -/

/-- T's wrap count rises by 1 where T passes 2^40 seconds, which a tick can do once (R5). -/
theorem TimeScale.tick_wraps {ts : TimeScale} (hf : ts.FLegal) (hp : ts.PLegal) :
    ts.tick.wraps = ts.wraps +
      (if (2 ^ 40 * 10 ^ 9 * 2 ^ 32 : Int) ≤ ts.t.units + (214748364800 + ts.f + ts.p)
        then 1 else 0) := by
  have hu := ts.t.units_lt
  have hc := range_cast
  have h50 : Config.tickUnits = 214748364800 := rfl
  unfold TimeScale.FLegal at hf
  unfold TimeScale.PLegal at hp
  simp only [TimeScale.tick]
  rw [h50, div_timeRange_eq (by omega) (by omega)]

/-- R after a tick that would pass its largest value (R4). -/
theorem TimeScale.tick_r_above {ts : TimeScale} (hf : ts.FLegal)
    (hr : ¬ (ts.r.units : Int) + (214748364800 + ts.f) < 2 ^ 40 * 10 ^ 9 * 2 ^ 32) :
    ts.tick.r = ⟨1099511627775, 999999999, 4294967295⟩ := by
  have hR := ts.tick_r hf
  have hc := range_cast
  rw [← TimeVal.largest_eq]
  refine TimeVal.units_inj ?_
  rw [TimeVal.units_largest]
  omega

/-- The scales after a tick (R4, R5). -/
theorem tick_scales (pins : Pins) (s : State) (hf : s.time.FLegal) (hp : s.time.PLegal) :
    (if (s.time.r.units : Int) + (214748364800 + s.time.f) < 2 ^ 40 * 10 ^ 9 * 2 ^ 32 then
      ((tick pins s).time.r.units : Int) = s.time.r.units + (214748364800 + s.time.f)
    else (tick pins s).time.r = ⟨1099511627775, 999999999, 4294967295⟩) ∧
    ((tick pins s).time.totalT : Int) =
      s.time.totalT + (214748364800 + s.time.f + s.time.p) ∧
    (tick pins s).time.wraps = s.time.wraps +
      (if (2 ^ 40 * 10 ^ 9 * 2 ^ 32 : Int) ≤
          s.time.t.units + (214748364800 + s.time.f + s.time.p) then 1 else 0) ∧
    (tick pins s).time.f = s.time.f ∧ (tick pins s).time.p = s.time.p ∧
    (tick pins s).time.step = s.time.step := by
  refine ⟨?_, s.time.tick_totalT hf hp, TimeScale.tick_wraps hf hp, rfl, rfl, rfl⟩
  split
  case isTrue hr => exact TimeScale.tick_r_below hf hr
  case isFalse hr => exact TimeScale.tick_r_above hf hr

/-- STEP_APPLICATION leaves R, whether a step is due or not (R4, R16). -/
theorem exec_stepApplication_r {s t : State} (h : exec .stepApplication s = .next t) :
    t.time.r = s.time.r := by
  rcases exec_effect h with rfl | rfl
  · rfl
  · show (stepApplication s).time.r = s.time.r
    rw [stepApplication_time, TimeScale.stepped_touches]

/-- What a tick leaves unchanged: the blocks it does not name, and in those it does, all but the field
sampled (R22, R54, R137, R168, R189). -/
theorem tick_touches (pins : Pins) (s : State) :
    tick pins s =
      { s with
        time := (tick pins s).time
        lines := (tick pins s).lines
        cap := (tick pins s).cap
        link :=
          { s.link with
            byteIn := s.link.byteIn.map
              (ByteIn.sampled s.cfg.linkRate (tick pins s).time.k pins.linkRxd) }
        anchor := { s.anchor with byteIn := (tick pins s).anchor.byteIn }
        coinc :=
          if (tick pins s).time.wraps = s.time.wraps then s.coinc
          else { s.coinc with list := [], windows := [] }
        startup := { s.startup with bits := (tick pins s).startup.bits } } := by
  have ha := s.sampleAnchor_touches s.time.tick.k pins
  have hb := s.startup.sampleBus_touches s.time.tick.k pins.cfgSda
  unfold tick
  dsimp only
  rw [← ha, ← hb]
  rfl

/-- A byte in progress on ANCHOR_RX after a tick (R137). -/
theorem tick_anchor_byte {s : State} (h : s.startup.anchorEn = true) {b : ByteIn}
    (hb : s.anchor.byteIn = some b) (pins : Pins) :
    (tick pins s).anchor.byteIn =
      if (b.sampled anchorRate (tick pins s).time.k pins.anchorRx).falseStart then none
      else some (b.sampled anchorRate (tick pins s).time.k pins.anchorRx) :=
  (congrArg AnchorInput.byteIn (State.sampleAnchor_on h _ pins)).trans
    (AnchorInput.sampleLine_byte hb _ _ _)

/-- The start of a byte on ANCHOR_RX (R137). -/
theorem tick_anchor_idle {s : State} (h : s.startup.anchorEn = true) (hb : s.anchor.byteIn = none)
    (pins : Pins) :
    (tick pins s).anchor.byteIn =
      if s.lines.levels.map Pins.anchorRx = some true ∧ pins.anchorRx = false then
        some ⟨(tick pins s).time.k, []⟩
      else none :=
  (congrArg AnchorInput.byteIn (State.sampleAnchor_on h _ pins)).trans
    (AnchorInput.sampleLine_idle hb _ _ _)

/-- A falling edge on ANCHOR_RX starts a byte; without one none starts (R22, R137). -/
theorem tick_anchor_start {s : State} (h : s.startup.anchorEn = true) (hb : s.anchor.byteIn = none)
    (pins : Pins) :
    ((∃ old, s.lines.levels = some old ∧ old.anchorRx = true) → pins.anchorRx = false →
      (tick pins s).anchor.byteIn = some ⟨(tick pins s).time.k, []⟩) ∧
    ((∀ old, s.lines.levels = some old → old.anchorRx = false) ∨ pins.anchorRx = true →
      (tick pins s).anchor.byteIn = none) := by
  rw [tick_anchor_idle h hb]
  refine ⟨fun hold hlow => if_pos ⟨Option.map_eq_some_iff.2 hold, hlow⟩, fun hno => if_neg ?_⟩
  rintro ⟨hold, hlow⟩
  obtain ⟨old, hlevels, hhigh⟩ := Option.map_eq_some_iff.1 hold
  rcases hno with hbefore | hnow
  · exact Bool.noConfusion ((hbefore old hlevels).symm.trans hhigh)
  · exact Bool.noConfusion (hlow.symm.trans hnow)

/-- The data bits read after a tick: one more on a data bit's tick while the read goes on (R189). -/
theorem tick_bits (pins : Pins) (s : State) :
    (tick pins s).startup.bits =
      if dataBitTick (tick pins s).time.k = true ∧ s.startup.abandoned = none ∧
        s.startup.endK = none
      then s.startup.bits ++ [pins.cfgSda] else s.startup.bits :=
  Startup.sampleBus_bits _ _ _

/-- Settles O5: the scales by their laws, then the lines a tick samples, one lemma for each. -/
theorem tickAdvancesTheScales : Obligations.TickAdvancesTheScales := by
  refine ⟨fun pins s hf hp => ⟨tick pins s, exec_tick pins s, tick_scales pins s hf hp⟩,
    fun s t h => exec_stepApplication_r h, fun c s t hc h => ?_,
    fun pins s => ⟨tick pins s, exec_tick pins s, ?_⟩⟩
  · obtain ⟨f, -, hf⟩ := exec_reset_time hc h
    rw [hf]
    exact ⟨rfl, rfl, rfl⟩
  intro readsHigh sampled
  have hlink : ByteIn.sampled s.cfg.linkRate (tick pins s).time.k pins.linkRxd =
      sampled s.cfg.linkRate pins.linkRxd :=
    funext (ByteIn.sampled_eq (Nat.lt_of_lt_of_le (by decide) s.cfg.linkRate_ge) _ _)
  have hanchor : ByteIn.sampled anchorRate (tick pins s).time.k pins.anchorRx =
      sampled 9600 pins.anchorRx :=
    funext (ByteIn.sampled_eq (by decide) _ _)
  refine ⟨?frame, rfl, rfl, fun h => Lines.sampled_first h pins, fun old h => ?edges, fun h => ?cap,
    fun h => ?anchorOff, fun h => ⟨fun b hb => ?anchorByte, fun hb => tick_anchor_start h hb pins⟩, ?_⟩
  case frame => rw [← hlink]; exact tick_touches pins s
  case edges => exact (Lines.sampled_next h pins).trans (edgesOf_eq old pins)
  case cap => exact CaptureUnit.hear_none s.cap fun b hb => ByteIn.not_confirmed (h b hb)
  case anchorOff => exact congrArg AnchorInput.byteIn (State.sampleAnchor_off h _ pins)
  case anchorByte =>
    rw [tick_anchor_byte h hb, hanchor]
    exact ⟨fun hh => if_pos ((ByteIn.falseStart_iff _).2 hh),
      fun hh => if_neg fun hf => hh ((ByteIn.falseStart_iff _).1 hf)⟩
  intro reads
  have hreads : (dataBitTick (tick pins s).time.k = true ∧ s.startup.abandoned = none ∧
      s.startup.endK = none) ↔ reads := by
    rw [dataBitTick_iff, and_comm, and_assoc]
  rw [tick_bits]
  exact ⟨fun h => if_pos (hreads.2 h), fun h => if_neg fun hd => h (hreads.1 hd)⟩

/-! ## Resets -/

/-- Settles O14: both resets are the reset state with what they keep, and its blocks are as stated. -/
theorem resetsRestoreStatedValues : Obligations.ResetsRestoreStatedValues :=
  ⟨fun _ => rfl, fun _ => rfl, rfl, rfl, rfl, rfl, rfl, rfl, rfl, rfl, rfl, rfl, rfl, rfl, rfl, rfl,
    rfl, rfl, rfl, rfl⟩

theorem MarkLink.afterReset_legal : MarkLink.afterReset.Legal :=
  ⟨Nat.zero_le _, List.nodup_nil, Nat.zero_le _, by decide, fun _ h => (nomatch h),
    fun _ h => (nomatch h), fun _ => ⟨rfl, rfl, rfl⟩⟩

theorem PeerTable.afterReset_stations : PeerTable.afterReset.stations = [] := rfl

theorem State.reset_unreleased : State.reset.Unreleased := ⟨rfl, rfl, rfl, rfl, rfl, rfl⟩

/-- After a reset the table holds no entry, so every condition on entries holds (R62). -/
theorem State.reset_peersLegal : State.reset.PeersLegal := by
  have hst : State.reset.peers.stations = [] := PeerTable.afterReset_stations
  refine ⟨rfl, ?_, ?_, fun e he => ?_, fun _ => State.reset_unreleased⟩
  · rw [hst]; exact List.nodup_nil
  · rw [hst]; exact List.not_mem_nil
  · exact nomatch List.eq_of_mem_replicate he

theorem Servo.afterReset_legal : Servo.afterReset.Legal :=
  ⟨⟨rfl, rfl, rfl⟩, le_refl _, le_refl _⟩

theorem RecordPort.afterReset_legal : RecordPort.afterReset.Legal :=
  ⟨Nat.zero_le _, by decide⟩

theorem Temperature.afterReset_legal : (Temperature.afterReset Temperature.clearedBins).Legal := by
  refine ⟨Nat.zero_le _, fun _ h => (nomatch h), rfl, fun b hb => ?_⟩
  rw [List.eq_of_mem_replicate hb]
  decide

/-- Settles O60, block by block. -/
theorem resetStateIsLegal : Obligations.ResetStateIsLegal :=
  ⟨TimeScale.Legal.afterReset (by decide), MarkLink.afterReset_legal, State.reset_peersLegal,
    Servo.afterReset_legal, Sys2Proof.Machine.afterReset_legal, RecordPort.afterReset_legal,
    Temperature.afterReset_legal⟩

end Sys2Proof.Machine

namespace Sys2Proof.Machine

/-! # The Capture Unit: samples, triggers and the receiver of the link -/

/-! ## Edges -/

theorem State.afterEnd_of {s : State} {e : Nat} (he : s.startup.endK = some e) (hk : e < s.time.k) :
    s.afterEnd = true :=
  s.afterEnd_iff.2 ⟨e, he, hk⟩

/-- An edge that keeps its distance from the last accepted one, or follows none, is not too soon (R24). -/
theorem not_tooSoon {spacing k : Nat} {slot : Option Capture}
    (h : ∀ c, slot = some c → spacing ≤ k - c.k) : ¬ tooSoon spacing k slot = true := by
  rw [tooSoon_iff]
  rintro ⟨c, hc, hlt⟩
  exact absurd hlt (Nat.not_lt.2 (h c hc))

/-! ## A sample handed to the aligner -/

/-- What a sample with capture `c` does to the blocks and to the port of `s`: it joins the open block,
opens one, or closes a full one, reported over the samples up to `c`, and opens the next (R149, R150, R152,
R159 to R162). `align` and `port` are those afterwards. -/
def SampleOutcome (s : State) (c : Capture) (align : Aligner) (port : RecordPort) : Prop :=
  (∀ b, s.align.block = some b → b.samples < 2 ^ s.cfg.blockExp →
    align.block = some { b with samples := b.samples + 1, last := c } ∧
    align.nextBlock = s.align.nextBlock ∧ port = s.port) ∧
  ((∀ b, s.align.block = some b → 2 ^ s.cfg.blockExp ≤ b.samples) →
    align.block = some
      { number := s.align.nextBlock, first := c, last := c, samples := 1, skipped := 0
        stepped := false, coast := decide (s.servo.clock = .coast) } ∧
    align.nextBlock = s.align.nextBlock + 1) ∧
  (s.align.block = none → port = s.port) ∧
  ∀ b, s.align.block = some b → 2 ^ s.cfg.blockExp ≤ b.samples →
    ∃ period dev rec,
      period = roundDiv (((c.r.units : Int) - b.first.r.units) * 1000)
        (2 ^ s.cfg.blockExp * 2 ^ 32) ∧
      dev = roundDiv ((period - 1000 * s.cfg.period) * 1000000) s.cfg.period ∧
      ReportsBlock s b period dev false rec ∧ TimingArrives s dev rec port

/-- The close of a full block measures up to the capture that follows it, and its record arrives (R152,
R160, R161). -/
theorem closeFull_reports (b : OpenBlock) (c : Capture) (s : State) :
    ∃ period dev rec,
      period = roundDiv (((c.r.units : Int) - b.first.r.units) * 1000)
        (2 ^ s.cfg.blockExp * 2 ^ 32) ∧
      dev = roundDiv ((period - 1000 * s.cfg.period) * 1000000) s.cfg.period ∧
      ReportsBlock s b period dev false rec ∧ TimingArrives s dev rec (closeFull b c s).port :=
  ⟨_, _, _, rfl, rfl, timingRecord_reports s b _ _ false, closeBlock_arrives b _ _ false s⟩

/-- The state after a sample that closes a full block (R150). -/
theorem takeSample_full_eq (c : Capture) {s : State} {b : OpenBlock} (h : s.align.block = some b)
    (hb : 2 ^ s.cfg.blockExp ≤ b.samples) :
    takeSample c s = { openBlock c s with port := (closeFull b c s).port } :=
  (takeSample_full c h hb).trans (openBlock_eq c (closeFull_touches b c s))

theorem takeSample_outcome (c : Capture) (s : State) :
    SampleOutcome s c (takeSample c s).align (takeSample c s).port := by
  unfold SampleOutcome
  cases hblock : s.align.block with
  | none =>
    rw [takeSample_none c hblock]
    exact ⟨fun _ h => (nomatch h), fun _ => ⟨rfl, rfl⟩, fun _ => rfl, fun _ h => (nomatch h)⟩
  | some b =>
    by_cases hroom : b.samples < 2 ^ s.cfg.blockExp
    · rw [takeSample_join c hblock hroom]
      refine ⟨fun b' h _ => ?_, fun hfull => absurd (hfull b rfl) (by omega), fun h => (nomatch h),
        fun b' h hfull => ?_⟩
      · cases h; exact ⟨rfl, rfl, rfl⟩
      · cases h; omega
    · rw [takeSample_full_eq c hblock (by omega)]
      refine ⟨fun b' h hb => ?_, fun _ => ⟨rfl, rfl⟩, fun h => (nomatch h), fun b' h _ => ?_⟩
      · cases h; omega
      · cases h; exact closeFull_reports b c s

/-- A sample leaves all but the blocks, the gap deadline and the port (R149, R150, R154). -/
theorem takeSample_frame (c : Capture) (s : State) {gap : Option Nat}
    (hgap : gapAfter s c.k = gap) :
    takeSample c s =
      { s with
        align := { s.align with
          block := (takeSample c s).align.block
          nextBlock := (takeSample c s).align.nextBlock, gapDeadline := gap }
        port := (takeSample c s).port } := by
  subst hgap
  cases hblock : s.align.block with
  | none => rw [takeSample_none c hblock]; rfl
  | some b =>
    by_cases hroom : b.samples < 2 ^ s.cfg.blockExp
    · rw [takeSample_join c hblock hroom]; rfl
    · rw [takeSample_full_eq c hblock (by omega)]
      generalize (closeFull b c s).port = port
      rfl

theorem gapAfter_follow {s : State} (h : s.startup.genMode = false) (k : Nat) :
    gapAfter s k = some (k + 3 * s.cfg.period / 100) := by
  unfold gapAfter; rw [h]; rfl

theorem gapAfter_generate {s : State} (h : s.startup.genMode = true) (k : Nat) :
    gapAfter s k = none := by
  unfold gapAfter; rw [h]; rfl

/-! ## FOLLOW -/

theorem exec_sampleStrobeEdge_seen {s : State} (h : s.strobeSeen = true) :
    exec .sampleStrobeEdge s = .next (strobeEdge s) :=
  congrArg Host.Outcome.next (if_pos h)

theorem strobeEdge_spurious {s : State} {c : Capture} (h : s.cap.sample = some c)
    (hk : s.time.k - c.k < s.cfg.period / 100) :
    strobeEdge s =
      { s.takeStrobe with cap := { s.cap with spuriousStrobe := bump s.cap.spuriousStrobe } } :=
  if_pos ((tooSoon_iff _ _ _).2 ⟨c, h, hk⟩)

theorem strobeEdge_accepted {s : State}
    (h : ∀ c, s.cap.sample = some c → s.cfg.period / 100 ≤ s.time.k - c.k) :
    strobeEdge s = takeSample (s.capture s.cap.sampleEdges) (captureSample s.takeStrobe) :=
  if_neg (not_tooSoon h)

/-- Settles O20: the strobe is spurious, or it is captured and the aligner takes it as a sample. -/
theorem sampleStrobeBuildsBlocks : Obligations.SampleStrobeBuildsBlocks := by
  intro s e hedge hgen hend hk
  rw [exec_sampleStrobeEdge_seen (s.strobeSeen_iff.2 ⟨hedge, State.afterEnd_of hend hk, hgen⟩)]
  refine ⟨fun c hc hsoon => ?_, fun hspaced => ?_⟩
  · rw [strobeEdge_spurious hc hsoon]; rfl
  · rw [strobeEdge_accepted hspaced]
    exact ⟨_, _, rfl, rfl,
      takeSample_frame _ (captureSample s.takeStrobe) (gapAfter_follow hgen s.time.k),
      takeSample_outcome _ (captureSample s.takeStrobe)⟩

/-! ## GENERATE -/

theorem exec_gridPulseIssue_due {s : State} (h : s.gridPulseDue = true) :
    exec .gridPulseIssue s = .next (gridPulse s) :=
  congrArg Host.Outcome.next (if_pos h)

/-- The part with a pulse on SAMPLE_CMD begun and captured, its sample not yet handed over (R31, R153). -/
def pulseBegun (s : State) : State :=
  (captureSample s).withAlign fun a =>
    { a with
      pulseEnd := some (s.k + 200)
      grid := a.grid.map (gridAdvance s.cfg.period 1) }

theorem gridPulse_eq (s : State) :
    gridPulse s = takeSample (s.capture s.cap.sampleEdges) (pulseBegun s) := rfl

theorem pulseBegun_grid {s : State} {g : TimeVal} (h : s.align.grid = some g) :
    (pulseBegun s).align.grid = some (gridAdvance s.cfg.period 1 g) :=
  congrArg (Option.map _) h

/-- The pointer moves on by `c` periods, within the range of T (R153). -/
theorem gridAdvance_units (p c : Nat) (g : TimeVal) :
    (gridAdvance p c g).units = (g.units + c * p * 2 ^ 32) % (2 ^ 40 * 10 ^ 9 * 2 ^ 32) :=
  TimeVal.units_ofUnits _

/-- Settles O22: the pulse begins and is captured, and the aligner takes it as a sample. -/
theorem gridPulseIssued : Obligations.GridPulseIssued := by
  intro s e g hgen hend hk hidle hrest hgrid hreached
  have hdue : s.gridPulseDue = true :=
    s.gridPulseDue_iff.2 ⟨hgen, State.afterEnd_of hend hk, hidle, hrest, g, hgrid,
      decide_eq_true hreached⟩
  have hframe := takeSample_frame (s.capture s.cap.sampleEdges) (pulseBegun s)
    (gapAfter_generate hgen s.time.k)
  have hmoved := congrArg (fun t => t.align.grid) hframe
  dsimp only at hmoved
  rw [exec_gridPulseIssue_due hdue, gridPulse_eq]
  refine ⟨_, _, rfl, rfl, ?_, ⟨_, hmoved.trans (pulseBegun_grid hgrid), ?_⟩,
    takeSample_outcome _ (pulseBegun s)⟩
  · rw [hmoved]; exact hframe
  · rw [gridAdvance_units, Nat.one_mul]

/-! ## Triggers -/

theorem exec_trigInEdge_seen {s : State} (h : s.trigSeen = true) :
    exec .trigInEdge s = .next (trigInEdge s) :=
  congrArg Host.Outcome.next (if_pos h)

theorem trigInEdge_held {s : State} {c : Capture} (h : s.cap.trig = some c)
    (hk : s.time.k - c.k < s.cfg.holdOff * 20000) : trigInEdge s = s.takeTrig :=
  if_pos ((tooSoon_iff _ _ _).2 ⟨c, h, hk⟩)

theorem trigInEdge_accepted {s : State}
    (h : ∀ c, s.cap.trig = some c → s.cfg.holdOff * 20000 ≤ s.time.k - c.k) :
    trigInEdge s = ownTrigger (s.capture s.cap.trigEdges) (captureTrig s.takeTrig) :=
  if_neg (not_tooSoon h)

/-- A stored time is the time itself, held at 2^62 ns (10.1). -/
theorem holdTime_natCast (n : Nat) : holdTime n = min (2 ^ 62) n := rfl

/-- An own notice joins at the tail; the oldest of four leaves and is counted (R165). -/
theorem Coincidence.addOutgoing_eq (n : OutNotice) (c : Coincidence) :
    c.addOutgoing n =
      { c with
        outgoing := (if 4 ≤ c.outgoing.length then c.outgoing.tail else c.outgoing) ++ [n]
        noticeDropped :=
          if 4 ≤ c.outgoing.length then bump c.noticeDropped else c.noticeDropped } := by
  unfold Coincidence.addOutgoing
  by_cases h : c.outgoing.length < 4
  · rw [if_pos h, if_neg (by omega), if_neg (by omega)]
  · rw [if_neg h, if_pos (by omega), if_pos (by omega)]

/-- A record arrives after the end of the configuration read (R178). -/
theorem arrive_ended {s : State} {e : Nat} (h : s.startup.endK = some e) (r : Record) :
    (s.arrive r).port = s.port.arrive s.time.k true r := by
  rw [State.arrive_port, State.ended, h]; rfl

/-- The state in which an own trigger's entry is inserted, block by block (R164, R165). -/
theorem noticedTrigger_eq {s : State} {e : Nat} (h : s.startup.endK = some e) (c : Capture) :
    noticedTrigger c s =
      { s with
        link := s.link.requestNotice s.cfg s.time.k
        coinc := { s.coinc with
          seq := s.coinc.seq + 1
          outgoing :=
            (if 4 ≤ s.coinc.outgoing.length then s.coinc.outgoing.tail else s.coinc.outgoing) ++
              [⟨s.coinc.seq + 1, c.t.nsCount, 0, s.time.k⟩]
          noticeDropped :=
            if 4 ≤ s.coinc.outgoing.length then bump s.coinc.noticeDropped
            else s.coinc.noticeDropped }
        port := s.port.arrive s.time.k true
          (.trigger ⟨s.coinc.seq + 1, c.t.stamp, s.servo.advU⟩) } := by
  rw [noticedTrigger_touches, ← arrive_ended h]
  exact congrArg
    (fun x => { s with
      coinc := x, link := s.link.requestNotice s.cfg s.k, port := (noticedTrigger c s).port })
    (Coincidence.addOutgoing_eq _ { s.coinc with seq := s.coinc.seq + 1 })

/-- Settles O24: the trigger is held off, or it is captured and handed over as an own trigger. -/
theorem triggerCapturedAndHandedOver : Obligations.TriggerCapturedAndHandedOver := by
  intro s e hedge hend hk
  rw [exec_trigInEdge_seen (s.trigSeen_iff.2 ⟨hedge, State.afterEnd_of hend hk⟩)]
  refine ⟨fun c hc hsoon => ?_, fun hspaced => ?_⟩
  · rw [trigInEdge_held hc hsoon]; rfl
  · intro c seq full
    rw [trigInEdge_accepted hspaced, ownTrigger_eq, holdTime_natCast,
      noticedTrigger_eq (s := captureTrig s.takeTrig) hend]
    rfl

/-! ## Start edges on LINK_RXD -/

theorem exec_linkStartEdge_seen {s : State} (h : s.linkEdgeSeen = true) :
    exec .linkStartEdge s = .next (linkStartEdge s) :=
  congrArg Host.Outcome.next (if_pos h)

theorem exec_linkFalseStart_due {s : State} (h : s.linkFalseStartDue = true) :
    exec .linkFalseStart s = .next (linkFalseStart s) :=
  congrArg Host.Outcome.next (if_pos h)

/-- Sample 9, the third of the start bit, is taken once its tick has come (R54). -/
theorem ByteIn.sampled_ninth {rate edge k : Nat} (hr : 0 < rate)
    (hk : 9 * 20000000 ≤ 16 * rate * (k - edge)) (x y z : Bool) :
    ByteIn.sampled rate k z ⟨edge, [x, y]⟩ = ⟨edge, [x, y, z]⟩ := by
  have hnine : 16 * ([x, y].length / 3) + 7 + [x, y].length % 3 = 9 := by simp
  rw [ByteIn.sampled_eq hr]
  exact if_pos ⟨by simp, by simp, by rw [hnine]; exact hk⟩

/-- A start bit whose majority is low is confirmed by its third sample (R54). -/
theorem ByteIn.confirmed_of_low {x y z : Bool} (edge : Nat)
    (h : (x && y || x && z || y && z) = false) : (ByteIn.mk edge [x, y, z]).confirmed = true :=
  (congrArg Bool.not h :)

/-- A start bit whose majority is high is a false start, whatever follows (R54). -/
theorem ByteIn.falseStart_of_high {x y z : Bool} (edge : Nat) (rest : List Bool)
    (h : (x && y || x && z || y && z) = true) :
    (ByteIn.mk edge (x :: y :: z :: rest)).falseStart = true := by
  unfold ByteIn.falseStart
  rw [Bool.and_eq_true, decide_eq_true_eq]
  exact ⟨by simp, h⟩

theorem State.linkFalseStartDue_of {s : State} {b : ByteIn} (hb : s.link.byteIn = some b)
    (h : b.falseStart = true) : s.linkFalseStartDue = true := by
  unfold State.linkFalseStartDue; rw [hb]; exact h

theorem tick_link_byte {s : State} {b : ByteIn} (h : s.link.byteIn = some b) (pins : Pins) :
    (tick pins s).link.byteIn =
      some (b.sampled s.cfg.linkRate (tick pins s).time.k pins.linkRxd) :=
  congrArg (Option.map _) h

theorem tick_cap (pins : Pins) (s : State) : (tick pins s).cap = s.cap.hear (tick pins s).link := rfl

/-- The tick of sample 9 of a start bit that reads low: the byte goes on and its edge is confirmed (R25,
R54). -/
theorem tick_confirms {s : State} {pins : Pins} {edge : Nat} {x y : Bool}
    (hb : s.link.byteIn = some ⟨edge, [x, y]⟩)
    (hk : 9 * 20000000 ≤ 16 * s.cfg.linkRate * ((tick pins s).time.k - edge))
    (hlow : (x && y || x && pins.linkRxd || y && pins.linkRxd) = false) :
    (tick pins s).link.byteIn = some ⟨edge, [x, y, pins.linkRxd]⟩ ∧
    (tick pins s).cap = s.cap.confirm := by
  have hrate : 0 < s.cfg.linkRate := Nat.lt_of_lt_of_le (by decide) s.cfg.linkRate_ge
  have hbyte := (tick_link_byte hb pins).trans
    (congrArg some (ByteIn.sampled_ninth hrate hk x y pins.linkRxd))
  exact ⟨hbyte, (tick_cap pins s).trans
    (CaptureUnit.hear_confirmed s.cap hbyte (ByteIn.confirmed_of_low edge hlow))⟩

/-! ## Gaps on LINK_RXD -/

theorem gapTicks_eq (rate : Nat) : gapTicks rate = (roundDiv (30 * 20000000) rate).toNat := rfl

/-- Thirty bit times without a start edge are a gap (R55). -/
theorem State.linkGap_of {s : State} {edge : Nat} (hb : s.link.byteIn = none)
    (hedge : s.lines.edges.link = false)
    (hk : edge + (roundDiv (30 * 20000000) s.cfg.linkRate).toNat ≤ s.time.k) :
    s.linkGap edge = true := by
  refine (s.linkGap_iff edge).2 ⟨hb, ?_, by rw [gapTicks_eq]; exact hk⟩
  rw [← Bool.not_eq_true, s.linkEdgeSeen_iff, hedge]
  rintro ⟨hseen, -⟩
  cases hseen

/-- There is no gap while a byte is in progress, nor before thirty bit times have passed (R56). -/
theorem State.not_linkGap {s : State} {edge : Nat}
    (h : s.link.byteIn.isSome = true ∨
      s.time.k < edge + (roundDiv (30 * 20000000) s.cfg.linkRate).toNat) :
    ¬ s.linkGap edge = true := by
  rw [s.linkGap_iff, gapTicks_eq]
  rintro ⟨hb, -, hk⟩
  rcases h with hbyte | hearly
  · rw [hb] at hbyte; cases hbyte
  · omega

theorem State.historyForgetDue_eq {s : State} {b : Byte} {edge : Nat}
    (h : s.link.rx = .hunt (some (b, edge))) : s.historyForgetDue = s.linkGap edge := by
  unfold State.historyForgetDue; rw [h]

theorem State.receiptTruncatedDue_eq {s : State} {body : List Byte} {edge : Nat}
    (h : s.link.rx = .assemble body edge) : s.receiptTruncatedDue = s.linkGap edge := by
  unfold State.receiptTruncatedDue; rw [h]

theorem exec_huntHistoryForget_due {s : State} (h : s.historyForgetDue = true) :
    exec .huntHistoryForget s = .next (s.withLink fun l => { l with rx := .hunt none }) :=
  congrArg Host.Outcome.next (if_pos h)

theorem exec_receiptTruncated_due {s : State} (h : s.receiptTruncatedDue = true) :
    exec .receiptTruncated s = .next (truncateReceipt s) :=
  congrArg Host.Outcome.next (if_pos h)

theorem exec_receiptTruncated_notDue {s : State} (h : ¬ s.receiptTruncatedDue = true) :
    exec .receiptTruncated s = .next s :=
  congrArg Host.Outcome.next (if_neg h)

/-- Settles O36: each command by when it is due, and the confirmation by the byte that the tick samples. -/
theorem startEdgesAndGaps : Obligations.StartEdgesAndGaps := by
  refine ⟨fun s e hedge hend hk hfl hb hrx hprev => ?start,
    fun s pins edge x y p hb hp hk hlow => ?confirm,
    fun s edge x y z rest hb hhigh => ?withdraw,
    fun s b edge hrx hb hedge hk => ?forget,
    fun s body edge hrx hb hedge hk => ?truncate,
    fun s body edge hrx h => ?wait⟩
  case start =>
    exact exec_linkStartEdge_seen
      (s.linkEdgeSeen_iff.2 ⟨hedge, State.afterEnd_of hend hk, hfl, hb, hrx, hprev⟩)
  case confirm =>
    obtain ⟨hbyte, hcap⟩ := tick_confirms (pins := pins) hb hk hlow
    refine ⟨tick pins s, exec_tick pins s, hbyte, fun hr => ?_, fun hr => ?_⟩
    · exact hcap.trans (CaptureUnit.confirm_armed hp hr)
    · exact hcap.trans (CaptureUnit.confirm_other hp hr)
  case withdraw =>
    exact exec_linkFalseStart_due
      (State.linkFalseStartDue_of hb (ByteIn.falseStart_of_high edge rest hhigh))
  case forget =>
    exact exec_huntHistoryForget_due
      ((State.historyForgetDue_eq hrx).trans (State.linkGap_of hb hedge hk))
  case truncate =>
    exact exec_receiptTruncated_due
      ((State.receiptTruncatedDue_eq hrx).trans (State.linkGap_of hb hedge hk))
  case wait =>
    refine exec_receiptTruncated_notDue ?_
    rw [State.receiptTruncatedDue_eq hrx]
    exact State.not_linkGap h

/-! ## A complete byte on LINK_RXD -/

/-- The complete byte is taken and acted on (R54). -/
theorem exec_linkByteReceived_complete {s : State} {b : ByteIn} (hb : s.link.byteIn = some b)
    (hc : b.complete = true) :
    exec .linkByteReceived s = .next (receiveByte b.value b.edge (takeLinkByte s)) := by
  have hdone : s.link.byteDone = some b := by
    unfold MarkLink.byteDone; rw [hb]; exact if_pos hc
  show Host.Outcome.next (linkByteReceived s) = _
  unfold linkByteReceived
  rw [hdone]

theorem receiveByte_hunt {s : State} {history : Option (Byte × Nat)}
    (h : s.link.rx = .hunt history) (b : Byte) (edge : Nat) :
    receiveByte b edge s = huntByte b edge history s := by
  unfold receiveByte; rw [h]

theorem receiveByte_assemble {s : State} {body : List Byte} {last : Nat}
    (h : s.link.rx = .assemble body last) (b : Byte) (edge : Nat) :
    receiveByte b edge s = appendByte (body ++ [b]) edge s := by
  unfold receiveByte; rw [h]

/-! ### HUNT -/

/-- The history holds the byte given, whatever the tick of its start edge. -/
theorem map_fst_eq_some_iff {history : Option (Byte × Nat)} {b : Byte} :
    history.map Prod.fst = some b ↔ ∃ edge, history = some (b, edge) := by
  simp

theorem huntByte_sync {b : Byte} {history : Option (Byte × Nat)} (hb : b = 0xD4)
    (hh : ∃ edge, history = some (0x2D, edge)) (edge : Nat) (s : State) :
    huntByte b edge history s =
      (s.withCap fun c => { c with ref := .armed }).withLink fun l =>
        { l with rx := .assemble [] edge } :=
  if_pos ⟨hb, map_fst_eq_some_iff.2 hh⟩

theorem huntByte_other {b : Byte} {history : Option (Byte × Nat)}
    (h : ¬ (b = 0xD4 ∧ ∃ edge, history = some (0x2D, edge))) (edge : Nat) (s : State) :
    huntByte b edge history s = s.withLink fun l => { l with rx := .hunt (some (b, edge)) } :=
  if_neg fun ⟨hb, hh⟩ => h ⟨hb, map_fst_eq_some_iff.1 hh⟩

/-- Settles O37: in HUNT the byte completes sync or becomes the history. -/
theorem linkByteInHunt : Obligations.LinkByteInHunt := by
  intro s b history hb hc hrx
  rw [exec_linkByteReceived_complete hb hc,
    receiveByte_hunt (s := takeLinkByte s) (history := history) hrx]
  refine ⟨fun hv hh => ?_, fun hno => ?_⟩
  · rw [huntByte_sync hv hh]; rfl
  · rw [huntByte_other hno]; rfl

/-! ### ASSEMBLE -/

theorem field_one (body : List Byte) (i : Nat) : field body i 1 = (body.getD i 0).toNat := by
  unfold field
  rw [List.take_one, List.head?_drop, List.getD_eq_getElem?_getD]
  cases body[i]? <;> simp [beNat]

theorem echoCount_eq (body : List Byte) : echoCount body = (body.getD 16 0).toNat / 16 := by
  unfold echoCount; rw [field_one]

theorem noticeCount_eq (body : List Byte) : noticeCount body = (body.getD 16 0).toNat % 16 := by
  unfold noticeCount; rw [field_one]

/-- The CRC-16 of a body agrees where it is the number that its last two bytes spell (R57, R195). -/
theorem bodyCrcAgrees_iff {body : List Byte} (h : 2 ≤ body.length) :
    bodyCrcAgrees body = true ↔
      (crc16 (body.take (body.length - 2))).toNat = beNat (body.drop (body.length - 2)) := by
  have hlast : (body.drop (body.length - 2)).take 2 = body.drop (body.length - 2) :=
    List.take_of_length_le (by rw [List.length_drop]; omega)
  unfold bodyCrcAgrees field
  rw [hlast, decide_eq_true_eq]

/-- The field checks of R57, one by one. -/
theorem Mark.fieldsPass_iff (m : Mark) :
    m.fieldsPass = true ↔
      m.version = 1 ∧ m.kind ≤ 1 ∧ (1 ≤ m.station ∧ m.station ≤ 62) ∧ m.clock ≤ 3 ∧
        m.time.ns ≤ 999999999 ∧ ∀ n ∈ m.notices, n.time.ns ≤ 999999999 := by
  unfold Mark.fieldsPass
  simp only [Bool.and_eq_true, decide_eq_true_eq, List.all_eq_true, and_assoc]

/-- A body joins the receipt while its counts, once read, call for more bytes (R56). -/
theorem appendByte_joins {body : List Byte}
    (h : body.length < 17 ∨
      17 ≤ body.length ∧ echoCount body ≤ 6 ∧ noticeCount body ≤ 4 ∧
        body.length < bodyLength (echoCount body) (noticeCount body)) (edge : Nat) (s : State) :
    appendByte body edge s = s.withLink fun l => { l with rx := .assemble body edge } := by
  unfold appendByte
  rcases h with hshort | ⟨hlong, he, hn, hmore⟩
  · exact if_pos hshort
  · rw [if_neg (by omega), if_neg (by omega), if_pos hmore]

/-- Counts beyond 6 and 4 refuse the receipt at the 17th byte (R56). -/
theorem appendByte_counts {body : List Byte} (hlen : 17 ≤ body.length)
    (h : 6 < echoCount body ∨ 4 < noticeCount body) (edge : Nat) (s : State) :
    appendByte body edge s = refuseFormat s := by
  unfold appendByte
  rw [if_neg (by omega), if_pos h]

/-- The last byte of a body brings its check (R57). -/
theorem appendByte_last {body : List Byte} (hlen : 17 ≤ body.length) (he : echoCount body ≤ 6)
    (hn : noticeCount body ≤ 4)
    (hall : bodyLength (echoCount body) (noticeCount body) ≤ body.length) (edge : Nat) (s : State) :
    appendByte body edge s = markCheck body s := by
  unfold appendByte
  rw [if_neg (by omega), if_neg (by omega), if_neg (by omega)]

theorem markCheck_badCrc {body : List Byte} (h : ¬ bodyCrcAgrees body = true) (s : State) :
    markCheck body s = refuseCrc s := by
  unfold markCheck
  rw [Bool.not_eq_true] at h
  rw [h]; rfl

theorem markCheck_badFields {body : List Byte} (hcrc : bodyCrcAgrees body = true)
    (h : ¬ (Mark.ofBody body).fieldsPass = true) (s : State) :
    markCheck body s = refuseFormat s := by
  unfold markCheck
  rw [Bool.not_eq_true] at h
  rw [hcrc, h]; rfl

/-- A valid mark with a reference capture held ends the receipt and is handed on (R27, R58). -/
theorem markCheck_valid {body : List Byte} {s : State} {c : Capture}
    (hcrc : bodyCrcAgrees body = true) (hf : (Mark.ofBody body).fieldsPass = true)
    (hc : s.cap.ref = .held c) :
    markCheck body s = handleMark (Mark.ofBody body) c (endReceipt s) := by
  unfold markCheck
  rw [hcrc, hf, hc]; rfl

/-- A byte in ASSEMBLE is appended to the body so far (R56). -/
theorem exec_linkByteReceived_assemble {s : State} {b : ByteIn} {body : List Byte} {edge : Nat}
    (hb : s.link.byteIn = some b) (hc : b.complete = true) (hrx : s.link.rx = .assemble body edge) :
    exec .linkByteReceived s = .next (appendByte (body ++ [b.value]) b.edge (takeLinkByte s)) := by
  rw [exec_linkByteReceived_complete hb hc,
    receiveByte_assemble (s := takeLinkByte s) (body := body) hrx]

/-- Settles O38: the byte joins, or the counts, the CRC or the fields refuse the receipt. -/
theorem linkByteInAssemble : Obligations.LinkByteInAssemble := by
  intro s b body edge hb hc hrx whole echoes notices length m refused
  rw [exec_linkByteReceived_assemble hb hc hrx]
  have he : echoCount whole = echoes := echoCount_eq whole
  have hn : noticeCount whole = notices := noticeCount_eq whole
  have hl : bodyLength (echoCount whole) (noticeCount whole) = length := by rw [he, hn]; rfl
  refine ⟨fun h => ?joins, fun hlen h => ?counts, fun hlen h6 h4 hall hcrc => ?crc,
    fun hlen h6 h4 hall hcrc hbad => ?fields⟩
  case joins =>
    rw [appendByte_joins (body := whole) (by rw [hl, he, hn]; exact h)]; rfl
  case counts =>
    rw [appendByte_counts hlen (by rw [he, hn]; exact h)]; rfl
  case crc =>
    rw [appendByte_last hlen (he ▸ h6) (hn ▸ h4) (hl ▸ hall),
      markCheck_badCrc (mt (bodyCrcAgrees_iff (by omega)).1 hcrc)]
    rfl
  case fields =>
    have hf : ¬ m.fieldsPass = true := by
      rw [Mark.fieldsPass_iff]
      rintro ⟨hv, hk, ⟨hlo, hhi⟩, hclock, hns, hnotices⟩
      rcases hbad with h | h | h | h | h | h | ⟨n, hmem, h⟩
      · exact h hv
      · omega
      · omega
      · omega
      · omega
      · omega
      · exact absurd (hnotices n hmem) (by omega)
    rw [appendByte_last hlen (he ▸ h6) (hn ▸ h4) (hl ▸ hall),
      markCheck_badFields ((bodyCrcAgrees_iff (by omega)).2 hcrc) hf]
    rfl

/-! ## A valid mark -/

theorem State.enterMuted_muted {s : State} (h : s.link.muted = true) : s.enterMuted = s := if_pos h

theorem State.enterMuted_entered {s : State} (h : s.link.muted = false) :
    s.enterMuted =
      { s with
        link := { s.link with muted := true, regular := none, notice := none, echoes := [] }
        port := { s.port with alerts := { s.port.alerts with muted := true } } } := by
  unfold State.enterMuted; rw [h]; rfl

theorem handleMark_own {m : Mark} {s : State} (h : m.station = s.own) (c : Capture) :
    handleMark m c s = s.enterMuted :=
  if_pos h

theorem handleMark_unused {m : Mark} {c : Capture} {s : State} (hown : m.station ≠ s.own)
    (h : s.peers.useMark (m.use c) = none) :
    handleMark m c s =
      { s with peers := { s.peers with tableFull := bump s.peers.tableFull } } := by
  unfold handleMark; rw [if_neg hown, h]

theorem handleMark_used {m : Mark} {c : Capture} {s : State} {p : PeerTable}
    (hown : m.station ≠ s.own) (h : s.peers.useMark (m.use c) = some p) :
    handleMark m c s = placeEcho m c (takeNotices m (takeEchoes m c { s with peers := p })) := by
  unfold handleMark; rw [if_neg hown, h]

theorem takeEcho_cfg (m : Mark) (c : Capture) (s : State) (e : EchoItem) :
    (takeEcho m c s e).cfg = s.cfg := rfl

theorem takeEcho_link (m : Mark) (c : Capture) (s : State) (e : EchoItem) :
    (takeEcho m c s e).link = s.link := rfl

/-- An echo item matched with the launch whose R is found under its sequence (R72 to R75). -/
def exchangeEcho (m : Mark) (c : Capture) (limit : Nat) (launchR : Seq → Option TimeVal) (s : State)
    (e : EchoItem) : State :=
  { s with peers := s.peers.exchange m.station m.time c limit (launchR e.seq) e.hold }

/-- Echo items change the Peer Table alone, so each is held to the delay limit and matched with the
launches that stood before the first (R58). -/
theorem foldl_takeEcho (m : Mark) (c : Capture) (es : List EchoItem) (s : State) :
    es.foldl (takeEcho m c) s =
      es.foldl (exchangeEcho m c s.cfg.delayLimitNs s.link.launchR) s := by
  induction es generalizing s with
  | nil => rw [List.foldl_nil, List.foldl_nil]
  | cons e es ih =>
    rw [List.foldl_cons, ih, takeEcho_cfg, takeEcho_link, List.foldl_cons]
    rfl

/-- What a used mark hands on before its echo entry leaves the controller as it was (R58). -/
theorem handedOn_link (m : Mark) (c : Capture) (s : State) :
    (takeNotices m (takeEchoes m c s)).link = s.link := by
  rw [takeNotices_touches, takeEchoes_touches]

theorem placeEcho_inMuted {m : Mark} {s : State} (h : s.link.muted = true) (c : Capture) :
    placeEcho m c s = s :=
  if_pos h

theorem placeEcho_unmuted {m : Mark} {s : State} (h : s.link.muted = false) (c : Capture) :
    (placeEcho m c s).link = s.link.placeEcho ⟨m.station, m.seq, c.r, s.link.launchCount⟩ := by
  unfold placeEcho; rw [h]; rfl

/-- What a used mark changes before its echo entry: the Peer Table, the Coincidence Unit and the port
(R58). -/
theorem handedOn_touches (m : Mark) (c : Capture) (s : State) :
    takeNotices m (takeEchoes m c s) =
      { s with
        peers := (takeNotices m (takeEchoes m c s)).peers
        coinc := (takeNotices m (takeEchoes m c s)).coinc
        port := (takeNotices m (takeEchoes m c s)).port } := by
  rw [takeNotices_touches, takeEchoes_touches]

/-- The receipt of a valid mark ends with its last byte, and the mark is handed on (R27, R57, R58). -/
theorem exec_linkByteReceived_valid {s : State} {b : ByteIn} {c : Capture} {body : List Byte}
    {edge : Nat} (hb : s.link.byteIn = some b) (hc : b.complete = true)
    (hrx : s.link.rx = .assemble body edge) (href : s.cap.ref = .held c)
    (hlen : 17 ≤ (body ++ [b.value]).length) (h6 : echoCount (body ++ [b.value]) ≤ 6)
    (h4 : noticeCount (body ++ [b.value]) ≤ 4)
    (hall : bodyLength (echoCount (body ++ [b.value])) (noticeCount (body ++ [b.value])) ≤
      (body ++ [b.value]).length)
    (hcrc : bodyCrcAgrees (body ++ [b.value]) = true)
    (hf : (Mark.ofBody (body ++ [b.value])).fieldsPass = true) :
    exec .linkByteReceived s =
      .next (handleMark (Mark.ofBody (body ++ [b.value])) c (endReceipt (takeLinkByte s))) := by
  rw [exec_linkByteReceived_assemble hb hc hrx, appendByte_last hlen h6 h4 hall,
    markCheck_valid (s := takeLinkByte s) hcrc hf href]

/-- Settles O39: the receipt ends, and the mark is this part's own, not used, or used. -/
theorem validMarkHandled : Obligations.ValidMarkHandled := by
  intro s b c body edge hb hc hrx href whole m hlen h6 h4 hall hcrc hv hk hlo hhi hclock hns hnotices
  have he := echoCount_eq whole
  have hn := noticeCount_eq whole
  rw [exec_linkByteReceived_valid hb hc hrx href hlen (he ▸ h6) (hn ▸ h4)
    (by rw [he, hn]; exact hall) ((bodyCrcAgrees_iff (Nat.le_trans (by decide) hlen)).2 hcrc)
    (m.fieldsPass_iff.2 ⟨hv, hk, ⟨hlo, hhi⟩, hclock, hns, hnotices⟩)]
  refine ⟨endReceipt (takeLinkByte s), rfl, fun hown hm => ?ownMuted, fun hown hm => ?own,
    fun hown => ⟨fun huse => ?unused, fun peers huse => ?used⟩⟩
  case ownMuted =>
    rw [handleMark_own (s := endReceipt (takeLinkByte s)) hown,
      State.enterMuted_muted (s := endReceipt (takeLinkByte s)) hm]
  case own =>
    rw [handleMark_own (s := endReceipt (takeLinkByte s)) hown,
      State.enterMuted_entered (s := endReceipt (takeLinkByte s)) hm]
    rfl
  case unused =>
    rw [handleMark_unused (s := endReceipt (takeLinkByte s)) hown huse]
    rfl
  rw [handleMark_used (s := endReceipt (takeLinkByte s)) hown huse]
  have hlink := handedOn_link m c { endReceipt (takeLinkByte s) with peers := peers }
  refine ⟨_, takeNotices m (takeEchoes m c { endReceipt (takeLinkByte s) with peers := peers }), rfl,
    ?handed, ?frame, fun hm => ?muted, fun hm => ?echo⟩
  case handed =>
    unfold takeNotices takeEchoes
    rw [foldl_takeEcho]
    rfl
  case frame =>
    refine (placeEcho_touches m c _).trans ?_
    generalize (placeEcho m c _).link = l
    rw [handedOn_touches]
  case muted =>
    rw [placeEcho_inMuted ((congrArg MarkLink.muted hlink).trans hm)]
    exact hlink
  case echo =>
    rw [placeEcho_unmuted ((congrArg MarkLink.muted hlink).trans hm), hlink]
    refine ⟨fun hknown => placeEcho_known hknown, fun hnew => ?_⟩
    have hplaced := placeEcho_new (l := (endReceipt (takeLinkByte s)).link)
      (e := ⟨m.station, m.seq, c.r, s.link.launchCount⟩) hnew
    exact ⟨fun hroom => hplaced.trans (if_pos hroom),
      fun hfull => hplaced.trans (if_neg (Nat.not_lt.2 hfull))⟩

end Sys2Proof.Machine

namespace Sys2Proof.Machine

/-! # The Mark Link Controller: sending, and the lines that carry frames -/

/-! ## Draws -/

/-- What a step enters at bit 1 of R42 (bit 0 here). -/
theorem lfsrStep_entered (x : BitVec 16) :
    (lfsrStep x).getLsbD 0 =
      (x.getLsbD 15 ^^ (x.getLsbD 13 ^^ (x.getLsbD 12 ^^ x.getLsbD 10))) := by
  unfold lfsrStep
  dsimp only
  rw [BitVec.getLsbD_or, BitVec.getLsbD_shiftLeft, Bool.xor_assoc, Bool.xor_assoc]
  generalize (x.getLsbD 15 ^^ (x.getLsbD 13 ^^ (x.getLsbD 12 ^^ x.getLsbD 10))) = new
  cases new <;> rfl

/-- A step shifts each bit one place up. -/
theorem lfsrStep_shifted (x : BitVec 16) {i : Nat} (hi : i < 15) :
    (lfsrStep x).getLsbD (i + 1) = x.getLsbD i := by
  have hnew : ∀ b : Bool, (if b then 1 else 0 : BitVec 16).getLsbD (i + 1) = false := by
    intro b; cases b <;> simp
  unfold lfsrStep
  dsimp only
  rw [BitVec.getLsbD_or, BitVec.getLsbD_shiftLeft, hnew, Bool.or_false, Nat.add_sub_cancel]
  simp [show i + 1 < 16 by omega]

/-- A step can be undone: of the value 0, the bits shifted up were 0, and then so was the last. -/
theorem lfsrStep_ne_zero {x : BitVec 16} (h : x ≠ 0) : lfsrStep x ≠ 0 := by
  intro hstep
  have hlow : ∀ i, i < 15 → x.getLsbD i = false := fun i hi => by
    rw [← lfsrStep_shifted x hi, hstep]; simp
  have htop : x.getLsbD 15 = false := by
    have hnew := lfsrStep_entered x
    rw [hstep, hlow 13 (by decide), hlow 12 (by decide), hlow 10 (by decide)] at hnew
    simpa using hnew.symm
  refine h (BitVec.eq_of_getLsbD_eq fun i hi => ?_)
  rcases Nat.lt_or_ge i 15 with hi' | hi'
  · rw [hlow i hi']; simp
  · rw [show i = 15 by omega, htop]; simp

theorem lfsrSteps_eq_iterate (n : Nat) (x : BitVec 16) : lfsrSteps n x = lfsrStep^[n] x := by
  induction n generalizing x with
  | zero => rfl
  | succ n ih => rw [lfsrSteps, ih, Function.iterate_succ_apply]

theorem lfsrSteps_ne_zero (n : Nat) {x : BitVec 16} (h : x ≠ 0) : lfsrSteps n x ≠ 0 := by
  induction n generalizing x with
  | zero => exact h
  | succ n ih => exact ih (lfsrStep_ne_zero h)

theorem lfsrDraw_ne_zero {x : BitVec 16} (h : x ≠ 0) : lfsrDraw x ≠ 0 := lfsrSteps_ne_zero 16 h

theorem lfsrSeed_ne_zero (station : Nat) : lfsrSeed station ≠ 0 := by
  unfold lfsrSeed
  dsimp only
  split
  case isTrue => decide
  case isFalse h => exact h

/-- Settles O30, bit by bit. -/
theorem drawsAdvanceTheRegister : Obligations.DrawsAdvanceTheRegister :=
  ⟨fun x => ⟨lfsrStep_entered x, fun _ hi => lfsrStep_shifted x hi⟩, lfsrSteps_eq_iterate 16,
    fun _ h => lfsrDraw_ne_zero h, lfsrSeed_ne_zero⟩

/-! ## What keeps the controller legal -/

theorem slotLegal_none : slotLegal none := fun _ h => (nomatch h)

theorem slotLegal_some {sl : LaunchSlot} (h : sl.deferrals ≤ 3) : slotLegal (some sl) :=
  fun _ hsl => Option.some.inj hsl ▸ h

namespace MarkLink.Legal

variable {l : MarkLink}

/-- A pending slot tells that the controller is not MUTED (R59). -/
theorem unmuted_of_slot (h : l.Legal) {kind : MarkKind} {sl : LaunchSlot}
    (hsl : l.slot kind = some sl) : l.muted = false := by
  obtain ⟨-, -, -, -, -, -, hmuted⟩ := h
  by_contra hm
  obtain ⟨hreg, hnot, -⟩ := hmuted (Bool.not_eq_false _ ▸ hm)
  cases kind with
  | regular => exact nomatch hreg.symm.trans hsl
  | notice => exact nomatch hnot.symm.trans hsl

/-- The register takes another value off 0 (R42). -/
theorem register (h : l.Legal) {x : BitVec 16} (hx : x ≠ 0) : { l with lfsr := x }.Legal := by
  obtain ⟨hlen, hone, hlaunches, -, hreg, hnot, hmuted⟩ := h
  exact ⟨hlen, hone, hlaunches, hx, hreg, hnot, hmuted⟩

/-- A draw. -/
theorem draw (h : l.Legal) : { l with lfsr := lfsrDraw l.lfsr }.Legal := by
  obtain ⟨-, -, -, hx, -, -, -⟩ := id h
  exact h.register (lfsrDraw_ne_zero hx)

/-- A slot made absent. -/
theorem clearSlot (h : l.Legal) (kind : MarkKind) : (l.setSlot kind none).Legal := by
  obtain ⟨hlen, hone, hlaunches, hx, hreg, hnot, hmuted⟩ := h
  cases kind with
  | regular =>
    exact ⟨hlen, hone, hlaunches, hx, slotLegal_none, hnot, fun hm => ⟨rfl, (hmuted hm).2⟩⟩
  | notice =>
    refine ⟨hlen, hone, hlaunches, hx, hreg, slotLegal_none, fun hm => ?_⟩
    obtain ⟨hr, -, he⟩ := hmuted hm
    exact ⟨hr, rfl, he⟩

/-- A slot made pending, which happens outside MUTED alone (R43, R44, R45). -/
theorem pendSlot (h : l.Legal) (hm : l.muted = false) (kind : MarkKind) {sl : LaunchSlot}
    (hd : sl.deferrals ≤ 3) : (l.setSlot kind (some sl)).Legal := by
  obtain ⟨hlen, hone, hlaunches, hx, hreg, hnot, -⟩ := h
  have hno : ∀ {p : Prop}, l.muted = true → p := fun hm' => nomatch hm.symm.trans hm'
  cases kind with
  | regular => exact ⟨hlen, hone, hlaunches, hx, slotLegal_some hd, hnot, hno⟩
  | notice => exact ⟨hlen, hone, hlaunches, hx, hreg, slotLegal_some hd, hno⟩

/-- Entries leave the echo queue (R52). -/
theorem fewerEchoes (h : l.Legal) {q : List EchoEntry} (hq : q.Sublist l.echoes) :
    { l with echoes := q }.Legal := by
  obtain ⟨hlen, hone, hlaunches, hx, hreg, hnot, hmuted⟩ := h
  refine ⟨hq.length_le.trans hlen, hone.sublist (hq.map _), hlaunches, hx, hreg, hnot, fun hm => ?_⟩
  obtain ⟨hr, hn, he⟩ := hmuted hm
  exact ⟨hr, hn, List.sublist_nil.1 (he ▸ hq)⟩

/-- A launch is listed (R49). -/
theorem listLaunch (h : l.Legal) (e : LaunchEntry) :
    { l with launches := addLaunch e l.launches }.Legal := by
  obtain ⟨hlen, hone, hlaunches, hx, hreg, hnot, hmuted⟩ := h
  exact ⟨hlen, hone, addLaunch_length e hlaunches, hx, hreg, hnot, hmuted⟩

/-- An echo entry placed, which happens outside MUTED alone (R51, R59). -/
theorem placeEcho (h : l.Legal) (hm : l.muted = false) (e : EchoEntry) : (l.placeEcho e).Legal := by
  obtain ⟨hlen, hone, hlaunches, hx, hreg, hnot, -⟩ := h
  obtain ⟨hlen', hone'⟩ := placeEcho_echoes e hlen hone
  rw [placeEcho_keeps]
  exact ⟨hlen', hone', hlaunches, hx, hreg, hnot, fun hm' => nomatch hm.symm.trans hm'⟩

/-- Entry to MUTED (R59). -/
theorem mute (h : l.Legal) :
    { l with muted := true, regular := none, notice := none, echoes := [] }.Legal := by
  obtain ⟨-, -, hlaunches, hx, -, -, -⟩ := h
  exact ⟨Nat.zero_le _, List.nodup_nil, hlaunches, hx, slotLegal_none, slotLegal_none,
    fun _ => ⟨rfl, rfl, rfl⟩⟩

/-! ### Sending -/

theorem startInterval (h : l.Legal) (c : Settings) (start : Nat) :
    (l.startInterval c start).Legal := by
  unfold MarkLink.startInterval
  dsimp only
  split
  case isTrue => exact h
  case isFalse hm => exact h.draw.pendSlot (Bool.not_eq_true _ ▸ hm) .regular (Nat.zero_le 3)

theorem requestNotice (h : l.Legal) (c : Settings) (k : Nat) : (l.requestNotice c k).Legal := by
  unfold MarkLink.requestNotice
  split
  case h_1 e _ =>
    split
    case isTrue => exact h
    case isFalse hno =>
      have hm : l.muted = false := by
        simp only [Bool.or_eq_true, not_or, Bool.not_eq_true] at hno
        obtain ⟨⟨⟨hm, -⟩, -⟩, -⟩ := hno
        exact hm
      exact h.draw.pendSlot hm .notice (Nat.zero_le 3)
  case h_2 => exact h
  case h_3 => exact h

theorem skip (h : l.Legal) (kind : MarkKind) : (l.skip kind).Legal := by
  have hq : (ageEchoes (l.launchCount + 1) l.echoes).Sublist (l.setSlot kind none).echoes := by
    cases kind <;> exact ageEchoes_sublist _ _
  exact (h.clearSlot kind).fewerEchoes hq

theorem deferOrSkip (h : l.Legal) {kind : MarkKind} {sl : LaunchSlot}
    (hsl : l.slot kind = some sl) : (l.deferOrSkip kind sl).Legal := by
  unfold MarkLink.deferOrSkip
  dsimp only
  split
  case isTrue hd =>
    split
    case isTrue => exact h.draw.pendSlot (h.unmuted_of_slot hsl) kind (Nat.succ_le_of_lt hd)
    case isFalse => exact h.draw.skip kind
  case isFalse => exact h.skip kind

end MarkLink.Legal

theorem keyUpCheck_link_legal {s : State} (h : s.link.Legal) (kind : MarkKind) :
    (keyUpCheck kind s).link.Legal := by
  unfold keyUpCheck
  split
  case h_1 sl hsl =>
    split
    case isTrue => exact h.deferOrSkip hsl
    case isFalse => exact h.clearSlot kind
  case h_2 => exact h

theorem referenceInstant_link_legal {s : State} (h : s.link.Legal) :
    (referenceInstant s).link.Legal := by
  unfold referenceInstant
  split
  case h_1 =>
    exact (h.listLaunch _).fewerEchoes ((ageEchoes_sublist _ _).trans (List.drop_sublist _ _))
  case h_2 => exact h

/-- An own trigger requests a NOTICE launch, or is ignored (R45, R164). -/
theorem trigInEdge_link (s : State) :
    (trigInEdge s).link = s.link ∨ (trigInEdge s).link = s.link.requestNotice s.cfg s.k := by
  unfold trigInEdge
  split
  · exact .inl rfl
  · exact .inr (congrArg State.link (ownTrigger_touches _ (captureTrig s.takeTrig)) :)

/-! ### MUTED and the straps -/

theorem enterMuted_link_legal {s : State} (h : s.link.Legal) : s.enterMuted.link.Legal := by
  cases hm : s.link.muted with
  | true => rw [State.enterMuted_muted hm]; exact h
  | false => rw [State.enterMuted_entered hm]; exact h.mute

theorem latchStraps_link_legal {s : State} (h : s.link.Legal) (pins : Pins) :
    (latchStraps pins s).link.Legal := by
  have hseed := h.register (lfsrSeed_ne_zero pins.station.toNat)
  unfold latchStraps
  dsimp only
  split
  · exact enterMuted_link_legal hseed
  · exact hseed

/-! ### Receiving -/

theorem placeEcho_link_legal {s : State} (h : s.link.Legal) (m : Mark) (c : Capture) :
    (placeEcho m c s).link.Legal := by
  cases hm : s.link.muted with
  | true => rw [placeEcho_inMuted hm]; exact h
  | false => rw [placeEcho_unmuted hm]; exact h.placeEcho hm _

theorem handleMark_link_legal {s : State} (h : s.link.Legal) (m : Mark) (c : Capture) :
    (handleMark m c s).link.Legal := by
  unfold handleMark
  split
  · exact enterMuted_link_legal h
  · split
    · exact h
    · exact placeEcho_link_legal (by rw [handedOn_link]; exact h) m c

theorem markCheck_link_legal {s : State} (h : s.link.Legal) (body : List Byte) :
    (markCheck body s).link.Legal := by
  unfold markCheck
  split
  · exact h
  · split
    · exact h
    · split
      · exact handleMark_link_legal (s := endReceipt s) h _ _
      · exact h

theorem receiveByte_link_legal {s : State} (h : s.link.Legal) (b : Byte) (edge : Nat) :
    (receiveByte b edge s).link.Legal := by
  unfold receiveByte
  split
  case h_1 => exact h
  case h_2 => unfold huntByte; split <;> exact h
  case h_3 body _ _ =>
    unfold appendByte
    split
    · exact h
    · split
      · exact h
      · split
        · exact h
        · exact markCheck_link_legal h _

theorem linkByteReceived_link_legal {s : State} (h : s.link.Legal) :
    (linkByteReceived s).link.Legal := by
  unfold linkByteReceived
  split
  · exact receiveByte_link_legal (s := takeLinkByte s) h _ _
  · exact h

/-! ### Every command -/

/-- The effects that touch the controller, in the order of `effect_link`: a tick samples its byte alone, as
the receiver's own commands and LAUNCH_END change no field that the invariant names. -/
theorem effect_link_legal {s : State} (h : s.link.Legal) (c : Instr) : (effect c s).link.Legal := by
  rcases effect_link c s with
    he | ⟨pins, rfl⟩ | rfl | rfl | rfl | rfl | rfl | rfl | rfl | rfl | rfl | rfl | ⟨kind, rfl⟩ | rfl |
      rfl | rfl | rfl
  · rw [he]; exact h
  · exact h
  · exact MarkLink.afterReset_legal
  · exact MarkLink.afterReset_legal
  · simp only [effect]
    split
    · exact latchStraps_link_legal h _
    · exact h
  · have hlink := congrArg State.link (startPort_touches (releaseBlocks s))
    exact hlink ▸ h
  · rcases trigInEdge_link s with hlink | hlink
    · exact hlink ▸ h
    · exact hlink ▸ h.requestNotice s.cfg s.k
  · exact linkByteReceived_link_legal h
  · exact h
  · exact h
  · exact h.startInterval s.cfg s.link.schedule.turn
  · exact h.startInterval s.cfg s.link.schedule.turn
  · exact keyUpCheck_link_legal h kind
  · exact referenceInstant_link_legal h
  · exact h
  · exact h
  · exact h

theorem exec_link_legal {c : Instr} {s t : State} (hs : s.link.Legal) (h : exec c s = .next t) :
    t.link.Legal := by
  rcases exec_effect h with rfl | rfl
  · exact hs
  · exact effect_link_legal hs c

/-- Settles O35: a step runs the front command, whose effect keeps the controller legal. -/
theorem linkKeptLegal : Obligations.LinkKeptLegal := by
  intro s t hs h
  unfold step at h
  split at h
  · cases h; exact hs
  · rename_i rest _
    exact exec_link_legal (s := s.withQueue rest) hs h

/-! ## A NOTICE request -/

theorem regularSoon_iff (k : Nat) (l : MarkLink) :
    regularSoon k l = true ↔ ∃ sl, l.regular = some sl ∧ sl.keyUp ≤ k + 20480000 := by
  unfold regularSoon
  cases l.regular <;> simp

/-- The five cases in which a request is ignored (R45). -/
theorem requestNotice_ignored {l : MarkLink} {c : Settings} {k : Nat}
    (h : (∀ e, l.schedule ≠ .running e) ∨ l.muted = true ∨ l.flight.isSome = true ∨
      l.notice.isSome = true ∨ ∃ sl, l.regular = some sl ∧ sl.keyUp ≤ k + 20480000) :
    l.requestNotice c k = l := by
  unfold MarkLink.requestNotice
  split
  case h_1 e hs =>
    refine if_pos ?_
    rw [← regularSoon_iff] at h
    simp only [Bool.or_eq_true, or_assoc]
    exact h.resolve_left fun hno => hno e hs
  case h_2 => rfl
  case h_3 => rfl

/-- In no such case a draw sets the NOTICE slot (R45). -/
theorem requestNotice_running {l : MarkLink} {c : Settings} {k e : Nat}
    (hs : l.schedule = .running e) (hm : l.muted = false) (hf : l.flight = none)
    (hn : l.notice = none) (hr : ∀ sl, l.regular = some sl → k + 20480000 < sl.keyUp) :
    l.requestNotice c k =
      { l with
        lfsr := lfsrDraw l.lfsr
        notice := some (noticeSlot c k e (lfsrDraw l.lfsr).toNat) } := by
  have hsoon : regularSoon k l = false := by
    rw [← Bool.not_eq_true, regularSoon_iff]
    rintro ⟨sl, hsl, hk⟩
    exact absurd hk (Nat.not_le.2 (hr sl hsl))
  unfold MarkLink.requestNotice
  rw [hs]
  exact if_neg (by rw [hm, hf, hn, hsoon]; decide)

/-- A tick before the end of the current interval lies in it. -/
theorem intervalEndOf_current {e ref : Nat} (h : ref < e) (c : Settings) :
    intervalEndOf c e ref = e := if_pos h

/-- A later tick lies in the interval that a whole number of interval lengths after `e` ends first
(R45). -/
theorem intervalEndOf_later {e ref : Nat} (h : e ≤ ref) (c : Settings) :
    (∃ n, intervalEndOf c e ref = e + n * c.markTicks) ∧ ref < intervalEndOf c e ref ∧
      intervalEndOf c e ref ≤ ref + c.markTicks := by
  have hend : intervalEndOf c e ref = e + ((ref - e) / c.markTicks + 1) * c.markTicks :=
    if_neg (Nat.not_lt.2 h)
  have hdiv := Nat.div_add_mod' (ref - e) c.markTicks
  have hmod := Nat.mod_lt (ref - e) c.markTicks_pos
  refine ⟨⟨_, hend⟩, ?_⟩
  rw [hend, Nat.succ_mul]
  omega

/-- Settles O25, by the five cases and the slot that a draw sets. -/
theorem noticeRequestSchedulesLaunch : Obligations.NoticeRequestSchedulesLaunch := by
  refine fun c k l => ⟨fun h => requestNotice_ignored h, fun e hs hm hf hn hr => ?_⟩
  refine ⟨_, _, intervalEndOf c e _, rfl, rfl, fun h => intervalEndOf_current h c,
    fun h => intervalEndOf_later h c, ?_⟩
  rw [requestNotice_running hs hm hf hn hr]
  rfl

/-! ## Mark intervals -/

theorem startInterval_muted {l : MarkLink} (h : l.muted = true) (c : Settings) (start : Nat) :
    l.startInterval c start = { l with schedule := .running (start + c.markTicks) } := if_pos h

theorem startInterval_unmuted {l : MarkLink} (h : l.muted = false) (c : Settings) (start : Nat) :
    l.startInterval c start =
      { l with
        schedule := .running (start + c.markTicks)
        lfsr := lfsrDraw l.lfsr
        regular := some (regularSlot c start (lfsrDraw l.lfsr).toNat) } :=
  if_neg (by rw [h]; decide)

theorem exec_listenPeriodEnd_due {s : State} (h : s.listenPeriodEndDue = true) :
    exec .listenPeriodEnd s =
      .next (s.withLink (MarkLink.startInterval s.cfg s.link.schedule.turn)) :=
  congrArg Host.Outcome.next (if_pos h)

theorem exec_markIntervalStart_due {s : State} (h : s.markIntervalStartDue = true) :
    exec .markIntervalStart s =
      .next (s.withLink (MarkLink.startInterval s.cfg s.link.schedule.turn)) :=
  congrArg Host.Outcome.next (if_pos h)

/-- Both commands start the interval on the tick on which the period before it ends (R41). -/
theorem exec_startsInterval {c : Instr} {s : State} {start : Nat}
    (hc : (c = .listenPeriodEnd ∧ s.link.schedule = .listening start) ∨
      (c = .markIntervalStart ∧ s.link.schedule = .running start)) (hk : start ≤ s.time.k) :
    exec c s = .next (s.withLink (MarkLink.startInterval s.cfg start)) := by
  rcases hc with ⟨rfl, hs⟩ | ⟨rfl, hs⟩
  · rw [exec_listenPeriodEnd_due (s.listenPeriodEndDue_iff.2 ⟨start, hs, hk⟩), hs]; rfl
  · rw [exec_markIntervalStart_due (s.markIntervalStartDue_iff.2 ⟨start, hs, hk⟩), hs]; rfl

/-- The launch offset lies between an eighth and 895/1024 of the interval (R43). -/
theorem launchOffsetMs_bounds (c : Settings) (draw : Nat) :
    c.mSeconds * 125 ≤ launchOffsetMs c draw ∧
      1024 * launchOffsetMs c draw ≤ 895 * (c.mSeconds * 1000) := by
  have hdraw : draw % 768 ≤ 767 := Nat.le_of_lt_succ (Nat.mod_lt _ (by decide))
  have hlow : c.mSeconds * 1000 * 128 ≤ c.mSeconds * 1000 * (128 + draw % 768) :=
    Nat.mul_le_mul_left _ (Nat.le_add_right _ _)
  have hhigh : c.mSeconds * 1000 * (128 + draw % 768) ≤ c.mSeconds * 1000 * 895 :=
    Nat.mul_le_mul_left _ (by omega)
  unfold launchOffsetMs
  omega

/-- In the configured range of the key lead a launch's key-up lies after its interval's start (R43). -/
theorem regularSlot_within {c : Settings} (h : c.keyLead ≤ 50) (start draw : Nat) :
    let ref := start + launchOffsetMs c draw * 20000
    start < ref - c.lead ∧ ref - c.lead + c.lead = ref ∧
      8 * (ref - start) ≥ c.mSeconds * 20000000 ∧
      1024 * (ref - start) ≤ 895 * (c.mSeconds * 20000000) := by
  have hlead := c.lead_le h
  have hm := c.mSeconds_ge
  obtain ⟨hlow, hhigh⟩ := launchOffsetMs_bounds c draw
  intro ref
  omega

/-- Settles O31: the interval starts, and the slot's ticks keep their bounds. -/
theorem markIntervalsScheduleLaunches : Obligations.MarkIntervalsScheduleLaunches := by
  intro c s start hc hk
  rw [exec_startsInterval hc hk]
  refine ⟨fun hm => ?muted,
    fun hm => ⟨_, _, rfl, rfl, ?scheduled, fun hlead => regularSlot_within hlead start _⟩⟩
  case muted => unfold State.withLink; rw [startInterval_muted hm]; rfl
  case scheduled => unfold State.withLink; rw [startInterval_unmuted hm]; rfl

/-! ## The channel check -/

theorem State.channelBusy_iff (s : State) :
    s.channelBusy = true ↔ (∃ pins, s.lines.levels = some pins ∧ pins.linkCd = true) ∨
      (∃ body edge, s.link.rx = .assemble body edge) ∨ s.link.flight ≠ none := by
  have hcd : s.carrier = true ↔ ∃ pins, s.lines.levels = some pins ∧ pins.linkCd = true := by
    unfold State.carrier
    cases s.lines.levels <;> simp
  have hrx : s.link.rx.assembling = true ↔ ∃ body edge, s.link.rx = .assemble body edge := by
    unfold RxState.assembling
    cases s.link.rx <;> simp
  unfold State.channelBusy
  rw [Bool.or_eq_true, Bool.or_eq_true, hcd, hrx, Option.isSome_iff_ne_none, or_assoc]

theorem exec_keyUpCheck_due {s : State} {kind : MarkKind} (h : s.keyUpDue kind = true) :
    exec (.keyUpCheck kind) s = .next (keyUpCheck kind s) :=
  congrArg Host.Outcome.next (if_pos h)

theorem keyUpCheck_free {s : State} {kind : MarkKind} {sl : LaunchSlot}
    (hsl : s.link.slot kind = some sl) (h : ¬ s.channelBusy = true) :
    keyUpCheck kind s = keyLaunch kind sl s := by
  unfold keyUpCheck
  rw [hsl]
  exact if_neg h

theorem keyUpCheck_busy {s : State} {kind : MarkKind} {sl : LaunchSlot}
    (hsl : s.link.slot kind = some sl) (h : s.channelBusy = true) :
    keyUpCheck kind s = s.withLink (MarkLink.deferOrSkip kind sl) := by
  unfold keyUpCheck
  rw [hsl]
  exact if_pos h

/-- A draw defers the launch while three deferrals are not spent and its reference instant stays before
the bound (R44). -/
theorem deferOrSkip_defers {sl : LaunchSlot} {l : MarkLink} (hd : sl.deferrals < 3)
    (hb : sl.ref + (20 + (lfsrDraw l.lfsr).toNat % 256) * 20000 < sl.bound) (kind : MarkKind) :
    l.deferOrSkip kind sl =
      { MarkLink.setSlot { l with lfsr := lfsrDraw l.lfsr } kind
          (some ⟨sl.keyUp + (20 + (lfsrDraw l.lfsr).toNat % 256) * 20000,
            sl.ref + (20 + (lfsrDraw l.lfsr).toNat % 256) * 20000, sl.deferrals + 1, sl.bound⟩) with
        deferred := bump l.deferred } := by
  unfold MarkLink.deferOrSkip
  exact (if_pos hd).trans (if_pos hb)

/-- At the bound the launch is skipped, its draw taken (R44). -/
theorem deferOrSkip_atBound {sl : LaunchSlot} {l : MarkLink} (hd : sl.deferrals < 3)
    (hb : sl.bound ≤ sl.ref + (20 + (lfsrDraw l.lfsr).toNat % 256) * 20000) (kind : MarkKind) :
    l.deferOrSkip kind sl = MarkLink.skip kind { l with lfsr := lfsrDraw l.lfsr } := by
  unfold MarkLink.deferOrSkip
  exact (if_pos hd).trans (if_neg (Nat.not_lt.2 hb))

/-- After three deferrals the launch is skipped without a draw (R44). -/
theorem deferOrSkip_spent {sl : LaunchSlot} (hd : 3 ≤ sl.deferrals) (kind : MarkKind)
    (l : MarkLink) : l.deferOrSkip kind sl = l.skip kind := if_neg (Nat.not_lt.2 hd)

/-- Settles O32, by the channel and by what a busy one leaves of the launch. -/
theorem keyUpCheckKeysDefersOrSkips : Obligations.KeyUpCheckKeysDefersOrSkips := by
  intro s kind sl hsl hk busy delay skipped
  rw [exec_keyUpCheck_due ((s.keyUpDue_iff kind).2 ⟨sl, hsl, hk⟩)]
  have hbusy : busy → keyUpCheck kind s = { s with link := s.link.deferOrSkip kind sl } :=
    fun h => keyUpCheck_busy hsl (s.channelBusy_iff.2 h)
  refine ⟨fun hfree => ?keys, fun hb hd hbound => ?defers, fun hb hd hbound => ?atBound,
    fun hb hd => ?spent⟩
  case keys => rw [keyUpCheck_free hsl (mt s.channelBusy_iff.1 hfree)]; rfl
  case defers => rw [hbusy hb, deferOrSkip_defers hd hbound]; cases kind <;> rfl
  case atBound => rw [hbusy hb, deferOrSkip_atBound hd hbound]; rfl
  case spent => rw [hbusy hb, deferOrSkip_spent hd]; rfl

/-! ## The reference instant -/

theorem exec_referenceInstant_due {s : State} (h : s.referenceInstantDue = true) :
    exec .referenceInstant s = .next (referenceInstant s) :=
  congrArg Host.Outcome.next (if_pos h)

theorem referenceInstant_inFlight {s : State} {f : Flight} (h : s.link.flight = some f) :
    referenceInstant s = composeLaunch f s := by
  unfold referenceInstant; rw [h]

/-- The U code as the quotient rounded up, held at its largest value (R47). -/
theorem uCode_eq (u : Nat) : uCode u = min 16777215 ((u + 15) / 16) := rfl

/-- The fields of a composed mark (R47, R48). -/
theorem composeMark_eq (kind : MarkKind) (s : State) :
    composeMark kind s =
      { version := 1
        kind := match kind with | .regular => 0 | .notice => 1
        station := s.startup.station.toNat
        seq := s.link.nextSeq
        time := ⟨s.nowT.secs.val, s.nowT.ns.val⟩
        uCode := min 16777215 ((s.servo.advU + 15) / 16)
        depth := s.servo.advDepth
        clock := match s.servo.clock with | .unset => 0 | .pullIn => 1 | .locked => 2 | .coast => 3
        echoes := (s.link.echoes.take 6).map fun e =>
          ⟨e.station, e.seq, min (2 ^ 48 - 1) ((s.nowR.units - e.r.units) / 2 ^ 32)⟩
        notices := (s.coinc.outgoing.take 4).map fun n =>
          ⟨n.seq, ⟨n.time / 10 ^ 9, n.time % 10 ^ 9⟩⟩ } := by
  unfold composeMark
  rw [uCode_eq]
  rfl

/-- Settles O33: the launch is due, and its mark is the one composed. -/
theorem referenceInstantComposesMark : Obligations.ReferenceInstantComposesMark := by
  intro s kind ref hf hk m
  rw [exec_referenceInstant_due (s.referenceInstantDue_iff.2 ⟨_, hf, hk, rfl⟩),
    referenceInstant_inFlight hf]
  have hm : composeMark kind s = m := composeMark_eq kind s
  unfold composeLaunch
  rw [hm]
  rfl

/-! ## The layout of a record -/

theorem bigEndian_one (v : Nat) : bigEndian 1 v = [BitVec.ofNat 8 v] := by
  rw [← beBytes_eq]; rfl

theorem signedBytes_eq (n : Nat) (v : Int) :
    signedBytes n v = bigEndian n (v % 2 ^ (8 * n)).toNat := by
  unfold signedBytes
  rw [beBytes_eq]
  push_cast
  rfl

theorem timeBytes_eq (t : Stamp) : timeBytes t = bigEndian 5 t.secs ++ bigEndian 4 t.ns := by
  unfold timeBytes; rw [beBytes_eq, beBytes_eq]

theorem stateByte_eq (depth : Nat) (c : ClockState) :
    [stateByte depth c] = bigEndian 1 (16 * depth + c.code) := by
  rw [bigEndian_one, Nat.mul_comm]; rfl

/-- The flags from a place of weight `w` on, each with twice the weight of the one before it (R199). -/
def flagSum (w : Nat) : List Bool → Nat
  | [] => 0
  | b :: flags => w * b.toNat + flagSum (2 * w) flags

theorem flagSum_double (w : Nat) (flags : List Bool) :
    flagSum (2 * w) flags = 2 * flagSum w flags := by
  induction flags generalizing w with
  | nil => rfl
  | cons b flags ih => rw [flagSum, ih, flagSum, ih]; ring

/-- Flag i of a byte adds 2^i (R199). -/
theorem flagByte_eq (flags : List Bool) : [flagByte flags] = bigEndian 1 (flagSum 1 flags) := by
  have hsum : flags.foldr (fun b acc => 2 * acc + (if b then 1 else 0)) 0 = flagSum 1 flags := by
    induction flags with
    | nil => rfl
    | cons b flags ih =>
      rw [List.foldr_cons, ih, flagSum, flagSum_double, Nat.one_mul, Nat.add_comm]
      cases b <;> rfl
  rw [bigEndian_one, flagByte, hsum]

theorem Record.covered_eq (r : Record) :
    r.covered =
      [BitVec.ofNat 8 (r.cls + 1), BitVec.ofNat 8 r.payload.length] ++ r.payload := rfl

theorem Record.frame_eq (r : Record) :
    r.frame = [0xA5] ++ r.covered ++ bigEndian 2 (crc16 r.covered).toNat := by
  unfold Record.frame; rw [beBytes_eq]

/-! ## LINK_TXD and REC_TXD -/

theorem markBit_before {m : Int} (h : m < -60) (body : Option (List Byte)) :
    markBit body m = true :=
  if_pos h

/-- The preamble and the sync take the sixty bits before the reference tick (R38). -/
theorem markBit_preamble {i j : Nat} (hi : i < 6) (hj : j < 10) (body : Option (List Byte)) :
    markBit body (10 * i + j - 60) =
      if j = 0 then false else if j = 9 then true else (preamble.getD i 0).getLsbD (j - 1) := by
  have hbyte : preamble[i]? = some (preamble.getD i 0) := by
    rw [List.getD_eq_getElem?_getD, List.getElem?_eq_getElem (show i < preamble.length from hi)]
    rfl
  unfold markBit
  rw [if_neg (by omega), if_pos (by omega), ← lineBits_getD hbyte hj]
  congr 1
  omega

theorem markBit_body (m : Nat) (bytes : List Byte) :
    markBit (some bytes) m = (bytes.flatMap asyncBits).getD m true := by
  unfold markBit
  rw [if_neg (by omega), if_neg (by omega)]
  rfl

theorem lineBits_length (bytes : List Byte) :
    (bytes.flatMap asyncBits).length = 10 * bytes.length := by
  simp [List.length_flatMap, asyncBits_length, Nat.mul_comm]

/-- The line rests high after a frame's last stop bit. -/
theorem lineBits_getD_after {bytes : List Byte} {m : Nat} (h : 10 * bytes.length ≤ m) :
    (bytes.flatMap asyncBits).getD m true = true :=
  List.getD_eq_default _ _ (by rw [lineBits_length]; exact h)

theorem State.linkTxd_idle {s : State} (h : s.link.flight = none) : s.linkTxd = true := by
  unfold State.linkTxd; rw [h]

theorem State.linkTxd_sending {s : State} {kind : MarkKind} {ref : Nat} {body : Option (List Byte)}
    (h : s.link.flight = some ⟨kind, ref, body⟩) :
    s.linkTxd = markBit body (bitAt s.cfg.linkRate ((s.time.k : Int) - ref)) := by
  unfold State.linkTxd; rw [h]; rfl

theorem State.recTxd_idle {s : State} (h : s.port.frame = none) : s.recTxd = true := by
  unfold State.recTxd; rw [h]

theorem State.recTxd_sending {s : State} {f : Frame} (h : s.port.frame = some f) :
    s.recTxd =
      (f.bytes.flatMap asyncBits).getD
        (bitAt s.cfg.recordRate ((s.time.k : Int) - f.start)).toNat true := by
  unfold State.recTxd; rw [h]; rfl

theorem Settings.recordRate_bounds (c : Settings) : 0 < c.recordRate ∧ c.recordRate ≤ 10000000 := by
  unfold Settings.recordRate; split <;> omega

section
variable {s : State} {kind : MarkKind} {ref : Nat} {body : Option (List Byte)} {m : Int}

/-- LINK_TXD shows bit `m` from its tick until the next bit's (R38). -/
theorem State.linkTxd_bit (h : s.link.flight = some ⟨kind, ref, body⟩)
    (hmax : s.cfg.linkRate ≤ 10000000)
    (h1 : roundDiv (m * 20000000) s.cfg.linkRate ≤ (s.time.k : Int) - ref)
    (h2 : (s.time.k : Int) - ref < roundDiv ((m + 1) * 20000000) s.cfg.linkRate) :
    s.linkTxd = markBit body m := by
  rw [State.linkTxd_sending h,
    bitAt_eq (Nat.lt_of_lt_of_le (by decide) s.cfg.linkRate_ge) hmax h1 h2]

/-- LINK_TXD is high before the preamble (R38, R46). -/
theorem State.linkTxd_before (h : s.link.flight = some ⟨kind, ref, body⟩)
    (hmax : s.cfg.linkRate ≤ 10000000)
    (hd : (s.time.k : Int) - ref < roundDiv (-60 * 20000000) s.cfg.linkRate) :
    s.linkTxd = true := by
  have hbit := mt (bitTick_le_iff (Nat.lt_of_lt_of_le (by decide) s.cfg.linkRate_ge) hmax (-60)
    ((s.time.k : Int) - ref)).2 (Int.not_le.2 hd)
  rw [State.linkTxd_sending h, markBit_before (Int.not_le.1 hbit)]

/-- LINK_TXD is high after the last stop bit (R38, R46). -/
theorem State.linkTxd_after {bytes : List Byte}
    (h : s.link.flight = some ⟨kind, ref, some bytes⟩) (hmax : s.cfg.linkRate ≤ 10000000)
    (hd : roundDiv (10 * bytes.length * 20000000) s.cfg.linkRate ≤ (s.time.k : Int) - ref) :
    s.linkTxd = true := by
  have hbit := (bitTick_le_iff (Nat.lt_of_lt_of_le (by decide) s.cfg.linkRate_ge) hmax
    (10 * bytes.length) ((s.time.k : Int) - ref)).1 hd
  rw [State.linkTxd_sending h]
  obtain ⟨m, hm⟩ := Int.eq_ofNat_of_zero_le
    (show 0 ≤ bitAt s.cfg.linkRate ((s.time.k : Int) - ref) by omega)
  rw [hm] at hbit ⊢
  rw [markBit_body, lineBits_getD_after (by omega)]

end

/-- Settles O59: the layouts field by field, and each line by the bit it shows. -/
theorem framesOnTheLines : Obligations.FramesOnTheLines := by
  refine ⟨?records, fun s => ⟨rfl, rfl⟩, fun s h => State.linkTxd_idle h, ?link,
    fun s h => State.recTxd_idle h, ?port⟩
  case records =>
    intro signed time clock state payload r hstatus n covered
    have hpay : r.payload = payload r := by
      cases r with
      | brk x =>
        show x.payload = _
        simp only [BreakRec.payload, beBytes_eq, signedBytes_eq, timeBytes_eq]
        rfl
      | coincidence x =>
        show x.payload = _
        simp only [CoincRec.payload, beBytes_eq, timeBytes_eq]
        rfl
      | timing x =>
        show x.payload = _
        simp only [TimingRec.payload, beBytes_eq, signedBytes_eq, timeBytes_eq, stateByte_eq,
          flagByte_eq, flagSum, Nat.reduceMul, Nat.one_mul, Nat.add_zero, ← Nat.add_assoc]
        rfl
      | trigger x =>
        show x.payload = _
        simp only [TriggerRec.payload, beBytes_eq, timeBytes_eq]
        rfl
      | status x =>
        show x.payload = _
        simp only [StatusRec.payload, Alerts.byte, beBytes_eq, signedBytes_eq, stateByte_eq,
          flagByte_eq, flagSum, Nat.reduceMul, Nat.one_mul, Nat.add_zero, ← Nat.add_assoc]
        rfl
      | peer x =>
        show x.payload = _
        simp only [PeerRec.payload, beBytes_eq, signedBytes_eq, stateByte_eq]
        rfl
    have hlen : r.payload.length = n := by
      cases r with
      | brk x => exact x.payload_length
      | coincidence x => exact x.payload_length
      | timing x => exact x.payload_length
      | trigger x => exact x.payload_length
      | status x =>
        obtain ⟨hedges, hstats⟩ := hstatus x rfl
        exact StatusRec.payload_length hedges hstats
      | peer x => exact x.payload_length
    have hcovered : r.covered = covered := by rw [r.covered_eq, hlen, hpay]
    exact ⟨hpay ▸ hlen, by rw [r.frame_eq, hcovered]⟩
  case link =>
    intro s kind ref body hf hmax after starts bit
    refine ⟨fun h => State.linkTxd_before hf hmax h, fun i j hi hj h1 h2 => ?preamble,
      fun bytes hb => ⟨fun i j byte hbyte hj h1 h2 => ?body, fun h => ?rest⟩⟩
    case preamble =>
      rw [State.linkTxd_bit hf hmax h1 h2, markBit_preamble hi hj]
      rfl
    case body =>
      subst hb
      rw [State.linkTxd_bit (m := ((10 * i + j : Nat) : Int)) hf hmax h1 h2, markBit_body,
        lineBits_getD hbyte hj]
    case rest =>
      subst hb
      exact State.linkTxd_after hf hmax h
  case port =>
    intro s f i j byte hf hbyte hj h1 h2
    obtain ⟨hmin, hmax⟩ := s.cfg.recordRate_bounds
    have hbit := bitAt_eq (m := (10 * i + j : Nat)) hmin hmax h1 h2
    rw [State.recTxd_sending hf, hbit, Int.toNat_natCast, lineBits_getD hbyte hj]

end Sys2Proof.Machine

namespace Sys2Proof.Machine

/-! # The Peer Table: its invariant -/

/-! ## What keeps an entry legal -/

theorem stateAfterRecord_barred_iff (n : Nat) (st : EntryState) :
    stateAfterRecord n st = .barred ↔ st = .barred := by
  have hif : (if 3 ≤ n then EntryState.tracked else .trial) ≠ .barred := by split <;> decide
  cases st with
  | trial => exact ⟨fun h => absurd h hif, fun h => (nomatch h)⟩
  | tracked => exact Iff.rfl
  | silent => exact ⟨fun h => absurd h hif, fun h => (nomatch h)⟩
  | barred => exact Iff.rfl

namespace PeerEntry.Legal

variable {e : PeerEntry}

/-- A mark's advertised values and last-mark fields are free (R63). -/
theorem use (h : e.Legal) (m : MarkUse) : (e.use m).Legal := h

/-- A record joins a history of at most eight and moves no entry into or out of BARRED (R75, R76). -/
theorem record (h : e.Legal) (r : ExchangeRecord) : (e.record r).Legal := by
  obtain ⟨hlo, hhi, hhist, hrec, hnd, hrej, hbar⟩ := h
  exact ⟨hlo, hhi, addRecord_length r hhist, hrec, hnd, hrej,
    hbar.trans (stateAfterRecord_barred_iff _ _).symm⟩

/-- A notice not seen before joins the recent notices (R82). -/
theorem note (h : e.Legal) {seq : Seq} (hs : seq ∉ e.recent) :
    { e with recent := addRecent seq e.recent }.Legal := by
  obtain ⟨hlo, hhi, hhist, hrec, hnd, hrej, hbar⟩ := h
  obtain ⟨hrec', hnd'⟩ := addRecent_legal seq hrec hnd hs
  exact ⟨hlo, hhi, hhist, hrec', hnd', hrej, hbar⟩

/-- A report raises the reject count to at most 4, and the fourth bars (R70). -/
theorem report (h : e.Legal) (k bar : Nat) (survived : Bool) : (e.report k bar survived).Legal := by
  obtain ⟨hlo, hhi, hhist, hrec, hnd, hrej, hbar⟩ := h
  unfold PeerEntry.report
  split
  · exact ⟨hlo, hhi, hhist, hrec, hnd, hrej, hbar⟩
  · split
    · exact ⟨hlo, hhi, hhist, hrec, hnd, Nat.zero_le 4, hbar⟩
    · split
      · rename_i hlt
        exact ⟨hlo, hhi, hhist, hrec, hnd, hlt.le, hbar⟩
      · exact ⟨hlo, hhi, hhist, hrec, hnd, le_refl 4, ⟨fun _ => rfl, fun _ => rfl⟩⟩

/-- A TRACKED entry goes silent (R68). -/
theorem silent (h : e.Legal) (ht : e.state = .tracked) : { e with state := .silent }.Legal := by
  obtain ⟨hlo, hhi, hhist, hrec, hnd, hrej, hbar⟩ := h
  rw [ht] at hbar
  exact ⟨hlo, hhi, hhist, hrec, hnd, hrej, fun hs => (nomatch hbar.1 hs), fun hs => (nomatch hs)⟩

/-- The oldest record leaves (R77). -/
theorem expire (h : e.Legal) : { e with history := e.history.tail }.Legal := by
  obtain ⟨hlo, hhi, hhist, hrec, hnd, hrej, hbar⟩ := h
  exact ⟨hlo, hhi, (List.tail_sublist _).length_le.trans hhist, hrec, hnd, hrej, hbar⟩

/-- The barring ends (R71). -/
theorem unbarred (h : e.Legal) : e.unbarred.Legal := by
  obtain ⟨hlo, hhi, -, hrec, hnd, -, -⟩ := h
  exact ⟨hlo, hhi, Nat.zero_le 8, hrec, hnd, Nat.zero_le 4, fun hs => (nomatch hs),
    fun hs => (nomatch hs)⟩

end PeerEntry.Legal

/-- The entry of a new station is legal (R64). -/
theorem PeerEntry.admitted_legal {m : MarkUse} (hlo : 1 ≤ m.station) (hhi : m.station ≤ 62) :
    (PeerEntry.admitted m).Legal :=
  ⟨hlo, hhi, Nat.zero_le 8, Nat.zero_le 4, List.nodup_nil, Nat.zero_le 4, fun hs => (nomatch hs),
    fun hs => (nomatch hs)⟩

theorem PeerEntry.report_station (k bar : Nat) (survived : Bool) (e : PeerEntry) :
    (e.report k bar survived).station = e.station := by
  unfold PeerEntry.report; split
  · rfl
  · split
    · rfl
    · split <;> rfl

/-! ## What keeps the table legal -/

/-- The Peer Table's part of `State.PeersLegal`, for a part of the own number given. -/
structure PeerTable.Legal (own : Nat) (p : PeerTable) : Prop where
  slots24 : p.slots.length = 24
  onePerStation : p.stations.Nodup
  notOwn : own ∉ p.stations
  entries : ∀ e, some e ∈ p.slots → e.Legal

theorem State.peersLegal_iff (s : State) :
    s.PeersLegal ↔ s.peers.Legal s.own ∧ (s.k < 90000 → s.Unreleased) := by
  constructor
  · rintro ⟨hlen, hone, hown, hent, hrel⟩
    exact ⟨⟨hlen, hone, hown, hent⟩, hrel⟩
  · rintro ⟨⟨hlen, hone, hown, hent⟩, hrel⟩
    exact ⟨hlen, hone, hown, hent, hrel⟩

theorem PeerTable.getElem?_of_entry (p : PeerTable) {i : Nat} {e : PeerEntry}
    (h : p.entry i = some e) : p.slots[i]? = some (some e) := by
  unfold PeerTable.entry at h
  rw [List.getD_eq_getElem?_getD] at h
  cases hs : p.slots[i]? with
  | none => rw [hs] at h; cases h
  | some x => rw [hs] at h; exact congrArg some h

/-- A table that holds nothing is legal whatever the own number. -/
theorem PeerTable.Legal.ofEmpty {p : PeerTable} (hlen : p.slots.length = 24) (h : p.stations = [])
    (own : Nat) : p.Legal own where
  slots24 := hlen
  onePerStation := h ▸ List.nodup_nil
  notOwn := h ▸ List.not_mem_nil
  entries := fun e he => by
    have hmem := (mem_stations p e.station).2 ⟨e, he, rfl⟩
    rw [h] at hmem
    exact absurd hmem List.not_mem_nil

/-- The entry found for a station stands in a slot and is of that station. -/
theorem PeerTable.find_spec {p : PeerTable} {station : Nat} {e : PeerEntry}
    (h : p.find station = some e) : some e ∈ p.slots ∧ e.station = station := by
  have hfind : p.slots.find? (holdsStation station) = some (some e) := Option.join_eq_some_iff.1 h
  have hholds : holdsStation station (some e) = true := List.find?_some hfind
  exact ⟨List.mem_of_find?_eq_some hfind, of_decide_eq_true hholds⟩

/-- Where no station stands twice, one entry holds it. -/
theorem PeerTable.entry_unique {p : PeerTable} (hone : p.stations.Nodup) {a b : PeerEntry}
    (ha : some a ∈ p.slots) (hb : some b ∈ p.slots) (hab : a.station = b.station) : a = b := by
  obtain ⟨i, hi⟩ := List.mem_iff_getElem?.1 ha
  obtain ⟨j, hj⟩ := List.mem_iff_getElem?.1 hb
  obtain rfl := slot_unique hone hi hj hab
  exact Option.some.inj (Option.some.inj (hi.symm.trans hj))

/-- A notice is answered *new* only where its sender's entry does not hold its sequence (R82). -/
theorem PeerTable.answer_new {p : PeerTable} {q : QWord} {k station : Nat} {seq : Seq} {theta : Int}
    {u : Nat} (h : p.answer q k station seq = .new theta u) :
    ∃ e, p.find station = some e ∧ seq ∉ e.recent := by
  unfold PeerTable.answer at h
  split at h
  · cases h
  · rename_i e he
    split at h
    · cases h
    · split at h
      · cases h
      · exact ⟨e, he, by assumption⟩

/-- A mark used rewrites its sender's entry, or fills a slot with a sender that no entry holds (R63 to
R65). -/
theorem PeerTable.useMark_cases {p p' : PeerTable} {m : MarkUse} (h : p.useMark m = some p') :
    p' = p.modify m.station (PeerEntry.use m) ∨
      m.station ∉ p.stations ∧ ∃ i, p' = p.put i (some (PeerEntry.admitted m)) := by
  unfold PeerTable.useMark at h
  split at h
  · exact .inl (Option.some.inj h).symm
  · rename_i hnew
    obtain ⟨i, -, hi⟩ := Option.map_eq_some_iff.1 h
    exact .inr ⟨fun hm => hnew ((any_holdsStation p m.station).2 hm), i, hi.symm⟩

namespace PeerTable.Legal

variable {own : Nat} {p : PeerTable}

/-- The counters are free (R62). -/
theorem counted (h : p.Legal own) (full stale negative overLimit : Stat) :
    PeerTable.Legal own ⟨p.slots, full, stale, negative, overLimit⟩ :=
  ⟨h.slots24, h.onePerStation, h.notOwn, h.entries⟩

/-- One station's entry is changed. -/
theorem modify (h : p.Legal own) {station : Nat} {f : PeerEntry → PeerEntry}
    (hst : ∀ e, (f e).station = e.station)
    (hf : ∀ e, some e ∈ p.slots → e.station = station → (f e).Legal) :
    (p.modify station f).Legal own where
  slots24 := (List.length_map _).trans h.slots24
  onePerStation := modify_stations p station hst ▸ h.onePerStation
  notOwn := modify_stations p station hst ▸ h.notOwn
  entries := fun e' he' => by
    obtain ⟨slot, hslot, heq⟩ := List.mem_map.1 he'
    cases slot with
    | none => cases heq
    | some e =>
      by_cases hs : e.station = station
      · rw [modifySlot, if_pos hs] at heq
        exact Option.some.inj heq ▸ hf e hslot hs
      · rw [modifySlot, if_neg hs] at heq
        exact Option.some.inj heq ▸ h.entries e hslot

/-- A slot is emptied (R66). -/
theorem putNone (h : p.Legal own) (i : Nat) : (p.put i none).Legal own where
  slots24 := List.length_set.trans h.slots24
  onePerStation := h.onePerStation.sublist (set_none_stations p.slots i)
  notOwn := fun hm => h.notOwn ((set_none_stations p.slots i).subset hm)
  entries := fun e he => by
    rcases List.mem_or_eq_of_mem_set he with he | he
    · exact h.entries e he
    · cases he

/-- A slot's entry is replaced by one of the same station. -/
theorem putSame (h : p.Legal own) {i : Nat} {e e' : PeerEntry} (hi : p.slots[i]? = some (some e))
    (hs : e'.station = e.station) (he' : e'.Legal) : (p.put i (some e')).Legal own where
  slots24 := List.length_set.trans h.slots24
  onePerStation := by
    show (List.filterMap _ _).Nodup
    exact set_same_stations hi hs ▸ h.onePerStation
  notOwn := by
    show own ∉ List.filterMap _ _
    exact set_same_stations hi hs ▸ h.notOwn
  entries := fun x hx => by
    rcases List.mem_or_eq_of_mem_set hx with hx | hx
    · exact h.entries x hx
    · exact Option.some.inj hx ▸ he'

/-- A slot is filled with a station that no entry holds and that is not the own one (R64). -/
theorem putNew (h : p.Legal own) (i : Nat) {e : PeerEntry} (hnew : e.station ∉ p.stations)
    (hown : e.station ≠ own) (he : e.Legal) : (p.put i (some e)).Legal own := by
  obtain ⟨hone, hmem⟩ := set_some_stations (i := i) e h.onePerStation hnew
  refine ⟨List.length_set.trans h.slots24, hone, fun hm => ?_, fun x hx => ?_⟩
  · rcases hmem own hm with hm | hm
    · exact hown hm.symm
    · exact h.notOwn hm
  · rcases List.mem_or_eq_of_mem_set hx with hx | hx
    · exact h.entries x hx
    · exact Option.some.inj hx ▸ he

/-- A slot's entry, where it has one, is changed. -/
theorem putMap (h : p.Legal own) (i : Nat) {f : PeerEntry → PeerEntry}
    (hst : ∀ e, (f e).station = e.station) (hf : ∀ e, p.entry i = some e → e.Legal → (f e).Legal) :
    (p.put i ((p.entry i).map f)).Legal own := by
  cases hi : p.entry i with
  | none => exact h.putNone i
  | some e =>
    have hslot := p.getElem?_of_entry hi
    exact h.putSame hslot (hst e) (hf e hi (h.entries e (List.mem_of_getElem? hslot)))

/-- A mark of another station that the table uses (R63, R64). -/
theorem useMark (h : p.Legal own) {m : MarkUse} {p' : PeerTable} (hown : m.station ≠ own)
    (hlo : 1 ≤ m.station) (hhi : m.station ≤ 62) (hp : p.useMark m = some p') : p'.Legal own := by
  rcases PeerTable.useMark_cases hp with rfl | ⟨hnew, i, rfl⟩
  · exact h.modify (fun _ => rfl) fun e he _ => (h.entries e he).use m
  · exact h.putNew i hnew hown (PeerEntry.admitted_legal hlo hhi)

/-- An exchange is counted or recorded (R72 to R76). -/
theorem exchange (h : p.Legal own) (station : Nat) (t3 : Stamp) (c : Capture) (limit : Nat)
    (r1 : Option TimeVal) (hold : Nat) : (p.exchange station t3 c limit r1 hold).Legal own := by
  unfold PeerTable.exchange
  split
  · exact h.counted _ _ _ _
  · dsimp only
    split
    · exact h.counted _ _ _ _
    · split
      · exact h.counted _ _ _ _
      · exact h.modify (fun _ => rfl) fun e he _ => (h.entries e he).record _

/-- A notice answered *new* is remembered (R82). -/
theorem noteNotice (h : p.Legal own) {q : QWord} {k station : Nat} {seq : Seq} {theta : Int} {u : Nat}
    (hnew : p.answer q k station seq = .new theta u) : (p.noteNotice station seq).Legal own := by
  obtain ⟨x, hfind, hx⟩ := PeerTable.answer_new hnew
  obtain ⟨hmem, hst⟩ := PeerTable.find_spec hfind
  refine h.modify (fun _ => rfl) fun e he hs => (h.entries e he).note ?_
  rwa [PeerTable.entry_unique h.onePerStation he hmem (hs.trans hst.symm)]

end PeerTable.Legal

/-! ## Received marks -/

theorem insertEntry_peers (station : Nat) (seq : Seq) (time u : Nat) (s : State) :
    (insertEntry station seq time u s).peers = s.peers :=
  (congrArg State.peers (insertEntry_touches station seq time u s) :)

theorem peerNotice_peers_legal {own : Nat} {s : State} (h : s.peers.Legal own) (station : Nat)
    (n : NoticeItem) : (peerNotice station n s).peers.Legal own := by
  unfold peerNotice
  split
  · exact h
  · exact h
  · rename_i hnew
    rw [insertEntry_peers]
    exact h.noteNotice hnew

theorem takeNotices_peers_legal {own : Nat} {s : State} (h : s.peers.Legal own) (m : Mark) :
    (takeNotices m s).peers.Legal own := by
  unfold takeNotices
  induction m.notices generalizing s with
  | nil => exact h
  | cons n ns ih => exact ih (peerNotice_peers_legal h m.station n)

theorem takeEchoes_peers_legal {own : Nat} {s : State} (h : s.peers.Legal own) (m : Mark)
    (c : Capture) : (takeEchoes m c s).peers.Legal own := by
  unfold takeEchoes
  induction m.echoes.filter (fun e => decide (e.station = s.own)) generalizing s with
  | nil => exact h
  | cons e es ih => exact ih (h.exchange _ _ _ _ _ _)

theorem enterMuted_peers (s : State) : s.enterMuted.peers = s.peers :=
  (congrArg State.peers s.enterMuted_touches :)

/-- A mark whose fields passed is handled (R57, R58). -/
theorem handleMark_peers_legal {s : State} (h : s.peers.Legal s.own) {m : Mark}
    (hm : m.fieldsPass = true) (c : Capture) : (handleMark m c s).peers.Legal s.own := by
  obtain ⟨-, -, ⟨hlo, hhi⟩, -, -, -⟩ := m.fieldsPass_iff.1 hm
  by_cases hown : m.station = s.own
  · rw [handleMark_own hown, enterMuted_peers]
    exact h
  · cases huse : s.peers.useMark (m.use c) with
    | none =>
      rw [handleMark_unused hown huse]
      exact h.counted _ _ _ _
    | some p =>
      have hp : p.Legal s.own := h.useMark hown hlo hhi huse
      rw [handleMark_used hown huse, placeEcho_touches]
      exact takeNotices_peers_legal (takeEchoes_peers_legal (s := { s with peers := p }) hp m c) m

theorem markCheck_peers_legal {s : State} (h : s.peers.Legal s.own) (body : List Byte) :
    (markCheck body s).peers.Legal s.own := by
  unfold markCheck
  split
  · exact h
  · split
    · exact h
    · rename_i hf
      split
      · exact handleMark_peers_legal (s := endReceipt s) h (by simpa using hf) _
      · exact h

theorem receiveByte_peers_legal {s : State} (h : s.peers.Legal s.own) (b : Byte) (edge : Nat) :
    (receiveByte b edge s).peers.Legal s.own := by
  unfold receiveByte
  split
  · exact h
  · unfold huntByte; split <;> exact h
  · unfold appendByte
    split
    · exact h
    · split
      · exact h
      · split
        · exact h
        · exact markCheck_peers_legal h _

theorem linkByteReceived_peers_legal {s : State} (h : s.peers.Legal s.own) :
    (linkByteReceived s).peers.Legal s.own := by
  unfold linkByteReceived
  split
  · exact receiveByte_peers_legal (s := takeLinkByte s) h _ _
  · exact h

/-! ## Reports -/

theorem reportOne_peers_legal {own : Nat} {s : State} (h : s.peers.Legal own) (m : Int) (x : Source) :
    (reportOne m s x).peers.Legal own := by
  unfold reportOne
  dsimp only
  split
  · exact h.modify (PeerEntry.report_station _ _ _) fun e he _ => (h.entries e he).report _ _ _
  · exact h
  · exact h

theorem report_peers_legal {own : Nat} {s : State} (h : s.peers.Legal own) (xs : List Source) :
    (report xs s).peers.Legal own := by
  unfold report
  generalize weightedMedian xs = m
  induction xs generalizing s with
  | nil => exact h
  | cons x xs ih => exact ih (reportOne_peers_legal h m x)

theorem combinerRun_peers_legal {own : Nat} {s : State} (h : s.peers.Legal own) :
    (combinerRun s).1.peers.Legal own := by
  unfold combinerRun
  dsimp only
  split
  · exact h
  · exact report_peers_legal h _

theorem servoUpdate_peers_legal {own : Nat} {s : State} (h : s.peers.Legal own) :
    (servoUpdate s).peers.Legal own := by
  unfold servoUpdate
  dsimp only
  rw [servoAct_touches]
  exact combinerRun_peers_legal (s := s.withServo fun v => { v with lastUpdate := s.k }) h

/-! ## Before the link is released -/

/-- The controller before CONFIG_READ_END: receiver stopped, nothing in flight or pending, no schedule
(R53, R61). -/
def MarkLink.Unreleased (l : MarkLink) : Prop :=
  l.rx = .stopped ∧ l.flight = none ∧ l.regular = none ∧ l.notice = none ∧ l.schedule = .idle

theorem State.unreleased_iff (s : State) :
    s.Unreleased ↔ s.link.Unreleased ∧ s.peers.stations = [] := by
  unfold State.Unreleased MarkLink.Unreleased
  simp only [and_assoc]

namespace MarkLink.Unreleased

variable {l : MarkLink}

/-- A NOTICE request is ignored without a schedule (R45). -/
theorem requestNotice (h : l.Unreleased) (c : Settings) (k : Nat) : l.requestNotice c k = l := by
  obtain ⟨-, -, -, -, hsched⟩ := h
  unfold MarkLink.requestNotice
  rw [hsched]

theorem slot (h : l.Unreleased) (kind : MarkKind) : l.slot kind = none := by
  obtain ⟨-, -, hreg, hnot, -⟩ := h
  cases kind with
  | regular => exact hreg
  | notice => exact hnot

end MarkLink.Unreleased

/-- The commands that wait for the link's release: the end of a gap, a turn of the schedule, the end of a
launch. -/
def awaitRelease : List Instr :=
  [.huntHistoryForget, .receiptTruncated, .listenPeriodEnd, .markIntervalStart, .launchEnd]

/-- A command that is not due changes nothing (log 3). -/
theorem next_notDue {due : Bool} (h : due = false) (n s : State) :
    (.next (if due then n else s) : Host.Outcome State Fault Refusal) = .next s := by
  rw [h]; rfl

theorem exec_awaitRelease {s : State} (h : s.link.Unreleased) {c : Instr} (hc : c ∈ awaitRelease) :
    exec c s = .next s := by
  obtain ⟨hrx, hflight, -, -, hsched⟩ := h
  simp only [awaitRelease, List.mem_cons, List.not_mem_nil, or_false] at hc
  rcases hc with rfl | rfl | rfl | rfl | rfl
  · exact next_notDue (by unfold State.historyForgetDue; rw [hrx]) _ s
  · exact next_notDue (by unfold State.receiptTruncatedDue; rw [hrx]) _ s
  · exact next_notDue (by unfold State.listenPeriodEndDue; rw [hsched]) _ s
  · exact next_notDue (by unfold State.markIntervalStartDue; rw [hsched]) _ s
  · exact next_notDue (by unfold State.launchEndDue; rw [hflight]) _ s

/-- CONFIG_READ_END is taken from K = 90,000 on (R189, R192). -/
theorem exec_configReadEnd_early {s : State} (hk : s.time.k < 90000) :
    exec .configReadEnd s = .next s := by
  refine next_notDue (Bool.eq_false_iff.2 fun hdue => ?_) _ s
  obtain ⟨-, -, hend⟩ := s.readEndDue_iff.1 hdue
  exact absurd hk (Nat.not_lt.2 hend)

/-- A stopped receiver takes a complete byte without acting on it (R53). -/
theorem linkByteReceived_stopped {s : State} (h : s.link.rx = .stopped) :
    linkByteReceived s = s ∨ linkByteReceived s = takeLinkByte s := by
  unfold linkByteReceived
  split
  · refine .inr ?_
    unfold receiveByte
    rw [show (takeLinkByte s).link.rx = .stopped from h]
  · exact .inl rfl

theorem enterMuted_link_unreleased {s : State} (h : s.link.Unreleased) :
    s.enterMuted.link.Unreleased := by
  cases hm : s.link.muted with
  | true => rw [State.enterMuted_muted hm]; exact h
  | false =>
    obtain ⟨hrx, hflight, -, -, hsched⟩ := h
    rw [State.enterMuted_entered hm]
    exact ⟨hrx, hflight, rfl, rfl, hsched⟩

theorem latchStraps_link_unreleased {s : State} (h : s.link.Unreleased) (pins : Pins) :
    (latchStraps pins s).link.Unreleased := by
  unfold latchStraps
  dsimp only
  split
  · exact enterMuted_link_unreleased h
  · exact h

/-- No command before K = 90,000 releases the controller (R53, R192). -/
theorem exec_link_unreleased {c : Instr} {s t : State} (hs : s.link.Unreleased)
    (hk : s.time.k < 90000) (h : exec c s = .next t) : t.link.Unreleased := by
  have unchanged : exec c s = .next s → t.link.Unreleased := fun hsame =>
    Host.Outcome.next.inj (hsame.symm.trans h) ▸ hs
  obtain ⟨hrx, hflight, -, -, -⟩ := id hs
  rcases exec_effect h with rfl | rfl
  · exact hs
  rcases effect_link c s with
    he | ⟨pins, rfl⟩ | rfl | rfl | rfl | rfl | rfl | rfl | rfl | rfl | rfl | rfl | ⟨kind, rfl⟩ | rfl |
      rfl | rfl | rfl
  · rw [he]; exact hs
  · exact hs
  · exact ⟨rfl, rfl, rfl, rfl, rfl⟩
  · exact ⟨rfl, rfl, rfl, rfl, rfl⟩
  · simp only [effect]
    split
    · exact latchStraps_link_unreleased hs _
    · exact hs
  · exact unchanged (exec_configReadEnd_early hk)
  · rcases trigInEdge_link s with hlink | hlink
    · exact hlink ▸ hs
    · exact (hlink.trans (hs.requestNotice s.cfg s.k)) ▸ hs
  · rcases linkByteReceived_stopped hrx with hb | hb
    · exact congrArg State.link hb ▸ hs
    · exact congrArg State.link hb ▸ hs
  · exact unchanged (exec_awaitRelease hs (by decide))
  · exact unchanged (exec_awaitRelease hs (by decide))
  · exact unchanged (exec_awaitRelease hs (by decide))
  · exact unchanged (exec_awaitRelease hs (by decide))
  · have hkey : keyUpCheck kind s = s := by unfold keyUpCheck; rw [hs.slot kind]
    exact congrArg State.link hkey ▸ hs
  · have href : referenceInstant s = s := by unfold referenceInstant; rw [hflight]
    exact congrArg State.link href ▸ hs
  · exact unchanged (exec_awaitRelease hs (by decide))
  · exact hs
  · exact hs

/-! ### A table that holds nothing -/

theorem PeerTable.entry_of_empty {p : PeerTable} (h : p.stations = []) (i : Nat) :
    p.entry i = none := by
  cases he : p.entry i with
  | none => rfl
  | some e =>
    have hmem := (mem_stations p e.station).2 ⟨e, List.mem_of_getElem? (p.getElem?_of_entry he), rfl⟩
    rw [h] at hmem
    exact absurd hmem List.not_mem_nil

theorem PeerTable.put_none_empty {p : PeerTable} (h : p.stations = []) (i : Nat) :
    (p.put i none).stations = [] :=
  List.sublist_nil.1 (h ▸ set_none_stations p.slots i)

theorem State.modifyEntry_empty {s : State} (h : s.peers.stations = []) (i : Nat)
    (f : PeerEntry → PeerEntry) : (s.modifyEntry i f).peers.stations = [] := by
  show (s.peers.put i ((s.peers.entry i).map f)).stations = []
  rw [PeerTable.entry_of_empty h]
  exact PeerTable.put_none_empty h i

theorem reportOne_stations (m : Int) (s : State) (x : Source) :
    (reportOne m s x).peers.stations = s.peers.stations := by
  unfold reportOne
  dsimp only
  split
  · exact modify_stations _ _ (PeerEntry.report_station _ _ _)
  · rfl
  · rfl

theorem report_stations (xs : List Source) (s : State) :
    (report xs s).peers.stations = s.peers.stations := by
  unfold report
  generalize weightedMedian xs = m
  induction xs generalizing s with
  | nil => rfl
  | cons x xs ih => exact (ih _).trans (reportOne_stations m s x)

/-- An update of the servo keeps the stations of the table (R70). -/
theorem servoUpdate_stations (s : State) : (servoUpdate s).peers.stations = s.peers.stations := by
  unfold servoUpdate combinerRun
  dsimp only
  rw [servoAct_touches]
  dsimp only
  split
  · rfl
  · exact report_stations _ (s.withServo fun v => { v with lastUpdate := s.k })

/-- While the receiver is stopped no command admits a station (R63). -/
theorem effect_stations_empty {s : State} (hrx : s.link.rx = .stopped) (h : s.peers.stations = [])
    (c : Instr) : (effect c s).peers.stations = [] := by
  rcases effect_peers c s with
    he | rfl | rfl | rfl | ⟨slot, rfl⟩ | ⟨slot, rfl⟩ | ⟨slot, rfl⟩ | ⟨slot, rfl⟩ | ⟨slot, rfl⟩ | rfl
  · rw [he]; exact h
  · exact PeerTable.afterReset_stations
  · exact PeerTable.afterReset_stations
  · rcases linkByteReceived_stopped hrx with hb | hb
    · exact congrArg State.peers hb ▸ h
    · exact congrArg State.peers hb ▸ h
  · exact PeerTable.put_none_empty h slot
  · exact State.modifyEntry_empty h slot _
  · exact PeerTable.put_none_empty h slot
  · exact State.modifyEntry_empty h slot _
  · exact State.modifyEntry_empty h slot _
  · exact (servoUpdate_stations s).trans h

theorem exec_unreleased {c : Instr} {s t : State} (hs : s.Unreleased) (hk : s.time.k < 90000)
    (h : exec c s = .next t) : t.Unreleased := by
  obtain ⟨hlink, hst⟩ := s.unreleased_iff.1 hs
  obtain ⟨hrx, -, -, -, -⟩ := id hlink
  refine t.unreleased_iff.2 ⟨exec_link_unreleased hlink hk h, ?_⟩
  rcases exec_effect h with rfl | rfl
  · exact hst
  · exact effect_stations_empty hrx hst c

/-! ## When a slot's command is due -/

section

variable {s : State} {slot : Nat} {e : PeerEntry}

theorem State.trialTimeoutDue_iff (he : s.peers.entry slot = some e) :
    s.trialTimeoutDue slot = true ↔
      e.state = .trial ∧ e.lastK + 4 * (s.cfg.mSeconds * 20000000) ≤ s.time.k := by
  unfold State.trialTimeoutDue
  rw [he]
  exact decide_eq_true_iff

theorem State.silentTimeoutDue_iff (he : s.peers.entry slot = some e) :
    s.silentTimeoutDue slot = true ↔
      e.state = .silent ∧ e.lastK + 16 * (s.cfg.mSeconds * 20000000) ≤ s.time.k := by
  unfold State.silentTimeoutDue
  rw [he]
  exact decide_eq_true_iff

theorem State.trackedSilentDue_iff (he : s.peers.entry slot = some e) :
    s.trackedSilentDue slot = true ↔
      ∃ r, e.history.getLast? = some r ∧ e.state = .tracked ∧
        r.k + 4 * (s.cfg.mSeconds * 20000000) ≤ s.time.k := by
  unfold State.trackedSilentDue
  rw [he]
  dsimp only
  cases e.history.getLast? with
  | none => exact ⟨fun h => absurd h Bool.false_ne_true, fun ⟨_, hr, _⟩ => (nomatch hr)⟩
  | some r =>
    refine (decide_eq_true_iff (p := e.state = .tracked ∧
      r.k + 4 * (s.cfg.mSeconds * 20000000) ≤ s.time.k)).trans
        ⟨fun h => ⟨r, rfl, h⟩, fun ⟨_, hr, h⟩ => ?_⟩
    cases hr
    exact h

theorem State.recordExpiryDue_iff (he : s.peers.entry slot = some e) {r : ExchangeRecord}
    {rest : List ExchangeRecord} (hr : e.history = r :: rest) :
    s.recordExpiryDue slot = true ↔ r.k + 8 * (s.cfg.mSeconds * 20000000) ≤ s.time.k := by
  unfold State.recordExpiryDue
  rw [he]
  dsimp only
  rw [hr]
  exact decide_eq_true_iff

theorem State.barringEndDue_iff (he : s.peers.entry slot = some e) {b : Nat}
    (hb : e.barEnd = some b) :
    s.barringEndDue slot = true ↔ e.state = .barred ∧ b ≤ s.time.k := by
  unfold State.barringEndDue
  rw [he]
  dsimp only
  rw [hb]
  exact decide_eq_true_iff

end

/-- What a slot's command can answer (R66). -/
theorem slotCommand_cases {slot : Nat} {due : Bool} {n s t : State}
    (h : slotCommand slot due n s = .next t) : t = s ∨ due = true ∧ t = n := by
  unfold slotCommand at h
  split at h
  · cases due with
    | true => exact .inr ⟨rfl, (Host.Outcome.next.inj h).symm⟩
    | false => exact .inl (Host.Outcome.next.inj h).symm
  · cases h

theorem slotCommand_due {slot : Nat} {due : Bool} (hslot : slot < 24) (h : due = true) (n s : State) :
    slotCommand slot due n s = .next n := by
  rw [slotCommand, h]
  exact if_pos hslot

theorem slotCommand_notDue {slot : Nat} {due : Bool} (hslot : slot < 24) (h : ¬ due = true)
    (n s : State) : slotCommand slot due n s = .next s := by
  rw [Bool.not_eq_true] at h
  rw [slotCommand, h]
  exact if_pos hslot

/-! ## Every command -/

/-- The own number comes from the straps, or from a reset (R187). -/
theorem effect_own (c : Instr) (s : State) :
    (effect c s).own = s.own ∨ c = .powerOnReset ∨ c = .resetPinReset ∨ c = .strapSampling := by
  rcases effect_startup c s with he | ⟨pins, rfl⟩ | rfl | rfl | rfl | rfl | rfl | rfl
  · left; unfold State.own; rw [he]
  · left
    show ((s.startup.sampleBus _ _).station).toNat = _
    unfold Startup.sampleBus; split <;> rfl
  · exact .inr (.inl rfl)
  · exact .inr (.inr (.inl rfl))
  · exact .inr (.inr (.inr rfl))
  · exact .inl rfl
  · left
    show s.startup.settle.station.toNat = _
    unfold Startup.settle; split <;> rfl
  · left
    exact (congrArg State.own (startPort_touches (releaseBlocks s)) :)

/-- A reset leaves an empty table and an unreleased link (R61, R62). -/
theorem reset_peersLegal {c : Instr} (hc : c = .powerOnReset ∨ c = .resetPinReset) (s : State) :
    (effect c s).PeersLegal := by
  rcases hc with rfl | rfl
  · exact State.reset_peersLegal
  · exact State.reset_peersLegal

/-- The straps are latched on the tick of K = 1 (R187). -/
theorem exec_strapSampling_cases {s t : State} (h : exec .strapSampling s = .next t) :
    t = s ∨ s.time.k = 1 ∧ t.peers = s.peers := by
  have h := Host.Outcome.next.inj h
  split at h
  · rename_i pins _
    split at h
    · rename_i hdue
      obtain ⟨hk, -⟩ := hdue
      rw [← h]
      exact .inr ⟨hk, (congrArg State.peers (latchStraps_touches pins s) :)⟩
    · exact .inl h.symm
  · exact .inl h.symm

/-- TRACKED_SILENT acts on a TRACKED entry alone (R68). -/
theorem exec_trackedSilent_cases {slot : Nat} {s t : State}
    (h : exec (.trackedSilent slot) s = .next t) :
    t = s ∨ (∀ e, s.peers.entry slot = some e → e.state = .tracked) ∧
      t = s.modifyEntry slot fun e => { e with state := .silent } := by
  rcases slotCommand_cases h with rfl | ⟨hdue, rfl⟩
  · exact .inl rfl
  · refine .inr ⟨fun e he => ?_, rfl⟩
    obtain ⟨_, -, htracked, -⟩ := (State.trackedSilentDue_iff he).1 hdue
    exact htracked

/-- Every command but a strap sampling and a reset keeps the table legal for the own number. -/
theorem effect_peers_legal {s : State} (h : s.peers.Legal s.own) (c : Instr)
    (hp : c ≠ .powerOnReset) (hr : c ≠ .resetPinReset) (hs : ∀ slot, c ≠ .trackedSilent slot) :
    (effect c s).peers.Legal s.own := by
  rcases effect_peers c s with
    he | rfl | rfl | rfl | ⟨slot, rfl⟩ | ⟨slot, rfl⟩ | ⟨slot, rfl⟩ | ⟨slot, rfl⟩ | ⟨slot, rfl⟩ | rfl
  · rw [he]; exact h
  · exact absurd rfl hp
  · exact absurd rfl hr
  · exact linkByteReceived_peers_legal h
  · exact h.putNone slot
  · exact absurd rfl (hs slot)
  · exact h.putNone slot
  · exact h.putMap slot (fun _ => rfl) fun _ _ he => he.expire
  · exact h.putMap slot (fun _ => rfl) fun _ _ he => he.unbarred
  · exact servoUpdate_peers_legal h

theorem exec_peers_legal {c : Instr} {s t : State} (hs : s.PeersLegal) (hp : c ≠ .powerOnReset)
    (hr : c ≠ .resetPinReset) (h : exec c s = .next t) : t.peers.Legal t.own := by
  obtain ⟨hl, hrel⟩ := s.peersLegal_iff.1 hs
  by_cases hstrap : c = .strapSampling
  · subst hstrap
    rcases exec_strapSampling_cases h with rfl | ⟨hk, hpeers⟩
    · exact hl
    · obtain ⟨-, hempty⟩ := s.unreleased_iff.1 (hrel (by rw [State.k, hk]; decide))
      rw [hpeers]
      exact .ofEmpty hl.slots24 hempty t.own
  by_cases hsilent : ∃ slot, c = .trackedSilent slot
  · obtain ⟨slot, rfl⟩ := hsilent
    rcases exec_trackedSilent_cases h with rfl | ⟨htracked, rfl⟩
    · exact hl
    · exact hl.putMap slot (fun _ => rfl) fun e he hel => hel.silent (htracked e he)
  rcases exec_effect h with rfl | rfl
  · exact hl
  · have hown : (effect c s).own = s.own := by
      rcases effect_own c s with he | he | he | he
      · exact he
      · exact absurd he hp
      · exact absurd he hr
      · exact absurd he hstrap
    rw [hown]
    exact effect_peers_legal hl c hp hr fun slot hslot => hsilent ⟨slot, hslot⟩

/-- K does not fall but at a reset (R1, R6). -/
theorem exec_k_early {c : Instr} {s t : State} (hp : c ≠ .powerOnReset) (hr : c ≠ .resetPinReset)
    (h : exec c s = .next t) (hk : t.time.k < 90000) : s.time.k < 90000 := by
  by_cases ht : ∃ pins, c = .tick pins
  · obtain ⟨pins, rfl⟩ := ht
    have hk' : t.time.k = min (2 ^ 64 - 1) (s.time.k + 1) := by
      rw [← Host.Outcome.next.inj h]; exact s.time.tick_k
    omega
  · rwa [← exec_k (fun pins hpins => ht ⟨pins, hpins⟩) hp hr h]

/-- Every command keeps the Peer Table legal and the link unreleased before K = 90,000. -/
theorem exec_peersLegal {c : Instr} {s t : State} (hs : s.PeersLegal) (h : exec c s = .next t) :
    t.PeersLegal := by
  by_cases hc : c = .powerOnReset ∨ c = .resetPinReset
  · rcases exec_effect h with rfl | rfl
    · exact hs
    · exact reset_peersLegal hc s
  · obtain ⟨hp, hr⟩ := not_or.1 hc
    obtain ⟨-, hrel⟩ := s.peersLegal_iff.1 hs
    refine t.peersLegal_iff.2 ⟨exec_peers_legal hs hp hr h, fun hk => ?_⟩
    have hk' := exec_k_early hp hr h hk
    exact exec_unreleased (hrel hk') hk' h

/-- Settles O43: a step runs the front command, which keeps the table legal. -/
theorem peerTableKeptLegal : Obligations.PeerTableKeptLegal := by
  intro s t hs h
  unfold step at h
  split at h
  · cases h; exact hs
  · rename_i rest _
    exact exec_peersLegal (s := s.withQueue rest) hs h

end Sys2Proof.Machine

namespace Sys2Proof.Machine

/-! # The Peer Table: what its operations do -/

/-! ## The slot of a sender -/

/-- A known sender's entry alone is rewritten (R63). -/
theorem PeerTable.useMark_known {p : PeerTable} {m : MarkUse} (hone : p.stations.Nodup) {i : Nat}
    {e : PeerEntry} (hi : p.slots[i]? = some (some e)) (hs : e.station = m.station) :
    p.useMark m = some (p.put i (some (e.use m))) := by
  have hknown : m.station ∈ p.stations := (mem_stations p _).2 ⟨e, List.mem_of_getElem? hi, hs⟩
  unfold PeerTable.useMark
  rw [if_pos ((any_holdsStation p m.station).2 hknown), ← hs, modify_eq_set hone hi]
  rfl

/-- An unknown sender takes the slot that the table chooses, where it chooses one (R64, R65). -/
theorem PeerTable.useMark_new {p : PeerTable} {m : MarkUse} (hnew : m.station ∉ p.stations) :
    p.useMark m = p.slotToTake.map fun i => p.put i (some (PeerEntry.admitted m)) :=
  if_neg (mt (any_holdsStation p m.station).1 hnew)

/-- The lowest EMPTY slot comes first (R64). -/
theorem PeerTable.slotToTake_empty {p : PeerTable} {i : Nat} (hi : p.slots[i]? = some none)
    (hlow : ∀ j : Nat, j < i → p.slots[j]? ≠ some none) : p.slotToTake = some i := by
  obtain ⟨hlt, hget⟩ := List.getElem?_eq_some_iff.1 hi
  have hfind : p.slots.findIdx? Option.isNone = some i := by
    refine List.findIdx?_eq_some_iff_getElem.2 ⟨hlt, by rw [hget]; rfl, fun j hj hnone => ?_⟩
    refine hlow j hj ?_
    rw [List.getElem?_eq_getElem (hj.trans hlt), Option.isNone_iff_eq_none.1 hnone]
  unfold PeerTable.slotToTake
  rw [hfind]

/-- Without an EMPTY slot, SILENT entries come before TRIAL ones (R64). -/
theorem PeerTable.slotToTake_full {p : PeerTable} (hfull : ∀ i : Nat, p.slots[i]? ≠ some none) :
    p.slotToTake = (leastHeard .silent p.slots 0 none).or (leastHeard .trial p.slots 0 none) := by
  have hfind : p.slots.findIdx? Option.isNone = none := by
    refine List.findIdx?_eq_none_iff.2 fun slot hslot => ?_
    obtain ⟨i, hi⟩ := List.mem_iff_getElem?.1 hslot
    cases slot with
    | none => exact absurd hi (hfull i)
    | some e => rfl
  unfold PeerTable.slotToTake
  rw [hfind]
  cases leastHeard .silent p.slots 0 none <;> rfl

/-- The search finds the entry of the state that was heard least recently, the lower slot on a tie (R64). -/
theorem leastHeard_oldest {st : EntryState} {l : List (Option PeerEntry)} {i : Nat}
    (h : ∃ e, l[i]? = some (some e) ∧ e.state = st ∧
      ∀ (j : Nat) x, l[j]? = some (some x) → x.state = st →
        e.lastK < x.lastK ∨ e.lastK = x.lastK ∧ i ≤ j) : leastHeard st l 0 none = some i := by
  obtain ⟨e, hi, hst, hleast⟩ := h
  obtain ⟨-, hfound, -⟩ := leastHeard_best st l 0 none
  rw [hfound i e hi hst (fun _ hb => nomatch hb) hleast, Nat.zero_add]

theorem leastHeard_absent {st : EntryState} {l : List (Option PeerEntry)}
    (h : ∀ e, some e ∈ l → e.state ≠ st) : leastHeard st l 0 none = none := by
  obtain ⟨-, -, hnone⟩ := leastHeard_best st l 0 none
  exact hnone rfl fun _ e hj => h e (List.mem_of_getElem? hj)

/-- Settles O40: the sender is known, or it takes the slot that the table's order gives. -/
theorem peerAdmissionChoosesSlot : Obligations.PeerAdmissionChoosesSlot := by
  intro p m fresh oldest
  have taken : ∀ {i : Nat}, m.station ∉ p.stations → p.slotToTake = some i →
      p.useMark m = some { p with slots := p.slots.set i (some fresh) } := fun hnew hslot => by
    rw [PeerTable.useMark_new hnew, hslot]; rfl
  refine ⟨fun i e hone hi hs => PeerTable.useMark_known hone hi hs, fun hnew =>
    ⟨fun i hi hlow => taken hnew (PeerTable.slotToTake_empty hi hlow), fun hfull => ?full⟩⟩
  have hslot := PeerTable.slotToTake_full hfull
  refine ⟨fun i hold => ?silent, fun hnosilent => ⟨fun i hold => ?trial, fun hnotrial => ?none⟩⟩
  case silent =>
    exact taken hnew (by rw [hslot, leastHeard_oldest hold]; rfl)
  case trial =>
    exact taken hnew (by rw [hslot, leastHeard_absent hnosilent, leastHeard_oldest hold]; rfl)
  case none =>
    rw [PeerTable.useMark_new hnew, hslot, leastHeard_absent hnosilent, leastHeard_absent hnotrial]
    rfl

/-! ## Exchanges -/

/-- The interval on R in whole nanoseconds, its fraction discarded, less the hold (R73). -/
theorem exchangeDelay_eq {r4 r1 : TimeVal} (h : r1.units ≤ r4.units) (hold : Nat) :
    exchangeDelay r4 r1 hold = ((r4.units - r1.units) / 2 ^ 32 : Nat) - hold := by
  unfold exchangeDelay truncDiv
  rw [← Int.ofNat_sub h, Int.ofNat_tdiv]
  rfl

/-- The time differences in seconds and nanoseconds and half the delay, held at ±2^62 ns (R74). -/
theorem exchangeOffset_eq (t3 : Stamp) (t4 : TimeVal) {d : Int} (hd : 0 ≤ d) :
    exchangeOffset t3 t4 d = max (-(2 ^ 62)) (min (2 ^ 62)
      (((t3.secs : Int) - t4.secs.val) * 10 ^ 9 + ((t3.ns : Int) - t4.ns.val) + d / 2)) := by
  have hns : (t3.nsCount : Int) - t4.nsCount =
      ((t3.secs : Int) - t4.secs.val) * 10 ^ 9 + ((t3.ns : Int) - t4.ns.val) := by
    unfold Stamp.nsCount TimeVal.nsCount Config.nsPerSecond
    push_cast
    ring
  unfold exchangeOffset truncDiv
  rw [hns, Int.tdiv_eq_ediv_of_nonneg hd]
  rfl

/-- The state after a record: a BARRED entry stays so, a TRACKED one too, another is TRACKED from its third
record (R75). -/
theorem stateAfterRecord_eq (n : Nat) (st : EntryState) :
    stateAfterRecord n st =
      if st = .barred then .barred else if st = .tracked ∨ 3 ≤ n then .tracked else .trial := by
  cases st with
  | trial => simp [stateAfterRecord]
  | tracked => simp [stateAfterRecord]
  | silent => simp [stateAfterRecord]
  | barred => simp [stateAfterRecord]

section Exchange

variable (p : PeerTable) (station : Nat) (t3 : Stamp) {c : Capture} {limit hold : Nat} {r1 : TimeVal}

/-- A delay below 0 is refused and counted (R73). -/
theorem PeerTable.exchange_negative (h : exchangeDelay c.r r1 hold < 0) :
    p.exchange station t3 c limit (some r1) hold =
      { p with negativeDelay := bump p.negativeDelay } :=
  if_pos h

/-- A delay above the limit is refused and counted (R73). -/
theorem PeerTable.exchange_over (h : (limit : Int) < exchangeDelay c.r r1 hold) :
    p.exchange station t3 c limit (some r1) hold = { p with delayOver := bump p.delayOver } :=
  (if_neg (by omega)).trans (if_pos h)

/-- Any other delay gives the station's entry a record (R74, R75). -/
theorem PeerTable.exchange_recorded (h0 : 0 ≤ exchangeDelay c.r r1 hold)
    (hlimit : exchangeDelay c.r r1 hold ≤ limit) :
    p.exchange station t3 c limit (some r1) hold =
      p.modify station (PeerEntry.record
        { theta := exchangeOffset t3 c.t (exchangeDelay c.r r1 hold)
          d := (exchangeDelay c.r r1 hold).toNat, q := c.q, k := c.k }) :=
  (if_neg (by omega)).trans (if_neg (by omega))

end Exchange

/-- Settles O41, by where the delay lies. -/
theorem exchangeJudgedAndRecorded : Obligations.ExchangeJudgedAndRecorded := by
  intro p station t3 c limit hold
  refine ⟨rfl, ?_⟩
  intro r1 hr d
  have hd : exchangeDelay c.r r1 hold = d := exchangeDelay_eq hr hold
  refine ⟨fun hneg => p.exchange_negative station t3 (hd ▸ hneg),
    fun hover => p.exchange_over station t3 (hd ▸ hover), fun h0 hlimit i e hone hi hs => ?_⟩
  refine ⟨_, rfl, ?_⟩
  rw [p.exchange_recorded station t3 (hd ▸ h0) (hd ▸ hlimit), hd, exchangeOffset_eq t3 c.t h0, ← hs,
    modify_eq_set hone hi, PeerEntry.record, stateAfterRecord_eq]
  rfl

/-! ## The offset now -/

/-- The best record: none before it has a smaller delay, none after it has as small a one (R78). -/
theorem bestRecord_split (r : ExchangeRecord) (rest : List ExchangeRecord) :
    ∃ before b after, bestRecord (r :: rest) = some b ∧ r :: rest = before ++ b :: after ∧
      (∀ x ∈ before, b.d ≤ x.d) ∧ ∀ x ∈ after, b.d < x.d := by
  induction rest using List.reverseRecOn with
  | nil => exact ⟨[], r, [], rfl, rfl, fun x hx => (nomatch hx), fun x hx => (nomatch hx)⟩
  | append_singleton xs x ih =>
    obtain ⟨before, b, after, hbest, hsplit, hbefore, hafter⟩ := ih
    have hstep : bestRecord (r :: (xs ++ [x])) = some (if x.d ≤ b.d then x else b) := by
      rw [bestRecord, Option.some.injEq] at hbest
      rw [bestRecord, List.foldl_concat, hbest]
    have hsnoc : r :: (xs ++ [x]) = before ++ b :: after ++ [x] := by rw [← hsplit]; rfl
    by_cases hx : x.d ≤ b.d
    · rw [if_pos hx] at hstep
      refine ⟨before ++ b :: after, x, [], hstep, hsnoc, fun y hy => ?_, fun y hy => (nomatch hy)⟩
      rcases List.mem_append.1 hy with hy | hy
      · exact hx.trans (hbefore y hy)
      · rcases List.mem_cons.1 hy with rfl | hy
        · exact hx
        · exact hx.trans (hafter y hy).le
    · rw [if_neg hx] at hstep
      refine ⟨before, b, after ++ [x], hstep, by rw [hsnoc, List.append_assoc]; rfl, hbefore,
        fun y hy => ?_⟩
      rcases List.mem_append.1 hy with hy | hy
      · exact hafter y hy
      · rw [List.mem_singleton.1 hy]
        exact Nat.lt_of_not_le hx

/-- The running greatest delay is that of a record, and no record's is greater (R80). -/
theorem greatestDelay_spec {l : List ExchangeRecord} (h : l ≠ []) :
    ∃ most ∈ l, l.foldl (fun m r => max m r.d) 0 = most.d ∧ ∀ x ∈ l, x.d ≤ most.d := by
  induction l using List.reverseRecOn with
  | nil => exact absurd rfl h
  | append_singleton xs x ih =>
    rw [List.foldl_concat]
    by_cases hxs : xs = []
    · subst hxs
      exact ⟨x, List.mem_singleton_self x, Nat.zero_max x.d,
        fun y hy => (List.mem_singleton.1 hy ▸ le_refl _)⟩
    obtain ⟨most, hmem, hfold, hall⟩ := ih hxs
    rw [hfold]
    rcases Nat.le_total most.d x.d with hle | hle
    · refine ⟨x, List.mem_append_right _ (List.mem_singleton_self x), Nat.max_eq_right hle,
        fun y hy => ?_⟩
      rcases List.mem_append.1 hy with hy | hy
      · exact (hall y hy).trans hle
      · rw [List.mem_singleton.1 hy]
    · refine ⟨most, List.mem_append_left _ hmem, Nat.max_eq_left hle, fun y hy => ?_⟩
      rcases List.mem_append.1 hy with hy | hy
      · exact hall y hy
      · rw [List.mem_singleton.1 hy]
        exact hle

/-- What an entry derives from its best record and its greatest delay (R79, R80). -/
theorem PeerEntry.derive_eq {e : PeerEntry} {b most : ExchangeRecord}
    (hbest : bestRecord e.history = some b)
    (hmost : e.history.foldl (fun m r => max m r.d) 0 = most.d) (q : QWord) (k : Nat) :
    e.derive q k = some
      { theta := max (-(2 ^ 62)) (min (2 ^ 62) (b.theta - (qDiff q b.q).tdiv (2 ^ 32)))
        leastD := b.d
        spread := most.d - b.d
        u := min 268435440
          (e.advU + (most.d - b.d + 1) / 2 + 100 + (k - b.k) / 20000000) } := by
  have hspread : delaySpread e.history = most.d - b.d := by
    unfold delaySpread; rw [hmost, hbest]
  unfold PeerEntry.derive
  rw [hbest, hspread]
  rfl

/-- Settles O42, by the best record of a history that holds one. -/
theorem offsetNowFromLeastDelay : Obligations.OffsetNowFromLeastDelay := by
  refine fun e q k => ⟨fun hempty => ?_, fun hne => ?_⟩
  · unfold PeerEntry.derive
    rw [hempty]
    rfl
  · obtain ⟨most, hmem, hfold, hall⟩ := greatestDelay_spec hne
    obtain ⟨r, rest, hhist⟩ := List.exists_cons_of_ne_nil hne
    obtain ⟨before, b, after, hbest, hsplit, hbefore, hafter⟩ := bestRecord_split r rest
    rw [← hhist] at hbest hsplit
    exact ⟨before, b, after, most, hsplit, hbefore, hafter, hmem, hall,
      PeerEntry.derive_eq hbest hfold q k⟩

end Sys2Proof.Machine

namespace Sys2Proof.Machine

/-! ## The timers of an entry -/

theorem State.modifyEntry_eq {s : State} {slot : Nat} {e : PeerEntry}
    (he : s.peers.entry slot = some e) (f : PeerEntry → PeerEntry) :
    s.modifyEntry slot f = { s with peers := s.peers.put slot (some (f e)) } := by
  unfold State.modifyEntry; rw [he]; rfl

/-- Settles O44, timer by timer: due, and not due. -/
theorem peerTimersMoveEntries : Obligations.PeerTimersMoveEntries := by
  intro s slot e n hslot hi hn put
  subst hn
  have he : s.peers.entry slot = some e := entry_of_getElem? hi
  refine ⟨fun hst hk => ?trialTimeout, fun hst hk => ?silentTimeout, fun r hst hr hk => ?trackedSilent,
    fun r rest hr hk => ?recordExpiry, fun b hst hb hk => ?barringEnd, fun h => ?trialStays,
    fun h => ?silentStays, fun b hb hk => ?barredStays⟩
  case trialTimeout =>
    exact slotCommand_due hslot ((State.trialTimeoutDue_iff he).2 ⟨hst, hk⟩) _ s
  case silentTimeout =>
    exact slotCommand_due hslot ((State.silentTimeoutDue_iff he).2 ⟨hst, hk⟩) _ s
  case trackedSilent =>
    have hdue := (State.trackedSilentDue_iff he).2 ⟨r, hr, hst, hk⟩
    exact (slotCommand_due hslot hdue _ s).trans (congrArg _ (State.modifyEntry_eq he _))
  case recordExpiry =>
    have hdue := (State.recordExpiryDue_iff he hr).2 hk
    refine (slotCommand_due hslot hdue _ s).trans (congrArg _ ?_)
    rw [State.modifyEntry_eq he, hr]
    rfl
  case barringEnd =>
    have hdue := (State.barringEndDue_iff he hb).2 ⟨hst, hk⟩
    exact (slotCommand_due hslot hdue _ s).trans (congrArg _ (State.modifyEntry_eq he _))
  case trialStays =>
    refine slotCommand_notDue hslot (fun hdue => ?_) _ s
    obtain ⟨hst, hk⟩ := (State.trialTimeoutDue_iff he).1 hdue
    exact h.elim (fun hne => hne hst) (Nat.not_lt.2 hk)
  case silentStays =>
    refine slotCommand_notDue hslot (fun hdue => ?_) _ s
    obtain ⟨hst, hk⟩ := (State.silentTimeoutDue_iff he).1 hdue
    exact h.elim (fun hne => hne hst) (Nat.not_lt.2 hk)
  case barredStays =>
    refine slotCommand_notDue hslot (fun hdue => ?_) _ s
    obtain ⟨-, hend⟩ := (State.barringEndDue_iff he hb).1 hdue
    exact Nat.not_lt.2 hend hk

/-! # The Source Combiner: its sources and its reports -/

/-! ## The sources -/

/-- A peer's entry as a source (R81, R87). -/
theorem peerSource_eq_some_iff {q : QWord} {k : Nat} {e : PeerEntry} {x : Source} :
    peerSource q k (some e) = some x ↔
      ∃ o, e.state = .tracked ∧ e.advClock ≠ .unset ∧ e.advU ≤ 268435390 ∧
        e.derive q k = some o ∧ x = ⟨.peer e.station, o.theta, o.u, e.advU, e.advDepth⟩ := by
  unfold peerSource
  dsimp only
  by_cases h : e.state = .tracked ∧ e.advClock ≠ .unset ∧ e.advU ≤ Config.uMax - 50
  · obtain ⟨hst, hclock, hu⟩ := id h
    rw [if_pos h, Option.map_eq_some_iff]
    constructor
    · rintro ⟨o, ho, rfl⟩
      exact ⟨o, hst, hclock, hu, ho, rfl⟩
    · rintro ⟨o, -, -, -, ho, rfl⟩
      exact ⟨o, ho, rfl⟩
  · rw [if_neg h]
    refine ⟨fun hx => (nomatch hx), ?_⟩
    rintro ⟨_, hst, hclock, hu, -, -⟩
    exact absurd ⟨hst, hclock, hu⟩ h

/-- The anchor as a source (R88). -/
theorem anchorSource_eq_some_iff {s : State} {x : Source} :
    anchorSource s = some x ↔
      ∃ a, s.startup.anchorEn = true ∧ s.anchor.consistency = 3 ∧ s.comb.anchorBarred = none ∧
        s.anchor.sample = some a ∧
        x = ⟨.anchor,
          max (-(2 ^ 62)) (min (2 ^ 62) (a.theta - (qDiff s.nowQ a.q).tdiv (2 ^ 32))),
          a.quality * 16 + 50, a.quality * 16, 0⟩ := by
  have hcond : (s.startup.anchorEn && s.anchor.valid && s.comb.anchorBarred.isNone) = true ↔
      s.startup.anchorEn = true ∧ s.anchor.consistency = 3 ∧ s.comb.anchorBarred = none := by
    unfold AnchorInput.valid
    rw [Bool.and_eq_true, Bool.and_eq_true, decide_eq_true_iff, Option.isNone_iff_eq_none, and_assoc]
  unfold anchorSource
  by_cases h : s.startup.anchorEn = true ∧ s.anchor.consistency = 3 ∧ s.comb.anchorBarred = none
  · obtain ⟨hen, hvalid, hbar⟩ := id h
    rw [if_pos (hcond.2 h), Option.map_eq_some_iff]
    constructor
    · rintro ⟨a, ha, rfl⟩
      exact ⟨a, hen, hvalid, hbar, ha, rfl⟩
    · rintro ⟨a, -, -, -, ha, rfl⟩
      exact ⟨a, ha, rfl⟩
  · rw [if_neg (mt hcond.1 h)]
    refine ⟨fun hx => (nomatch hx), ?_⟩
    rintro ⟨_, hen, hvalid, hbar, -, -⟩
    exact absurd ⟨hen, hvalid, hbar⟩ h

/-- The origin as a source (R89). -/
theorem originSource_eq_some_iff {s : State} {x : Source} :
    originSource s = some x ↔
      s.comb.originFlag = true ∧ s.comb.originBarred = none ∧
        x = ⟨.origin, 0, s.cfg.originFloor, s.cfg.originFloor - 50, 15⟩ := by
  have hcond : (s.comb.originFlag && s.comb.originBarred.isNone) = true ↔
      s.comb.originFlag = true ∧ s.comb.originBarred = none := by
    rw [Bool.and_eq_true, Option.isNone_iff_eq_none]
  unfold originSource
  by_cases h : s.comb.originFlag = true ∧ s.comb.originBarred = none
  · obtain ⟨hflag, hbar⟩ := id h
    rw [if_pos (hcond.2 h), Option.some.injEq]
    exact ⟨fun hx => ⟨hflag, hbar, hx.symm⟩, fun ⟨_, _, hx⟩ => hx.symm⟩
  · rw [if_neg (mt hcond.1 h)]
    exact ⟨fun hx => (nomatch hx), fun ⟨hflag, hbar, _⟩ => absurd ⟨hflag, hbar⟩ h⟩

/-- A source present is a peer's, the anchor's or the origin's. -/
theorem mem_sources_iff {s : State} {x : Source} :
    x ∈ sources s ↔
      (∃ e, some e ∈ s.peers.slots ∧ peerSource s.nowQ s.time.k (some e) = some x) ∨
      anchorSource s = some x ∨ originSource s = some x := by
  unfold sources
  rw [List.mem_append, List.mem_append, List.mem_filterMap, Option.mem_toList, Option.mem_toList,
    or_assoc]
  refine or_congr ⟨?_, fun ⟨e, hmem, hx⟩ => ⟨some e, hmem, hx⟩⟩ Iff.rfl
  rintro ⟨slot, hmem, hx⟩
  cases slot with
  | none => cases hx
  | some e => exact ⟨e, hmem, hx⟩

/-- The candidates lie within one of the least depth (R91). -/
theorem mem_candidates_iff {xs : List Source} {x : Source} :
    x ∈ candidates xs ↔ x ∈ xs ∧ x.depth ≤ leastDepth xs + 1 := by
  unfold candidates
  rw [List.mem_filter, decide_eq_true_iff]

/-- A run without a source has the result NONE (R85). -/
theorem combinerRun_none {s : State} (h : sources s = []) :
    combinerRun s = ({ s with comb := originRule s none }, none) := by
  unfold combinerRun; rw [h]; rfl

/-- A run with sources selects, reports and combines (R85). -/
theorem combinerRun_some {s : State} (h : sources s ≠ []) :
    combinerRun s =
      ({ report (candidates (sources s)) s with
        comb := originRule (report (candidates (sources s)) s) (some (leastDepth (sources s))) },
        some (combine (survivors (candidates (sources s))))) :=
  if_neg (mt List.isEmpty_iff.1 h)

/-- Settles O45: the sources kind by kind, and the two outcomes of a run. -/
theorem runGathersSources : Obligations.RunGathersSources := by
  refine ⟨fun s x => ?sources, fun s h => combinerRun_none h, fun s h => ?run⟩
  case sources =>
    rw [mem_sources_iff, anchorSource_eq_some_iff, originSource_eq_some_iff]
    refine or_congr (exists_congr fun e => ?_) Iff.rfl
    rw [peerSource_eq_some_iff]
    exact exists_and_left.symm
  case run =>
    obtain ⟨x, hx, hleast⟩ := leastOf_mem Source.depth h
    exact ⟨_, leastDepth (sources s), combinerRun_some h, rfl, report_touches _ s,
      ⟨x, hx, hleast.symm⟩, fun y hy => leastOf_le Source.depth hy, fun y => mem_candidates_iff⟩

/-! ## Reports -/

theorem Source.survives_iff (m : Int) (x : Source) :
    x.survives m = true ↔ (x.theta - m).natAbs ≤ 2 * x.u + 200 := by
  unfold Source.survives; exact decide_eq_true_iff

/-- The report on one slot: it acts on the peer's TRACKED entry alone (R70). -/
theorem modifySlot_report (station k bar : Nat) (kept : Bool) (slot : Option PeerEntry) :
    modifySlot station (PeerEntry.report k bar kept) slot = slot.map fun e =>
      if e.station = station ∧ e.state = .tracked then
        if kept then { e with rejects := 0 }
        else if e.rejects < 3 then { e with rejects := e.rejects + 1 }
        else { e with rejects := 4, state := .barred, barEnd := some (k + bar) }
      else e := by
  cases slot with
  | none => rfl
  | some e =>
    rw [modifySlot, Option.map_some]
    by_cases hs : e.station = station
    · by_cases ht : e.state = .tracked
      · rw [if_pos hs, if_pos ⟨hs, ht⟩, PeerEntry.report, if_neg (not_not_intro ht)]
        simp only [show e.rejects + 1 < 4 ↔ e.rejects < 3 by omega]
      · rw [if_pos hs, if_neg fun ⟨_, h⟩ => ht h, PeerEntry.report, if_pos ht]
    · rw [if_neg hs, if_neg fun ⟨h, _⟩ => hs h]

/-- The end of a local source's barring (R90). -/
theorem exec_localSourceBarringEnd_due {source : LocalSource} {s : State}
    (h : s.localBarringEndDue source = true) :
    exec (.localSourceBarringEnd source) s = .next { s with comb := s.comb.unbar source } :=
  congrArg Host.Outcome.next (if_pos h)

/-- The barring end of a local source (R86). -/
def Combiner.barEnd (c : Combiner) : LocalSource → Option Nat
  | .anchor => c.anchorBarred
  | .origin => c.originBarred

theorem State.localBarringEndDue_of {source : LocalSource} {s : State} {b : Nat}
    (hb : s.comb.barEnd source = some b) (hk : b ≤ s.time.k) :
    s.localBarringEndDue source = true := by
  cases source with
  | anchor =>
    have hb : s.comb.anchorBarred = some b := hb
    simp only [State.localBarringEndDue, hb]
    exact decide_eq_true_iff.2 hk
  | origin =>
    have hb : s.comb.originBarred = some b := hb
    simp only [State.localBarringEndDue, hb]
    exact decide_eq_true_iff.2 hk

/-- Settles O50: the two barring ends, and a report by the kind of its source. -/
theorem reportsBarSources : Obligations.ReportsBarSources := by
  refine ⟨fun s b hb hk => ?_, fun s b hb hk => ?_, fun m s x => ?_⟩
  · exact exec_localSourceBarringEnd_due (State.localBarringEndDue_of (source := .anchor) hb hk)
  · exact exec_localSourceBarringEnd_due (State.localBarringEndDue_of (source := .origin) hb hk)
  · refine ⟨x.survives m, x.survives_iff m, ?_⟩
    intro barEnd
    refine ⟨fun h => ?anchor, fun h => ?origin, fun station h => ?peer⟩
    case anchor => simp only [reportOne, h, localReport_eq]; rfl
    case origin => simp only [reportOne, h, localReport_eq]; rfl
    case peer =>
      simp only [reportOne, h, PeerTable.modify, funext (modifySlot_report station _ _ _)]
      rfl

end Sys2Proof.Machine

namespace Sys2Proof.Machine

/-! # The Source Combiner: its median, its combined result and its origin rule -/

/-! ## The median and the survivors -/

/-- The median is the offset of the candidate that first brings twice the cumulative weight to the
total (R93). -/
theorem weightedMedian_spec {xs : List Source} (h : xs ≠ []) :
    ∃ before x after, orderSources xs = before ++ x :: after ∧ weightedMedian xs = x.theta ∧
      2 * totalWeight before < totalWeight xs ∧
      totalWeight xs ≤ 2 * (totalWeight before + x.weight) := by
  have hreach : totalWeight xs ≤ 2 * (0 + totalWeight (orderSources xs)) := by
    rw [totalWeight_order]; omega
  have hbelow : 2 * 0 < totalWeight xs := totalWeight_pos h
  have hstop := medianFrom_spec _ 0 _ hreach hbelow
  simp only [Nat.zero_add] at hstop
  exact hstop

theorem mem_survivors_iff {xs : List Source} {x : Source} :
    x ∈ survivors xs ↔ x ∈ xs ∧ (x.theta - weightedMedian xs).natAbs ≤ 2 * x.u + 200 := by
  unfold survivors
  rw [List.mem_filter, Source.survives_iff]

/-- Settles O46: the order, the candidate the median search stops at, and its distance 0 from
itself. -/
theorem medianSelectsSurvivors : Obligations.MedianSelectsSurvivors := by
  intro xs hne
  refine ⟨orderSources_perm xs,
    (orderSources_sorted xs).imp fun {a b} hab => (a.before_iff b).1 hab, ?_⟩
  obtain ⟨before, x, after, hsplit, hmedian, hlow, hhigh⟩ := weightedMedian_spec hne
  have hx : x ∈ xs :=
    (orderSources_perm xs).mem_iff.1 (hsplit ▸ List.mem_append_right before List.mem_cons_self)
  refine ⟨before, x, after, hsplit, hmedian, hlow, hhigh, mem_survivors_iff.2 ⟨hx, ?_⟩, fun y => ?_⟩
  · rw [hmedian, Int.sub_self]; exact Nat.zero_le _
  · rw [mem_survivors_iff, hmedian]

/-! ## Weights and the combined uncertainty -/

theorem Source.weight_le {x : Source} (h : 50 ≤ x.u) : x.weight ≤ 109951162 := by
  have hsq : 50 * 50 ≤ x.u * x.u := Nat.mul_le_mul h h
  have hdiv : Config.weightOne / (x.u * x.u) ≤ Config.weightOne / (50 * 50) :=
    Nat.div_le_div_left hsq (by decide)
  exact Nat.max_le.2 ⟨by decide, hdiv⟩

/-- Past 2^19 ns the square of `u` exceeds 2^38, and the floor's least weight of 1 applies (R92). -/
theorem Source.weight_eq_one {x : Source} (h : 524288 < x.u) : x.weight = 1 := by
  have hsq : Config.weightOne < x.u * x.u :=
    lt_of_lt_of_le (b := 524289 * 524289) (by decide) (Nat.mul_le_mul h h)
  unfold Source.weight
  rw [Nat.div_eq_of_lt hsq]; rfl

/-- Below 10,000 ns a weight is the plain floor (R92). -/
theorem Source.weight_eq_div {x : Source} (hpos : 0 < x.u) (h : x.u < 10000) :
    x.weight = Config.weightOne / (x.u * x.u) ∧ 2748 ≤ x.weight := by
  have hsq : x.u * x.u ≤ 10000 * 10000 := Nat.mul_le_mul h.le h.le
  have hfloor : 2748 ≤ Config.weightOne / (x.u * x.u) :=
    le_trans (b := Config.weightOne / (10000 * 10000)) (by decide)
      (Nat.div_le_div_left hsq (Nat.mul_pos hpos hpos))
  have hweight : x.weight = Config.weightOne / (x.u * x.u) :=
    max_eq_right (le_trans (by decide) hfloor)
  exact ⟨hweight, hweight ▸ hfloor⟩

/-- A number whose square times the weight reaches 2^38 is no less than the combined uncertainty. -/
theorem combinedU_le {w y : Nat} (hw : 1 ≤ w) (h : Config.weightOne ≤ y * y * w) :
    combinedU w ≤ y :=
  Nat.not_lt.1 fun hy => Nat.not_lt.2 h ((combinedU_spec hw).2 y hy)

/-- A number below which no square times the weight reaches 2^38 is no more than the combined
uncertainty. -/
theorem le_combinedU {w y : Nat} (hw : 1 ≤ w)
    (h : ∀ z, z < y → z * z * w < Config.weightOne) : y ≤ combinedU w :=
  Nat.not_lt.1 fun hy => Nat.not_lt.2 (combinedU_spec hw).1 (h _ hy)

theorem combinedU_le_root {w : Nat} (hw : 1 ≤ w) : combinedU w ≤ 524288 :=
  combinedU_le hw (le_trans (b := 524288 * 524288) (by decide) (Nat.le_mul_of_pos_right _ hw))

/-- The floor in the weight never raises u² · w past 2^38, so no number below `u` reaches it. -/
theorem Source.le_combinedU_weight {x : Source} (hpos : 0 < x.u) (h : x.u < 10000) :
    x.u ≤ combinedU x.weight := by
  refine le_combinedU x.weight_pos fun z hz => ?_
  have hsq : z * z < x.u * x.u := Nat.mul_self_lt_mul_self hz
  calc z * z * x.weight < x.u * x.u * x.weight := Nat.mul_lt_mul_of_pos_right hsq x.weight_pos
    _ = x.u * x.u * (Config.weightOne / (x.u * x.u)) := by rw [(weight_eq_div hpos h).1]
    _ ≤ Config.weightOne := Nat.mul_div_le _ _

/-- The floor loses less than u² of 2^38, and 2 ns more than `u` regain it: (4u + 4) · w ≥ u²
where `w` is 2,748 or more. -/
theorem Source.combinedU_weight_le {x : Source} (hpos : 0 < x.u) (h : x.u < 10000) :
    combinedU x.weight ≤ x.u + 2 := by
  obtain ⟨hweight, hleast⟩ := weight_eq_div hpos h
  have hlost : Config.weightOne < x.u * x.u * (x.weight + 1) := by
    rw [hweight]
    exact Nat.lt_mul_div_succ _ (Nat.mul_pos hpos hpos)
  have hregain : x.u * x.u ≤ (4 * x.u + 4) * x.weight :=
    calc x.u * x.u ≤ x.u * (4 * 2748) := Nat.mul_le_mul_left _ (by omega)
      _ = 4 * x.u * 2748 := by ring
      _ ≤ (4 * x.u + 4) * x.weight := Nat.mul_le_mul (Nat.le_add_right _ _) hleast
  refine combinedU_le x.weight_pos ?_
  calc Config.weightOne ≤ x.u * x.u * x.weight + x.u * x.u := hlost.le
    _ ≤ x.u * x.u * x.weight + (4 * x.u + 4) * x.weight := Nat.add_le_add_left hregain _
    _ = (x.u + 2) * (x.u + 2) * x.weight := by ring

/-- Settles O47: the weight's bounds, the least root, and the root of a single weight. -/
theorem weightsAndCombinedUncertainty : Obligations.WeightsAndCombinedUncertainty := by
  refine ⟨fun x hu => ⟨rfl, x.weight_pos, x.weight_le hu, Source.weight_eq_one⟩, fun w hw => ?root,
    fun x hu hlt => ⟨Source.le_combinedU_weight (by omega) hlt,
      Source.combinedU_weight_le (by omega) hlt⟩⟩
  case root =>
    obtain ⟨hreach, hleast⟩ := combinedU_spec hw
    exact ⟨Nat.succ_pos _, combinedU_le_root hw, hreach, fun y _ hy => hleast y hy⟩

/-! ## The combined result -/

/-- A quotient rounded to the nearest keeps an integer lower bound of the exact quotient. -/
theorem le_roundDiv {n lo : Int} {d : Nat} (hd : 0 < d) (h : lo * d ≤ n) : lo ≤ roundDiv n d := by
  have hnear := roundDiv_near n hd
  by_contra hlt
  have hstep : (roundDiv n d + 1) * (d : Int) ≤ lo * d :=
    Int.mul_le_mul_of_nonneg_right (by omega) (Int.natCast_nonneg d)
  rw [Int.add_mul, Int.one_mul] at hstep
  omega

/-- A quotient rounded to the nearest keeps an integer upper bound of the exact quotient. -/
theorem roundDiv_le {n hi : Int} {d : Nat} (hd : 0 < d) (h : n ≤ hi * d) : roundDiv n d ≤ hi := by
  have hnear := roundDiv_near n hd
  by_contra hlt
  have hstep : (hi + 1) * (d : Int) ≤ roundDiv n d * d :=
    Int.mul_le_mul_of_nonneg_right (by omega) (Int.natCast_nonneg d)
  rw [Int.add_mul, Int.one_mul] at hstep
  omega

/-- The sum of the weighted offsets (R96). -/
def weightedSum (xs : List Source) : Int := (xs.map fun x => (x.weight : Int) * x.theta).sum

theorem combinedOffset_eq (xs : List Source) :
    combinedOffset xs = roundDiv (weightedSum xs) (totalWeight xs) := rfl

/-- The weighted sum lies between the total weight times the bounds of the offsets. -/
theorem weightedSum_bounds {lo hi : Int} {xs : List Source}
    (h : ∀ x ∈ xs, lo ≤ x.theta ∧ x.theta ≤ hi) :
    lo * totalWeight xs ≤ weightedSum xs ∧ weightedSum xs ≤ hi * totalWeight xs := by
  induction xs with
  | nil => simp [weightedSum, totalWeight]
  | cons x xs ih =>
    obtain ⟨hlo, hhi⟩ := h x List.mem_cons_self
    obtain ⟨ihlo, ihhi⟩ := ih fun y hy => h y (List.mem_cons_of_mem _ hy)
    have hsum : weightedSum (x :: xs) = x.theta * x.weight + weightedSum xs := by
      rw [Int.mul_comm]; rfl
    have htotal : (totalWeight (x :: xs) : Int) = x.weight + totalWeight xs := rfl
    have hwlo := Int.mul_le_mul_of_nonneg_right hlo (Int.natCast_nonneg x.weight)
    have hwhi := Int.mul_le_mul_of_nonneg_right hhi (Int.natCast_nonneg x.weight)
    rw [hsum, htotal, Int.mul_add, Int.mul_add]
    exact ⟨by omega, by omega⟩

/-- The combined offset lies between the bounds of the survivors' offsets (R96). -/
theorem combinedOffset_bounds {lo hi : Int} {xs : List Source} (hne : xs ≠ [])
    (h : ∀ x ∈ xs, lo ≤ x.theta ∧ x.theta ≤ hi) :
    lo ≤ combinedOffset xs ∧ combinedOffset xs ≤ hi := by
  obtain ⟨hlo, hhi⟩ := weightedSum_bounds h
  rw [combinedOffset_eq]
  exact ⟨le_roundDiv (totalWeight_pos hne) hlo, roundDiv_le (totalWeight_pos hne) hhi⟩

/-- The advertised uncertainty in terms of a survivor of least base (R98). -/
theorem advertisedU_spec {xs : List Source} (h : xs ≠ []) :
    ∃ y ∈ xs, (∀ x ∈ xs, y.base ≤ x.base) ∧
      advertisedU xs = min 268435440 (max (combinedU (totalWeight xs)) (y.base + 50)) := by
  obtain ⟨y, hy, hleast⟩ := leastOf_mem Source.base h
  refine ⟨y, hy, fun x hx => hleast ▸ leastOf_le Source.base hx, ?_⟩
  rw [← hleast]; rfl

theorem ownDepth_of_anchor {xs : List Source} (h : ∃ x ∈ xs, x.id = .anchor) : ownDepth xs = 0 := by
  unfold ownDepth
  rw [if_pos (by simpa using h)]

/-- Without the anchor the own depth follows the origin's share in the survivors (R99). -/
theorem ownDepth_of_no_anchor {xs : List Source} (h : ∀ x ∈ xs, x.id ≠ .anchor) :
    ownDepth xs = if ∀ x ∈ xs, x.id = .origin then 15 else min 15 (leastDepth xs + 1) := by
  unfold ownDepth
  rw [if_neg (by simpa using h)]
  simp only [List.all_eq_true, decide_eq_true_eq]

/-- Settles O48: the rounded mean and its bounds, the advertised uncertainty, and the depth by the
survivors' kinds. -/
theorem combinedResultFromSurvivors : Obligations.CombinedResultFromSurvivors := by
  intro xs hne total sum c
  have hpos : 0 < totalWeight xs := totalWeight_pos hne
  refine ⟨roundDiv_near sum hpos, roundDiv_half sum hpos,
    fun lo hi h => combinedOffset_bounds hne h, advertisedU_spec hne, ownDepth_of_anchor,
    fun horigin => ?origin, fun hanchor hother => ?other⟩
  case origin =>
    have hanchor : ∀ x ∈ xs, x.id ≠ .anchor := fun x hx => by rw [horigin x hx]; decide
    exact (ownDepth_of_no_anchor hanchor).trans (if_pos horigin)
  case other =>
    obtain ⟨z, hz, hzo⟩ := hother
    obtain ⟨y, hy, hleast⟩ := leastOf_mem Source.depth hne
    refine ⟨y, hy, fun x hx => hleast ▸ leastOf_le Source.depth hx, ?_⟩
    rw [← hleast]
    exact (ownDepth_of_no_anchor hanchor).trans (if_neg fun h => hzo (h z hz))

/-! ## The origin rule -/

/-- Every TRIAL or TRACKED entry advertises UNSET and has a number greater than the part's own
(R102). -/
theorem all_originTestSlot_iff {own : Nat} {slots : List (Option PeerEntry)} :
    slots.all (originTestSlot own) = true ↔
      ∀ e, some e ∈ slots → e.state = .trial ∨ e.state = .tracked →
        e.advClock = .unset ∧ own < e.station := by
  have hentry (e : PeerEntry) : originTestSlot own (some e) = true ↔
      (e.state = .trial ∨ e.state = .tracked → e.advClock = .unset ∧ own < e.station) := by
    unfold originTestSlot
    dsimp only
    by_cases hst : e.state = .trial ∨ e.state = .tracked
    · rw [if_pos hst, decide_eq_true_iff]
      exact ⟨fun h _ => h, fun h => h hst⟩
    · rw [if_neg hst]
      exact ⟨fun _ h => absurd h hst, fun _ => rfl⟩
  rw [List.all_eq_true]
  constructor
  · exact fun h e he => (hentry e).1 (h _ he)
  · intro h slot hslot
    cases slot with
    | none => rfl
    | some e => exact (hentry e).2 (h e hslot)

theorem nextOriginCount_none (clock : ClockState) (count : Nat) :
    nextOriginCount clock true count = if clock = .unset then min 4 (count + 1) else 0 := by
  simp only [nextOriginCount, and_true]

/-- The count stands at 4 after a run without a selection exactly where it stood at 3 or more in
UNSET (R101). -/
theorem nextOriginCount_none_eq_four_iff {clock : ClockState} {count : Nat} :
    nextOriginCount clock true count = 4 ↔ clock = .unset ∧ 3 ≤ count := by
  rw [nextOriginCount_none]
  by_cases hc : clock = .unset
  · rw [if_pos hc, and_iff_right hc]; omega
  · rw [if_neg hc]
    exact ⟨fun h => absurd h (by decide), fun h => absurd h.1 hc⟩

/-- A run with a selection makes the count 0 (R101). -/
theorem nextOriginCount_some (clock : ClockState) (count : Nat) :
    nextOriginCount clock false count = 0 :=
  if_neg fun h => nomatch h.2

/-- The test of the origin rule after a run without a selection (R102). -/
def State.originTest (s : State) : Bool :=
  decide (nextOriginCount s.servo.clock true s.comb.originCount = 4) &&
    s.peers.slots.all (originTestSlot s.own)

theorem State.originTest_iff (s : State) :
    s.originTest = true ↔ s.servo.clock = .unset ∧ 3 ≤ s.comb.originCount ∧
      ∀ e, some e ∈ s.peers.slots → e.state = .trial ∨ e.state = .tracked →
        e.advClock = .unset ∧ s.startup.station.toNat < e.station := by
  unfold State.originTest
  rw [Bool.and_eq_true, decide_eq_true_iff, nextOriginCount_none_eq_four_iff,
    all_originTestSlot_iff, and_assoc]
  exact Iff.rfl

/-- A run without a selection counts, and sets the flag where the test passes (R101, R102). -/
theorem originRule_none (s : State) :
    originRule s none =
      { s.comb with
        originCount := if s.servo.clock = .unset then min 4 (s.comb.originCount + 1) else 0
        originFlag := s.comb.originFlag || s.originTest } := by
  have hguard : originRule s none =
      if (!s.comb.originFlag && s.originTest) = true then
        { s.comb with
          originCount := nextOriginCount s.servo.clock true s.comb.originCount, originFlag := true }
      else
        { s.comb with
          originCount := nextOriginCount s.servo.clock true s.comb.originCount } := by
    unfold State.originTest
    rw [← Bool.and_assoc]; rfl
  rw [hguard, nextOriginCount_none]
  cases hflag : s.comb.originFlag with
  | true => simp [hflag]
  | false =>
    cases s.originTest with
    | true => rfl
    | false => simp [hflag]

/-- A run with a selection makes the count 0, and a Dmin of 14 or less clears the flag and ends the
origin's barring (R101, R103). -/
theorem originRule_some (s : State) (d : Nat) :
    originRule s (some d) =
      if d ≤ 14 then
        { s.comb with
          originCount := 0, originFlag := false, originRejects := 0, originBarred := none }
      else { s.comb with originCount := 0 } := by
  unfold originRule
  dsimp only [Option.isNone_some]
  rw [nextOriginCount_some]

/-- Settles O49, by whether the run made a selection and by its Dmin. -/
theorem originRuleAtEndOfRun : Obligations.OriginRuleAtEndOfRun := by
  refine ⟨fun s => ⟨_, originRule_none s, ?_⟩, fun s d hd => ?_, fun s d hd => ?_⟩
  · rw [Bool.or_eq_true, s.originTest_iff]
  · exact (originRule_some s d).trans (if_pos hd)
  · exact (originRule_some s d).trans (if_neg (Nat.not_le.2 hd))

end Sys2Proof.Machine

namespace Sys2Proof.Machine

/-! # The Discipline Servo: its updates, its coast and its advertised values -/

/-! ## What the servo hands to the Time Scale Unit -/

theorem clampSym_idem (l x : Int) (hl : 0 ≤ l) : clampSym l (clampSym l x) = clampSym l x := by
  obtain ⟨hlo, hhi⟩ := clampSym_bounds hl x
  exact clampSym_of_within hlo hhi

theorem TimeScale.setP_eq (v : Int) (ts : TimeScale) :
    ts.setP v =
      { ts with p := if ts.step.isSome then ts.p else clampSym Config.pLimit v } := by
  unfold TimeScale.setP
  split <;> rfl

/-- A slew sets F and P, each clamped once; P stays while a step is pending (R10, R11, R108, R109). -/
theorem State.slew_eq (theta : Int) (s : State) :
    s.slew theta =
      { s with time := { s.time with
        f := slewF s.cfg s.time.f theta
        p := if s.time.step.isSome then s.time.p else slewP s.cfg theta } } := by
  have hf : clampSym Config.fLimit (slewF s.cfg s.time.f theta) = slewF s.cfg s.time.f theta :=
    clampSym_idem _ _ (by decide)
  have hp : clampSym Config.pLimit (slewP s.cfg theta) = slewP s.cfg theta :=
    clampSym_idem _ _ (by decide)
  unfold State.slew TimeScale.setF
  rw [TimeScale.setP_eq, hf, hp]

/-- P withdrawn: 0, or as it stands while a step is pending (R11, R116, R118). -/
theorem State.setP_zero (s : State) :
    s.setP 0 =
      { s with time := { s.time with p := if s.time.step.isSome then s.time.p else 0 } } := by
  unfold State.setP
  rw [TimeScale.setP_eq]; rfl

/-- A step request sets P to 0, whatever it was set to before (R11). -/
theorem TimeScale.request_setP (keyed : Bool) (a v : Int) (ts : TimeScale) :
    (ts.setP v).request keyed a = ts.request keyed a := by
  rw [TimeScale.setP_eq]
  unfold TimeScale.request
  cases ts.step <;> rfl

theorem DriftBin.learned_iff (b : DriftBin) : b.learned = true ↔ 4 ≤ b.count := by
  unfold DriftBin.learned; exact decide_eq_true_iff

/-- The coast frequency by the count of the current bin (R121). -/
theorem coastF_eq (m : Temperature) (entryF : Int) :
    coastF m entryF =
      match m.currentBin with
      | some b => if 4 ≤ b.count then b.f else entryF
      | none => entryF := by
  unfold coastF
  cases m.currentBin with
  | none => rfl
  | some b => exact if_congr b.learned_iff rfl rfl

/-- In COAST the frequency chosen is handed over as F (R121). -/
theorem State.chooseCoastF_of_coast {s : State} {c : CoastRecord} (h : s.servo.coast = some c) :
    s.chooseCoastF =
      { s with time := { s.time with
        f := clampSym Config.fLimit (coastF s.temp c.entryF) } } := by
  unfold State.chooseCoastF; rw [h]; rfl

theorem State.chooseCoastF_servo (s : State) : s.chooseCoastF.servo = s.servo :=
  (congrArg State.servo s.chooseCoastF_touches :)

/-! ## The update, state by state -/

section Updates

variable {s : State} {r : Combined}

theorem beyondLimit_iff (c : Settings) (theta : Int) :
    beyondLimit c theta = true ↔ c.stepLimit * 1000 < theta.natAbs := by
  unfold beyondLimit; exact decide_eq_true_iff

theorem not_beyondLimit {c : Settings} {theta : Int} (h : theta.natAbs ≤ c.stepLimit * 1000) :
    ¬ beyondLimit c theta = true :=
  fun hb => absurd ((beyondLimit_iff c theta).1 hb) (Nat.not_lt.2 h)

theorem withinLock_iff (r : Combined) : withinLock r = true ↔ r.theta.natAbs ≤ 4 * r.u + 1000 := by
  unfold withinLock; exact decide_eq_true_iff

/-- UNSET is left by a step at 1,000 ns or more (R113). -/
theorem updateUnset_step (h : 1000 ≤ r.theta.natAbs) :
    updateUnset r s = (s.requestStep .initial r.theta).withServo (Servo.toPullIn r) := by
  unfold updateUnset; rw [if_pos h]

/-- UNSET is left by a slew below 1,000 ns (R113). -/
theorem updateUnset_slew (h : r.theta.natAbs < 1000) :
    updateUnset r s = (s.slew r.theta).withServo (Servo.toPullIn r) := by
  unfold updateUnset; rw [if_neg (Nat.not_le.2 h)]

theorem updatePullIn_step (h : s.cfg.stepLimit * 1000 < r.theta.natAbs) :
    updatePullIn r s = (s.requestStep .pullIn r.theta).withServo
      fun v => { v.keep r with lockCount := 0, noneCount := 0 } :=
  if_pos ((beyondLimit_iff _ _).2 h)

theorem updatePullIn_slew (h : r.theta.natAbs ≤ s.cfg.stepLimit * 1000) :
    updatePullIn r s = pullInSlew r s :=
  if_neg (not_beyondLimit h)

/-- A slew in PULL-IN that does not lock counts within the lock threshold, and else starts again (R115). -/
theorem pullInSlew_counts (h : 4 * r.u + 1000 < r.theta.natAbs ∨ s.servo.lockCount < 3) :
    pullInSlew r s = (s.slew r.theta).withServo fun v =>
      { v.keep r with
        lockCount := if r.theta.natAbs ≤ 4 * r.u + 1000 then s.servo.lockCount + 1 else 0
        noneCount := 0 } := by
  unfold pullInSlew
  dsimp only
  rw [if_congr (withinLock_iff r) rfl rfl]
  refine congrArg (State.withServo · (s.slew r.theta)) (funext fun v => if_neg ?_)
  split <;> omega

/-- The fourth result in a row within the lock threshold locks (R115). -/
theorem pullInSlew_locks (hin : r.theta.natAbs ≤ 4 * r.u + 1000) (h : 3 ≤ s.servo.lockCount) :
    pullInSlew r s = (s.slew r.theta).withServo fun v =>
      { v.keep r with clock := .locked, lockCount := 4, noneCount := 0, breakCount := 0 } := by
  unfold pullInSlew
  dsimp only
  rw [if_pos ((withinLock_iff r).2 hin)]
  exact congrArg (State.withServo · (s.slew r.theta)) (funext fun v => if_pos (by omega))

/-- The first NONE in PULL-IN or LOCKED withdraws P (R116, R119). -/
theorem updateNone_first (h : s.servo.noneCount = 0) :
    updateNone s = (s.setP 0).withServo fun v => { v with noneCount := 1 } := by
  have hone : ¬ 2 ≤ s.servo.noneCount + 1 := by omega
  unfold updateNone
  refine (if_neg hone).trans ?_
  simp only [State.withServo, State.setP_servo, h]

/-- The second NONE in a row enters COAST (R119, R120). -/
theorem updateNone_second (h : 1 ≤ s.servo.noneCount) :
    updateNone s =
      ((s.setP 0).withServo fun v => { v with noneCount := v.noneCount + 1 }).enterCoast := by
  unfold updateNone
  exact if_pos (Nat.succ_le_succ h)

/-- Entry to COAST: the record made and advertised, the block flagged, the frequency chosen (R120, R121,
R158). -/
theorem State.enterCoast_eq (s : State) :
    s.enterCoast =
      { s with
        time := { s.time with f := clampSym Config.fLimit (coastF s.temp s.time.f) }
        servo := { s.servo with
          clock := .coast, lockCount := 0, noneCount := 0, breakCount := 0
          coast := some (coastRecord s), advDepth := (coastRecord s).depth }
        align := { s.align with block := s.align.block.map fun b => { b with coast := true } } } := by
  unfold State.enterCoast
  exact State.chooseCoastF_of_coast (c := coastRecord s) rfl

theorem updateLocked_slew (h : r.theta.natAbs ≤ s.cfg.stepLimit * 1000) :
    updateLocked r s = lockedSlew r s :=
  if_neg (not_beyondLimit h)

theorem updateLocked_break (h : s.cfg.stepLimit * 1000 < r.theta.natAbs) :
    updateLocked r s = lockedBreak r s :=
  if_pos ((beyondLimit_iff _ _).2 h)

/-- A slew in LOCKED requests learning of the new F within the lock threshold (R117, R133). -/
theorem lockedSlew_eq (r : Combined) (s : State) :
    lockedSlew r s =
      { s.slew r.theta with
        servo := { s.servo.keep r with breakCount := 0, noneCount := 0 }
        temp := if r.theta.natAbs ≤ 4 * r.u + 1000
          then s.temp.learn (slewF s.cfg s.time.f r.theta) else s.temp } := by
  unfold lockedSlew
  dsimp only
  rw [if_congr (withinLock_iff r) rfl rfl, State.slew_eq]
  split <;> rfl

/-- The first and the second result in a row beyond the step limit are not corrected (R118). -/
theorem lockedBreak_counts (h : s.servo.breakCount < 2) :
    lockedBreak r s = (s.setP 0).withServo fun v =>
      { v.keep r with noneCount := 0, breakCount := v.breakCount + 1 } := by
  unfold lockedBreak
  exact if_neg (Nat.not_le.2 (Nat.succ_lt_succ h))

/-- The third is stepped, back in PULL-IN (R118). -/
theorem lockedBreak_third (h : 2 ≤ s.servo.breakCount) :
    lockedBreak r s = (s.requestStep .lockedBreak r.theta).withServo fun v =>
      { v.keep r with clock := .pullIn, lockCount := 0, noneCount := 0, breakCount := 0 } := by
  unfold lockedBreak
  refine (if_pos (Nat.succ_le_succ h)).trans ?_
  unfold State.requestStep
  rw [State.withServo_time, State.setP_time, TimeScale.request_setP]
  rfl

theorem updateCoast_step (h : s.cfg.stepLimit * 1000 < r.theta.natAbs) :
    updateCoast r s = (s.requestStep .coastBreak r.theta).withServo (Servo.endCoast r) := by
  unfold updateCoast; rw [if_pos ((beyondLimit_iff _ _).2 h)]

theorem updateCoast_slew (h : r.theta.natAbs ≤ s.cfg.stepLimit * 1000) :
    updateCoast r s = (s.slew r.theta).withServo (Servo.endCoast r) := by
  unfold updateCoast; rw [if_neg (not_beyondLimit h)]

theorem servoAct_unset (h : s.servo.clock = .unset) : servoAct (some r) s = updateUnset r s := by
  unfold servoAct; rw [h]

theorem servoAct_unset_none (h : s.servo.clock = .unset) : servoAct none s = s := by
  unfold servoAct; rw [h]

theorem servoAct_pullIn (h : s.servo.clock = .pullIn) : servoAct (some r) s = updatePullIn r s := by
  unfold servoAct; rw [h]

theorem servoAct_locked (h : s.servo.clock = .locked) : servoAct (some r) s = updateLocked r s := by
  unfold servoAct; rw [h]

theorem servoAct_none (h : s.servo.clock = .pullIn ∨ s.servo.clock = .locked) :
    servoAct none s = updateNone s := by
  unfold servoAct
  rcases h with h | h <;> rw [h]

theorem servoAct_coast (h : s.servo.clock = .coast) : servoAct (some r) s = updateCoast r s := by
  unfold servoAct; rw [h]

theorem servoAct_coast_none (h : s.servo.clock = .coast) : servoAct none s = updateCoastNone s := by
  unfold servoAct; rw [h]

end Updates

/-- An update that is due runs the Combiner, and the servo acts on the run's result (R105). -/
theorem exec_servoUpdate_of_run {s t : State} {result : Option Combined} (hk : 0 < s.time.k)
    (hgrid : s.time.k % (s.cfg.mSeconds * 20000000) = 0) (hlast : s.servo.lastUpdate < s.time.k)
    (hrun : combinerRun { s with servo := { s.servo with lastUpdate := s.time.k } } = (t, result)) :
    exec .servoUpdate s = .next (servoAct result t) := by
  have hact : servoUpdate s = servoAct result t := by
    unfold servoUpdate
    exact congrArg (fun run : State × Option Combined => servoAct run.2 run.1) hrun
  rw [← hact]
  exact congrArg Host.Outcome.next (if_pos (s.servoUpdateDue_iff.2 ⟨hk, hgrid, hlast⟩))

/-- A run changes the Peer Table and the Combiner's own state alone (R85). -/
theorem combinerRun_frame {s t : State} {result : Option Combined}
    (hrun : combinerRun s = (t, result)) :
    ∃ peers comb, t = { s with peers := peers, comb := comb } := by
  have ht := combinerRun_touches s
  rw [hrun] at ht
  exact ⟨_, _, ht⟩

/-! ## Growth and limit of a coast -/

/-- The growth in one second: half while the current bin is learned (R122). -/
theorem growthStep_eq (c : Settings) (m : Temperature) :
    growthStep c m =
      match m.currentBin with
      | some b => if 4 ≤ b.count then c.growth / 2 else c.growth
      | none => c.growth := by
  unfold growthStep Temperature.binLearned
  cases m.currentBin with
  | none => rfl
  | some b => exact if_congr b.learned_iff rfl rfl

theorem exec_coastGrowth_due {s : State} (h : s.coastGrowthDue = true) :
    exec .coastGrowth s = .next (s.withServo (Servo.grow (growthStep s.cfg s.temp) s.k)) :=
  congrArg Host.Outcome.next (if_pos h)

theorem exec_coastLimit_due {s : State} (h : s.coastLimitDue = true) :
    exec .coastLimit s = .next ((s.withServo Servo.passLimit).latch .coastLong) :=
  congrArg Host.Outcome.next (if_pos h)

theorem exec_coastLimit_notDue {s : State} (h : ¬ s.coastLimitDue = true) :
    exec .coastLimit s = .next s :=
  congrArg Host.Outcome.next (if_neg h)

theorem Servo.grow_of_coast {v : Servo} {c : CoastRecord} (h : v.coast = some c) (g k : Nat) :
    v.grow g k =
      { v with
        coast := some { c with u := holdU (c.u + g), lastGrowth := k }, advU := holdU (c.u + g) } := by
  unfold Servo.grow; rw [h]

theorem Servo.grow_of_none {v : Servo} (h : v.coast = none) (g k : Nat) : v.grow g k = v := by
  unfold Servo.grow; rw [h]

theorem Servo.passLimit_of_coast {v : Servo} {c : CoastRecord} (h : v.coast = some c) :
    v.passLimit =
      { v with coast := some { c with depth := 15, limitPassed := true }, advDepth := 15 } := by
  unfold Servo.passLimit; rw [h]; rfl

/-! ## What every step keeps -/

/-- What every command keeps, and what does not speak of the queue, every step keeps (log 2). -/
theorem step_keeps {P : State → Prop} (hqueue : ∀ s q, P s → P (s.withQueue q))
    (hexec : ∀ c s t, P s → exec c s = .next t → P t) {s t : State} (hs : P s)
    (h : step s = .next t) : P t := by
  unfold step at h
  split at h
  · cases h; exact hs
  · exact hexec _ _ _ (hqueue _ _ hs) h

/-! ## The advertised values stay legal -/

/-- A result within the ranges of the advertised values (R98, R99). -/
def Combined.Within (r : Combined) : Prop := r.u ≤ Config.uMax ∧ r.depth ≤ 15

theorem ownDepth_le (xs : List Source) : ownDepth xs ≤ 15 := by
  unfold ownDepth
  split
  · exact Nat.zero_le _
  · split
    · exact le_refl _
    · exact Nat.min_le_left _ _

theorem combine_within (xs : List Source) : (combine xs).Within :=
  ⟨holdU_le _, ownDepth_le xs⟩

/-- The Combiner's results lie within their ranges (R98, R99). -/
theorem combinerRun_within {s : State} {r : Combined} (h : (combinerRun s).2 = some r) :
    r.Within := by
  by_cases hx : sources s = []
  · rw [combinerRun_none hx] at h; cases h
  · rw [combinerRun_some hx] at h; cases h
    exact combine_within _

/-- The run leaves the servo alone (R85). -/
theorem combinerRun_servo (s : State) : (combinerRun s).1.servo = s.servo :=
  (congrArg State.servo (combinerRun_touches s) :)

section Legal

variable {v : Servo} {r : Combined}

/-- Outside COAST a legal servo holds no coast record (R106). -/
theorem Servo.Legal.coast_none (h : v.Legal) (hc : v.clock ≠ .coast) : v.coast = none := by
  obtain ⟨hadv, -, -⟩ := h
  unfold Servo.Advertises at hadv
  split at hadv
  case h_1 => exact hadv.2.2
  case h_2 => exact hadv.2
  case h_3 => exact hadv.2
  case h_4 hcoast => exact absurd hcoast hc

/-- A coast record tells that a legal servo is in COAST and advertises it (R106, R107, R120). -/
theorem Servo.Legal.of_record (h : v.Legal) {c : CoastRecord} (hc : v.coast = some c) :
    v.clock = .coast ∧ v.advU = c.u ∧ v.advDepth = c.depth ∧ 1 ≤ c.depth := by
  have hclock : v.clock = .coast := by
    by_contra hne
    rw [h.coast_none hne] at hc; cases hc
  obtain ⟨hadv, -, -⟩ := h
  unfold Servo.Advertises at hadv
  rw [hclock] at hadv
  obtain ⟨c', hc', hu, hd, hpos⟩ := hadv
  obtain rfl : c' = c := Option.some.inj (hc'.symm.trans hc)
  exact ⟨hclock, hu, hd, hpos⟩

/-- In PULL-IN and LOCKED a servo that advertises its last result, within its ranges, is legal (R107). -/
theorem Servo.legal_of_last (hclock : v.clock = .pullIn ∨ v.clock = .locked)
    (hlast : v.last = some (v.advU, v.advDepth)) (hcoast : v.coast = none)
    (hu : v.advU ≤ Config.uMax) (hd : v.advDepth ≤ 15) : v.Legal := by
  refine ⟨?_, hu, hd⟩
  unfold Servo.Advertises
  rcases hclock with h | h <;> rw [h] <;> exact ⟨hlast, hcoast⟩

/-- In COAST a servo that advertises its coast record, within its ranges, is legal (R107, R120). -/
theorem Servo.legal_of_coast {c : CoastRecord} (hclock : v.clock = .coast) (hcoast : v.coast = some c)
    (hu : v.advU = c.u) (hd : v.advDepth = c.depth) (hpos : 1 ≤ c.depth)
    (hmax : c.u ≤ Config.uMax) (hdeep : c.depth ≤ 15) : v.Legal := by
  refine ⟨?_, hu ▸ hmax, hd ▸ hdeep⟩
  unfold Servo.Advertises
  rw [hclock]
  exact ⟨c, hcoast, hu, hd, hpos⟩

/-- The servo as an update with result `r` leaves it: in PULL-IN or LOCKED, the result kept and advertised, no
coast record (R107, R124). -/
def Servo.Follows (r : Combined) (v : Servo) : Prop :=
  (v.clock = .pullIn ∨ v.clock = .locked) ∧ v.last = some (r.u, r.depth) ∧
  v.advU = r.u ∧ v.advDepth = r.depth ∧ v.coast = none

theorem Servo.Follows.legal (h : v.Follows r) (hr : r.Within) : v.Legal := by
  obtain ⟨hclock, hlast, hu, hd, hcoast⟩ := h
  obtain ⟨hru, hrd⟩ := hr
  refine Servo.legal_of_last hclock ?_ hcoast (hu ▸ hru) (hd ▸ hrd)
  rw [hlast, hu, hd]

variable {s : State}

/-- An update with a result follows it, in every clock state (R107, R113, R115, R117, R118, R124). -/
theorem servoAct_follows (h : s.servo.Legal) (r : Combined) :
    (servoAct (some r) s).servo.Follows r := by
  have hcoast : s.servo.clock ≠ .coast → s.servo.coast = none := h.coast_none
  have hlimit := Nat.lt_or_ge (s.cfg.stepLimit * 1000) r.theta.natAbs
  cases hclock : s.servo.clock with
  | unset =>
    have hnone := hcoast (by rw [hclock]; decide)
    rw [servoAct_unset hclock]
    rcases Nat.lt_or_ge r.theta.natAbs 1000 with hθ | hθ
    · rw [updateUnset_slew hθ]; exact ⟨.inl rfl, rfl, rfl, rfl, hnone⟩
    · rw [updateUnset_step hθ]; exact ⟨.inl rfl, rfl, rfl, rfl, hnone⟩
  | pullIn =>
    have hnone := hcoast (by rw [hclock]; decide)
    rw [servoAct_pullIn hclock]
    rcases hlimit with hθ | hθ
    · rw [updatePullIn_step hθ]; exact ⟨.inl hclock, rfl, rfl, rfl, hnone⟩
    · rw [updatePullIn_slew hθ]
      by_cases hlock : r.theta.natAbs ≤ 4 * r.u + 1000 ∧ 3 ≤ s.servo.lockCount
      · rw [pullInSlew_locks hlock.1 hlock.2]; exact ⟨.inr rfl, rfl, rfl, rfl, hnone⟩
      · rw [pullInSlew_counts (by omega)]; exact ⟨.inl hclock, rfl, rfl, rfl, hnone⟩
  | locked =>
    have hnone := hcoast (by rw [hclock]; decide)
    rw [servoAct_locked hclock]
    rcases hlimit with hθ | hθ
    · rw [updateLocked_break hθ]
      rcases Nat.lt_or_ge s.servo.breakCount 2 with hb | hb
      · rw [lockedBreak_counts hb]; exact ⟨.inr hclock, rfl, rfl, rfl, hnone⟩
      · rw [lockedBreak_third hb]; exact ⟨.inl rfl, rfl, rfl, rfl, hnone⟩
    · rw [updateLocked_slew hθ, lockedSlew_eq]; exact ⟨.inr hclock, rfl, rfl, rfl, hnone⟩
  | coast =>
    rw [servoAct_coast hclock]
    rcases hlimit with hθ | hθ
    · rw [updateCoast_step hθ]; exact ⟨.inl rfl, rfl, rfl, rfl, rfl⟩
    · rw [updateCoast_slew hθ]; exact ⟨.inl rfl, rfl, rfl, rfl, rfl⟩

/-- On entry to COAST the coast record takes the advertised values, its depth at least 1 (R120). -/
theorem State.enterCoast_servo_legal (h : s.servo.Legal) : s.enterCoast.servo.Legal := by
  obtain ⟨-, hu, hd⟩ := h
  have hdepth : 1 ≤ (coastRecord s).depth ∧ (coastRecord s).depth ≤ 15 := by
    unfold coastRecord; dsimp only; split <;> omega
  rw [State.enterCoast_eq]
  exact Servo.legal_of_coast (c := coastRecord s) rfl rfl rfl rfl hdepth.1 hu hdepth.2

/-- NONE leaves the advertised values, or enters COAST with them (R113, R119, R125). -/
theorem servoAct_none_servo_legal (h : s.servo.Legal) : (servoAct none s).servo.Legal := by
  have hcorrecting (hclock : s.servo.clock = .pullIn ∨ s.servo.clock = .locked) :
      (servoAct none s).servo.Legal := by
    rw [servoAct_none hclock]
    rcases Nat.eq_zero_or_pos s.servo.noneCount with hn | hn
    · rw [updateNone_first hn]; exact h
    · rw [updateNone_second hn]; exact State.enterCoast_servo_legal h
  cases hclock : s.servo.clock with
  | unset => rw [servoAct_unset_none hclock]; exact h
  | pullIn => exact hcorrecting (.inl hclock)
  | locked => exact hcorrecting (.inr hclock)
  | coast =>
    rw [servoAct_coast_none hclock]
    unfold updateCoastNone
    rw [State.chooseCoastF_servo]; exact h

theorem servoUpdate_servo_legal (h : s.servo.Legal) : (servoUpdate s).servo.Legal := by
  unfold servoUpdate
  dsimp only
  generalize hmarked : s.withServo (fun v => { v with lastUpdate := s.k }) = marked
  have hrun : (combinerRun marked).1.servo.Legal := by
    rw [combinerRun_servo, ← hmarked]; exact h
  cases hr : (combinerRun marked).2 with
  | none => exact servoAct_none_servo_legal hrun
  | some r => exact (servoAct_follows hrun r).legal (combinerRun_within hr)

/-- A growth is advertised with the coast U it raises, held at U_MAX (R122). -/
theorem Servo.Legal.grow (h : v.Legal) (g k : Nat) : (v.grow g k).Legal := by
  cases hc : v.coast with
  | none => rw [Servo.grow_of_none hc]; exact h
  | some c =>
    obtain ⟨hclock, -, hd, hpos⟩ := h.of_record hc
    rw [Servo.grow_of_coast hc]
    exact Servo.legal_of_coast (c := { c with u := holdU (c.u + g), lastGrowth := k }) hclock rfl rfl
      hd hpos (holdU_le _) (hd ▸ h.2.2)

/-- Past the coast limit the depth is 15 in the record as advertised (R123). -/
theorem Servo.Legal.passLimit (h : v.Legal) {c : CoastRecord} (hc : v.coast = some c) :
    v.passLimit.Legal := by
  obtain ⟨hclock, hu, -, -⟩ := h.of_record hc
  rw [Servo.passLimit_of_coast hc]
  exact Servo.legal_of_coast (c := { c with depth := 15, limitPassed := true }) hclock rfl hu rfl
    (show 1 ≤ 15 by decide) (hu ▸ h.2.1) (le_refl _)

/-- The announcement of a step discards the pending reason and changes nothing else of the servo (R112). -/
theorem stepApplication_servo (s : State) :
    (stepApplication s).servo = { s.servo with reason := none } := by
  unfold stepApplication reportBreak
  dsimp only
  split
  case h_1 hr => rw [← hr]
  case h_2 => split <;> rfl

/-- Every command keeps the servo legal, in the order of `effect_servo`. -/
theorem exec_servo_legal {c : Instr} {s t : State} (hs : s.servo.Legal) (h : exec c s = .next t) :
    t.servo.Legal := by
  by_cases hlimit : c = .coastLimit
  · subst hlimit
    by_cases hdue : s.coastLimitDue = true
    · rw [exec_coastLimit_due hdue] at h; cases h
      obtain ⟨c, hc, -⟩ := s.coastLimitDue_iff.1 hdue
      exact hs.passLimit hc
    · rw [exec_coastLimit_notDue hdue] at h; cases h
      exact hs
  rcases exec_effect h with rfl | rfl
  · exact hs
  rcases effect_servo c s with he | rfl | rfl | rfl | rfl | rfl | hl
  · rw [he]; exact hs
  · exact Servo.afterReset_legal
  · exact Servo.afterReset_legal
  · show (stepApplication s).servo.Legal
    rw [stepApplication_servo]; exact hs
  · exact servoUpdate_servo_legal hs
  · exact hs.grow _ _
  · exact absurd hl hlimit

end Legal

/-- Settles O53: a step runs the front command, which keeps the servo legal. -/
theorem advertisedValuesKeptLegal : Obligations.AdvertisedValuesKeptLegal :=
  fun _ _ => step_keeps (P := fun s => s.servo.Legal) (fun _ _ hs => hs)
    (fun _ _ _ => exec_servo_legal)

end Sys2Proof.Machine
namespace Sys2Proof.Machine

/-! # The Discipline Servo: its statements settled -/

/-! ## Updates -/

/-- Settles O51: the update acts on the Combiner's result, by the clock state and the size of its offset. -/
theorem servoUpdateTowardsLock : Obligations.ServoUpdateTowardsLock := by
  intro s t result hk hgrid hlast hrun
  have hexec {u : State} (h : servoAct result t = u) : exec .servoUpdate s = .next u :=
    h ▸ exec_servoUpdate_of_run hk hgrid hlast hrun
  obtain ⟨peers, comb, rfl⟩ := combinerRun_frame hrun
  intro p slewed stepping limit
  refine ⟨?none, ?unsetStep, ?unsetSlew, ?step, ?slew, ?lock⟩
  case none =>
    rintro hc rfl
    exact hexec (servoAct_unset_none hc)
  case unsetStep =>
    rintro r hc rfl hθ
    exact hexec (Eq.trans (servoAct_unset hc) (updateUnset_step hθ))
  case unsetSlew =>
    rintro r hc rfl hθ
    refine hexec (Eq.trans (servoAct_unset hc) (Eq.trans (updateUnset_slew hθ) ?_))
    rw [State.slew_eq]; rfl
  case step =>
    rintro r hc rfl hθ
    exact hexec (Eq.trans (servoAct_pullIn hc) (updatePullIn_step hθ))
  case slew =>
    rintro r hc rfl hθ hcount
    refine hexec (Eq.trans (servoAct_pullIn hc) (Eq.trans (updatePullIn_slew hθ)
      (Eq.trans (pullInSlew_counts hcount) ?_)))
    rw [State.slew_eq]; rfl
  case lock =>
    rintro r hc rfl hθ hin hcount
    refine hexec (Eq.trans (servoAct_pullIn hc) (Eq.trans (updatePullIn_slew hθ)
      (Eq.trans (pullInSlew_locks hin hcount) ?_)))
    rw [State.slew_eq]; rfl

/-- Settles O52: in LOCKED by the step limit and the break count, NONE by the none count, and COAST by its
result. -/
theorem servoUpdateInLockAndCoast : Obligations.ServoUpdateInLockAndCoast := by
  intro s t result hk hgrid hlast hrun
  have hexec {u : State} (h : servoAct result t = u) : exec .servoUpdate s = .next u :=
    h ▸ exec_servoUpdate_of_run hk hgrid hlast hrun
  obtain ⟨peers, comb, rfl⟩ := combinerRun_frame hrun
  intro p newF slewed unslewed stepping kept limit chosen
  have hchosen (entry : Int) :
      clampSym Config.fLimit (coastF s.temp entry) = chosen entry := by rw [coastF_eq]; rfl
  refine ⟨?slew, ?count, ?third, ?first, ?second, ?result, ?coasting⟩
  case slew =>
    rintro r hc rfl hθ
    refine hexec (Eq.trans (servoAct_locked hc) (Eq.trans (updateLocked_slew hθ) ?_))
    rw [lockedSlew_eq, State.slew_eq]; rfl
  case count =>
    rintro r hc rfl hθ hb
    refine hexec (Eq.trans (servoAct_locked hc) (Eq.trans (updateLocked_break hθ)
      (Eq.trans (lockedBreak_counts hb) ?_)))
    rw [State.setP_zero]; rfl
  case third =>
    rintro r hc rfl hθ hb
    exact hexec (Eq.trans (servoAct_locked hc) (Eq.trans (updateLocked_break hθ)
      (lockedBreak_third hb)))
  case first =>
    rintro hc rfl hn
    refine hexec (Eq.trans (servoAct_none hc) (Eq.trans (updateNone_first hn) ?_))
    rw [State.setP_zero]; rfl
  case second =>
    rintro hc rfl hn
    refine ⟨_, rfl, hexec (Eq.trans (servoAct_none hc) (Eq.trans (updateNone_second hn) ?_))⟩
    rw [State.enterCoast_eq, State.setP_zero, ← hchosen]; rfl
  case result =>
    rintro r hc rfl
    refine hexec (Eq.trans (servoAct_coast hc) ?_)
    by_cases hθ : limit < r.theta.natAbs
    · rw [if_pos hθ, if_pos hθ]
      exact updateCoast_step hθ
    · rw [if_neg hθ, if_neg hθ]
      refine Eq.trans (updateCoast_slew (Nat.not_lt.1 hθ)) ?_
      rw [State.slew_eq]; rfl
  case coasting =>
    rintro c hc rfl hcoast
    refine hexec (Eq.trans (servoAct_coast_none hc) ?_)
    rw [← hchosen]
    unfold updateCoastNone
    rw [State.setP_zero]
    exact State.chooseCoastF_of_coast hcoast

/-! ## The announcement of a step -/

/-- The port after the announcement of a step with a pending reason: the BREAK record arrives, STEP latched
before it unless the reason is INITIAL (R112). -/
theorem stepApplication_port {s : State} {reason : BreakReason} (h : s.servo.reason = some reason) :
    (stepApplication s).port =
      (if reason = .initial then s.port
        else { s.port with alerts := { s.port.alerts with step := true } }).arrive
        s.time.k s.startup.endK.isSome (.brk (breakRecord s reason)) := by
  have hk : s.time.stepped.k = s.time.k := by rw [TimeScale.stepped_touches]
  rw [← hk]
  unfold stepApplication reportBreak
  rw [h]
  dsimp only
  split <;> rfl

/-- The BREAK record of a pending step (R17, R112). -/
theorem breakRecord_of_step {s : State} {a : Int} {due : Option Nat} (h : s.time.step = some ⟨a, due⟩)
    (reason : BreakReason) :
    breakRecord s reason =
      { reason := reason
        amount := if (s.time.t.units : Int) + a * 2 ^ 32 < 0 then -(s.time.t.nsCount : Int) else a
        time := s.time.stepped.t.stamp
        nextBlock := s.align.stepBlock
        clock := s.servo.clock } := by
  unfold breakRecord
  rw [s.time.appliedNs_eq h]

/-- Settles O11: the step is due, so it is announced with its reason. -/
theorem breakRecordQueued : Obligations.BreakRecordQueued := by
  intro s reason a d hreason hstep hd
  refine ⟨_, exec_stepApplication_due (stepDue_of_step hstep hd), stepApplication_servo s, ?_⟩
  rw [stepApplication_port hreason, breakRecord_of_step hstep, stepApplication_time]
  rfl

/-! ## Coast -/

/-- Settles O54: a growth on a whole second, the limit passed once, and no effect before or after. -/
theorem coastGrowsAndPassesItsLimit : Obligations.CoastGrowsAndPassesItsLimit := by
  intro s c hclock hcoast
  refine ⟨fun hstart hsecond honce => ?growth, fun hlimit hnew => ?limit, fun hnot => ?notDue⟩
  case growth =>
    have hdue := s.coastGrowthDue_iff.2 ⟨c, hcoast, hclock, hstart, hsecond, honce⟩
    refine ⟨growthStep s.cfg s.temp, holdU (c.u + growthStep s.cfg s.temp), growthStep_eq _ _, rfl,
      fun hmax => le_min hmax (Nat.le_add_right _ _), ?_⟩
    rw [exec_coastGrowth_due hdue]
    unfold State.withServo
    rw [Servo.grow_of_coast hcoast]; rfl
  case limit =>
    rw [exec_coastLimit_due (s.coastLimitDue_iff.2 ⟨c, hcoast, hclock, hlimit, hnew⟩)]
    unfold State.withServo
    rw [Servo.passLimit_of_coast hcoast]; rfl
  case notDue =>
    refine exec_coastLimit_notDue fun hdue => ?_
    obtain ⟨c', hc', -, hlimit, hnew⟩ := s.coastLimitDue_iff.1 hdue
    obtain rfl : c = c' := Option.some.inj (hcoast.symm.trans hc')
    rcases hnot with h | h
    · exact absurd hlimit (Nat.not_lt.2 h)
    · rw [hnew] at h; cases h

end Sys2Proof.Machine
namespace Sys2Proof.Machine

/-! # The Temperature Monitor and the Drift Table -/

/-! ## Conversions -/

theorem exec_conversionStart_due {s : State} (h : s.conversionStartDue = true) :
    exec .conversionStart s = .next { s with temp := { s.temp with converting := some s.time.k } } :=
  congrArg Host.Outcome.next (if_pos h)

theorem exec_conversionComplete_due {s : State} {code : Nat} (hcode : code < 1024)
    (h : s.conversionCompleteDue = true) :
    exec (.conversionComplete code) s = .next (conversionComplete code s) :=
  (if_pos hcode).trans (congrArg Host.Outcome.next (if_pos h))

theorem quarterDegrees_eq (code : Nat) : quarterDegrees code = (min code 500 : Int) - 160 := by
  unfold quarterDegrees; omega

theorem conversionComplete_temp (code : Nat) (s : State) :
    (conversionComplete code s).temp = s.temp.complete code :=
  (congrArg State.temp (conversionComplete_touches code s) :)

theorem State.chooseCoastF_f {s : State} {c : CoastRecord} (h : s.servo.coast = some c) :
    s.chooseCoastF.time.f = clampSym Config.fLimit (coastF s.temp c.entryF) := by
  rw [State.chooseCoastF_of_coast h]

/-- Of the Time Scale Unit the choice of coast frequency sets F alone (R121). -/
theorem State.chooseCoastF_time (s : State) :
    s.chooseCoastF.time = { s.time with f := s.chooseCoastF.time.f } := by
  unfold State.chooseCoastF; split <;> rfl

theorem conversionComplete_time (code : Nat) (s : State) :
    (conversionComplete code s).time = { s.time with f := (conversionComplete code s).time.f } := by
  unfold conversionComplete
  dsimp only
  split
  · exact State.chooseCoastF_time _
  · rfl

/-- Outside COAST, or with the bin unchanged, a conversion sets no F (R121). -/
theorem conversionComplete_same {code : Nat} {s : State}
    (h : s.servo.clock ≠ .coast ∨ (s.temp.complete code).bin = s.temp.bin) :
    conversionComplete code s = { s with temp := s.temp.complete code } :=
  if_neg fun ⟨hbin, hclock⟩ => h.elim (· hclock) hbin

/-- A bin change in COAST chooses the coast frequency again (R121). -/
theorem conversionComplete_changed {code : Nat} {s : State} {c : CoastRecord}
    (hclock : s.servo.clock = .coast) (hbin : (s.temp.complete code).bin ≠ s.temp.bin)
    (hc : s.servo.coast = some c) :
    (conversionComplete code s).time.f =
      clampSym Config.fLimit (coastF (s.temp.complete code) c.entryF) := by
  have hchoose :
      conversionComplete code s = { s with temp := s.temp.complete code }.chooseCoastF :=
    if_pos ⟨hbin, hclock⟩
  rw [hchoose]
  exact State.chooseCoastF_f hc

/-! ## The temperature and its bin -/

/-- Before the fourth conversion there is no temperature and no bin (R129, R130). -/
theorem Temperature.current_none {m : Temperature} (h : m.slots.length ≠ 4) : m.current = none :=
  if_neg fun hv => h (of_decide_eq_true hv)

/-- The temperature is the mean of the four conversions, truncated (R129). -/
theorem Temperature.current_of_slots {m : Temperature} {a b c d : Int} (h : m.slots = [a, b, c, d]) :
    m.current = some ((a + b + c + d).tdiv 4) := by
  have hvalid : m.valid = true := by unfold Temperature.valid; rw [h]; rfl
  have hsum : m.slots.sum = a + b + c + d := by
    rw [h]; simp only [List.sum_cons, List.sum_nil]; omega
  unfold Temperature.current truncDiv
  rw [if_pos hvalid, hsum]

theorem Temperature.bin_of_current {m : Temperature} {x : Option Int} (h : m.current = x) :
    m.bin = x.map fun c => ((c + 160) / 32).toNat := by
  unfold Temperature.bin; rw [h]

/-! ## Learning -/

/-- The eighth of a difference, truncated, lies between 0 and the difference. -/
theorem tdiv_eight_bounds (d : Int) : min 0 d ≤ d.tdiv 8 ∧ d.tdiv 8 ≤ max 0 d := by
  rcases Int.le_total 0 d with h | h
  · rw [Int.tdiv_eq_ediv_of_nonneg h]; omega
  · have hneg : d.tdiv 8 = -(-d / 8) := by
      rw [← Int.tdiv_eq_ediv_of_nonneg (by omega), Int.neg_tdiv, neg_neg]
    rw [hneg]; omega

/-- The first sample is taken whole (R133). -/
theorem DriftBin.learn_first {b : DriftBin} (h : b.count = 0) (f : Int) : b.learn f = ⟨f, 1⟩ :=
  if_pos h

/-- A later sample moves the bin by an eighth (R133). -/
theorem DriftBin.learn_later {b : DriftBin} (h : 1 ≤ b.count) (f : Int) :
    b.learn f = ⟨b.f + (f - b.f).tdiv 8, min 255 (b.count + 1)⟩ :=
  if_neg (by omega)

/-- A sample moves a bin towards it without passing it (R133). -/
theorem DriftBin.learn_between (b : DriftBin) (f : Int) :
    min b.f f ≤ (b.learn f).f ∧ (b.learn f).f ≤ max b.f f := by
  rcases Nat.eq_zero_or_pos b.count with h | h
  · rw [DriftBin.learn_first h]; exact ⟨min_le_right _ _, le_max_right _ _⟩
  · rw [DriftBin.learn_later h]
    obtain ⟨hlo, hhi⟩ := tdiv_eight_bounds (f - b.f)
    dsimp only
    omega

theorem DriftBin.learn_count_le (b : DriftBin) (f : Int) : (b.learn f).count ≤ 255 := by
  rcases Nat.eq_zero_or_pos b.count with h | h
  · rw [DriftBin.learn_first h]; exact (show 1 ≤ 255 by decide)
  · rw [DriftBin.learn_later h]; exact Nat.min_le_left _ _

theorem Temperature.learn_none {m : Temperature} (h : m.bin = none) (f : Int) : m.learn f = m := by
  unfold Temperature.learn; rw [h]

theorem Temperature.learn_some {m : Temperature} {i : Nat} (h : m.bin = some i) (f : Int) :
    m.learn f = { m with bins := m.bins.set i ((m.driftBin i).learn f) } := by
  unfold Temperature.learn; rw [h]

theorem Temperature.driftBin_of_mem {m : Temperature} {i : Nat} {b : DriftBin}
    (h : m.bins[i]? = some b) : m.driftBin i = b := by
  unfold Temperature.driftBin
  rw [List.getD_eq_getElem?_getD, h]; rfl

/-! ## The monitor stays legal -/

section Legal

variable {m : Temperature}

/-- A bin within the ranges of R132. -/
def DriftBin.Legal (b : DriftBin) : Prop := -42949673 ≤ b.f ∧ b.f ≤ 42949673 ∧ b.count ≤ 255

/-- Every bin read is within its ranges: one of the sixteen, or a cleared one (R132). -/
theorem Temperature.Legal.driftBin (h : m.Legal) (i : Nat) : (m.driftBin i).Legal := by
  obtain ⟨-, -, -, hbins⟩ := h
  cases hi : m.bins[i]? with
  | some b =>
    rw [Temperature.driftBin_of_mem hi]
    exact hbins b (List.mem_of_getElem? hi)
  | none =>
    unfold Temperature.driftBin
    rw [List.getD_eq_getElem?_getD, hi]
    exact ⟨by decide, by decide, Nat.zero_le _⟩

theorem DriftBin.Legal.learn {b : DriftBin} (h : b.Legal) {f : Int} (hlo : -42949673 ≤ f)
    (hhi : f ≤ 42949673) : (b.learn f).Legal := by
  obtain ⟨hblo, hbhi, -⟩ := h
  obtain ⟨hmin, hmax⟩ := b.learn_between f
  exact ⟨(le_min hblo hlo).trans hmin, hmax.trans (max_le hbhi hhi), b.learn_count_le f⟩

/-- A learn request with an F in its range keeps the bins in theirs (R132, R133). -/
theorem Temperature.Legal.learn (h : m.Legal) {f : Int} (hlo : -42949673 ≤ f) (hhi : f ≤ 42949673) :
    (m.learn f).Legal := by
  cases hbin : m.bin with
  | none => rw [Temperature.learn_none hbin]; exact h
  | some i =>
    have hnew : ((m.driftBin i).learn f).Legal := (h.driftBin i).learn hlo hhi
    obtain ⟨hlen, hslots, hbins, hall⟩ := h
    rw [Temperature.learn_some hbin]
    refine ⟨hlen, hslots, List.length_set.trans hbins, fun b hb => ?_⟩
    rcases List.mem_or_eq_of_mem_set hb with hb | rfl
    · exact hall b hb
    · exact hnew

/-- A delivered code joins at most three slots, between -160 and 340 (R128). -/
theorem Temperature.Legal.complete (h : m.Legal) (code : Nat) : (m.complete code).Legal := by
  obtain ⟨hlen, hslots, hbins, hall⟩ := h
  refine ⟨?_, fun q hq => ?_, hbins, hall⟩
  · unfold Temperature.complete
    dsimp only
    rw [List.length_append, List.length_singleton]
    split
    · omega
    · rw [List.length_tail]; omega
  · rcases List.mem_append.1 hq with hq | hq
    · refine hslots q ?_
      split at hq
      · exact hq
      · exact List.mem_of_mem_tail hq
    · rw [List.mem_singleton.1 hq, quarterDegrees_eq]; omega

/-- NONE requests no learning (R116, R119, R125). -/
theorem updateNone_temp (s : State) : (updateNone s).temp = s.temp := by
  rcases Nat.eq_zero_or_pos s.servo.noneCount with hn | hn
  · rw [updateNone_first hn]; rfl
  · rw [updateNone_second hn, State.enterCoast_eq]; rfl

theorem lockedBreak_temp (r : Combined) (s : State) : (lockedBreak r s).temp = s.temp := by
  rcases Nat.lt_or_ge s.servo.breakCount 2 with hb | hb
  · rw [lockedBreak_counts hb]; rfl
  · rw [lockedBreak_third hb]; rfl

/-- The servo requests learning, if at all, of the new F of a slew (R117, R133). -/
theorem servoAct_temp (result : Option Combined) (s : State) :
    (servoAct result s).temp = s.temp ∨
    ∃ theta, (servoAct result s).temp = s.temp.learn (slewF s.cfg s.time.f theta) := by
  unfold servoAct
  split
  case h_1 => left; unfold updateUnset; split <;> rfl
  case h_2 => exact .inl rfl
  case h_3 => left; unfold updatePullIn pullInSlew; split <;> rfl
  case h_4 => exact .inl (updateNone_temp s)
  case h_5 r _ =>
    rcases Nat.lt_or_ge (s.cfg.stepLimit * 1000) r.theta.natAbs with hθ | hθ
    · rw [updateLocked_break hθ]; exact .inl (lockedBreak_temp r s)
    · rw [updateLocked_slew hθ, lockedSlew_eq]
      dsimp only
      split
      · exact .inr ⟨r.theta, rfl⟩
      · exact .inl rfl
  case h_6 => exact .inl (updateNone_temp s)
  case h_7 => left; unfold updateCoast; split <;> rfl
  case h_8 =>
    exact .inl (congrArg State.temp (State.chooseCoastF_touches (s.setP 0)) :)

theorem servoUpdate_temp_legal {s : State} (h : s.temp.Legal) : (servoUpdate s).temp.Legal := by
  unfold servoUpdate
  dsimp only
  generalize hmarked : s.withServo (fun v => { v with lastUpdate := s.k }) = marked
  have htemp : (combinerRun marked).1.temp = s.temp := by
    rw [combinerRun_touches, ← hmarked]; rfl
  rcases servoAct_temp (combinerRun marked).2 (combinerRun marked).1 with he | ⟨theta, he⟩
  · rw [he, htemp]; exact h
  · obtain ⟨hlo, hhi⟩ : -Config.fLimit ≤ slewF _ _ theta ∧ slewF _ _ theta ≤ Config.fLimit :=
      clampSym_bounds (by decide) _
    rw [he, htemp]
    exact h.learn hlo hhi

/-- A reset empties the slots and leaves bins in their ranges (R18, R19, R135). -/
theorem Temperature.Legal.afterReset (h : m.Legal) : (Temperature.afterReset m.bins).Legal :=
  ⟨Nat.zero_le _, fun _ hq => (nomatch hq), h.2.2⟩

/-- Every command keeps the monitor legal, in the order of `effect_temp`. -/
theorem exec_temp_legal {c : Instr} {s t : State} (hs : s.temp.Legal) (h : exec c s = .next t) :
    t.temp.Legal := by
  rcases exec_effect h with rfl | rfl
  · exact hs
  rcases effect_temp c s with he | rfl | rfl | rfl | rfl | ⟨code, rfl⟩
  · rw [he]; exact hs
  · exact Temperature.afterReset_legal
  · exact hs.afterReset
  · exact servoUpdate_temp_legal hs
  · exact hs
  · show (conversionComplete code s).temp.Legal
    rw [conversionComplete_temp]; exact hs.complete code

end Legal

/-- Settles O55: a conversion's start and completion, the temperature and bin of the slots, the learning of a
bin, and the step, which runs the front command. -/
theorem conversionsAndLearning : Obligations.ConversionsAndLearning := by
  refine ⟨fun s n hk hnone => ?start, fun s k0 code hk0 hk hcode => ?complete,
    fun m h => ⟨?_, Temperature.current_none h⟩,
    fun m a b c d h => ⟨Temperature.current_of_slots h, ?_⟩,
    fun m f h => Temperature.learn_none h f, fun m f i old hi hold => ?learn,
    fun s t => step_keeps (P := fun s => s.temp.Legal) (fun _ _ hs => hs)
      fun _ _ _ => exec_temp_legal⟩
  case start =>
    exact exec_conversionStart_due (s.conversionStartDue_iff.2 ⟨by omega, by omega, hnone⟩)
  case complete =>
    have htemp := conversionComplete_temp code s
    refine ⟨_, exec_conversionComplete_due hcode (s.conversionCompleteDue_iff.2 ⟨k0, hk0, hk⟩),
      ?_, ?_, fun h => ?_, fun c hclock hbin hc => ?_⟩
    · rw [← conversionComplete_time, htemp]
      exact conversionComplete_touches code s
    · rw [htemp, ← quarterDegrees_eq]; rfl
    · rw [htemp] at h
      rw [conversionComplete_same h]
    · rw [htemp] at hbin ⊢
      rw [conversionComplete_changed hclock hbin hc, coastF_eq]; rfl
  · exact Temperature.bin_of_current (Temperature.current_none h)
  · exact Temperature.bin_of_current (Temperature.current_of_slots h)
  case learn =>
    refine ⟨old.learn f, ?_, fun h => DriftBin.learn_first h f,
      fun h => ⟨DriftBin.learn_later h f, old.learn_between f⟩⟩
    rw [Temperature.learn_some hi, Temperature.driftBin_of_mem hold]

end Sys2Proof.Machine

namespace Sys2Proof.Machine

open Sys2Proof.Laws

/-! # Which commands answer a next state -/

/-- The operands' ranges, for every command at once (4.1, R127). -/
theorem Instr.operandRange (c : Instr) : OperandRange.Statement c := by
  cases c with
  | trialTimeout _ | trackedSilent _ | silentTimeout _ | recordExpiry _ | barringEnd _ =>
    exact range_slot rfl rfl rfl
  | conversionComplete _ => exact range_code rfl rfl rfl
  | _ => exact range_free rfl rfl rfl

theorem eq_conversionComplete_of_codeOperand {c : Instr} {code : Nat}
    (h : codeOperand c = some code) : c = .conversionComplete code := by
  cases c with
  | conversionComplete _ => exact congrArg Instr.conversionComplete (Option.some.inj h)
  | _ => cases h

theorem slotCommand_next {slot : Nat} (hslot : slot < 24) (due : Bool) (n s : State) :
    ∃ t, slotCommand slot due n s = .next t := by
  by_cases h : due = true
  · exact ⟨n, slotCommand_due hslot h n s⟩
  · exact ⟨s, slotCommand_notDue hslot h n s⟩

theorem slotCommand_fault {slot : Nat} (hslot : 24 ≤ slot) (due : Bool) (n s : State) :
    slotCommand slot due n s = .fault (.noSuchSlot slot) :=
  if_neg (Nat.not_lt.2 hslot)

/-- A command with a slot operand is a timer of that slot. -/
theorem exec_of_slotOperand {c : Instr} {slot : Nat} (h : slotOperand c = some slot) (s : State) :
    ∃ due n, exec c s = slotCommand slot due n s := by
  cases c with
  | trialTimeout _ | trackedSilent _ | silentTimeout _ | recordExpiry _ | barringEnd _ =>
    cases h
    exact ⟨_, _, rfl⟩
  | _ => cases h

theorem exec_fault_of_slotOperand {c : Instr} {slot : Nat} (h : slotOperand c = some slot)
    (hslot : 24 ≤ slot) (s : State) : exec c s = .fault (.noSuchSlot slot) := by
  obtain ⟨due, n, hexec⟩ := exec_of_slotOperand h s
  exact hexec.trans (slotCommand_fault hslot due n s)

theorem exec_conversionComplete_next {code : Nat} (hcode : code < 1024) (s : State) :
    ∃ t, exec (.conversionComplete code) s = .next t :=
  ⟨_, if_pos hcode⟩

theorem exec_conversionComplete_fault {code : Nat} (hcode : 1024 ≤ code) (s : State) :
    exec (.conversionComplete code) s = .fault (.noSuchCode code) :=
  if_neg (Nat.not_lt.2 hcode)

/-- A command whose operands number nothing has no fault: its arm answers a next state, due or not. -/
theorem exec_next_of_no_operand {c : Instr} (hslot : slotOperand c = none)
    (hcode : codeOperand c = none) (s : State) : ∃ t, exec c s = .next t := by
  cases c with
  | trialTimeout _ | trackedSilent _ | silentTimeout _ | recordExpiry _ | barringEnd _ => cases hslot
  | conversionComplete _ => cases hcode
  | _ => exact ⟨_, rfl⟩

/-- By the operand the command has: a slot, a code, or neither (log 3). -/
theorem exec_next_of_wellFormed {c : Instr} (h : c.wellFormed = true) (s : State) :
    ∃ t, exec c s = .next t := by
  obtain ⟨hslots, hcodes⟩ := (Instr.operandRange c).1 h
  cases hslot : slotOperand c with
  | some slot =>
    obtain ⟨due, n, hexec⟩ := exec_of_slotOperand hslot s
    rw [hexec]
    exact slotCommand_next (hslots slot hslot) due n s
  | none =>
    cases hcode : codeOperand c with
    | some code =>
      rw [eq_conversionComplete_of_codeOperand hcode]
      exact exec_conversionComplete_next (hcodes code hcode) s
    | none => exact exec_next_of_no_operand hslot hcode s

/-- Settles O2: a well-formed command's operands lie in their ranges, and a slot or code beyond its range
is the fault of log 13. -/
theorem wellFormedCommandsComplete : Obligations.WellFormedCommandsComplete :=
  ⟨fun _ s h => exec_next_of_wellFormed h s,
    fun _ s h => ⟨exec_fault_of_slotOperand rfl h s, exec_fault_of_slotOperand rfl h s,
      exec_fault_of_slotOperand rfl h s, exec_fault_of_slotOperand rfl h s,
      exec_fault_of_slotOperand rfl h s⟩,
    fun _ s h => exec_conversionComplete_fault h s⟩

end Sys2Proof.Machine

namespace Sys2Proof.Machine

/-! # The Anchor Input: messages, the pairing of edges and the loss timer -/

/-! ## Pairing -/

/-- The offset of a labelled edge in whole ns, held at 2^62 ns (R142). -/
theorem anchorOffset_eq (secs : Nat) (t : TimeVal) :
    anchorOffset secs t = max (-(2 ^ 62)) (min (2 ^ 62)
      ((secs : Int) * 10 ^ 9 - (t.secs.val * 10 ^ 9 + t.ns.val : Nat))) := rfl

theorem consistentEdge_iff (secs k : Nat) (prev : Option LabelledEdge) :
    consistentEdge secs k prev = true ↔
      ∃ e, prev = some e ∧ secs = e.secs + 1 ∧ e.k + 19996000 ≤ k ∧ k ≤ e.k + 20004000 := by
  unfold consistentEdge
  cases prev <;> simp

theorem AnchorInput.edge_unlabelled {a : AnchorInput} (h : a.label = none) (c : Capture) :
    a.edge c =
      { a with
        lossK := c.k, lossExpired := false
        unlabelled := bump a.unlabelled, consistency := 0 } := by
  unfold AnchorInput.edge; rw [h]

/-- A labelled edge takes the label and forms the sample, whatever its judgement (R139, R142). -/
theorem AnchorInput.edge_labelled {a : AnchorInput} {l : Label} (h : a.label = some l)
    (c : Capture) :
    a.edge c =
      { a with
        lossK := c.k, lossExpired := false, label := none
        consistency := if consistentEdge l.secs c.k a.prev then min 3 (a.consistency + 1) else 1
        prev := some ⟨l.secs, c.k⟩
        sample := some (anchorSample l c) } := by
  unfold AnchorInput.edge; rw [h]

theorem AnchorInput.edge_consistent {a : AnchorInput} {l : Label} {c : Capture}
    (h : a.label = some l) (hc : consistentEdge l.secs c.k a.prev = true) :
    (a.edge c).consistency = min 3 (a.consistency + 1) := by
  rw [AnchorInput.edge_labelled h]; exact if_pos hc

theorem AnchorInput.edge_inconsistent {a : AnchorInput} {l : Label} {c : Capture}
    (h : a.label = some l) (hc : ¬ consistentEdge l.secs c.k a.prev = true) :
    (a.edge c).consistency = 1 := by
  rw [AnchorInput.edge_labelled h]; exact if_neg hc

/-! ## Edges on ANCHOR_PPS -/

theorem exec_ppsEdge_seen {s : State} (h : s.ppsSeen = true) :
    exec .ppsEdge s = .next (ppsEdge s) :=
  congrArg Host.Outcome.next (if_pos h)

theorem ppsEdge_spurious {s : State} {c : Capture} (h : s.cap.pps = some c)
    (hk : s.time.k - c.k < 18000000) :
    ppsEdge s = { s.takePps with cap := { s.cap with spuriousPps := bump s.cap.spuriousPps } } :=
  if_pos ((tooSoon_iff _ _ _).2 ⟨c, h, hk⟩)

theorem ppsEdge_accepted {s : State}
    (h : ∀ c, s.cap.pps = some c → 18000000 ≤ s.time.k - c.k) :
    ppsEdge s =
      { s.takePps with
        cap := { s.cap with
          pps := some (s.capture s.cap.ppsEdges), ppsEdges := s.cap.ppsEdges + 1 }
        anchor := s.anchor.edge (s.capture s.cap.ppsEdges) } :=
  if_neg (not_tooSoon h)

/-- Settles O18: the edge is spurious, or it is captured and paired, and a labelled one is judged against
the labelled edge before it. -/
theorem ppsEdgeJudgedAndPaired : Obligations.PpsEdgeJudgedAndPaired := by
  intro s hedge hen
  rw [exec_ppsEdge_seen (s.ppsSeen_iff.2 ⟨hedge, hen⟩)]
  refine ⟨fun c hc hsoon => ?spurious, fun hspaced => ?accepted⟩
  case spurious => rw [ppsEdge_spurious hc hsoon]; rfl
  case accepted =>
    rw [ppsEdge_accepted hspaced]
    refine ⟨_, _, rfl, rfl, rfl, fun h => AnchorInput.edge_unlabelled h _,
      fun l h => ⟨?labelled, fun e he hsecs hlo hhi => ?consistent, fun hnot => ?inconsistent⟩⟩
    case labelled =>
      rw [← anchorOffset_eq, AnchorInput.edge_labelled h]
      rfl
    case consistent =>
      exact AnchorInput.edge_consistent h ((consistentEdge_iff _ _ _).2 ⟨e, he, hsecs, hlo, hhi⟩)
    case inconsistent =>
      refine AnchorInput.edge_inconsistent h fun hc => ?_
      obtain ⟨e, he, hwindow⟩ := (consistentEdge_iff _ _ _).1 hc
      exact hnot e he hwindow

/-! ## Messages on ANCHOR_RX -/

/-- The first byte held is the sync byte itself (R137). -/
theorem AnchorRx.byte_hunt (b : Byte) (edge : Nat) :
    AnchorRx.hunt.byte b edge = if b = (0xC3 : Byte) then .assemble [0xC3] edge else .hunt := by
  unfold AnchorRx.byte
  dsimp only
  split
  next hsync => rw [hsync]
  next => rfl

theorem AnchorRx.byte_assemble (bytes : List Byte) (b : Byte) (lastEdge edge : Nat) :
    (AnchorRx.assemble bytes lastEdge).byte b edge = .assemble (bytes ++ [b]) edge := rfl

theorem exec_anchorByteReceived_due {s : State} (h : s.anchorByteDue = true) :
    exec .anchorByteReceived s = .next (anchorByte s) :=
  congrArg Host.Outcome.next (if_pos h)

theorem anchorByte_of_byteIn {s : State} {b : ByteIn} (h : s.anchor.byteIn = some b) :
    anchorByte s = s.withAnchor (AnchorInput.takeByte b) := by
  unfold anchorByte; rw [h]

theorem exec_anchorMessageComplete_enabled {s : State} (h : s.startup.anchorEn = true) :
    exec .anchorMessageComplete s = .next (anchorMessage s) :=
  congrArg Host.Outcome.next (if_pos h)

theorem AnchorInput.message_of_eleven {a : AnchorInput} {b : List Byte} {edge : Nat}
    (h : a.rx = .assemble b edge) (hlen : b.length = 11) : a.message = some b := by
  unfold AnchorInput.message; rw [h]; exact if_pos hlen

theorem anchorMessage_of_message {s : State} {b : List Byte} (h : s.anchor.message = some b) :
    anchorMessage s = s.withAnchor (AnchorInput.judge b) := by
  unfold anchorMessage; rw [h]

theorem anchorCorrect_iff (b : List Byte) :
    anchorCorrect b = true ↔
      crc8 ((b.drop 1).take 9) = b.getD 10 0 ∧ b.getD 1 0 = (0x01 : Byte) := by
  unfold anchorCorrect
  rw [Bool.and_eq_true, decide_eq_true_iff, decide_eq_true_iff]

/-- The valid flag is bit 0 of the flags byte (R197). -/
theorem anchorValidFlag_iff (b : List Byte) :
    anchorValidFlag b = true ↔ (b.getD 9 0).toNat % 2 = 1 := by
  unfold anchorValidFlag
  rw [BitVec.getLsbD, Nat.testBit_zero, decide_eq_true_iff]

/-- The judgement of a message by its bytes (R138). -/
theorem AnchorInput.judge_eq (b : List Byte) (a : AnchorInput) :
    a.judge b =
      if crc8 ((b.drop 1).take 9) = b.getD 10 0 ∧ b.getD 1 0 = (0x01 : Byte) then
        { a with
          rx := .hunt
          label :=
            if (b.getD 9 0).toNat % 2 = 1 then
              some ⟨beNat ((b.drop 2).take 5), beNat ((b.drop 7).take 2)⟩
            else none }
      else { a with rx := .hunt, msgErr := bump a.msgErr } := by
  unfold AnchorInput.judge
  simp only [anchorCorrect_iff, anchorValidFlag_iff, anchorLabel, field]

/-- Thirty bit times at 9,600 bit/s (R137). -/
theorem gapTicks_anchorRate : gapTicks anchorRate = 62500 := by decide

theorem exec_anchorMessageAbandoned_due {s : State} (h : s.anchorGapDue = true) :
    exec .anchorMessageAbandoned s =
      .next (s.withAnchor fun a => { a with rx := .hunt, msgErr := bump a.msgErr }) :=
  congrArg Host.Outcome.next (if_pos h)

/-! ## Loss -/

theorem exec_lossTimerExpiry_due {s : State} (h : s.lossDue = true) :
    exec .lossTimerExpiry s =
      .next ((s.withAnchor fun a => { a with consistency := 0, lossExpired := true }).latch
        .anchorLost) :=
  congrArg Host.Outcome.next (if_pos h)

/-- Settles O19: a byte by the receiver's state, a message by its judgement, and the two timers by when they
are due. -/
theorem anchorReceiverTakesMessages : Obligations.AnchorReceiverTakesMessages := by
  refine ⟨fun s b hen hb hcomplete => ?byte, fun s b edge hen hrx hlen => ?message,
    fun s b edge hen hidle hrx hlen hgap => ?abandon, fun s hen hclear hk => ?loss⟩
  case byte =>
    rw [exec_anchorByteReceived_due (s.anchorByteDue_iff.2 ⟨hen, b, hb, hcomplete⟩),
      anchorByte_of_byteIn hb, State.withAnchor, AnchorInput.takeByte]
    cases s.anchor.rx with
    | hunt => rw [AnchorRx.byte_hunt]
    | assemble bytes lastEdge => rw [AnchorRx.byte_assemble]
  case message =>
    rw [exec_anchorMessageComplete_enabled hen,
      anchorMessage_of_message (AnchorInput.message_of_eleven hrx hlen), State.withAnchor,
      AnchorInput.judge_eq]
  case abandon =>
    rw [← gapTicks_anchorRate] at hgap
    exact exec_anchorMessageAbandoned_due
      (s.anchorGapDue_iff.2 ⟨hen, hidle, b, edge, hrx, hlen, hgap⟩)
  case loss =>
    exact exec_lossTimerExpiry_due (s.lossDue_iff.2 ⟨hen, hclear, hk⟩)

end Sys2Proof.Machine

namespace Sys2Proof.Machine

/-! # The Sample Aligner: steps, the gap deadline and the ends of pulses -/

/-! ## Steps -/

theorem timeRange_eq : Config.timeRange = 2 ^ 40 * 10 ^ 9 * 2 ^ 32 := rfl

theorem unitsPerNs_eq : Config.unitsPerNs = 2 ^ 32 := rfl

theorem gridReached_iff (t g : TimeVal) :
    gridReached t g = true ↔ 2 * gridAhead t g < Config.timeRange := by
  unfold gridReached; exact decide_eq_true_iff

/-- The applied amount of a step is positive where its amount is: the limit at zero acts on backward steps
alone (R16, R17). -/
theorem TimeScale.appliedNs_pos_iff {ts : TimeScale} {a : Int} {d : Option Nat}
    (h : ts.step = some ⟨a, d⟩) : 0 < ts.appliedNs ↔ 0 < a := by
  rw [ts.appliedNs_eq h]
  split
  case isTrue hlimited => omega
  case isFalse => rfl

theorem skippedInstants_reached {p : Nat} {t g : TimeVal} (h : 2 * gridAhead t g < Config.timeRange) :
    skippedInstants p t g = gridAhead t g / Config.unitsPerNs / p + 1 :=
  if_pos ((gridReached_iff t g).2 h)

theorem skippedInstants_notReached {p : Nat} {t g : TimeVal}
    (h : Config.timeRange ≤ 2 * gridAhead t g) : skippedInstants p t g = 0 :=
  if_neg (mt (gridReached_iff t g).1 (Nat.not_lt.2 h))

section Announcement

variable {a : Aligner} {genMode : Bool} {p : Nat} {amount : Int} {tAfter g : TimeVal}

/-- A step skips instants in GENERATE and forward alone (R155, R156). -/
theorem Aligner.skips_notForward (h : genMode = false ∨ amount ≤ 0) :
    a.skips genMode p amount tAfter = 0 := by
  have hnot : ¬ (genMode = true ∧ 0 < amount) := by
    rintro ⟨hgen, hpos⟩
    rcases h with h | h
    · rw [h] at hgen; cases hgen
    · omega
  unfold Aligner.skips
  split
  · exact if_neg hnot
  · rfl

theorem Aligner.skips_forward (hgen : genMode = true) (hpos : 0 < amount) (hgrid : a.grid = some g) :
    a.skips genMode p amount tAfter = skippedInstants p tAfter g := by
  unfold Aligner.skips; rw [hgrid]; exact if_pos ⟨hgen, hpos⟩

/-- A step that skips nothing leaves the pointer, and flags the open block (R156, R157). -/
theorem Aligner.announce_noSkip (h : a.skips genMode p amount tAfter = 0) :
    (a.announce genMode p amount tAfter).grid = a.grid ∧
    ∀ b, a.block = some b → (a.announce genMode p amount tAfter).block =
      some { b with stepped := true, skipped := min 4294967295 b.skipped } := by
  unfold Aligner.announce
  rw [h]
  refine ⟨?_, fun b hb => congrArg (Option.map _) hb⟩
  cases hgrid : a.grid with
  | none => rfl
  | some g => exact congrArg some (gridAdvance_zero p g)

/-- A step that skips `c` instants moves the pointer by as many periods, and counts them in the open block
(R155, R157). -/
theorem Aligner.announce_skip {c : Nat} (h : a.skips genMode p amount tAfter = c)
    (hgrid : a.grid = some g) :
    (a.announce genMode p amount tAfter).grid = some (gridAdvance p c g) ∧
    ∀ b, a.block = some b → (a.announce genMode p amount tAfter).block =
      some { b with stepped := true, skipped := min 4294967295 (b.skipped + c) } := by
  unfold Aligner.announce
  rw [h]
  exact ⟨congrArg (Option.map _) hgrid, fun b hb => congrArg (Option.map _) hb⟩

end Announcement

theorem stepApplication_align (s : State) :
    (stepApplication s).align =
      s.align.announce s.startup.genMode s.cfg.period s.time.appliedNs s.time.stepped.t := by
  unfold stepApplication
  dsimp only
  rw [reportBreak_touches]

/-- Settles O12: a step that skips nothing flags the block alone, and one that reaches the pointer moves it
to the first instant past T. -/
theorem gridPassesOverStep : Obligations.GridPassesOverStep := by
  intro s a d hs hd
  have hpos := TimeScale.appliedNs_pos_iff hs
  refine ⟨_, exec_stepApplication_due (stepDue_of_step hs hd), ?_⟩
  rw [stepApplication_align, stepApplication_time]
  refine ⟨rfl, fun hnone => congrArg (Option.map _) hnone, fun hnot => ?notForward,
    fun g hgen ha hgrid hfrac hdvd => ?forward⟩
  case notForward =>
    exact Aligner.announce_noSkip (Aligner.skips_notForward (hnot.imp_right fun h => by omega))
  case forward =>
    have hskips := Aligner.skips_forward (p := s.cfg.period) (tAfter := s.time.stepped.t) hgen
      (hpos.2 ha) hgrid
    rw [← timeRange_eq, ← unitsPerNs_eq]
    intro range ahead count
    refine ⟨fun hbefore => ?notReached, fun hreached => ?reached⟩
    case notReached =>
      rw [← hgrid]
      exact Aligner.announce_noSkip (hskips.trans (skippedInstants_notReached hbefore))
    case reached =>
      obtain ⟨hmoved, hcounted⟩ :=
        Aligner.announce_skip (hskips.trans (skippedInstants_reached hreached)) hgrid
      obtain ⟨hfrac', hdvd', hpast, hleast⟩ :=
        gridAdvance_past s.cfg.period_pos s.cfg.period_dvd s.time.stepped.t hfrac hdvd
      exact ⟨⟨_, hmoved, hfrac', hdvd', gridAdvance_units _ _ _, hpast, hleast⟩, hcounted⟩

/-! ## The gap deadline -/

theorem exec_gapDeadline_due {s : State} (h : s.gapDeadlineDue = true) :
    exec .gapDeadline s = .next (gapDeadline s) :=
  congrArg Host.Outcome.next (if_pos h)

theorem gapDeadline_of_block {s : State} {b : OpenBlock} (h : s.align.block = some b) :
    gapDeadline s =
      { s with
        align := { s.align with block := none, gapDeadline := none }
        port := (closeShort b s).port } := by
  unfold gapDeadline
  rw [h]
  dsimp only
  rw [closeShort_touches]
  rfl

/-- The rate deviation of a short close: 0 for one sample (R161). -/
def shortDeviation (s : State) (b : OpenBlock) : Int :=
  if b.samples < 2 then 0 else rateDeviation s.cfg.period (shortPeriod b)

theorem closeShort_eq (b : OpenBlock) (s : State) :
    closeShort b s = closeBlock b (shortPeriod b) (shortDeviation s b) true s := rfl

theorem short_single {b : OpenBlock} (h : b.samples < 2) (s : State) :
    shortPeriod b = 0 ∧ shortDeviation s b = 0 :=
  ⟨if_pos h, if_pos h⟩

/-- Two samples or more measure the period between the first and the last capture (R152, R161). -/
theorem short_several {b : OpenBlock} (h : 2 ≤ b.samples) (s : State) :
    shortPeriod b = measuredPeriod b.first.r b.last.r (b.samples - 1) ∧
    shortDeviation s b = rateDeviation s.cfg.period (shortPeriod b) :=
  ⟨if_neg (Nat.not_lt.2 h), if_neg (Nat.not_lt.2 h)⟩

/-- Settles O21: the deadline is due, and the short close reports the block with its period. -/
theorem gapDeadlineClosesShort : Obligations.GapDeadlineClosesShort := by
  intro s b d hblock hgap hd
  refine ⟨_, shortPeriod b, shortDeviation s b, timingRecord s b _ _ true,
    exec_gapDeadline_due (s.gapDeadlineDue_iff.2 ⟨b, d, hblock, hgap, hd⟩), ?_,
    fun h => short_single h s, fun h => short_several h s, timingRecord_reports s b _ _ true, ?_⟩
  · rw [gapDeadline_of_block hblock]
  · rw [gapDeadline_of_block hblock, closeShort_eq]
    exact closeBlock_arrives b _ _ true s

/-! ## The ends of pulses -/

theorem exec_sampleCmdPulseEnd_due {s : State} (h : s.cmdPulseEndDue = true) :
    exec .sampleCmdPulseEnd s =
      .next { s with align := { s.align with pulseEnd := none, cmdLowFrom := s.time.k } } :=
  congrArg Host.Outcome.next (if_pos h)

theorem exec_sampleCmdPulseEnd_notDue {s : State} (h : ¬ s.cmdPulseEndDue = true) :
    exec .sampleCmdPulseEnd s = .next s :=
  congrArg Host.Outcome.next (if_neg h)

theorem exec_coincOutPulseEnd_due {s : State} (h : s.coincPulseEndDue = true) :
    exec .coincOutPulseEnd s = .next { s with coinc := { s.coinc with pulseEnd := none } } :=
  congrArg Host.Outcome.next (if_pos h)

theorem exec_coincOutPulseEnd_notDue {s : State} (h : ¬ s.coincPulseEndDue = true) :
    exec .coincOutPulseEnd s = .next s :=
  congrArg Host.Outcome.next (if_neg h)

/-- A pulse whose end lies ahead does not end on this tick. -/
theorem not_pulseEnded {pulseEnd : Option Nat} {k e : Nat} (h : pulseEnd = some e) (hk : k < e) :
    ¬ ∃ e, pulseEnd = some e ∧ e ≤ k := by
  rintro ⟨e', he', hle⟩
  obtain rfl : e = e' := Option.some.inj (h.symm.trans he')
  omega

/-- Settles O23, pulse by pulse: due at its end, and not before. -/
theorem pulsesEnd : Obligations.PulsesEnd := by
  refine ⟨fun s e h hk => ?cmdEnds, fun s e h hk => ?coincEnds, fun s e h hk => ?cmdStays,
    fun s e h hk => ?coincStays⟩
  case cmdEnds =>
    exact ⟨_, exec_sampleCmdPulseEnd_due (s.cmdPulseEndDue_iff.2 ⟨e, h, hk⟩), rfl,
      congrArg Option.isSome h, rfl⟩
  case coincEnds =>
    exact ⟨_, exec_coincOutPulseEnd_due (s.coincPulseEndDue_iff.2 ⟨e, h, hk⟩), rfl,
      congrArg Option.isSome h, rfl⟩
  case cmdStays =>
    exact exec_sampleCmdPulseEnd_notDue (mt s.cmdPulseEndDue_iff.1 (not_pulseEnded h hk))
  case coincStays =>
    exact exec_coincOutPulseEnd_notDue (mt s.coincPulseEndDue_iff.1 (not_pulseEnded h hk))

end Sys2Proof.Machine

namespace Sys2Proof.Machine

/-! # The Coincidence Unit: what every step keeps of it, and how stored times move and leave -/

/-! ## What the commands do to the unit -/

/-- The unit after a step: its times moved, and both lists emptied where T's seconds wrap (R168, R174). -/
theorem stepApplication_coinc (s : State) :
    (stepApplication s).coinc =
      if s.time.stepped.wraps = s.time.wraps then s.coinc.moveTimes s.time.appliedNs s.time.k
      else (s.coinc.moveTimes s.time.appliedNs s.time.k).emptied := by
  unfold stepApplication
  dsimp only
  rw [reportBreak_touches]
  rfl

/-- The unit after a tick: both lists are emptied where T's seconds wrap (R168). -/
theorem tick_coinc (pins : Pins) (s : State) :
    (tick pins s).coinc =
      if (tick pins s).time.wraps = s.time.wraps then s.coinc else s.coinc.emptied :=
  congrArg State.coinc (tick_touches pins s)

/-- A trigger leaves the unit, or is an own trigger of a state with the same unit (R32, R164). -/
theorem trigInEdge_coinc (s : State) :
    (trigInEdge s).coinc = s.coinc ∨
      (trigInEdge s).coinc =
        (ownTrigger (s.capture s.cap.trigEdges) (captureTrig s.takeTrig)).coinc := by
  unfold trigInEdge
  split
  · exact .inl rfl
  · exact .inr rfl

/-- The unit of `t` is that of `s`, or that of `s` after the notices of a mark (R58, R166). -/
def NoticesTaken (s t : State) : Prop :=
  t.coinc = s.coinc ∨ ∃ m x, x.coinc = s.coinc ∧ t.coinc = (takeNotices m x).coinc

theorem NoticesTaken.legal {s t : State} (h : NoticesTaken s t) (hs : s.coinc.Legal) :
    t.coinc.Legal := by
  rcases h with he | ⟨m, x, hx, he⟩
  · rw [he]; exact hs
  · rw [he]; exact takeNotices_legal (hx ▸ hs) m

/-- A valid mark reaches the unit through its notices, where it is used (R58). -/
theorem handleMark_notices (m : Mark) (c : Capture) (s : State) :
    NoticesTaken s (handleMark m c s) := by
  by_cases hown : m.station = s.own
  · rw [handleMark_own hown, State.enterMuted_touches]
    exact .inl rfl
  cases huse : s.peers.useMark (m.use c) with
  | none =>
    rw [handleMark_unused hown huse]
    exact .inl rfl
  | some p =>
    rw [handleMark_used hown huse, placeEcho_touches]
    refine .inr ⟨m, takeEchoes m c { s with peers := p }, ?_, rfl⟩
    rw [takeEchoes_touches]

theorem markCheck_notices (body : List Byte) (s : State) : NoticesTaken s (markCheck body s) := by
  unfold markCheck
  split
  case isTrue => exact .inl rfl
  case isFalse =>
    split
    case isTrue => exact .inl rfl
    case isFalse =>
      split
      case h_1 => exact handleMark_notices _ _ (endReceipt s)
      case h_2 => exact .inl rfl

theorem appendByte_notices (body : List Byte) (edge : Nat) (s : State) :
    NoticesTaken s (appendByte body edge s) := by
  unfold appendByte
  split
  case isTrue => exact .inl rfl
  case isFalse =>
    split
    case isTrue => exact .inl rfl
    case isFalse =>
      split
      case isTrue => exact .inl rfl
      case isFalse => exact markCheck_notices body s

/-- A byte of the link reaches the unit only where it ends a valid mark (R54 to R58). -/
theorem linkByteReceived_notices (s : State) : NoticesTaken s (linkByteReceived s) := by
  unfold linkByteReceived
  split
  case h_2 => exact .inl rfl
  case h_1 b _ =>
    unfold receiveByte
    split
    case h_1 => exact .inl rfl
    case h_2 => unfold huntByte; split <;> exact .inl rfl
    case h_3 body _ _ => exact appendByte_notices (body ++ [b.value]) b.edge (takeLinkByte s)

/-- A launch carries outgoing notices and touches nothing else of the unit (R165). -/
theorem referenceInstant_coinc (s : State) :
    (referenceInstant s).coinc = s.coinc ∨
      (referenceInstant s).coinc = { s.coinc with outgoing := carried s.coinc.outgoing } := by
  unfold referenceInstant
  split
  · exact .inr rfl
  · exact .inl rfl

/-! ## The unit stays legal along every step -/

theorem tick_coinc_legal {s : State} (h : s.coinc.Legal) (pins : Pins) :
    (tick pins s).coinc.Legal := by
  rw [tick_coinc]
  split
  · exact h
  · exact emptied_legal h

theorem stepApplication_coinc_legal {s : State} (h : s.coinc.Legal) :
    (stepApplication s).coinc.Legal := by
  have hmoved := moveTimes_legal h s.time.appliedNs s.time.k
  rw [stepApplication_coinc]
  split
  · exact hmoved
  · exact emptied_legal hmoved

theorem trigInEdge_coinc_legal {s : State} (h : s.coinc.Legal) : (trigInEdge s).coinc.Legal := by
  rcases trigInEdge_coinc s with he | he
  · rw [he]; exact h
  · rw [he]; exact ownTrigger_legal (s := captureTrig s.takeTrig) h _

theorem referenceInstant_coinc_legal {s : State} (h : s.coinc.Legal) :
    (referenceInstant s).coinc.Legal := by
  rcases referenceInstant_coinc s with he | he
  · rw [he]; exact h
  · rw [he]; exact h.sublist (List.Sublist.refl _) (carried_length _) (le_refl _)

/-- Every command keeps the unit legal, in the order of `effect_coinc`. -/
theorem exec_coinc_legal {c : Instr} {s t : State} (hs : s.coinc.Legal) (h : exec c s = .next t) :
    t.coinc.Legal := by
  rcases exec_effect h with rfl | rfl
  · exact hs
  rcases effect_coinc c s with
    he | ⟨pins, rfl⟩ | rfl | rfl | rfl | rfl | rfl | rfl | rfl | rfl
  · rw [he]; exact hs
  · exact tick_coinc_legal hs pins
  · exact Sys2Proof.Machine.afterReset_legal
  · exact Sys2Proof.Machine.afterReset_legal
  · exact stepApplication_coinc_legal hs
  · exact trigInEdge_coinc_legal hs
  · exact (linkByteReceived_notices s).legal hs
  · exact referenceInstant_coinc_legal hs
  · exact hs.sublist List.filter_sublist (le_refl _) (le_refl _)
  · exact hs

/-- Settles O26: a step runs the front command, which keeps the unit legal. -/
theorem coincidenceUnitKeptLegal : Obligations.CoincidenceUnitKeptLegal :=
  fun _ _ => step_keeps (P := fun s => s.coinc.Legal) (fun _ _ hs => hs)
    (fun _ _ _ => exec_coinc_legal)

/-! ## Stored times move with a step -/

/-- A stored time is held between 0 and 2^62 ns (10.1). -/
theorem holdTime_eq (x : Int) : holdTime x = (max 0 (min (2 ^ 62) x)).toNat := by
  unfold holdTime Config.hold62
  omega

/-- A time stored on the tick of a step is already on the stepped scale (R175). -/
theorem moveTime_sameTick (amount : Int) (k time : Nat) : moveTime amount k k time = time :=
  if_pos (.inr rfl)

/-- A time stored on another tick moves by the amount, held between 0 and 2^62 ns (R174). -/
theorem moveTime_otherTick (amount : Int) {k storedK time : Nat} (hk : storedK ≠ k)
    (ht : time ≤ 2 ^ 62) :
    (moveTime amount k storedK time : Int) = max 0 (min (2 ^ 62) (time + amount)) := by
  unfold moveTime
  by_cases h0 : amount = 0
  · rw [if_pos (.inl h0)]; omega
  · rw [if_neg (not_or.2 ⟨h0, hk⟩), holdTime_eq]; omega

/-- A step that stays below T's range does not wrap its seconds (R5, R16). -/
theorem TimeScale.stepped_wraps_same {ts : TimeScale} {a : Int} {d : Option Nat}
    (h : ts.step = some ⟨a, d⟩) (hlt : (ts.t.units : Int) + a * 2 ^ 32 < 2 ^ 40 * 10 ^ 9 * 2 ^ 32) :
    ts.stepped.wraps = ts.wraps := by
  by_cases hl : (ts.t.units : Int) + a * 2 ^ 32 < 0
  · exact (ts.stepped_limited h hl).2
  · have hrange := range_cast
    rw [(ts.stepped_t h hl).2, Nat.div_eq_of_lt (by omega), Nat.add_zero]

/-- Settles O13: the step is applied, its wrap count stays, and each stored time moves by `moveTime`. -/
theorem storedTimesMoveWithStep : Obligations.StoredTimesMoveWithStep := by
  intro s a d hs hd hlt
  have hcoinc : (stepApplication s).coinc = s.coinc.moveTimes s.time.appliedNs s.time.k :=
    (stepApplication_coinc s).trans (if_pos (TimeScale.stepped_wraps_same hs hlt))
  refine ⟨_, s.time.appliedNs, exec_stepApplication_due (stepDue_of_step hs hd),
    s.time.appliedNs_eq hs, moveTime s.time.appliedNs s.time.k, moveTime_sameTick _ _,
    fun _ _ hk ht => moveTime_otherTick _ hk ht, ?_⟩
  rw [hcoinc]
  exact ⟨fun _ => orderEntries_sorted _, orderEntries_perm _, rfl⟩

/-! ## Stale entries, and a wrap of T -/

theorem coincT_eq (s : State) : s.coincT = min (2 ^ 62) s.nowT.nsCount := holdTime_natCast _

/-- An entry stays where T is at most 300 s past its time (R168). -/
theorem not_stale_iff (now time : Nat) : (!stale now time) = true ↔ now ≤ time + 300000000000 := by
  rw [Bool.not_eq_true', ← Bool.not_eq_true, stale_iff, Nat.not_lt]
  rfl

/-- Settles O28: the entries that LIST_EXPIRY keeps, and the two commands on which T's seconds can wrap. -/
theorem staleEntriesLeaveTheList : Obligations.StaleEntriesLeaveTheList := by
  refine ⟨fun s => ⟨_, rfl, rfl, List.filter_sublist, fun e => ?expiry⟩, fun s pins t h => ?tick,
    fun s t h hwrap => ?step⟩
  case expiry =>
    rw [← coincT_eq, ← not_stale_iff]
    exact List.mem_filter
  case tick =>
    cases h
    exact ⟨fun hwrap => (tick_coinc pins s).trans (if_neg hwrap),
      fun hsame => (tick_coinc pins s).trans (if_pos hsame)⟩
  case step =>
    rcases exec_effect h with rfl | rfl
    · exact absurd rfl hwrap
    have hwrap : s.time.stepped.wraps ≠ s.time.wraps := stepApplication_time s ▸ hwrap
    show (stepApplication s).coinc.list = [] ∧ (stepApplication s).coinc.windows = [] ∧
      (stepApplication s).coinc.outgoing.length = s.coinc.outgoing.length
    rw [stepApplication_coinc, if_neg hwrap]
    exact ⟨rfl, rfl, List.length_map _⟩

end Sys2Proof.Machine

namespace Sys2Proof.Machine

/-! # The Coincidence Unit: insertions and declarations -/

/-! ## The declaration test -/

theorem Window.has_iff (w : Window) (time : Nat) :
    w.has time = true ↔ w.lo ≤ time ∧ time ≤ w.hi := decide_eq_true_iff

/-- Some declared window holds the time (R169). -/
theorem windows_any_has {windows : List Window} {time : Nat} :
    (windows.any fun w => w.has time) = true ↔ ∃ v ∈ windows, v.lo ≤ time ∧ time ≤ v.hi := by
  simp only [List.any_eq_true, Window.has_iff]

/-- An entry inside a declared window is claimed as a late joiner (R169). -/
theorem declarationTest_joins {e : CoincEntry} {s : State}
    (h : ∃ v ∈ s.coinc.windows, v.lo ≤ e.time ∧ e.time ≤ v.hi) :
    declarationTest e s =
      s.withCoinc fun c =>
        { c with list := c.list.map (claimOrder e.order), lateJoiner := bump c.lateJoiner } :=
  if_pos (windows_any_has.2 h)

theorem not_windows_any_has {windows : List Window} {time : Nat}
    (h : ∀ v ∈ windows, ¬ (v.lo ≤ time ∧ time ≤ v.hi)) :
    ¬ (windows.any fun w => w.has time) = true := fun hany => by
  obtain ⟨v, hv, hin⟩ := windows_any_has.1 hany
  exact h v hv hin

/-- Entry `x` starts a window of width `w` that holds time `t` and `kc` distinct stations (R169). -/
def StartsWindow (w kc t : Nat) (l : List CoincEntry) (x : CoincEntry) : Prop :=
  x.claimed = false ∧ x.time ≤ t ∧ t ≤ x.time + w ∧
    kc ≤ ((openIn w x.time l).map CoincEntry.station).dedup.length

/-- The test of the search is `StartsWindow` (R169). -/
theorem startsWindow_iff (w kc t : Nat) (l : List CoincEntry) (x : CoincEntry) :
    (!x.claimed && decide (x.time ≤ t ∧ t ≤ x.time + w) &&
        decide (kc ≤ stationCount w x.time l)) = true ↔ StartsWindow w kc t l x := by
  unfold StartsWindow stationCount
  rw [stationsOf_length]
  simp only [Bool.and_eq_true, Bool.not_eq_true', decide_eq_true_eq, and_assoc]

theorem windowStart_none {w kc t : Nat} {l : List CoincEntry}
    (h : ∀ x ∈ l, ¬ StartsWindow w kc t l x) : windowStart w kc t l = none :=
  List.find?_eq_none.2 fun x hx => mt (startsWindow_iff w kc t l x).1 (h x hx)

/-- The search answers the first entry of the list that starts a window (R169). -/
theorem windowStart_first {w kc t : Nat} {l before after : List CoincEntry} {x : CoincEntry}
    (hl : l = before ++ x :: after) (hbefore : ∀ y ∈ before, ¬ StartsWindow w kc t l y)
    (hx : StartsWindow w kc t l x) : windowStart w kc t l = some x := by
  refine List.find?_eq_some_iff_append.2
    ⟨(startsWindow_iff w kc t l x).2 hx, before, after, hl, fun y hy => ?_⟩
  rw [Bool.not_eq_true', ← Bool.not_eq_true]
  exact mt (startsWindow_iff w kc t l y).1 (hbefore y hy)

/-- Outside the declared windows nothing comes of an entry for which no entry starts a window (R169). -/
theorem declarationTest_none {e : CoincEntry} {s : State}
    (hout : ∀ v ∈ s.coinc.windows, ¬ (v.lo ≤ e.time ∧ e.time ≤ v.hi))
    (h : ∀ x ∈ s.coinc.list, ¬ StartsWindow s.cfg.windowNs s.cfg.kc e.time s.coinc.list x) :
    declarationTest e s = s := by
  unfold declarationTest
  rw [if_neg (not_windows_any_has hout), windowStart_none h]

/-- Outside the declared windows the first entry that starts a window declares it (R169). -/
theorem declarationTest_first {e x : CoincEntry} {s : State} {before after : List CoincEntry}
    (hout : ∀ v ∈ s.coinc.windows, ¬ (v.lo ≤ e.time ∧ e.time ≤ v.hi))
    (hl : s.coinc.list = before ++ x :: after)
    (hbefore : ∀ y ∈ before, ¬ StartsWindow s.cfg.windowNs s.cfg.kc e.time s.coinc.list y)
    (hx : StartsWindow s.cfg.windowNs s.cfg.kc e.time s.coinc.list x) :
    declarationTest e s = declare x s := by
  unfold declarationTest
  rw [if_neg (not_windows_any_has hout), windowStart_first hl hbefore hx]

/-- A declaration, field by field (R170 to R172). -/
theorem declare_eq (x : CoincEntry) (s : State) :
    declare x s =
      { s with
        coinc := { s.coinc with
          list := s.coinc.list.map (claimIn s.cfg.windowNs x.time)
          windows :=
            (if s.coinc.windows.length < 4 then s.coinc.windows else s.coinc.windows.tail) ++
              [⟨x.time, min (2 ^ 62) (x.time + s.cfg.windowNs), x.storedK⟩]
          pulseEnd := some (s.time.k + 200000) }
        port := s.port.arrive s.time.k s.startup.endK.isSome
          (.coincidence
            { start := ⟨x.time / 10 ^ 9, x.time % 10 ^ 9⟩
              window := s.cfg.window
              stations :=
                ((openIn s.cfg.windowNs x.time s.coinc.list).map CoincEntry.station).dedup.length
              items := ((openIn s.cfg.windowNs x.time s.coinc.list).take 16).map fun y =>
                ⟨y.station, (y.time - x.time) / 1000, (y.u + 999) / 1000⟩ }) } := by
  rw [← stationsOf_length]
  rfl

/-- Settles O27: the test joins a window, or the search finds the first entry that starts one, or none. -/
theorem declarationFindsEarliestWindow : Obligations.DeclarationFindsEarliestWindow := by
  intro e s w inside starts
  refine ⟨fun hin => ?joins, fun hout => ⟨fun hno => ?none, fun before x after hl hbefore hx => ?first⟩⟩
  case joins => exact declarationTest_joins hin
  case none => exact declarationTest_none hout hno
  case first => exact (declarationTest_first hout hl hbefore hx).trans (declare_eq x s)

/-! ## A peer's notice -/

theorem PeerTable.answer_untracked {p : PeerTable} {station : Nat}
    (h : ∀ e, p.find station = some e → e.state ≠ .tracked) (q : QWord) (k : Nat) (seq : Seq) :
    p.answer q k station seq = .untracked := by
  unfold PeerTable.answer
  split
  case h_1 => rfl
  case h_2 e he => exact if_pos (h e he)

theorem PeerTable.answer_repeated {p : PeerTable} {station : Nat} {e : PeerEntry} {seq : Seq}
    (hfind : p.find station = some e) (ht : e.state = .tracked) (hseq : seq ∈ e.recent) (q : QWord)
    (k : Nat) : p.answer q k station seq = .repeated := by
  unfold PeerTable.answer
  rw [hfind]
  exact (if_neg (not_not.2 ht)).trans (if_pos hseq)

/-- A new notice of a TRACKED sender is answered with the offset derived now (R82). -/
theorem PeerTable.answer_of_new {p : PeerTable} {station : Nat} {e : PeerEntry} {seq : Seq} {q : QWord}
    {k : Nat} {o : PeerOffset} (hfind : p.find station = some e) (ht : e.state = .tracked)
    (hseq : seq ∉ e.recent) (ho : e.derive q k = some o) :
    p.answer q k station seq = .new o.theta o.u := by
  unfold PeerTable.answer
  rw [hfind]
  refine (if_neg (not_not.2 ht)).trans ((if_neg hseq).trans ?_)
  rw [ho]

theorem peerNotice_untracked {s : State} {station : Nat} {n : NoticeItem}
    (h : s.peers.answer s.nowQ s.k station n.seq = .untracked) :
    peerNotice station n s =
      { s with coinc := { s.coinc with noticeUntracked := bump s.coinc.noticeUntracked } } := by
  unfold peerNotice; rw [h]; rfl

theorem peerNotice_repeated {s : State} {station : Nat} {n : NoticeItem}
    (h : s.peers.answer s.nowQ s.k station n.seq = .repeated) : peerNotice station n s = s := by
  unfold peerNotice; rw [h]

/-- A new notice is remembered, and inserted at its time less θ (R166). -/
theorem peerNotice_new {s : State} {station : Nat} {n : NoticeItem} {theta : Int} {u : Nat}
    (h : s.peers.answer s.nowQ s.k station n.seq = .new theta u) :
    peerNotice station n s =
      insertEntry station n.seq
        (max 0 (min (2 ^ 62) ((n.time.secs : Int) * 10 ^ 9 + n.time.ns - theta))).toNat u
        { s with peers := s.peers.noteNotice station n.seq } := by
  have htime : (n.time.nsCount : Int) = (n.time.secs : Int) * 10 ^ 9 + n.time.ns := by
    unfold Stamp.nsCount Config.nsPerSecond
    push_cast
    rfl
  unfold peerNotice
  rw [h, ← htime, ← holdTime_eq]

/-! ## An insertion -/

theorem insertEntry_stale {s : State} {time : Nat} (h : stale s.coincT time = true) (station : Nat)
    (seq : Seq) (u : Nat) : insertEntry station seq time u s = s :=
  if_pos h

theorem insertEntry_placed {s : State} {time : Nat} (h : ¬ stale s.coincT time = true) (station : Nat)
    (seq : Seq) (u : Nat) :
    insertEntry station seq time u s =
      declarationTest (newEntry s station seq time u)
        (s.withCoinc (Coincidence.place (newEntry s station seq time u))) :=
  if_neg h

/-- Two entries share their key where station and trigger sequence agree (R167). -/
theorem sameKey_eq_beq (x e : CoincEntry) :
    x.sameKey e = (x.station == e.station && x.seq == e.seq) := by
  unfold CoincEntry.sameKey
  rw [Bool.decide_and]
  rfl

/-- Settles O29: the answer to the notice decides; an insertion is stale, or its entry is placed and
tested. -/
theorem peerNoticesEnterTheList : Obligations.PeerNoticesEnterTheList := by
  refine ⟨fun s station n h => ?untracked, fun s station n e hfind ht hseq => ?repeated,
    fun s station n e o hfind ht hseq ho => ?new, fun s station seq time u => ⟨fun h => ?stale,
    fun h => ?placed⟩⟩
  case untracked => exact peerNotice_untracked (PeerTable.answer_untracked h _ _ _)
  case repeated => exact peerNotice_repeated (PeerTable.answer_repeated hfind ht hseq _ _)
  case new => exact peerNotice_new (PeerTable.answer_of_new hfind ht hseq ho)
  case stale =>
    rw [← coincT_eq] at h
    exact insertEntry_stale ((stale_iff _ _).2 h) station seq u
  case placed =>
    rw [← coincT_eq] at h
    have hfresh : ¬ stale s.coincT time = true := mt (stale_iff _ _).1 (Nat.not_lt.2 h)
    have hkey : (fun x : CoincEntry => !(x.station == station && x.seq == seq)) =
        fun x => !x.sameKey (newEntry s station seq time u) :=
      funext fun x => congrArg Bool.not (sameKey_eq_beq x (newEntry s station seq time u)).symm
    refine ⟨newEntry s station seq time u, _, _, rfl, rfl, placeEntry_perm _ _, fun hsorted => ?_, ?_⟩
    · refine placeEntry_sorted _ (hsorted.sublist ?_)
      split
      · exact List.filter_sublist
      · exact (List.tail_sublist _).trans List.filter_sublist
    · rw [insertEntry_placed hfresh, hkey]
      rfl

end Sys2Proof.Machine

namespace Sys2Proof.Machine

/-! # The Record Port: its invariant, its queue, its timers and REARM -/

/-! ## What hands a record to the port keeps it legal -/

theorem RecordPort.Legal.takeHead {p : RecordPort} (h : p.Legal) (k : Nat) :
    (p.takeHead k).Legal := by
  obtain ⟨hqueue, hcursor⟩ := h
  refine ⟨(p.takeHead_length k).trans hqueue, ?_⟩
  rw [RecordPort.takeHead_keeps]
  exact hcursor

section PortLegal

variable {s : State} (h : s.port.Legal)
include h

theorem arrive_port_legal (r : Record) : (s.arrive r).port.Legal := h.arrive s.k s.ended r

theorem enterMuted_port_legal : s.enterMuted.port.Legal := by
  cases hm : s.link.muted with
  | true => rw [State.enterMuted_muted hm]; exact h
  | false => rw [State.enterMuted_entered hm]; exact h

theorem latchStraps_port_legal (pins : Pins) : (latchStraps pins s).port.Legal := by
  unfold latchStraps
  dsimp only
  split
  · exact enterMuted_port_legal h
  · exact h

/-! ### Coincidences -/

theorem declarationTest_port_legal (e : CoincEntry) : (declarationTest e s).port.Legal := by
  unfold declarationTest
  split
  · exact h
  · split
    · exact arrive_port_legal (s := s.withCoinc _) h _
    · exact h

theorem insertEntry_port_legal (station : Nat) (seq : Seq) (time u : Nat) :
    (insertEntry station seq time u s).port.Legal := by
  unfold insertEntry
  split
  · exact h
  · exact declarationTest_port_legal (s := s.withCoinc _) h _

theorem peerNotice_port_legal (station : Nat) (n : NoticeItem) :
    (peerNotice station n s).port.Legal := by
  unfold peerNotice
  split
  · exact h
  · exact h
  · apply insertEntry_port_legal
    exact h

theorem takeNotices_port_legal (m : Mark) : (takeNotices m s).port.Legal := by
  unfold takeNotices
  generalize m.notices = ns
  induction ns generalizing s with
  | nil => exact h
  | cons n ns ih => exact ih (peerNotice_port_legal h m.station n)

theorem ownTrigger_port_legal (c : Capture) : (ownTrigger c s).port.Legal := by
  rw [ownTrigger_eq]
  exact insertEntry_port_legal (h.arrive _ _ _) _ _ _ _

theorem trigInEdge_port_legal : (trigInEdge s).port.Legal := by
  unfold trigInEdge
  split
  · exact h
  · exact ownTrigger_port_legal (s := captureTrig s.takeTrig) h _

/-! ### Marks -/

theorem handleMark_port_legal (m : Mark) (c : Capture) : (handleMark m c s).port.Legal := by
  by_cases hown : m.station = s.own
  · rw [handleMark_own hown]
    exact enterMuted_port_legal h
  cases huse : s.peers.useMark (m.use c) with
  | none =>
    rw [handleMark_unused hown huse]
    exact h
  | some p =>
    rw [handleMark_used hown huse, placeEcho_touches]
    refine takeNotices_port_legal ?_ m
    rw [takeEchoes_touches]
    exact h

theorem markCheck_port_legal (body : List Byte) : (markCheck body s).port.Legal := by
  unfold markCheck
  split
  · exact h
  · split
    · exact h
    · split
      · exact handleMark_port_legal (s := endReceipt s) h _ _
      · exact h

theorem appendByte_port_legal (body : List Byte) (edge : Nat) :
    (appendByte body edge s).port.Legal := by
  unfold appendByte
  split
  · exact h
  · split
    · exact h
    · split
      · exact h
      · exact markCheck_port_legal h _

theorem receiveByte_port_legal (b : Byte) (edge : Nat) : (receiveByte b edge s).port.Legal := by
  unfold receiveByte
  split
  case h_1 => exact h
  case h_2 => unfold huntByte; split <;> exact h
  case h_3 => exact appendByte_port_legal h _ _

theorem linkByteReceived_port_legal : (linkByteReceived s).port.Legal := by
  unfold linkByteReceived
  split
  · exact receiveByte_port_legal (s := takeLinkByte s) h _ _
  · exact h

/-! ### Blocks of samples -/

theorem closeBlock_port_legal (b : OpenBlock) (period dev : Int) (gap : Bool) :
    (closeBlock b period dev gap s).port.Legal := by
  have harrives := closeBlock_arrives b period dev gap s
  unfold TimingArrives at harrives
  rw [harrives]
  apply RecordPort.Legal.arrive
  exact h

theorem takeSample_port_legal (c : Capture) : (takeSample c s).port.Legal := by
  unfold takeSample
  split
  · exact h
  · split
    · exact h
    · exact closeBlock_port_legal h _ _ _ _

theorem strobeEdge_port_legal : (strobeEdge s).port.Legal := by
  unfold strobeEdge
  split
  · exact h
  · exact takeSample_port_legal (s := captureSample s.takeStrobe) h _

theorem gridPulse_port_legal : (gridPulse s).port.Legal := by
  unfold gridPulse
  exact takeSample_port_legal (s := (captureSample s).withAlign _) h _

theorem gapDeadline_port_legal : (gapDeadline s).port.Legal := by
  unfold gapDeadline
  split
  · exact closeBlock_port_legal h _ _ _ _
  · exact h

/-! ### Steps, timers and the end of the configuration read -/

theorem stepApplication_port_legal : (stepApplication s).port.Legal := by
  cases hreason : s.servo.reason with
  | none =>
    unfold stepApplication reportBreak
    rw [hreason]
    exact h
  | some reason =>
    rw [stepApplication_port hreason]
    apply RecordPort.Legal.arrive
    split <;> exact h

theorem formStatus_port_legal : (formStatus s).port.Legal :=
  arrive_port_legal (s := { s with port := { s.port with lastStatus := s.k } }) h _

theorem startPort_port_legal : (startPort s).port.Legal := by
  unfold startPort
  dsimp only
  split
  · exact formStatus_port_legal h
  · exact formStatus_port_legal h

end PortLegal

/-! ## The search of the peer timer -/

/-- The search runs over slot numbers alone (R184). -/
theorem searchOrder_lt {cursor i : Nat} (h : i ∈ searchOrder cursor) : i < 24 := by
  obtain ⟨j, -, rfl⟩ := List.mem_map.1 h
  exact Nat.mod_lt _ (by decide)

theorem State.nextPeerSlot_lt {s : State} {i : Nat} (h : s.nextPeerSlot = some i) : i < 24 :=
  searchOrder_lt (List.mem_of_find?_eq_some h)

/-- An entry of the table is a slot that is not EMPTY (4.1). -/
theorem PeerTable.entry_eq_some_iff {p : PeerTable} {i : Nat} {e : PeerEntry} :
    p.entry i = some e ↔ p.slots[i]? = some (some e) := by
  unfold PeerTable.entry
  rw [List.getD_eq_getElem?_getD]
  cases p.slots[i]? with
  | none => simp
  | some slot => simp

theorem PeerTable.entry_eq_none {p : PeerTable} {i : Nat}
    (h : ∀ e, p.slots[i]? ≠ some (some e)) : p.entry i = none :=
  Option.eq_none_iff_forall_ne_some.2 fun e he => h e (PeerTable.entry_eq_some_iff.1 he)

/-- The search ends without a slot where all are EMPTY (R184). -/
theorem State.nextPeerSlot_none {s : State} (h : ∀ i < 24, s.peers.entry i = none) :
    s.nextPeerSlot = none := by
  refine List.find?_eq_none.2 fun i hi => ?_
  rw [h i (searchOrder_lt hi)]
  exact Bool.false_ne_true

/-- The search finds the nearest slot after the cursor that is not EMPTY, the cursor's own last (R184). -/
theorem State.nextPeerSlot_first {s : State} {i : Nat} {e : PeerEntry} (hpos : 1 ≤ i) (hround : i ≤ 24)
    (he : s.peers.entry ((s.port.cursor + i) % 24) = some e)
    (hempty : ∀ j, 1 ≤ j → j < i → s.peers.entry ((s.port.cursor + j) % 24) = none) :
    s.nextPeerSlot = some ((s.port.cursor + i) % 24) := by
  have hslot : ∀ j, (s.port.cursor + 1 + j) % 24 = (s.port.cursor + (j + 1)) % 24 := fun j => by
    rw [Nat.add_assoc, Nat.add_comm 1 j]
  obtain ⟨n, rfl⟩ : ∃ n, i = n + 1 := ⟨i - 1, by omega⟩
  have hfind : (List.range 24).find?
      (fun j => (s.peers.entry ((s.port.cursor + 1 + j) % 24)).isSome) = some n := by
    refine List.find?_range_eq_some.2 ⟨?_, List.mem_range.2 (by omega), fun j hj => ?_⟩
    · rw [hslot, he]; rfl
    · rw [hslot, hempty (j + 1) (by omega) (by omega)]; rfl
  calc s.nextPeerSlot
      = ((List.range 24).find?
          fun j => (s.peers.entry ((s.port.cursor + 1 + j) % 24)).isSome).map
            fun j => (s.port.cursor + 1 + j) % 24 := List.find?_map
    _ = some ((s.port.cursor + (n + 1)) % 24) := by rw [hfind, Option.map_some, hslot]

/-- With every slot EMPTY the peer timer forms no record (R184). -/
theorem peerTimer_none {s : State} (h : s.nextPeerSlot = none) :
    peerTimer s = { s with port := { s.port with lastPeer := s.k } } := by
  unfold peerTimer
  rw [h]

/-- The slot found becomes the cursor, and its PEER record arrives (R184). -/
theorem peerTimer_found {s : State} {i : Nat} {x : PeerEntry} (h : s.nextPeerSlot = some i)
    (hx : s.peers.entry i = some x) :
    peerTimer s =
      { s with
        port := ({ s.port with cursor := i, lastPeer := s.k }).arrive s.k s.ended
          (.peer (peerRecord s x)) } := by
  unfold peerTimer
  rw [h]
  dsimp only
  rw [hx]
  rfl

theorem peerTimer_port_legal {s : State} (h : s.port.Legal) : (peerTimer s).port.Legal := by
  obtain ⟨hqueue, hcursor⟩ := h
  cases hslot : s.nextPeerSlot with
  | none => rw [peerTimer_none hslot]; exact ⟨hqueue, hcursor⟩
  | some i =>
    have hfound := List.find?_some hslot
    obtain ⟨x, hx⟩ := Option.isSome_iff_exists.1 hfound
    rw [peerTimer_found hslot hx]
    exact RecordPort.Legal.arrive (p := { s.port with cursor := i, lastPeer := s.k })
      ⟨hqueue, State.nextPeerSlot_lt hslot⟩ _ _ _

/-! ## Every command keeps the port legal -/

/-- In the order of `effect_port`. -/
theorem effect_port_legal {s : State} (h : s.port.Legal) (c : Instr) : (effect c s).port.Legal := by
  rcases effect_port c s with
    he | rfl | rfl | rfl | rfl | rfl | rfl | rfl | rfl | rfl | rfl | rfl | rfl | rfl | rfl | rfl | rfl
  · rw [he]; exact h
  · exact RecordPort.afterReset_legal
  · exact RecordPort.afterReset_legal
  · simp only [effect]
    split
    · exact latchStraps_port_legal h _
    · exact h
  · exact startPort_port_legal (s := releaseBlocks s) h
  · exact stepApplication_port_legal h
  · exact strobeEdge_port_legal h
  · exact gapDeadline_port_legal h
  · exact gridPulse_port_legal h
  · exact trigInEdge_port_legal h
  · exact linkByteReceived_port_legal h
  · exact h
  · exact h
  · exact RecordPort.Legal.takeHead (p := { s.port with frame := none }) h s.k
  · exact formStatus_port_legal h
  · exact peerTimer_port_legal h
  · exact h

theorem exec_port_legal {c : Instr} {s t : State} (hs : s.port.Legal) (h : exec c s = .next t) :
    t.port.Legal := by
  rcases exec_effect h with rfl | rfl
  · exact hs
  · exact effect_port_legal hs c

/-- Settles O56: a step runs the front command, which keeps the port legal. -/
theorem recordPortKeptLegal : Obligations.RecordPortKeptLegal :=
  fun _ _ => step_keeps (P := fun s => s.port.Legal) (fun _ _ hs => hs)
    (fun _ _ _ => exec_port_legal)

/-! ## What an arriving record does to the queue -/

/-- A record of a low class is dropped early (R180). -/
theorem RecordPort.enqueue_early {p : RecordPort} {r : Record} (hcls : 4 ≤ r.cls)
    (hlen : 12 ≤ p.queue.length) : p.enqueue r = p.drop r.cls :=
  if_pos ⟨hcls, hlen⟩

/-- Past the early drop, room and the lowest class waiting decide (R181). -/
theorem RecordPort.enqueue_past {p : RecordPort} {r : Record}
    (hpast : r.cls < 4 ∨ p.queue.length < 12) :
    p.enqueue r =
      if p.queue.length < 16 then { p with queue := p.queue ++ [r] }
      else if r.cls < lowestClass p.queue then
        { p.drop (lowestClass p.queue) with
          queue := removeNewest (lowestClass p.queue) p.queue ++ [r] }
      else p.drop r.cls :=
  if_neg (by omega)

theorem RecordPort.enqueue_room {p : RecordPort} {r : Record}
    (hpast : r.cls < 4 ∨ p.queue.length < 12) (hroom : p.queue.length < 16) :
    p.enqueue r = { p with queue := p.queue ++ [r] } := by
  rw [RecordPort.enqueue_past hpast, if_pos hroom]

/-- A full queue without a lower class drops the record that arrives (R181). -/
theorem RecordPort.enqueue_full {p : RecordPort} {r : Record} (hcls : r.cls < 4)
    (hfull : 16 ≤ p.queue.length) (hlow : ∀ x ∈ p.queue, x.cls ≤ r.cls) :
    p.enqueue r = p.drop r.cls := by
  rw [RecordPort.enqueue_past (.inl hcls), if_neg (Nat.not_lt.2 hfull),
    if_neg (Nat.not_lt.2 (lowestClass_le hlow))]

/-- In a full queue the newest record of the lowest class makes room for one of a higher class (R181). -/
theorem RecordPort.enqueue_displaces {p : RecordPort} {r x : Record} {before after : List Record}
    (hcls : r.cls < 4) (hfull : 16 ≤ p.queue.length) (hqueue : p.queue = before ++ x :: after)
    (hlt : r.cls < x.cls) (hbefore : ∀ y ∈ before, y.cls ≤ x.cls)
    (hafter : ∀ y ∈ after, y.cls < x.cls) :
    p.enqueue r = { p.drop x.cls with queue := before ++ after ++ [r] } := by
  have hlowest : lowestClass p.queue = x.cls := by
    rw [hqueue]
    refine lowestClass_eq (List.mem_append_right _ List.mem_cons_self) fun y hy => ?_
    rcases List.mem_append.1 hy with hy | hy
    · exact hbefore y hy
    · rcases List.mem_cons.1 hy with rfl | hy
      · exact le_refl _
      · exact (hafter y hy).le
  have hremoved : removeNewest x.cls p.queue = before ++ after := by
    rw [hqueue]
    exact removeNewest_split (fun y hy => (hafter y hy).ne) rfl
  rw [RecordPort.enqueue_past (.inl hcls), if_neg (Nat.not_lt.2 hfull), hlowest, if_pos hlt,
    hremoved]

/-- An arrival leaves the transmitter as it is (R180, R181). -/
theorem RecordPort.enqueue_frame (r : Record) (p : RecordPort) : (p.enqueue r).frame = p.frame := by
  rw [RecordPort.enqueue_keeps]

/-! ## When a record leaves the queue -/

/-- Before the end of the configuration read the records wait (R178). -/
theorem State.arrive_before_end {s : State} (h : s.startup.endK = none) (r : Record) :
    s.arrive r = { s with port := s.port.enqueue r } := by
  unfold State.arrive State.ended RecordPort.arrive
  rw [h]
  rfl

/-- After it an IDLE transmitter takes the head on the tick of the arrival (R178). -/
theorem State.arrive_after_end {s : State} {e : Nat} (h : s.startup.endK = some e) (r : Record) :
    s.arrive r = { s with port := (s.port.enqueue r).takeHead s.time.k } := by
  unfold State.arrive State.ended RecordPort.arrive
  rw [h]
  rfl

/-- An IDLE transmitter with nothing waiting stays IDLE (R178). -/
theorem RecordPort.takeHead_empty (k : Nat) {p : RecordPort} (hf : p.frame = none)
    (hq : p.queue = []) : p.takeHead k = p := by
  have hhead : headRecord p.queue = none := by rw [hq]; rfl
  unfold RecordPort.takeHead
  rw [hf, hhead]

theorem exec_frameEnd_due {s : State} (h : s.frameEndDue = true) :
    exec .frameEnd s = .next { s with port := s.port.endFrame s.time.k } :=
  congrArg Host.Outcome.next (if_pos h)

theorem RecordPort.endFrame_empty (k : Nat) {p : RecordPort} (hq : p.queue = []) :
    p.endFrame k = { p with frame := none } :=
  RecordPort.takeHead_empty (p := { p with frame := none }) k rfl hq

theorem RecordPort.endFrame_split (k : Nat) {p : RecordPort} {before after : List Record}
    {x : Record} (hq : p.queue = before ++ x :: after) (hb : ∀ y ∈ before, x.cls < y.cls)
    (ha : ∀ y ∈ after, x.cls ≤ y.cls) :
    p.endFrame k = { p with queue := before ++ after, frame := some ⟨k, x.frame⟩ } :=
  RecordPort.takeHead_split (p := { p with frame := none }) k rfl hq hb ha

/-- Settles O57: the arrival by its class and the records waiting, the take by the transmitter's state. -/
theorem recordsQueueAndLeave : Obligations.RecordsQueueAndLeave := by
  refine ⟨fun p r => ⟨RecordPort.enqueue_early, RecordPort.enqueue_room, RecordPort.enqueue_full,
      fun _ _ _ => RecordPort.enqueue_displaces⟩,
    fun s r => ⟨fun hend => State.arrive_before_end hend r, fun e hend => ?arrives⟩,
    fun s f hframe hk => ?ends⟩
  case arrives =>
    rw [State.arrive_after_end hend]
    refine ⟨fun f hframe => ?_, fun hidle before x after hqueue hbefore hafter => ?_⟩
    · rw [RecordPort.takeHead_sending _ ((RecordPort.enqueue_frame r s.port).trans hframe)]
    · rw [RecordPort.takeHead_split _ ((RecordPort.enqueue_frame r s.port).trans hidle) hqueue
        hbefore hafter]
  case ends =>
    rw [exec_frameEnd_due (s.frameEndDue_iff.2 ⟨f, hframe, by rw [frameEndTick_eq]; exact hk⟩)]
    refine ⟨fun hempty => ?_, fun before x after hqueue hbefore hafter => ?_⟩
    · rw [RecordPort.endFrame_empty _ hempty]
    · rw [RecordPort.endFrame_split _ hqueue hbefore hafter]

/-! ## The timers and REARM -/

/-- A timer is due on each positive multiple of its period after the end of the configuration read, once
a tick (R183, R184). -/
theorem State.timerDue_of_multiple {s : State} {e n period last : Nat}
    (hend : s.startup.endK = some e) (hk : s.time.k = e + (n + 1) * period) (hpos : 0 < period)
    (hlast : last < s.time.k) : s.timerDue period last = true := by
  have hlt : e < s.time.k := hk ▸ Nat.lt_add_of_pos_right (Nat.mul_pos n.succ_pos hpos)
  have hmod : (s.time.k - e) % period = 0 := by
    rw [hk, Nat.add_sub_cancel_left, Nat.mul_mod_left]
  exact (s.timerDue_iff period last).2 ⟨e, hend, hlt, hmod, hlast⟩

theorem exec_statusTimer_due {s : State}
    (h : s.timerDue s.cfg.statusTicks s.port.lastStatus = true) :
    exec .statusTimer s = .next (formStatus s) :=
  congrArg Host.Outcome.next (if_pos h)

theorem exec_peerTimer_due {s : State} (h : s.timerDue s.cfg.markTicks s.port.lastPeer = true) :
    exec .peerTimer s = .next (peerTimer s) :=
  congrArg Host.Outcome.next (if_pos h)

theorem exec_rearmEdge_seen {s : State} (h : s.lines.edges.rearm = true) :
    exec .rearmEdge s = .next (rearmEdge s) :=
  congrArg Host.Outcome.next (if_pos h)

/-- After the end of the configuration read a STATUS record arrives at an enabled transmitter (R183). -/
theorem formStatus_eq {s : State} {e : Nat} (h : s.startup.endK = some e) :
    formStatus s =
      { s with
        port := ({ s.port with lastStatus := s.time.k }).arrive s.time.k true
          (.status (statusRecord s)) } := by
  unfold formStatus State.arrive State.ended
  rw [h]
  rfl

/-- The condition *coast beyond limit* (R123). -/
theorem State.coastBeyondLimit_iff (s : State) :
    s.coastBeyondLimit = true ↔
      s.servo.clock = .coast ∧ ∃ c, s.servo.coast = some c ∧ c.limitPassed = true := by
  unfold State.coastBeyondLimit
  cases s.servo.coast <;> simp

/-- The condition *anchor lost* (R144). -/
theorem State.anchorLost_iff (s : State) :
    s.anchorLost = true ↔ s.startup.anchorEn = true ∧ s.anchor.consistency ≠ 3 := by
  unfold State.anchorLost AnchorInput.valid
  simp

/-- Settles O58: each timer is due on its multiple; REARM keeps an alert only with its condition. -/
theorem timersReportAndRearmClears : Obligations.TimersReportAndRearmClears := by
  refine ⟨fun s e n hend hk hinterval hlast => ?status, fun s e n hend hk hlast => ?peer,
    fun s hedge => ⟨rearmEdge s, exec_rearmEdge_seen hedge, rfl, rfl, rfl, rfl, rfl, rfl, ?coast,
      ?anchor⟩⟩
  case status =>
    have hpos : 0 < s.cfg.statusTicks := Nat.mul_pos hinterval (by decide)
    rw [exec_statusTimer_due (State.timerDue_of_multiple hend hk hpos hlast), formStatus_eq hend]
    rfl
  case peer =>
    rw [exec_peerTimer_due (State.timerDue_of_multiple hend hk s.cfg.markTicks_pos hlast)]
    refine ⟨fun hempty => ?_, fun i x hpos hround hx hbetween => ?_⟩
    · rw [peerTimer_none (State.nextPeerSlot_none fun i hi =>
        PeerTable.entry_eq_none fun x => hempty i x hi)]
      rfl
    · have hentry := PeerTable.entry_eq_some_iff.2 hx
      have hslot := State.nextPeerSlot_first hpos hround hentry fun j hj hji =>
        PeerTable.entry_eq_none fun y => hbetween j y hj hji
      rw [peerTimer_found hslot hentry, State.ended, hend]
      rfl
  case coast =>
    rw [← s.coastBeyondLimit_iff]
    exact Bool.and_eq_true_iff
  case anchor =>
    rw [← s.anchorLost_iff]
    exact Bool.and_eq_true_iff

end Sys2Proof.Machine

namespace Sys2Proof.Machine

/-! # The queue -/

theorem step_of_cons {s : State} {c : Instr} {q : List Instr} (h : s.pending = c :: q) :
    step s = exec c { s with pending := q } := by
  unfold step; rw [h]; rfl

theorem step_of_nil {s : State} (h : s.pending = []) : step s = .next s := by
  unfold step; rw [h]

/-- Settles O1: a step reads the queue once. -/
theorem stepTakesTheFrontCommand : Obligations.StepTakesTheFrontCommand :=
  ⟨fun _ _ _ h => step_of_cons h, fun _ h => step_of_nil h⟩

theorem exec_pending {c : Instr} {s t : State} (h : exec c s = .next t) : t.pending = s.pending := by
  rcases exec_effect h with rfl | rfl
  · rfl
  · exact effect_pending c s

/-- Settles O3: a command answers the state itself or its effect, and no effect touches the queue. -/
theorem commandsLeaveTheQueue : Obligations.CommandsLeaveTheQueue :=
  fun _ _ _ h => exec_pending h

end Sys2Proof.Machine

namespace Sys2Proof.Machine

/-! # The body of a mark -/

/-! ## Fields of bytes put together -/

theorem field_append_right {a b : List Byte} {i n : Nat} (h : a.length ≤ i) :
    field (a ++ b) i n = field b (i - a.length) n := by
  unfold field; rw [List.drop_append, List.drop_eq_nil_of_le h, List.nil_append]

theorem field_append_self {a b : List Byte} {n : Nat} (h : a.length = n) :
    field (a ++ b) 0 n = beNat a := by
  unfold field; rw [List.drop_zero, List.take_left' h]

theorem field_self {a : List Byte} {n : Nat} (h : a.length = n) : field a 0 n = beNat a := by
  unfold field; rw [List.drop_zero, List.take_of_length_le h.le]

/-- A byte is its field of one byte. -/
theorem getD_eq_field (b : List Byte) (i : Nat) : b.getD i 0 = BitVec.ofNat 8 (field b i 1) := by
  rw [field_one, BitVec.ofNat_toNat, BitVec.setWidth_eq]

/-- Items of `n` bytes each, laid end to end after other bytes, are read back one by one. -/
theorem map_range_read {α : Type} {bytes : α → List Byte} {n : Nat}
    (hlen : ∀ x, (bytes x).length = n) {read : List Byte → Nat → α} {Fits : α → Prop}
    (hread : ∀ pre x post, Fits x → read (pre ++ (bytes x ++ post)) pre.length = x)
    (pre post : List Byte) {l : List α} (hl : ∀ x ∈ l, Fits x) :
    (List.range l.length).map (fun i => read (pre ++ (l.flatMap bytes ++ post)) (pre.length + n * i)) =
      l := by
  induction l generalizing pre with
  | nil => rfl
  | cons x l ih =>
    have hrest := ih (pre ++ bytes x) fun y hy => hl y (List.mem_cons_of_mem x hy)
    have hplace : ∀ i, (pre ++ bytes x).length + n * i = pre.length + n * (i + 1) := fun i => by
      rw [List.length_append, hlen, Nat.mul_succ]; omega
    rw [List.length_cons, List.range_succ_eq_map, List.map_cons, List.map_map, List.flatMap_cons,
      List.append_assoc, Nat.mul_zero, Nat.add_zero, hread _ _ _ (hl x List.mem_cons_self)]
    simp only [hplace, List.append_assoc] at hrest
    exact congrArg (x :: ·) hrest

/-! ## The items -/

theorem beNat_beBytes_of_lt {n v : Nat} (h : v < 256 ^ n) : beNat (beBytes n v) = v := by
  rw [beNat_beBytes, Nat.mod_eq_of_lt h]

theorem ofNat_beNat_beBytes (b : Byte) : BitVec.ofNat 8 (beNat (beBytes 1 b.toNat)) = b := by
  rw [beNat_beBytes_of_lt b.isLt, BitVec.ofNat_toNat, BitVec.setWidth_eq]

theorem timeField_timeBytes {t : Stamp} (h : t.Fits) {pre : List Byte} {i : Nat}
    (hi : pre.length = i) (post : List Byte) : timeField (pre ++ (timeBytes t ++ post)) i = t := by
  obtain ⟨hsecs, hns⟩ := h
  have hfields : timeField (pre ++ (timeBytes t ++ post)) i =
      ⟨beNat (beBytes 5 t.secs), beNat (beBytes 4 t.ns)⟩ := by
    simp [timeField, timeBytes, field_append_right, field_append_self, beBytes_length, ← hi]
  rw [hfields, beNat_beBytes_of_lt hsecs, beNat_beBytes_of_lt hns]

theorem EchoItem.bytes_length (e : EchoItem) : e.bytes.length = 8 := by
  simp [EchoItem.bytes, beBytes_length]

theorem NoticeItem.bytes_length (n : NoticeItem) : n.bytes.length = 10 := by
  simp [NoticeItem.bytes, beBytes_length, timeBytes_length]

/-- The echo item at position `o` of a body (R196). -/
def EchoItem.read (b : List Byte) (o : Nat) : EchoItem where
  station := field b o 1
  seq := b.getD (o + 1) 0
  hold := field b (o + 2) 6

/-- The notice item at position `o` of a body (R196). -/
def NoticeItem.read (b : List Byte) (o : Nat) : NoticeItem where
  seq := b.getD o 0
  time := timeField b (o + 1)

theorem EchoItem.read_bytes (pre : List Byte) (e : EchoItem) (post : List Byte) (h : e.Fits) :
    EchoItem.read (pre ++ (e.bytes ++ post)) pre.length = e := by
  obtain ⟨hstation, hhold⟩ := h
  have hfields : EchoItem.read (pre ++ (e.bytes ++ post)) pre.length =
      ⟨beNat (beBytes 1 e.station), BitVec.ofNat 8 (beNat (beBytes 1 e.seq.toNat)),
        beNat (beBytes 6 e.hold)⟩ := by
    unfold EchoItem.read
    rw [getD_eq_field]
    simp [EchoItem.bytes, field_append_right, field_append_self, beBytes_length]
  rw [hfields, beNat_beBytes_of_lt hstation, ofNat_beNat_beBytes, beNat_beBytes_of_lt hhold]

theorem NoticeItem.read_bytes (pre : List Byte) (n : NoticeItem) (post : List Byte)
    (h : n.time.Fits) : NoticeItem.read (pre ++ (n.bytes ++ post)) pre.length = n := by
  have hplace : (pre ++ beBytes 1 n.seq.toNat).length = pre.length + 1 := by
    rw [List.length_append, beBytes_length]
  have htime := timeField_timeBytes h hplace post
  unfold NoticeItem.read NoticeItem.bytes
  rw [getD_eq_field, List.append_assoc, field_append_right (Nat.le_refl _), Nat.sub_self,
    field_append_self (beBytes_length _ _), ofNat_beNat_beBytes, ← List.append_assoc, htime]

/-! ## The whole body -/

/-- The bytes of a mark's body before its items (R196). -/
def Mark.header (m : Mark) : List Byte :=
  beBytes 1 (m.version * 16 + m.kind) ++ beBytes 1 m.station ++ beBytes 1 m.seq.toNat ++
  timeBytes m.time ++ beBytes 3 m.uCode ++ beBytes 1 (m.depth * 16 + m.clock) ++
  beBytes 1 (m.echoes.length * 16 + m.notices.length)

theorem Mark.header_length (m : Mark) : m.header.length = 17 := by
  simp [Mark.header, beBytes_length, timeBytes_length]

theorem Mark.covered_split (m : Mark) :
    m.covered = m.header ++ (m.echoes.flatMap EchoItem.bytes ++ m.notices.flatMap NoticeItem.bytes) := by
  simp only [Mark.covered, Mark.header, List.append_assoc]

theorem Mark.body_split (m : Mark) :
    m.body = m.header ++ (m.echoes.flatMap EchoItem.bytes ++
      (m.notices.flatMap NoticeItem.bytes ++ beBytes 2 (crc16 m.covered).toNat)) := by
  simp only [Mark.body, m.covered_split, List.append_assoc]

theorem Mark.covered_length (m : Mark) :
    m.covered.length = 17 + 8 * m.echoes.length + 10 * m.notices.length := by
  rw [m.covered_split]
  simp only [List.length_append, m.header_length, flatMap_length EchoItem.bytes_length,
    flatMap_length NoticeItem.bytes_length]
  omega

theorem Mark.body_length (m : Mark) :
    m.body.length = 19 + 8 * m.echoes.length + 10 * m.notices.length := by
  unfold Mark.body
  rw [List.length_append, m.covered_length, beBytes_length]
  omega

/-- The fields before the items, each read back at its place in the body (R196). -/
theorem Mark.read_header {m : Mark} (h : m.Fits) :
    field m.body 0 1 = m.version * 16 + m.kind ∧ field m.body 1 1 = m.station ∧
    m.body.getD 2 0 = m.seq ∧ timeField m.body 3 = m.time ∧ field m.body 12 3 = m.uCode ∧
    field m.body 15 1 = m.depth * 16 + m.clock ∧
    field m.body 16 1 = m.echoes.length * 16 + m.notices.length := by
  obtain ⟨hversion, hkind, hstation, htime, hu, hdepth, hclock, hechoes, hnotices, -, -⟩ := h
  have hread := timeField_timeBytes htime (pre := beBytes 1 (m.version * 16 + m.kind) ++
    beBytes 1 m.station ++ beBytes 1 m.seq.toNat) (i := 3) (by simp [beBytes_length])
  rw [getD_eq_field, m.body_split]
  generalize m.echoes.flatMap EchoItem.bytes ++ _ = items
  simp only [Mark.header, List.append_assoc] at hread ⊢
  simp only [hread, field_append_right, field_append_self, beBytes_length, timeBytes_length,
    ofNat_beNat_beBytes, Nat.le_refl, Nat.reduceLeDiff, Nat.reduceSub]
  refine ⟨beNat_beBytes_of_lt ?_, beNat_beBytes_of_lt hstation, trivial, trivial,
    beNat_beBytes_of_lt hu, beNat_beBytes_of_lt ?_, beNat_beBytes_of_lt ?_⟩ <;> omega

/-- Sixteens and units of a byte that holds two codes. -/
theorem codes_of_byte {hi lo : Nat} (h : lo < 16) :
    (hi * 16 + lo) / 16 = hi ∧ (hi * 16 + lo) % 16 = lo := by omega

theorem Mark.counts_body {m : Mark} (h : m.Fits) :
    echoCount m.body = m.echoes.length ∧ noticeCount m.body = m.notices.length := by
  obtain ⟨-, -, -, -, -, -, hcounts⟩ := Mark.read_header h
  obtain ⟨-, -, -, -, -, -, -, -, hnotices, -, -⟩ := h
  unfold echoCount noticeCount
  rw [hcounts]
  exact codes_of_byte (by omega)

theorem Mark.read_echoes {m : Mark} (h : m.Fits) :
    (List.range m.echoes.length).map (fun i => EchoItem.read m.body (17 + 8 * i)) = m.echoes := by
  obtain ⟨-, -, -, -, -, -, -, -, -, hechoes, -⟩ := h
  have hread := map_range_read EchoItem.bytes_length EchoItem.read_bytes m.header
    (m.notices.flatMap NoticeItem.bytes ++ beBytes 2 (crc16 m.covered).toNat) hechoes
  rwa [m.header_length, ← m.body_split] at hread

theorem Mark.read_notices {m : Mark} (h : m.Fits) :
    (List.range m.notices.length).map
      (fun i => NoticeItem.read m.body (17 + 8 * m.echoes.length + 10 * i)) = m.notices := by
  obtain ⟨-, -, -, -, -, -, -, -, -, -, hnotices⟩ := h
  have hread := map_range_read NoticeItem.bytes_length NoticeItem.read_bytes
    (m.header ++ m.echoes.flatMap EchoItem.bytes) (beBytes 2 (crc16 m.covered).toNat) hnotices
  rwa [List.length_append, m.header_length, flatMap_length EchoItem.bytes_length, List.append_assoc,
    ← m.body_split] at hread

theorem Mark.ofBody_body {m : Mark} (h : m.Fits) : Mark.ofBody m.body = m := by
  obtain ⟨hechoCount, hnoticeCount⟩ := Mark.counts_body h
  obtain ⟨hbyte0, hstation, hseq, htime, hu, hbyte15, -⟩ := Mark.read_header h
  have hechoes := Mark.read_echoes h
  have hnotices := Mark.read_notices h
  unfold EchoItem.read at hechoes
  unfold NoticeItem.read at hnotices
  obtain ⟨-, hkind, -, -, -, -, hclock, -, -, -, -⟩ := h
  obtain ⟨hversion', hkind'⟩ := codes_of_byte (hi := m.version) hkind
  obtain ⟨hdepth', hclock'⟩ := codes_of_byte (hi := m.depth) hclock
  unfold Mark.ofBody
  rw [hechoCount, hnoticeCount, hbyte0, hstation, hseq, htime, hu, hbyte15, hversion', hkind', hdepth',
    hclock', hechoes, hnotices]

theorem Mark.bodyCrcAgrees_body (m : Mark) : bodyCrcAgrees m.body = true := by
  have hlen : m.body.length - 2 = m.covered.length := by
    unfold Mark.body; rw [List.length_append, beBytes_length, Nat.add_sub_cancel]
  unfold bodyCrcAgrees
  rw [hlen, decide_eq_true_eq]
  unfold Mark.body
  rw [List.take_left, field_append_right (Nat.le_refl _), Nat.sub_self,
    field_self (beBytes_length _ _), beNat_beBytes_of_lt (crc16 m.covered).isLt]

theorem EchoItem.bytes_eq (e : EchoItem) :
    e.bytes = [BitVec.ofNat 8 e.station, e.seq] ++ bigEndian 6 e.hold := by
  unfold EchoItem.bytes
  rw [beBytes_eq, beBytes_eq, beBytes_eq, bigEndian_one, bigEndian_one, BitVec.ofNat_toNat,
    BitVec.setWidth_eq]
  rfl

theorem NoticeItem.bytes_eq (n : NoticeItem) :
    n.bytes = [n.seq] ++ bigEndian 5 n.time.secs ++ bigEndian 4 n.time.ns := by
  unfold NoticeItem.bytes
  rw [beBytes_eq, bigEndian_one, timeBytes_eq, BitVec.ofNat_toNat, BitVec.setWidth_eq,
    List.append_assoc]

/-- Settles O34: the layout piece by piece, and each piece read back at its place. -/
theorem markBodyRoundTrip : Obligations.MarkBodyRoundTrip := by
  intro m hfits covered
  have hcovered : m.covered = covered := by
    simp [covered, Mark.covered, funext EchoItem.bytes_eq, funext NoticeItem.bytes_eq, timeBytes_eq,
      beBytes_eq, bigEndian_one, Nat.mul_comm]
  obtain ⟨hechoes, hnotices⟩ := Mark.counts_body hfits
  refine ⟨?_, Mark.ofBody_body hfits, m.body_length, m.bodyCrcAgrees_body, hechoes, hnotices⟩
  rw [← hcovered, ← beBytes_eq]
  rfl

end Sys2Proof.Machine

namespace Sys2Proof.Machine

/-! # Start-up: the straps, the configuration read and its end -/

/-! ## STRAP_SAMPLING -/

theorem exec_strapSampling_first {s : State} {pins : Pins} (hlevels : s.lines.levels = some pins)
    (hk : s.time.k = 1) (hfirst : s.startup.strapped = false) :
    exec .strapSampling s = .next (latchStraps pins s) := by
  change execStrapSampling s = _
  unfold execStrapSampling
  rw [hlevels]
  exact congrArg Host.Outcome.next (if_pos ⟨hk, hfirst⟩)

theorem exec_strapSampling_again {s : State} (h : s.startup.strapped = true) :
    exec .strapSampling s = .next s := by
  change execStrapSampling s = _
  unfold execStrapSampling
  rw [h]
  cases s.lines.levels <;> simp

theorem badStation_iff (station : BitVec 6) :
    badStation station = true ↔ station = 0 ∨ station = 63 := decide_eq_true_iff

/-- The part with the straps handed out, before the strapped number is judged (R42, R146, R187). -/
def strapsHandedOut (pins : Pins) (s : State) : State :=
  { s with
    startup := s.startup.latchStraps pins
    link := { s.link with lfsr := lfsrSeed pins.station.toNat }
    align := { s.align with cmdLowFrom := s.k } }

theorem latchStraps_station {pins : Pins} (h0 : pins.station ≠ 0) (h63 : pins.station ≠ 63) (s : State) :
    latchStraps pins s = strapsHandedOut pins s :=
  if_neg fun h => ((badStation_iff _).1 h).elim h0 h63

theorem latchStraps_badStation {pins : Pins} (h : pins.station = 0 ∨ pins.station = 63) (s : State) :
    latchStraps pins s = (strapsHandedOut pins s).enterMuted :=
  if_pos ((badStation_iff _).2 h)

theorem enterMuted_lfsr (s : State) : s.enterMuted.link.lfsr = s.link.lfsr := by
  unfold State.enterMuted; split <;> rfl

theorem latchStraps_lfsr (pins : Pins) (s : State) :
    (latchStraps pins s).link.lfsr = lfsrSeed pins.station.toNat := by
  by_cases h : pins.station = 0 ∨ pins.station = 63
  · rw [latchStraps_badStation h, enterMuted_lfsr]; rfl
  · obtain ⟨h0, h63⟩ := not_or.1 h
    rw [latchStraps_station h0 h63]; rfl

/-- Settles O15: the straps are handed out once, and a bad number enters MUTED. -/
theorem strapSamplingLatchesStraps : Obligations.StrapSamplingLatchesStraps := by
  refine ⟨fun s pins hlevels hk hfirst => ⟨latchStraps pins s, (latchStraps pins s).link,
    (latchStraps pins s).port, exec_strapSampling_first hlevels hk hfirst,
    latchStraps_touches pins s, latchStraps_lfsr pins s, fun h0 h63 => ?station,
    fun hbad hmuted => ?bad⟩, fun s h => exec_strapSampling_again h⟩
  case station => rw [latchStraps_station h0 h63]; exact ⟨rfl, rfl⟩
  case bad =>
    rw [latchStraps_badStation hbad, State.enterMuted_entered (s := strapsHandedOut pins s) hmuted]
    exact ⟨rfl, rfl⟩

/-! ## The configuration values -/

theorem State.missingAckDue_iff (s : State) :
    s.missingAckDue = true ↔
      ackTick s.time.k = true ∧ s.startup.abandoned = none ∧
        ∃ pins, s.lines.levels = some pins ∧ pins.cfgSda = true := by
  unfold State.missingAckDue State.k
  cases s.lines.levels <;> simp [and_assoc]

theorem exec_missingAcknowledge_due {s : State} (h : s.missingAckDue = true) :
    exec .missingAcknowledge s =
      .next { s with startup := { s.startup with abandoned := some s.time.k } } :=
  congrArg Host.Outcome.next (if_pos h)

theorem busSlot_at (n : Nat) {o : Nat} (ho : o < 200) : busSlot (40000 + 200 * n + o) = n := by
  unfold busSlot; omega

theorem busOffset_at (n : Nat) {o : Nat} (ho : o < 200) : busOffset (40000 + 200 * n + o) = o := by
  unfold busOffset; omega

theorem ackTick_at {slot : Nat} (h : slot = 11 ∨ slot = 20 ∨ slot = 30) :
    ackTick (40000 + 200 * slot + 100) = true := by
  unfold ackTick
  rw [busSlot_at slot (by omega), busOffset_at slot (by omega), decide_eq_true_eq]
  exact ⟨by omega, rfl, h⟩

theorem exec_configSettle_due {s : State} (h : s.settleDue = true) :
    exec .configSettle s = .next { s with startup := s.startup.settle } :=
  congrArg Host.Outcome.next (if_pos h)

/-- A block passes with all its bits read, its CRC-8 right and layout version 1 (R190). -/
theorem blockPasses_iff (bits : List Bool) :
    blockPasses bits = true ↔
      bits.length = 192 ∧
      crc8 ((blockBytes bits).take 23) = (blockBytes bits).getD 23 0 ∧
      (blockBytes bits).getD 0 0 = 1 := by
  have hversion : field (blockBytes bits) 0 1 = 1 ↔ (blockBytes bits).getD 0 0 = 1 := by
    rw [field_one]
    exact BitVec.toNat_inj (y := 1)
  unfold blockPasses
  rw [Bool.and_eq_true, Bool.and_eq_true, decide_eq_true_eq, decide_eq_true_eq, decide_eq_true_eq,
    hversion, and_assoc]

theorem Startup.settle_defaults {u : Startup}
    (h : ¬ (u.abandoned = none ∧ blockPasses u.bits = true)) :
    u.settle =
      { u with settled := true, settings := Settings.defaults, defaulted := true, clamped := false } :=
  if_neg h

theorem Startup.settle_read {u : Startup} (ha : u.abandoned = none) (h : blockPasses u.bits = true) :
    u.settle =
      { u with
        settled := true, settings := (Settings.ofBlock (blockBytes u.bits)).clamp, defaulted := false
        clamped := decide ((Settings.ofBlock (blockBytes u.bits)).clamp ≠
          Settings.ofBlock (blockBytes u.bits)) } :=
  if_pos ⟨ha, h⟩

/-- Every field between the limits of 12.3; a code's lower limit is 0 (R191). -/
theorem Settings.clamp_eq (c : Settings) :
    c.clamp =
      ⟨min 4 c.markCode, min 2 c.linkCode, min 8 c.sampleCode, min 2 c.recordCode,
        max 4 (min 12 c.blockExp), max 2 (min 6 c.gain), max 2 (min 50 c.keyLead),
        max 2 (min 16 c.kc), max 1 (min 60 c.window), max 1 (min 1000 c.growth),
        max 15 (min 1440 c.coastLimit), max 100 (min 65000 c.originFloor),
        max 10 (min 1000 c.holdOff), max 100 (min 100000 c.stepLimit),
        max 10 (min 2000 c.delayLimit), max 4 (min 3600 c.statusInterval)⟩ := by
  simp only [Settings.clamp, clampRange, Nat.zero_max]

/-! ## The bus lines -/

theorem busLines_before {s : State} (h : s.time.k < 20000) : s.busLines = busReleased := if_pos h

theorem busLines_cleared {s : State} (hlo : 20000 ≤ s.time.k) (hhi : s.time.k < 21800) :
    s.busLines = clockSlot true ((s.time.k - 20000) % 200) :=
  (if_neg (Nat.not_lt.2 hlo)).trans (if_pos hhi)

theorem busLines_rest {s : State} (hlo : 21800 ≤ s.time.k) (hhi : s.time.k < 40000) :
    s.busLines = busReleased := by
  unfold State.busLines State.k
  rw [if_neg (by omega), if_neg (by omega), if_pos hhi]

theorem busLines_after {s : State} (h : 90000 ≤ s.time.k) : s.busLines = busReleased := by
  have hend : Config.readEndK ≤ s.time.k := h
  unfold State.busLines State.k
  rw [if_neg (by omega), if_neg (by omega), if_neg (by omega), if_pos hend]

section Read

variable {s : State} {n o : Nat} (hn : n < 250) (ho : o < 200) (hk : s.time.k = 40000 + 200 * n + o)
include hn ho hk

/-- The read goes on up to the slot of a missing acknowledge (R189). -/
theorem busLines_reading (h : ∀ a, s.startup.abandoned = some a → n ≤ busSlot a) :
    s.busLines = readSlot n o := by
  have hend : ¬ Config.readEndK ≤ s.time.k := by unfold Config.readEndK; omega
  unfold State.busLines State.k
  rw [if_neg (by omega), if_neg (by omega), if_neg (by omega), if_neg hend, hk, busSlot_at n ho,
    busOffset_at n ho]
  cases ha : s.startup.abandoned with
  | none => rfl
  | some a => exact if_pos (h a ha)

/-- After the slot of a missing acknowledge come a stop slot and rest (R189). -/
theorem busLines_abandoned {a : Nat} (ha : s.startup.abandoned = some a) (h : busSlot a < n) :
    s.busLines = if n = busSlot a + 1 then stopSlot o else busReleased := by
  have hend : ¬ Config.readEndK ≤ s.time.k := by unfold Config.readEndK; omega
  unfold State.busLines State.k
  rw [if_neg (by omega), if_neg (by omega), if_neg (by omega), if_neg hend, hk, busSlot_at n ho,
    busOffset_at n ho, ha]
  exact if_neg (Nat.not_le.2 h)

end Read

/-! ### The slots of the read -/

theorem readSlot_rest {n : Nat} (h : n < 2 ∨ 248 ≤ n) (o : Nat) : readSlot n o = busReleased := by
  unfold readSlot
  rcases h with h | h
  · exact if_pos h
  · simp (disch := omega) only [if_neg]

theorem readSlot_start (o : Nat) : readSlot 2 o = ⟨decide (o < 150), decide (o < 100)⟩ := by
  have hscl : (if o < 50 then true else decide (o < 150)) = decide (o < 150) := by
    split
    case isTrue h => exact (decide_eq_true (by omega)).symm
    case isFalse => rfl
  exact congrArg (BusLines.mk · _) hscl

theorem readSlot_restart (o : Nat) :
    readSlot 21 o = ⟨decide (50 ≤ o ∧ o < 150), decide (o < 100)⟩ := by
  have hscl : (if o < 50 then false else decide (o < 150)) = decide (50 ≤ o ∧ o < 150) := by
    split
    case isTrue h => exact (decide_eq_false (by omega)).symm
    case isFalse h => exact decide_eq_decide.2 (by omega)
  exact congrArg (BusLines.mk · _) hscl

theorem readSlot_stop (o : Nat) : readSlot 247 o = stopSlot o := rfl

theorem addressBit_eq (b : Byte) {i : Nat} (h : i < 8) : addressBit b i = b.getLsbD (7 - i) := by
  unfold addressBit bitsMsb
  interval_cases i <;> rfl

/-- The bits of an addressing byte, and its acknowledge slot (R189). -/
theorem readSlot_address {i : Nat} (h : i ≤ 8) (o : Nat) :
    readSlot (3 + i) o = clockSlot (addressBit 0xA0 i) o ∧
    readSlot (12 + i) o = clockSlot (addressBit 0x00 i) o ∧
    readSlot (22 + i) o = clockSlot (addressBit 0xA1 i) o := by
  unfold readSlot
  simp (disch := omega) only [if_neg, if_pos, Nat.add_sub_cancel_left, and_self]

/-- A data byte's slots, the last byte left without acknowledge (R189). -/
theorem readSlot_data {i j : Nat} (hi : i < 24) (hj : j < 9) (o : Nat) :
    readSlot (31 + 9 * i + j) o = clockSlot (decide (j < 8 ∨ i = 23)) o := by
  have hbit : ((31 + 9 * i + j - 31) % 9 < 8 ∨ 31 + 9 * i + j = 246) ↔ (j < 8 ∨ i = 23) := by omega
  unfold readSlot
  simp (disch := omega) only [if_neg, if_pos, hbit]

/-- Settles O16: the acknowledge slots, the two outcomes of the settling, and the lines slot by slot. -/
theorem configurationSettles : Obligations.ConfigurationSettles := by
  refine ⟨fun s pins slot hlevels hsda hrunning hslot hk => ?ack, fun s hopen h => ?defaults,
    fun s => ⟨fun h => ?rest, fun i o hi ho hk => ?clear, fun n o hn ho hk => ?timeline⟩,
    fun s hopen hrun hk hlen hcrc hversion => ?values⟩
  case ack =>
    exact exec_missingAcknowledge_due
      (s.missingAckDue_iff.2 ⟨hk ▸ ackTick_at hslot, hrunning, pins, hlevels, hsda⟩)
  case defaults =>
    have hdue := s.settleDue_iff.2 ⟨hopen, h.imp_right fun ⟨hrun, hk, _⟩ => ⟨hrun, hk⟩⟩
    have hfails : ¬ (s.startup.abandoned = none ∧ blockPasses s.startup.bits = true) := by
      rintro ⟨hrun, hpasses⟩
      rcases h with ⟨a, ha, -⟩ | ⟨-, -, hbad⟩
      · exact Option.some_ne_none a (ha.symm.trans hrun)
      · exact hbad ((blockPasses_iff _).1 hpasses)
    rw [exec_configSettle_due hdue, Startup.settle_defaults hfails]
    rfl
  case rest =>
    rcases h with h | ⟨hlo, hhi⟩ | h
    · exact busLines_before h
    · exact busLines_rest hlo hhi
    · exact busLines_after h
  case clear =>
    rw [busLines_cleared (by omega) (by omega), show (s.time.k - 20000) % 200 = o by omega]
    rfl
  case timeline =>
    intro clocked stop
    refine ⟨fun ha => ?_, fun a ha => ⟨fun h => ?_, fun h => ?_⟩⟩
    · rw [busLines_reading hn ho hk ha]
      refine ⟨fun h => readSlot_rest h o, fun h => h ▸ readSlot_start o, fun h => h ▸ readSlot_restart o,
        fun i hi => ?_, fun h => ?_, fun i j hi hj h => h ▸ readSlot_data hi hj o, fun h => h ▸ rfl⟩
      · obtain ⟨hwrite, hword, hread⟩ := readSlot_address (by omega : i ≤ 8) o
        simp only [addressBit_eq _ hi] at hwrite hword hread
        exact ⟨fun h => h ▸ hwrite, fun h => h ▸ hword, fun h => h ▸ hread⟩
      · obtain ⟨hwrite, hword, hread⟩ := readSlot_address (Nat.le_refl 8) o
        rcases h with rfl | rfl | rfl
        exacts [hwrite, hword, hread]
    · rw [busLines_abandoned hn ho hk ha (h ▸ Nat.lt_succ_self _)]
      exact if_pos h
    · rw [busLines_abandoned hn ho hk ha (Nat.lt_of_succ_lt h)]
      exact if_neg (Nat.ne_of_gt h)
  case values =>
    intro num read held
    have hdue := s.settleDue_iff.2 ⟨hopen, .inr ⟨hrun, hk⟩⟩
    have hpasses := (blockPasses_iff _).2 ⟨hlen, hcrc, hversion⟩
    have hheld : (Settings.ofBlock (blockBytes s.startup.bits)).clamp = held := Settings.clamp_eq _
    rw [exec_configSettle_due hdue, Startup.settle_read hrun hpasses, hheld]
    rfl

/-! ## CONFIG_READ_END -/

theorem exec_configReadEnd_due {s : State} (h : s.readEndDue = true) :
    exec .configReadEnd s = .next (startPort (releaseBlocks s)) :=
  congrArg Host.Outcome.next (if_pos h)

theorem TimeVal.units_ofNs {n : Nat} (h : n < 2 ^ 40 * 10 ^ 9) : (TimeVal.ofNs n).units = n * 2 ^ 32 := by
  have hrange : n * Config.unitsPerNs < Config.timeRange := by
    unfold Config.timeRange Config.secondsRange Config.nsPerSecond Config.unitsPerNs
    omega
  unfold TimeVal.ofNs
  rw [TimeVal.units_ofUnits, Nat.mod_eq_of_lt hrange]
  rfl

/-- The first grid instant lies on the grid, past T and within a period of it (R153). -/
theorem firstGridInstant_spec {p : Nat} (hp : 0 < p) {t : TimeVal}
    (ht : t.units + p * 2 ^ 32 < 2 ^ 40 * 10 ^ 9 * 2 ^ 32) :
    (firstGridInstant p t).frac = 0 ∧ p ∣ (firstGridInstant p t).nsCount ∧
    t.units < (firstGridInstant p t).units ∧
    (firstGridInstant p t).units ≤ t.units + p * 2 ^ 32 := by
  have hunits : t.units = t.nsCount * 2 ^ 32 + t.frac.val := rfl
  have hfrac := t.frac.isLt
  have hpast : t.nsCount < (t.nsCount / p + 1) * p := Nat.lt_mul_of_div_lt (Nat.lt_succ_self _) hp
  have hnear : (t.nsCount / p + 1) * p ≤ t.nsCount + p := by
    rw [Nat.succ_mul]; exact Nat.add_le_add_right (Nat.div_mul_le_self _ _) p
  have hrange : (t.nsCount / p + 1) * p < 2 ^ 40 * 10 ^ 9 := by omega
  refine ⟨TimeVal.frac_ofNs _, ?_, ?_⟩
  · unfold firstGridInstant
    rw [TimeVal.nsCount_ofNs, Nat.mod_eq_of_lt hrange]
    exact Nat.dvd_mul_left p _
  · unfold firstGridInstant
    rw [TimeVal.units_ofNs hrange]
    omega

/-- The alerts with CONFIG set where a config flag is (R185, R192). -/
def State.configAlerts (s : State) : Alerts :=
  { s.port.alerts with config := s.port.alerts.config || s.startup.defaulted || s.startup.clamped }

/-- The part with CONFIG decided and the peer timer started, before the first STATUS record (R184,
R192). -/
def portStarted (s : State) : State :=
  { s with port := { s.port with alerts := s.configAlerts, lastPeer := s.time.k } }

theorem configAlerts_flagged {s : State} (h : (s.startup.defaulted || s.startup.clamped) = true) :
    s.configAlerts = s.port.alerts.set .config := by
  unfold State.configAlerts; rw [Bool.or_assoc, h, Bool.or_true]; rfl

theorem configAlerts_unflagged {s : State} (h : (s.startup.defaulted || s.startup.clamped) = false) :
    s.configAlerts = s.port.alerts := by
  unfold State.configAlerts; rw [Bool.or_assoc, h, Bool.or_false]

theorem startPort_eq (s : State) : startPort s = formStatus (portStarted s) := by
  unfold startPort portStarted
  cases h : s.startup.defaulted || s.startup.clamped with
  | true => rw [configAlerts_flagged h]; rfl
  | false => rw [configAlerts_unflagged h]; rfl

/-- Settles O17: the blocks are released, then the port starts with the first STATUS record. -/
theorem configReadEndStartsBlocks : Obligations.ConfigReadEndStartsBlocks := by
  intro s hsettled hopen hk
  have hdue := s.readEndDue_iff.2 ⟨hsettled, hopen, hk⟩
  have hnext : exec .configReadEnd s = .next (formStatus (portStarted (releaseBlocks s))) := by
    rw [exec_configReadEnd_due hdue, startPort_eq]
  refine ⟨_, s.configAlerts, statusRecord (portStarted (releaseBlocks s)), hnext,
    formStatus_eq (s := portStarted (releaseBlocks s)) rfl, rfl, rfl, fun hfollow => ?_,
    fun hgen hrange => ?_⟩
  · exact if_neg (hfollow ▸ Bool.false_ne_true)
  · exact ⟨firstGridInstant s.cfg.period s.nowT, if_pos hgen,
      firstGridInstant_spec s.cfg.period_pos hrange⟩

end Sys2Proof.Machine
